-- ==== Sys2Proof/Word.lean ====
section
/-! DEFINITION. The word types of the walker: 64-bit values and bytes (00_scope.md R7, R9). -/

namespace Sys2Proof

/-- A 64-bit register or address value (00_scope.md R7, `XLEN`). -/
abbrev Word := BitVec 64

/-- One byte of physical memory (20_memory.md R51). -/
abbrev Byte := BitVec 8

/-- The 32-bit command word written to `CMD` (30_encoding.md R86). -/
abbrev CommandWord := BitVec 32

end Sys2Proof
end

