-- ==== Sys2Proof/Config.lean ====
section
/-! DEFINITION. What an implementation fixes: the constants of 00_scope.md R7 and R11, and the open
parameters that are free values of the model. -/

namespace Sys2Proof.Config

/-- Bytes of the physical address space, 2^52 (00_scope.md R7 `PA_BITS`, 20_memory.md R51). -/
abbrev physicalBytes : Nat := 2 ^ 52

/-- Entries of one table (00_scope.md R7 `ENTRIES`). -/
abbrev tableEntries : Nat := 512

/-- Bytes of one entry, the width of every walker access (00_scope.md R7, 20_memory.md R54). -/
abbrev entryBytes : Nat := 8

/-- Bytes of one table, one 4 KiB frame (00_scope.md R7 `TABLE_BYTES`). -/
abbrev tableBytes : Nat := 4096

/-- The level of the root table (00_scope.md R12). -/
abbrev topLevel : Nat := 4

/-- `ADDR_MASK`, bits 51:12 of an entry (00_scope.md R11). -/
abbrev addrMask : Word := 0x000FFFFFFFFFF000#64

/-- `FLAG_MASK`, bits 11:0 and 63:52 of an entry (00_scope.md R11). -/
abbrev flagMask : Word := 0xFFF0000000000FFF#64

/-- `REG_BASE`, where the platform places the register window (00_scope.md R8, 10_state.md R30).
OPEN: a free value (log entry 12). -/
opaque regBase : Word

/-- The bus address of a slot of the register window (10_state.md R30: slots of 8 bytes). -/
def slotAddress (slot : BitVec 4) : Word := regBase + 8#64 * slot.setWidth 64

/-- The allocator's answers once the listed ones are used up, by the number of the call
(20_memory.md R63: the answer is a draw). A free value (log entry 4). -/
opaque allocAnswer : Nat → Option Word

end Sys2Proof.Config
end

