-- ==== Sys2Proof/Syntax.lean ====
section
/-! DEFINITION. The syntax: page-size classes, the 36 commands (one constructor per row of
spec/opcode_table.json), and the raw fields of a command word (30_encoding.md R86 to R88). -/

namespace Sys2Proof

/-- The closed set of page-size classes (30_encoding.md R87). -/
inductive SizeClass where
  | s4K
  | s2M
  | s1G
deriving DecidableEq, Repr

/-- The commands of the walker, one per legal command word (30_encoding.md R88). A command has no
operand of its own: every operand comes from ARG0..ARG2 (30_encoding.md R86, R91). -/
inductive Instr where
  /-- VA_TRY_NEW, word 0x01 (R110). -/
  | vaTryNew
  /-- VA_NEW_UNCHECKED, word 0x02 (R111). -/
  | vaNewUnchecked
  /-- VA_SPLIT, word 0x03 (R112). -/
  | vaSplit
  /-- VA_ADD, word 0x04 (R113). -/
  | vaAdd
  /-- VA_SUB, word 0x05 (R114). -/
  | vaSub
  /-- PA_TRY_NEW, word 0x06 (R115). -/
  | paTryNew
  /-- PA_ADD, word 0x07 (R116). -/
  | paAdd
  /-- PA_SUB, word 0x08 (R117). -/
  | paSub
  /-- PA_IS_ALIGNED, word 0x09 (R118). -/
  | paIsAligned
  /-- PA_ALIGN_DOWN, word 0x0A (R119). -/
  | paAlignDown
  /-- PA_ALIGN_UP, word 0x0B (R120). -/
  | paAlignUp
  /-- ENTRY_DECODE, word 0x0C (R140). -/
  | entryDecode
  /-- ENTRY_ENCODE.4K, word 0x0D (R141). -/
  | entryEncode4K
  /-- ENTRY_ENCODE.2M, word 0x2D (R141). -/
  | entryEncode2M
  /-- ENTRY_ENCODE.1G, word 0x4D (R141). -/
  | entryEncode1G
  /-- TABLE_READ, word 0x0E (R142). -/
  | tableRead
  /-- MAP_TO.4K, word 0x10 (R191). -/
  | mapTo4K
  /-- MAP_TO.2M, word 0x30 (R191). -/
  | mapTo2M
  /-- MAP_TO.1G, word 0x50 (R191). -/
  | mapTo1G
  /-- IDENTITY_MAP.4K, word 0x11 (R197). -/
  | identityMap4K
  /-- IDENTITY_MAP.2M, word 0x31 (R197). -/
  | identityMap2M
  /-- IDENTITY_MAP.1G, word 0x51 (R197). -/
  | identityMap1G
  /-- UNMAP.4K, word 0x12 (R198). -/
  | unmap4K
  /-- UNMAP.2M, word 0x32 (R198). -/
  | unmap2M
  /-- UNMAP.1G, word 0x52 (R198). -/
  | unmap1G
  /-- UPDATE_FLAGS.4K, word 0x13 (R199). -/
  | updateFlags4K
  /-- UPDATE_FLAGS.2M, word 0x33 (R199). -/
  | updateFlags2M
  /-- UPDATE_FLAGS.1G, word 0x53 (R199). -/
  | updateFlags1G
  /-- TRANSLATE_PAGE.4K, word 0x14 (R163). -/
  | translatePage4K
  /-- TRANSLATE_PAGE.2M, word 0x34 (R163). -/
  | translatePage2M
  /-- TRANSLATE_PAGE.1G, word 0x54 (R163). -/
  | translatePage1G
  /-- TRANSLATE, word 0x15 (R164). -/
  | translate
  /-- TRANSLATE_ADDR, word 0x16 (R165). -/
  | translateAddr
  /-- FLUSH_TOKEN, word 0x18 (R230). -/
  | flushToken
  /-- IGNORE_TOKEN, word 0x19 (R231). -/
  | ignoreToken
  /-- SET_ROOT, word 0x1A (R234). -/
  | setRoot
deriving DecidableEq, Repr

/-- The sized command ENTRY_ENCODE.S (30_encoding.md R88). -/
def Instr.entryEncode : SizeClass → Instr
  | .s4K => .entryEncode4K
  | .s2M => .entryEncode2M
  | .s1G => .entryEncode1G

/-- The sized command MAP_TO.S (30_encoding.md R88). -/
def Instr.mapTo : SizeClass → Instr
  | .s4K => .mapTo4K
  | .s2M => .mapTo2M
  | .s1G => .mapTo1G

/-- The sized command IDENTITY_MAP.S (30_encoding.md R88). -/
def Instr.identityMap : SizeClass → Instr
  | .s4K => .identityMap4K
  | .s2M => .identityMap2M
  | .s1G => .identityMap1G

/-- The sized command UNMAP.S (30_encoding.md R88). -/
def Instr.unmap : SizeClass → Instr
  | .s4K => .unmap4K
  | .s2M => .unmap2M
  | .s1G => .unmap1G

/-- The sized command UPDATE_FLAGS.S (30_encoding.md R88). -/
def Instr.updateFlags : SizeClass → Instr
  | .s4K => .updateFlags4K
  | .s2M => .updateFlags2M
  | .s1G => .updateFlags1G

/-- The sized command TRANSLATE_PAGE.S (30_encoding.md R88). -/
def Instr.translatePage : SizeClass → Instr
  | .s4K => .translatePage4K
  | .s2M => .translatePage2M
  | .s1G => .translatePage1G

/-- The fields of a command word (30_encoding.md R86), whatever their values. -/
structure Fields where
  /-- Bits 31:7. -/
  reserved : BitVec 25
  /-- Bits 6:5, the size class field `S`. -/
  size : BitVec 2
  /-- Bits 4:0, the opcode `OP`. -/
  op : BitVec 5
deriving DecidableEq, Repr

end Sys2Proof
end

