-- ==== Sys2Proof/WellFormed.lean ====
section
/-! DEFINITION. Which fields make a legal command word (30_encoding.md R89), one check each, and the
well-formedness of a command, which is that of its fields. -/

namespace Sys2Proof

/-- The opcodes of the unsized commands (30_encoding.md R88). -/
def unsizedOps : List (BitVec 5) :=
  [0x01, 0x02, 0x03, 0x04, 0x05, 0x06, 0x07, 0x08, 0x09, 0x0A, 0x0B, 0x0C, 0x0E, 0x15, 0x16,
   0x18, 0x19, 0x1A]

/-- The opcodes of the sized commands (30_encoding.md R88). -/
def sizedOps : List (BitVec 5) := [0x0D, 0x10, 0x11, 0x12, 0x13, 0x14]

/-- "bits 31:7 are not all 0" makes a word illegal (30_encoding.md R89). -/
def Fields.reservedZero (f : Fields) : Bool := f.reserved == 0

/-- OP 0x00, 0x0F, 0x17 and 0x1B to 0x1F are illegal (30_encoding.md R89). -/
def Fields.opAssigned (f : Fields) : Bool := unsizedOps.contains f.op || sizedOps.contains f.op

/-- "the command is sized and S = 3" makes a word illegal (30_encoding.md R89). -/
def Fields.sizeAssigned (f : Fields) : Bool := !(sizedOps.contains f.op && f.size == 3)

/-- "the command is unsized and S ≠ 0" makes a word illegal (30_encoding.md R89). -/
def Fields.unsizedSizeZero (f : Fields) : Bool := !(unsizedOps.contains f.op && f.size != 0)

/-- The fields of a legal command word: none of the four grounds of 30_encoding.md R89 holds. -/
def Fields.WellFormed (f : Fields) : Bool :=
  f.reservedZero && f.opAssigned && f.sizeAssigned && f.unsizedSizeZero

end Sys2Proof
end

