-- ==== Sys2Proof/Decode.lean ====
section
/-! DEFINITION. Decoding a command word to a command, total and rejecting by name
(30_encoding.md R86 to R90), and the encoder, written from the same table (R88). -/

namespace Sys2Proof

/-- Why a command word is illegal (30_encoding.md R89). All four answer ILLEGAL_COMMAND. -/
inductive DecodeError where
  /-- Bits 31:7 are not all 0. -/
  | reservedBits
  /-- `OP` is a reserved opcode. -/
  | reservedOpcode
  /-- A sized command with `S` = 3. -/
  | reservedSize
  /-- An unsized command with `S` ≠ 0. -/
  | sizeOnUnsized
deriving DecidableEq, Repr

/-- The fields of a word (30_encoding.md R86). -/
def fieldsOf (w : CommandWord) : Fields :=
  { reserved := w.extractLsb' 7 25, size := w.extractLsb' 5 2, op := w.extractLsb' 0 5 }

/-- The size class codes (30_encoding.md R87). -/
def SizeClass.code : SizeClass → BitVec 2
  | .s4K => 0
  | .s2M => 1
  | .s1G => 2

/-- The size class of a code; 3 is reserved (30_encoding.md R87). -/
def SizeClass.ofCode (c : BitVec 2) : Option SizeClass :=
  if c = 0 then some .s4K else if c = 1 then some .s2M else if c = 2 then some .s1G else none

/-- An unsized command has one word, with `S` = 0 (30_encoding.md R88, R89). -/
def decodeUnsized (size : BitVec 2) (i : Instr) : Except DecodeError Instr :=
  if size = 0 then .ok i else .error .sizeOnUnsized

/-- A sized command takes its class from `S` (30_encoding.md R88, R89). -/
def decodeSized (size : BitVec 2) (f : SizeClass → Instr) : Except DecodeError Instr :=
  match SizeClass.ofCode size with
  | some c => .ok (f c)
  | none => .error .reservedSize

/-- The opcode map (30_encoding.md R88); every other opcode is reserved (R89, R90). -/
def decodeOp (op : BitVec 5) (size : BitVec 2) : Except DecodeError Instr :=
  match op.toNat with
  | 0x01 => decodeUnsized size .vaTryNew
  | 0x02 => decodeUnsized size .vaNewUnchecked
  | 0x03 => decodeUnsized size .vaSplit
  | 0x04 => decodeUnsized size .vaAdd
  | 0x05 => decodeUnsized size .vaSub
  | 0x06 => decodeUnsized size .paTryNew
  | 0x07 => decodeUnsized size .paAdd
  | 0x08 => decodeUnsized size .paSub
  | 0x09 => decodeUnsized size .paIsAligned
  | 0x0A => decodeUnsized size .paAlignDown
  | 0x0B => decodeUnsized size .paAlignUp
  | 0x0C => decodeUnsized size .entryDecode
  | 0x0D => decodeSized size Instr.entryEncode
  | 0x0E => decodeUnsized size .tableRead
  | 0x10 => decodeSized size Instr.mapTo
  | 0x11 => decodeSized size Instr.identityMap
  | 0x12 => decodeSized size Instr.unmap
  | 0x13 => decodeSized size Instr.updateFlags
  | 0x14 => decodeSized size Instr.translatePage
  | 0x15 => decodeUnsized size .translate
  | 0x16 => decodeUnsized size .translateAddr
  | 0x18 => decodeUnsized size .flushToken
  | 0x19 => decodeUnsized size .ignoreToken
  | 0x1A => decodeUnsized size .setRoot
  | _ => .error .reservedOpcode

/-- The command of a word, or why the word is illegal (30_encoding.md R89). -/
def decode (w : CommandWord) : Except DecodeError Instr :=
  if (fieldsOf w).reserved = 0 then decodeOp (fieldsOf w).op (fieldsOf w).size
  else .error .reservedBits

/-- The fields of a command's word (30_encoding.md R88): `OP`, and `S` for a sized command. -/
def Instr.fields : Instr → Fields
  | .vaTryNew => { reserved := 0, size := 0, op := 0x01 }
  | .vaNewUnchecked => { reserved := 0, size := 0, op := 0x02 }
  | .vaSplit => { reserved := 0, size := 0, op := 0x03 }
  | .vaAdd => { reserved := 0, size := 0, op := 0x04 }
  | .vaSub => { reserved := 0, size := 0, op := 0x05 }
  | .paTryNew => { reserved := 0, size := 0, op := 0x06 }
  | .paAdd => { reserved := 0, size := 0, op := 0x07 }
  | .paSub => { reserved := 0, size := 0, op := 0x08 }
  | .paIsAligned => { reserved := 0, size := 0, op := 0x09 }
  | .paAlignDown => { reserved := 0, size := 0, op := 0x0A }
  | .paAlignUp => { reserved := 0, size := 0, op := 0x0B }
  | .entryDecode => { reserved := 0, size := 0, op := 0x0C }
  | .entryEncode4K => { reserved := 0, size := 0, op := 0x0D }
  | .entryEncode2M => { reserved := 0, size := 1, op := 0x0D }
  | .entryEncode1G => { reserved := 0, size := 2, op := 0x0D }
  | .tableRead => { reserved := 0, size := 0, op := 0x0E }
  | .mapTo4K => { reserved := 0, size := 0, op := 0x10 }
  | .mapTo2M => { reserved := 0, size := 1, op := 0x10 }
  | .mapTo1G => { reserved := 0, size := 2, op := 0x10 }
  | .identityMap4K => { reserved := 0, size := 0, op := 0x11 }
  | .identityMap2M => { reserved := 0, size := 1, op := 0x11 }
  | .identityMap1G => { reserved := 0, size := 2, op := 0x11 }
  | .unmap4K => { reserved := 0, size := 0, op := 0x12 }
  | .unmap2M => { reserved := 0, size := 1, op := 0x12 }
  | .unmap1G => { reserved := 0, size := 2, op := 0x12 }
  | .updateFlags4K => { reserved := 0, size := 0, op := 0x13 }
  | .updateFlags2M => { reserved := 0, size := 1, op := 0x13 }
  | .updateFlags1G => { reserved := 0, size := 2, op := 0x13 }
  | .translatePage4K => { reserved := 0, size := 0, op := 0x14 }
  | .translatePage2M => { reserved := 0, size := 1, op := 0x14 }
  | .translatePage1G => { reserved := 0, size := 2, op := 0x14 }
  | .translate => { reserved := 0, size := 0, op := 0x15 }
  | .translateAddr => { reserved := 0, size := 0, op := 0x16 }
  | .flushToken => { reserved := 0, size := 0, op := 0x18 }
  | .ignoreToken => { reserved := 0, size := 0, op := 0x19 }
  | .setRoot => { reserved := 0, size := 0, op := 0x1A }

/-- The word made of the given fields (30_encoding.md R86). -/
def Fields.word (f : Fields) : CommandWord := f.reserved ++ f.size ++ f.op

/-- The command word of a command (30_encoding.md R88). -/
def encode (i : Instr) : CommandWord := i.fields.word

/-- A command is well-formed when its fields are those of a legal word. -/
def Instr.WellFormed (i : Instr) : Bool := i.fields.WellFormed

/-- The command the decoder reads from a table word: the low `nbits` bits of `w`, all others 0. A
command is one 32-bit word (30_encoding.md R97), so nothing is laid out in bytes. -/
def decodeTableWord (nbits w : Nat) : Option Instr :=
  (decode (BitVec.ofNat 32 (w % 2 ^ nbits))).toOption

end Sys2Proof
end

