-- ==== Sys2Proof/Machine/State.lean ====
section
/-! DEFINITION. The state of the walker and of the agents around it, as plain data (10_state.md,
00_scope.md R6), why a step stops, and the state after reset. -/

namespace Sys2Proof.Machine

/-- The status codes of 30_encoding.md R92, by name. -/
inductive Status where
  | ok
  | nonCanonical
  | invalidPhys
  | notMapped
  | allocFailed
  | parentHuge
  | alreadyMapped
  | sizeMismatch
  | invalidFrameAddr
  | entryNotPresent
  | hugeFrame
  | arithOverflow
  | argError
  | tokenPending
  | noToken
  | malformedEntry
  | noRoot
  | illegalCommand
  | faulted
deriving DecidableEq, Repr

/-- The sub-codes of ARG_ERROR (30_encoding.md R93), by name. -/
inductive ArgSub where
  | vaMisaligned
  | paMisaligned
  | flagsInAddr
  | hugeFlag4K
  | indexRange
  | alignNotPow2
deriving DecidableEq, Repr

/-- The causes of the walker's sticky fault (30_encoding.md R94). -/
inductive FaultCause where
  | busError
  | allocProtocol
deriving DecidableEq, Repr

/-- A translation held by the TLB, or offered to it (20_memory.md R66, 42_walk_translate.md R169). -/
structure TlbEntry where
  /-- The first address of the page. -/
  page : Word
  /-- The size class of the page. -/
  cls : SizeClass
  /-- The frame the page maps to. -/
  frame : Word
  /-- The flags of the leaf. -/
  flags : Word
deriving DecidableEq, Repr

/-- A range of physical bytes that the memory port accepts (20_memory.md R53). -/
structure Region where
  base : Nat
  size : Nat
deriving DecidableEq, Repr

/-- Physical memory: bytes by address, rising, none equal to what an unlisted byte reads as. -/
abbrev Memory := List Host.Cell

/-- One event on a port of the walker (20_memory.md R61): an access that was performed, an answer of
the allocator, or a TLB invalidation. An access the platform refuses is not performed (R53). -/
inductive PortEvent where
  /-- `MemRead(pa, 8)`. -/
  | read (pa : Nat)
  /-- `MemWrite(pa, 8, v)`. -/
  | write (pa : Nat) (v : Word)
  /-- `AllocFrame()` and its answer. -/
  | alloc (answer : Option Word)
  /-- `TlbFlush(va)`. -/
  | flush (va : Word)
deriving DecidableEq, Repr

/-- A write of 8 bytes by another agent while a command runs (20_memory.md R56, R68). -/
structure RacingWrite where
  /-- How many of the command's own writes are performed before this one. -/
  after : Nat
  pa : Word
  v : Word
deriving DecidableEq, Repr

/-- Who starts a command (10_state.md R21, 42_walk_translate.md R169). -/
inductive CommandSource where
  /-- The host writes the word to `CMD`. -/
  | host (w : CommandWord)
  /-- The core's miss path translates `va`. -/
  | core (va : Word)
deriving DecidableEq, Repr

/-- One action of an agent outside the walker (00_scope.md R6, 20_memory.md R70(a), 30_encoding.md
R95). The walker's commands are the writes of slot 3. -/
inductive Action where
  /-- The host writes a slot of the register window (10_state.md R30). -/
  | write (slot : BitVec 4) (v : Word)
  /-- The host reads a slot of the register window (10_state.md R30). -/
  | read (slot : BitVec 4)
  /-- The host writes 8 bytes of physical memory (30_encoding.md R95 `MEMW`). -/
  | memWrite (pa : Word) (v : Word)
  /-- The host reads 8 bytes of physical memory (20_memory.md R70(a)). -/
  | memRead (pa : Word)
  /-- The host writes one byte of physical memory (20_memory.md R55, R70(a)). -/
  | memWriteByte (pa : Word) (b : Byte)
  /-- The host reads one byte of physical memory (20_memory.md R55, R70(a)). -/
  | memReadByte (pa : Word)
  /-- The host reads `STATUS` and writes the slot only if it is OK (30_encoding.md R96). DESIGN
  CHOICE, unsafe (log entry 21): the two are one action, and no other agent acts between them. -/
  | writeIfOk (slot : BitVec 4) (v : Word)
  /-- The host reads `STATUS` and stops its program unless it is OK (30_encoding.md R96). -/
  | haltUnlessOk
  /-- The platform resets the walker between commands (70_reset_and_hazards.md R280). -/
  | reset
  /-- The host writes `w` to `CMD`, and the platform resets the walker after `events` port events of
  that command (70_reset_and_hazards.md R280). -/
  | resetDuring (w : CommandWord) (events : Nat)
  /-- A command runs while other agents write memory (20_memory.md R62(c), R68). `draws` has one list
  for each read of the command, which says of each racing write whether that read sees it. With
  `reset` the platform also resets the walker, after that many port events. -/
  | race (source : CommandSource) (writes : List RacingWrite) (draws : List (List Bool))
      (reset : Option Nat)
  /-- The core translates `va`: by the TLB entry at `cached` if that one covers `va`, else by the
  walker (20_memory.md R66(e), 42_walk_translate.md R169). -/
  | access (va : Word) (cached : Option Nat)
  /-- The TLB takes up the offered translation at this place (20_memory.md R66(a)). -/
  | tlbFill (n : Nat)
  /-- The TLB drops the entry at this place (20_memory.md R66(b)). -/
  | tlbEvict (n : Nat)
  /-- The host invalidates, by means outside the walker, every translation of an address from `first`
  to `last` (70_reset_and_hazards.md R287, R288; 93_implementation_defined.md U5). -/
  | tlbInvalidate (first last : Word)
deriving DecidableEq, Repr

/-- The whole machine. Registers keep the names of 10_state.md; a field marked MODEL is the model's
own. Hardwired bits have no storage (log entry 15). -/
structure State where
  /-- ARG0 (10_state.md R20). -/
  arg0 : Word
  /-- ARG1 (10_state.md R20). -/
  arg1 : Word
  /-- ARG2 (10_state.md R20). -/
  arg2 : Word
  /-- STATUS bits 7:0; bits 63:8 read as 0 (10_state.md R23). -/
  status : BitVec 8
  /-- RES0 (10_state.md R22). -/
  res0 : Word
  /-- RES1 (10_state.md R22). -/
  res1 : Word
  /-- RES2 (10_state.md R22). -/
  res2 : Word
  /-- RES3 (10_state.md R22). -/
  res3 : Word
  /-- RES4 (10_state.md R22). -/
  res4 : Word
  /-- ROOT bits 51:0; bits 63:52 are hardwired to 0 (10_state.md R24). -/
  root : BitVec 52
  /-- TOKEN_VA (10_state.md R25). -/
  tokenVa : Word
  /-- UNIT.RV, a root has been handed over (10_state.md R26). -/
  rv : Bool
  /-- UNIT.TV, a flush token is outstanding (10_state.md R25, R26). -/
  tv : Bool
  /-- UNIT.FLT, the sticky fault (10_state.md R26). -/
  flt : Bool
  /-- UNIT.TSZ, the size class code of the token (10_state.md R25, R26). -/
  tsz : BitVec 2
  /-- UNIT.FCAUSE, the fault cause code (10_state.md R26). -/
  fcause : BitVec 8
  /-- Physical memory (10_state.md R32, 20_memory.md R51). -/
  mem : Memory
  /-- The platform parameter `PHYS_ADMITS`, fixed for a run (20_memory.md R53; log entry 3). -/
  admitted : List Region
  /-- The allocator's coming answers, the parameter `ALLOC` (20_memory.md R63; log entry 4). -/
  allocQ : List (Option Word)
  /-- MODEL. How many answers were drawn beyond `allocQ` (log entry 4). -/
  allocCalls : Nat
  /-- The TLB of the current core (10_state.md R33, 20_memory.md R66). -/
  tlb : List TlbEntry
  /-- MODEL. The translations the TLB may take up (20_memory.md R66(a); log entry 7). -/
  fillable : List TlbEntry
  /-- MODEL. What the core's last access that ended was translated to (20_memory.md R66(e); log
  entries 11 and 20). -/
  coreXlat : Option Word
  /-- MODEL. What the host's last read returned (10_state.md R30; log entry 11). -/
  hostData : Word
  /-- MODEL. The actions still to come (10_state.md R27; log entry 1). -/
  pending : List Action
  /-- MODEL. The port events of the last command, newest first (20_memory.md R61; log entry 10). -/
  ports : List PortEvent
  /-- MODEL. For each coming read of the command that runs, the racing writes it already sees
  (20_memory.md R68; log entry 9). Between two actions there is none. -/
  views : List (List (Nat × Word))
deriving DecidableEq, Repr

/-- Why a step of the model stops. No command of the walker ends in one. -/
inductive Fault where
  /-- Raised by a direct host access, or a racing write of another agent, that is not wholly inside
  the 2^52 bytes of physical memory (20_memory.md R51). Safe: the run stops where the spec gives the
  access no effect. -/
  | noSuchPhysicalAddress (pa : Word)
deriving DecidableEq, Repr

/-- Why an instruction has no meaning. -/
inductive Refusal where
  /-- Raised by an arm of `exec` whose instruction has no meaning yet. Safe. No arm raises it. -/
  | notModelled (mnemonic : String)
deriving DecidableEq, Repr

/-- The machine right after reset (10_state.md R34). Memory, allocator, TLB and the port's regions
are the platform's and not touched by reset (70_reset_and_hazards.md R281); their values here are
those of the start state of 95_test_vectors.md section 3 (log entries 2, 3, 4, 6). -/
def State.reset : State where
  arg0 := 0
  arg1 := 0
  arg2 := 0
  status := 0
  res0 := 0
  res1 := 0
  res2 := 0
  res3 := 0
  res4 := 0
  root := 0
  tokenVa := 0
  rv := false
  tv := false
  flt := false
  tsz := 0
  fcause := 0
  mem := []
  admitted := [{ base := 0, size := 0x1000000 }]
  allocQ := []
  allocCalls := 0
  tlb := []
  fillable := []
  coreXlat := none
  hostData := 0
  pending := []
  ports := []
  views := []

end Sys2Proof.Machine
end

