-- ==== Sys2Proof/Machine/Flags.lean ====
section
/-! DEFINITION. The bits of a page-table entry (30_encoding.md R82 to R85), the level-indexed entry
decode (41_entry_table.md R143 to R145), and the numbers of statuses, sub-codes and causes
(30_encoding.md R92 to R94). The walker has no condition flags (10_state.md R28). -/

namespace Sys2Proof.Machine

/-- PRESENT, bit 0 (30_encoding.md R82). -/
abbrev presentFlag : Word := 0x1#64

/-- WRITABLE, bit 1 (30_encoding.md R83). -/
abbrev writableFlag : Word := 0x2#64

/-- USER_ACCESSIBLE, bit 2 (30_encoding.md R83). -/
abbrev userFlag : Word := 0x4#64

/-- HUGE_PAGE, bit 7 (30_encoding.md R83). -/
abbrev hugeFlag : Word := 0x80#64

/-- The PRESENT bit of an entry; an entry without it is absent (00_scope.md R13). -/
def isPresent (e : Word) : Bool := e.getLsbD 0

/-- The HUGE_PAGE bit of an entry or of a flags operand. -/
def isHuge (e : Word) : Bool := e.getLsbD 7

/-- `addr(e)`, the frame address of an entry (30_encoding.md R85). -/
def entryAddr (e : Word) : Word := e &&& Config.addrMask

/-- `flags(e)`, the flags of an entry (30_encoding.md R85). -/
def entryFlags (e : Word) : Word := e &&& Config.flagMask

/-- The flags of a newly installed link, from the leaf flags `f` (43_mapper.md R192). -/
def nonLeafFlags (f : Word) : Word := presentFlag ||| writableFlag ||| (f &&& userFlag)

/-- The `h` of 41_entry_table.md R141 and 43_mapper.md R191: HUGE_PAGE for 2M and 1G, else 0. -/
def leafHuge : SizeClass → Word
  | .s4K => 0
  | .s2M => hugeFlag
  | .s1G => hugeFlag

/-- An entry with address `a` and flags `f` for a page of class `c` (30_encoding.md R85, 41 R141). -/
def leafEntry (c : SizeClass) (a f : Word) : Word := a ||| f ||| leafHuge c

/-- The outcomes of the level-indexed entry decode (41_entry_table.md R143). -/
inductive EntryKind where
  | absent
  | malformed
  | leaf (c : SizeClass) (a : Word)
  | table (a : Word)
deriving DecidableEq, Repr

/-- `decode(L, e)` for a present entry with HUGE_PAGE set (41_entry_table.md R143, second row). -/
def decodeHuge (level : Nat) (e : Word) : EntryKind :=
  if level = 3 then .leaf .s1G (entryAddr e)
  else if level = 2 then .leaf .s2M (entryAddr e)
  else .malformed

/-- `decode(L, e)` (41_entry_table.md R143). -/
def decodeEntry (level : Nat) (e : Word) : EntryKind :=
  if !isPresent e then .absent
  else if isHuge e then decodeHuge level e
  else if level = 1 then .leaf .s4K (entryAddr e)
  else .table (entryAddr e)

/-- `match(S, e)`, the class-match predicate (41_entry_table.md R145). -/
def classMatch (c : SizeClass) (e : Word) : Bool :=
  match c with
  | .s4K => !isHuge e
  | .s2M => isHuge e
  | .s1G => isHuge e

/-- The status codes (30_encoding.md R92). -/
def Status.code : Status → BitVec 8
  | .ok => 0x00
  | .nonCanonical => 0x01
  | .invalidPhys => 0x02
  | .notMapped => 0x03
  | .allocFailed => 0x04
  | .parentHuge => 0x05
  | .alreadyMapped => 0x06
  | .sizeMismatch => 0x07
  | .invalidFrameAddr => 0x08
  | .entryNotPresent => 0x09
  | .hugeFrame => 0x0A
  | .arithOverflow => 0x0B
  | .argError => 0x0C
  | .tokenPending => 0x0D
  | .noToken => 0x0E
  | .malformedEntry => 0x0F
  | .noRoot => 0x10
  | .illegalCommand => 0x11
  | .faulted => 0x12

/-- The ARG_ERROR sub-codes (30_encoding.md R93). -/
def ArgSub.code : ArgSub → Word
  | .vaMisaligned => 1
  | .paMisaligned => 2
  | .flagsInAddr => 3
  | .hugeFlag4K => 4
  | .indexRange => 5
  | .alignNotPow2 => 6

/-- The fault cause codes (30_encoding.md R94). -/
def FaultCause.code : FaultCause → BitVec 8
  | .busError => 1
  | .allocProtocol => 2

end Sys2Proof.Machine
end

