-- ==== Sys2Proof/Machine/Operands.lean ====
section
/-! DEFINITION. Size classes and levels (00_scope.md R11, R12), the address predicates and fields
(00_scope.md R11, 30_encoding.md R80), the operand assignment (30_encoding.md R91), and the register
views the host reads (10_state.md R23, R24, R26). -/

namespace Sys2Proof.Machine

/-- `size(S)` in bytes (00_scope.md R11). -/
def sizeBytes : SizeClass → Nat
  | .s4K => 0x1000
  | .s2M => 0x200000
  | .s1G => 0x40000000

/-- `T(S)`, the terminal level of a class (00_scope.md R12). -/
def terminalLevel : SizeClass → Nat
  | .s4K => 1
  | .s2M => 2
  | .s1G => 3

/-- The offset mask `size(S) - 1` as a word (42_walk_translate.md R164). -/
def offsetMask (c : SizeClass) : Word := BitVec.ofNat 64 (sizeBytes c - 1)

/-- `code(S)` as the value of a result register (30_encoding.md R87). -/
def codeWord (c : SizeClass) : Word := c.code.setWidth 64

/-- `v[63:47]`, the bits that NON_CANONICAL reports (30_encoding.md R92). -/
def canonicalBits (v : Word) : BitVec 17 := v.extractLsb' 47 17

/-- `canonical(v)`: bits 63:47 are all 0 or all 1 (00_scope.md R11; 90_conflicts.md C2). -/
def canonical (v : Word) : Bool := canonicalBits v == 0 || canonicalBits v == 0x1FFFF

/-- `v[63:52]`, the bits that INVALID_PHYS reports (30_encoding.md R92). -/
def physicalBits (v : Word) : BitVec 12 := v.extractLsb' 52 12

/-- `validpa(v)` (00_scope.md R11). -/
def validPa (v : Word) : Bool := physicalBits v == 0

/-- `v mod size(S) = 0`. -/
def alignedTo (c : SizeClass) (v : Word) : Bool := v.toNat % sizeBytes c == 0

/-- The legal alignment operands: `al ≠ 0` and `al & (al - 1) = 0` (40_address.md R118). -/
def isPow2 (al : Word) : Bool := !(al == 0 || (al &&& (al - 1)) != 0)

/-- `sext_48(v[47:0])` (00_scope.md R9). -/
def signExtend48 (v : Word) : Word := (v.extractLsb' 0 48).signExtend 64

/-- `idx_L(va)`, the 9-bit index of level `L` (00_scope.md R12, 30_encoding.md R80). -/
def index (level : Nat) (va : Word) : BitVec 9 := va.extractLsb' (12 + 9 * (level - 1)) 9

/-- The byte offset inside a 4 KiB page (30_encoding.md R80). -/
def pageOffset (va : Word) : BitVec 12 := va.extractLsb' 0 12

/-- `ea(L) = tbase + 8 * idx_L(va)`, the address of the entry for `va` in the level-`L` table at
`tbase` (42_walk_translate.md R160). -/
def entryPa (level : Nat) (va tbase : Word) : Nat := tbase.toNat + 8 * (index level va).toNat

/-- `va`, `raw`, `entry` and the table index are in ARG0, and so is the `pa` of the PA commands
(30_encoding.md R91). -/
def State.operand0 (s : State) : Word := s.arg0

/-- `n`, `align`, the mapper's `pa`, the table frame, the address of ENTRY_ENCODE and the root value
are in ARG1 (30_encoding.md R91). -/
def State.operand1 (s : State) : Word := s.arg1

/-- The flags operand is in ARG2 (30_encoding.md R91). -/
def State.operandFlags (s : State) : Word := s.arg2

/-- STATUS as the host reads it (10_state.md R23). -/
def State.statusReg (s : State) : Word := s.status.setWidth 64

/-- ROOT as the host reads it (10_state.md R24). -/
def State.rootReg (s : State) : Word := s.root.setWidth 64

/-- `ROOT_FRAME = ROOT & ADDR_MASK`, the base of the level-4 table (10_state.md R24). -/
def State.rootFrame (s : State) : Word := s.rootReg &&& Config.addrMask

/-- UNIT as the host reads it: FCAUSE 15:8, TSZ 4:3, FLT 2, TV 1, RV 0 (10_state.md R26). -/
def State.unitReg (s : State) : Word :=
  0#48 ++ s.fcause ++ 0#3 ++ s.tsz ++ BitVec.ofBool s.flt ++ BitVec.ofBool s.tv ++ BitVec.ofBool s.rv

/-- What the host reads at a slot of the register window (10_state.md R30): CMD and the reserved
slots read 0. -/
def State.readSlot (s : State) (slot : BitVec 4) : Word :=
  match slot.toNat with
  | 0 => s.arg0
  | 1 => s.arg1
  | 2 => s.arg2
  | 4 => s.statusReg
  | 5 => s.res0
  | 6 => s.res1
  | 7 => s.res2
  | 8 => s.res3
  | 9 => s.res4
  | 10 => s.rootReg
  | 11 => s.tokenVa
  | 12 => s.unitReg
  | _ => 0

end Sys2Proof.Machine
end

