-- ==== Sys2Proof/Machine/Ops.lean ====
section
/-! DEFINITION. The shared operations: bytes of memory, completion and the sticky fault
(00_scope.md R10, 60_exceptions.md R256), the memory port, the allocator, the TLB, the token, reset,
and the argument checks the commands share. -/

namespace Sys2Proof.Machine

/-! ### Bytes of physical memory -/

/-- What a byte that nothing has written reads as. DESIGN CHOICE, unsafe (log entry 2). -/
def Memory.unlisted : Byte := 0

/-- The byte at an address. -/
def Memory.readByte : Memory → Nat → Byte
  | [], _ => Memory.unlisted
  | (k, b) :: m, a => if k = a then b else Memory.readByte m a

/-- The memory with no entry for `a`. -/
def Memory.erase (m : Memory) (a : Nat) : Memory := m.filter (fun c => c.1 != a)

/-- The memory with the entry `(a, b)` put in before the first greater address. -/
def Memory.insert (a : Nat) (b : Byte) : Memory → Memory
  | [] => [(a, b)]
  | c :: m => if a < c.1 then (a, b) :: c :: m else c :: Memory.insert a b m

/-- Write one byte; a byte equal to an unlisted one is not listed. -/
def Memory.writeByte (m : Memory) (a : Nat) (b : Byte) : Memory :=
  if b = Memory.unlisted then m.erase a else Memory.insert a b (m.erase a)

/-- The canonical form: addresses strictly rising, no byte listed that reads as an unlisted one. -/
abbrev Memory.wf (m : Memory) : Prop :=
  m.Pairwise (fun c d => c.1 < d.1) ∧ ∀ c ∈ m, c.2 ≠ Memory.unlisted

/-- `MemRead(pa, 8)`: 8 bytes, little-endian (20_memory.md R55). -/
def Memory.read64 (m : Memory) (pa : Nat) : Word :=
  m.readByte (pa + 7) ++ m.readByte (pa + 6) ++ m.readByte (pa + 5) ++ m.readByte (pa + 4) ++
    m.readByte (pa + 3) ++ m.readByte (pa + 2) ++ m.readByte (pa + 1) ++ m.readByte pa

/-- Byte `k` of a word, `v[8k+7:8k]` (20_memory.md R55). -/
def wordByte (v : Word) (k : Nat) : Byte := v.extractLsb' (8 * k) 8

/-- Store bytes `k` to 7 of `v` at `pa + k` to `pa + 7`, where `n` bytes are left. -/
def Memory.writeBytes (pa : Nat) (v : Word) : Nat → Memory → Memory
  | 0, m => m
  | n + 1, m => Memory.writeBytes pa v n (m.writeByte (pa + (7 - n)) (wordByte v (7 - n)))

/-- `MemWrite(pa, 8, v)`: `v[8k+7:8k]` goes to `pa + k` (20_memory.md R55). -/
def Memory.write64 (m : Memory) (pa : Nat) (v : Word) : Memory := Memory.writeBytes pa v 8 m

/-- The memory after writes of 8 bytes, in the order of the list (20_memory.md R61). -/
def Memory.writeAll (m : Memory) (ws : List (Nat × Word)) : Memory :=
  ws.foldl (fun m w => m.write64 w.1 w.2) m

/-! ### Completion and the sticky fault -/

/-- Every completion writes STATUS and all five result registers (10_state.md R22, R23). -/
def State.finish (s : State) (st : Status) (r0 r1 r2 r3 r4 : Word) : State :=
  { s with status := st.code, res0 := r0, res1 := r1, res2 := r2, res3 := r3, res4 := r4 }

/-- `complete(r0, r1, r2, r3, r4)` (00_scope.md R10). -/
def State.complete (s : State) (r0 r1 r2 r3 r4 : Word) : State := s.finish .ok r0 r1 r2 r3 r4

/-- `raise S(a0, a1, a2)` (00_scope.md R10). -/
def State.raise (s : State) (st : Status) (a0 : Word := 0) (a1 : Word := 0) (a2 : Word := 0) :
    State :=
  s.finish st a0 a1 a2 0 0

/-- `raise ARG_ERROR(sub)` (30_encoding.md R93). -/
def State.argError (s : State) (sub : ArgSub) : State := s.raise .argError sub.code

/-- `raise NON_CANONICAL(v[63:47])` (30_encoding.md R92). -/
def State.raiseNonCanonical (s : State) (v : Word) : State :=
  s.raise .nonCanonical ((canonicalBits v).setWidth 64)

/-- `raise INVALID_PHYS(v[63:52])` (30_encoding.md R92). -/
def State.raiseInvalidPhys (s : State) (v : Word) : State :=
  s.raise .invalidPhys ((physicalBits v).setWidth 64)

/-- `raise FAULTED(FCAUSE)`: the answer while the sticky fault holds (60_exceptions.md R257). -/
def State.raiseFaulted (s : State) : State := s.raise .faulted (s.fcause.setWidth 64)

/-- `fault(cause)`: the walker's one exception (60_exceptions.md R256). It sets the sticky fault and
completes the command as FAULTED; token, root and memory stay as they are. -/
def State.takeFault (s : State) (cause : FaultCause) : State :=
  ({ s with flt := true, fcause := cause.code } : State).raiseFaulted

/-- The only way back from a fault: reset gives every register its reset value and leaves memory,
allocator and TLB alone (10_state.md R34, 70_reset_and_hazards.md R280, R281). -/
def State.walkerReset (s : State) : State :=
  { s with
    arg0 := 0, arg1 := 0, arg2 := 0, status := Status.ok.code
    res0 := 0, res1 := 0, res2 := 0, res3 := 0, res4 := 0
    root := 0, tokenVa := 0, rv := false, tv := false, flt := false, tsz := 0, fcause := 0 }

/-- The common check every command starts with: FAULTED while the sticky fault holds
(60_exceptions.md R253 step 1). The other common check, the illegal word, is made before a command
is known (`issueWord`). -/
def command (body : State → State) (s : State) : Host.Outcome State Fault Refusal :=
  .next (if s.flt then s.raiseFaulted else body s)

/-! ### The ports -/

/-- What a port operation gives: a value and the state to go on from, or the state in which the
command has ended with a fault. -/
inductive Port (α : Type) where
  | ok (a : α) (s : State)
  | stop (s : State)

/-- Go on with the value, unless the command has ended. -/
def Port.run {α : Type} (p : Port α) (k : α → State → State) : State :=
  match p with
  | .ok a s => k a s
  | .stop s => s

/-- Record a port event. -/
def State.log (s : State) (e : PortEvent) : State := { s with ports := e :: s.ports }

/-- Whether the bytes `[a, a + n)` lie in the region. -/
def Region.covers (r : Region) (a n : Nat) : Bool :=
  decide (r.base ≤ a) && decide (a + n ≤ r.base + r.size)

/-- `PHYS_ADMITS(a, n)` (20_memory.md R53; log entry 3). -/
def State.admits (s : State) (a n : Nat) : Bool := s.admitted.any (fun r => r.covers a n)

/-- The write of 8 bytes, performed (20_memory.md R55). -/
def State.storeWord (s : State) (pa : Nat) (v : Word) : State :=
  { s with mem := s.mem.write64 pa v, ports := .write pa v :: s.ports }

/-- What the coming read of 8 bytes at `pa` returns: the word in memory after the racing writes it
sees. While no write races, that is the word in memory (20_memory.md R62, R68; log entry 9). -/
def State.seenWord (s : State) (pa : Nat) : Word :=
  (s.mem.writeAll (s.views.headD [])).read64 pa

/-- The read of 8 bytes, performed (20_memory.md R57): it changes no memory. -/
def State.readDone (s : State) (pa : Nat) : State :=
  { s with ports := .read pa :: s.ports, views := s.views.tail }

/-- `MemRead(pa, 8)`, offered to the platform first (20_memory.md R53). -/
def memRead (pa : Nat) (s : State) : Port Word :=
  if s.admits pa 8 then .ok (s.seenWord pa) (s.readDone pa) else .stop (s.takeFault .busError)

/-- `MemWrite(pa, 8, v)`, offered to the platform first (20_memory.md R53). -/
def memWrite (pa : Nat) (v : Word) (s : State) : Port Unit :=
  if s.admits pa 8 then .ok () (s.storeWord pa v) else .stop (s.takeFault .busError)

/-- Writes in the order of the list; the first refused one ends the command, and those before it
stay (20_memory.md R53, R61). -/
def memWrites : List (Nat × Word) → State → Port Unit
  | [], s => .ok () s
  | (pa, v) :: ws, s =>
    match memWrite pa v s with
    | .ok _ s' => memWrites ws s'
    | .stop s' => .stop s'

/-- The allocator's coming answer (20_memory.md R63; log entry 4). -/
def State.nextAnswer (s : State) : Option Word :=
  match s.allocQ with
  | r :: _ => r
  | [] => Config.allocAnswer s.allocCalls

/-- `AllocFrame()` performed: the answer is used up (20_memory.md R63). -/
def State.takeAnswer (s : State) : State :=
  match s.allocQ with
  | r :: q => { s with allocQ := q, ports := .alloc r :: s.ports }
  | [] =>
    { s with
      allocCalls := s.allocCalls + 1, ports := .alloc (Config.allocAnswer s.allocCalls) :: s.ports }

/-! ### The TLB -/

/-- Whether the entry's page range `[page, page + size(class))` contains `va` (20_memory.md R66). -/
def TlbEntry.covers (e : TlbEntry) (va : Word) : Bool :=
  decide (e.page.toNat ≤ va.toNat) && decide (va.toNat < e.page.toNat + sizeBytes e.cls)

/-- `TlbFlush(va)`: every entry that covers `va` goes (20_memory.md R66(d)), and so does every
offered translation that covers it, so that none can come back (R67; log entry 7). -/
def State.tlbFlush (s : State) (va : Word) : State :=
  { s with
    tlb := s.tlb.filter (fun e => !e.covers va)
    fillable := s.fillable.filter (fun e => !e.covers va)
    ports := .flush va :: s.ports }

/-- Whether the entry's page range holds an address from `first` to `last`. -/
def TlbEntry.overlaps (e : TlbEntry) (first last : Word) : Bool :=
  decide (e.page.toNat ≤ last.toNat) && decide (first.toNat < e.page.toNat + sizeBytes e.cls)

/-- The host's own invalidation of a range of addresses: the entries go, and so do the offered
translations, so that none can come back (70_reset_and_hazards.md R287; log entry 19). -/
def State.tlbInvalidate (s : State) (first last : Word) : State :=
  { s with
    tlb := s.tlb.filter (fun e => !e.overlaps first last)
    fillable := s.fillable.filter (fun e => !e.overlaps first last) }

/-- A successful TRANSLATE offers its result to the TLB (20_memory.md R66(a), 42 R169). -/
def State.offer (s : State) (e : TlbEntry) : State := { s with fillable := e :: s.fillable }

/-! ### The token -/

/-- A successful structural mutation issues a token for page `va` (10_state.md R25, 43 R201). -/
def State.issueToken (s : State) (c : SizeClass) (va : Word) : State :=
  { s with tv := true, tokenVa := va, tsz := c.code }

/-- The token is resolved (10_state.md R25). -/
def State.clearToken (s : State) : State := { s with tv := false, tokenVa := 0, tsz := 0 }

/-! ### Replaying port events (reset in the middle of a command) -/

/-- The effect of one port event on memory, allocator and TLB. -/
def State.replayEvent (s : State) : PortEvent → State
  | .read pa => s.log (.read pa)
  | .write pa v => s.storeWord pa v
  | .alloc _ => s.takeAnswer
  | .flush va => s.tlbFlush va

/-- The effect of port events, oldest first. -/
def State.replay (s : State) (events : List PortEvent) : State :=
  events.foldl State.replayEvent s

/-- The writes among port events, in order. -/
def writesOf (events : List PortEvent) : List (Nat × Word) :=
  events.filterMap fun e => match e with | .write pa v => some (pa, v) | _ => none

/-! ### Racing writes -/

/-- Where a racing write goes, and what it writes. -/
def RacingWrite.store (r : RacingWrite) : Nat × Word := (r.pa.toNat, r.v)

/-- The racing writes that a read sees, by its draw: a write for which the draw says nothing is not
seen (20_memory.md R62(c), R68). -/
def seenWrites (rs : List RacingWrite) (draw : List Bool) : List (Nat × Word) :=
  (rs.zip draw).filterMap fun p => if p.2 then some p.1.store else none

/-- All writes of a race in the order in which they are performed, where the command has performed
`k` of its own writes and `own` are still to come (20_memory.md R56, R61). -/
def raceWrites (rs : List RacingWrite) : Nat → List (Nat × Word) → List (Nat × Word)
  | k, [] => (rs.filter fun r => decide (k ≤ r.after)).map RacingWrite.store
  | k, w :: own =>
    (rs.filter fun r => r.after == k).map RacingWrite.store ++ w :: raceWrites rs (k + 1) own

/-! ### Checks the commands share -/

/-- NO_ROOT while no root has been handed over (44_flush_root.md R235). -/
def withRoot (s : State) (k : State) : State := if s.rv then k else s.raise .noRoot

/-- TOKEN_PENDING while a token is outstanding (44_flush_root.md R232(b)). -/
def withoutToken (s : State) (k : State) : State :=
  if s.tv then s.raise .tokenPending s.tokenVa else k

/-- The address must be canonical. -/
def checkCanonical (s : State) (va : Word) (k : State) : State :=
  if canonical va then k else s.raiseNonCanonical va

/-- The address must be a physical address. -/
def checkPhysical (s : State) (pa : Word) (k : State) : State :=
  if validPa pa then k else s.raiseInvalidPhys pa

/-- The page address must be a multiple of its size. -/
def checkVaAligned (s : State) (c : SizeClass) (va : Word) (k : State) : State :=
  if alignedTo c va then k else s.argError .vaMisaligned

/-- The frame address must be a multiple of its size. -/
def checkPaAligned (s : State) (c : SizeClass) (pa : Word) (k : State) : State :=
  if alignedTo c pa then k else s.argError .paMisaligned

/-- The flag checks of 43_mapper.md R190 step 4 (also 41_entry_table.md R141). -/
def checkFlags (s : State) (c : SizeClass) (f : Word) (k : State) : State :=
  if (f &&& Config.addrMask) != 0 then s.argError .flagsInAddr
  else if c = .s4K ∧ isHuge f then s.argError .hugeFlag4K
  else k

end Sys2Proof.Machine
end

