-- ==== Sys2Proof/Machine/Address.lean ====
section
/-! DEFINITION. Address validation and arithmetic (40_address.md R110 to R122). -/

namespace Sys2Proof.Machine

/-- VA_TRY_NEW (40_address.md R110). -/
def vaTryNewBody (s : State) : State :=
  checkCanonical s s.operand0 (s.complete s.operand0 0 0 0 0)

/-- VA_TRY_NEW: the common check, then its body (40_address.md R110, 60_exceptions.md R253). -/
def execVaTryNew (s : State) : Host.Outcome State Fault Refusal :=
  command vaTryNewBody s

/-- VA_NEW_UNCHECKED (40_address.md R111). -/
def vaNewUncheckedBody (s : State) : State :=
  s.complete (signExtend48 s.operand0) 0 0 0 0

/-- VA_NEW_UNCHECKED: the common check, then its body (40_address.md R111, 60_exceptions.md R253). -/
def execVaNewUnchecked (s : State) : Host.Outcome State Fault Refusal :=
  command vaNewUncheckedBody s

/-- VA_SPLIT (40_address.md R112): offset, idx1, idx2, idx3, idx4. -/
def vaSplitBody (s : State) : State :=
  let v := s.operand0
  checkCanonical s v
    (s.complete ((pageOffset v).setWidth 64) ((index 1 v).setWidth 64) ((index 2 v).setWidth 64)
      ((index 3 v).setWidth 64) ((index 4 v).setWidth 64))

/-- VA_SPLIT: the common check, then its body (40_address.md R112, 60_exceptions.md R253). -/
def execVaSplit (s : State) : Host.Outcome State Fault Refusal :=
  command vaSplitBody s

/-- The exact sum of `a` and `n`, which must fit 64 bits (40_address.md R113, R116, R121). -/
def exactAdd (s : State) (a n : Word) (k : Word → State) : State :=
  if a.toNat + n.toNat < 2 ^ 64 then k (a + n) else s.raise .arithOverflow

/-- The exact difference of `a` and `n`, which must not be negative (40_address.md R114, R117). -/
def exactSub (s : State) (a n : Word) (k : Word → State) : State :=
  if n.toNat ≤ a.toNat then k (a - n) else s.raise .arithOverflow

/-- VA_ADD (40_address.md R113). -/
def vaAddBody (s : State) : State :=
  checkCanonical s s.operand0
    (exactAdd s s.operand0 s.operand1 fun r => checkCanonical s r (s.complete r 0 0 0 0))

/-- VA_ADD: the common check, then its body (40_address.md R113, 60_exceptions.md R253). -/
def execVaAdd (s : State) : Host.Outcome State Fault Refusal :=
  command vaAddBody s

/-- VA_SUB (40_address.md R114). -/
def vaSubBody (s : State) : State :=
  checkCanonical s s.operand0
    (exactSub s s.operand0 s.operand1 fun r => checkCanonical s r (s.complete r 0 0 0 0))

/-- VA_SUB: the common check, then its body (40_address.md R114, 60_exceptions.md R253). -/
def execVaSub (s : State) : Host.Outcome State Fault Refusal :=
  command vaSubBody s

/-- PA_TRY_NEW (40_address.md R115). -/
def paTryNewBody (s : State) : State :=
  checkPhysical s s.operand0 (s.complete s.operand0 0 0 0 0)

/-- PA_TRY_NEW: the common check, then its body (40_address.md R115, 60_exceptions.md R253). -/
def execPaTryNew (s : State) : Host.Outcome State Fault Refusal :=
  command paTryNewBody s

/-- PA_ADD (40_address.md R116). -/
def paAddBody (s : State) : State :=
  checkPhysical s s.operand0
    (exactAdd s s.operand0 s.operand1 fun r => checkPhysical s r (s.complete r 0 0 0 0))

/-- PA_ADD: the common check, then its body (40_address.md R116, 60_exceptions.md R253). -/
def execPaAdd (s : State) : Host.Outcome State Fault Refusal :=
  command paAddBody s

/-- PA_SUB (40_address.md R117). -/
def paSubBody (s : State) : State :=
  checkPhysical s s.operand0
    (exactSub s s.operand0 s.operand1 fun r => s.complete r 0 0 0 0)

/-- PA_SUB: the common check, then its body (40_address.md R117, 60_exceptions.md R253). -/
def execPaSub (s : State) : Host.Outcome State Fault Refusal :=
  command paSubBody s

/-- The operand checks of the alignment commands (40_address.md R118 to R120). -/
def checkAlignOperands (s : State) (k : State) : State :=
  checkPhysical s s.operand0
    (if isPow2 s.operand1 then k else s.argError .alignNotPow2)

/-- PA_IS_ALIGNED (40_address.md R118). -/
def paIsAlignedBody (s : State) : State :=
  checkAlignOperands s
    (s.complete (if (s.operand0 &&& (s.operand1 - 1)) = 0 then 1 else 0) 0 0 0 0)

/-- PA_IS_ALIGNED: the common check, then its body (40_address.md R118, 60_exceptions.md R253). -/
def execPaIsAligned (s : State) : Host.Outcome State Fault Refusal :=
  command paIsAlignedBody s

/-- PA_ALIGN_DOWN (40_address.md R119). -/
def paAlignDownBody (s : State) : State :=
  checkAlignOperands s (s.complete (s.operand0 &&& ~~~(s.operand1 - 1)) 0 0 0 0)

/-- PA_ALIGN_DOWN: the common check, then its body (40_address.md R119, 60_exceptions.md R253). -/
def execPaAlignDown (s : State) : Host.Outcome State Fault Refusal :=
  command paAlignDownBody s

/-- PA_ALIGN_UP (40_address.md R120): `a + al - 1` is below 2^64 for every legal operand. -/
def paAlignUpBody (s : State) : State :=
  checkAlignOperands s
    (let r := (s.operand0 + s.operand1 - 1) &&& ~~~(s.operand1 - 1)
     checkPhysical s r (s.complete r 0 0 0 0))

/-- PA_ALIGN_UP: the common check, then its body (40_address.md R120, 60_exceptions.md R253). -/
def execPaAlignUp (s : State) : Host.Outcome State Fault Refusal :=
  command paAlignUpBody s

end Sys2Proof.Machine
end

