-- ==== Sys2Proof/Machine/Entry.lean ====
section
/-! DEFINITION. Entry decode, entry encode and table read (41_entry_table.md R140 to R142). -/

namespace Sys2Proof.Machine

/-- ENTRY_DECODE (41_entry_table.md R140): PRESENT is tested first. -/
def entryDecodeBody (s : State) : State :=
  let e := s.operand0
  if !isPresent e then s.raise .entryNotPresent (entryAddr e) (entryFlags e)
  else if isHuge e then s.raise .hugeFrame (entryAddr e) (entryFlags e)
  else s.complete (entryAddr e) (entryFlags e) (entryAddr e) 0 0

/-- ENTRY_DECODE: the common check, then its body (41_entry_table.md R140, 60_exceptions.md R253). -/
def execEntryDecode (s : State) : Host.Outcome State Fault Refusal :=
  command entryDecodeBody s

/-- ENTRY_ENCODE.S (41_entry_table.md R141). -/
def entryEncodeBody (c : SizeClass) (s : State) : State :=
  let a := s.operand1
  let f := s.operandFlags
  checkPhysical s a
    (checkPaAligned s c a (checkFlags s c f (s.complete (leafEntry c a f) 0 0 0 0)))

/-- ENTRY_ENCODE.4K (41_entry_table.md R141). -/
def execEntryEncode4K (s : State) : Host.Outcome State Fault Refusal :=
  command (entryEncodeBody .s4K) s

/-- ENTRY_ENCODE.2M (41_entry_table.md R141). -/
def execEntryEncode2M (s : State) : Host.Outcome State Fault Refusal :=
  command (entryEncodeBody .s2M) s

/-- ENTRY_ENCODE.1G (41_entry_table.md R141). -/
def execEntryEncode1G (s : State) : Host.Outcome State Fault Refusal :=
  command (entryEncodeBody .s1G) s

/-- TABLE_READ (41_entry_table.md R142): the table is checked before the index. -/
def tableReadBody (s : State) : State :=
  let i := s.operand0
  let t := s.operand1
  checkPhysical s t
    (checkPaAligned s .s4K t
      (if i.toNat ≤ 511 then
        (memRead (t.toNat + 8 * i.toNat) s).run fun e s' => s'.complete e 0 0 0 0
       else s.argError .indexRange))

/-- TABLE_READ: the common check, then its body (41_entry_table.md R142, 60_exceptions.md R253). -/
def execTableRead (s : State) : Host.Outcome State Fault Refusal :=
  command tableReadBody s

end Sys2Proof.Machine
end

