-- ==== Sys2Proof/Machine/FlushRoot.lean ====
section
/-! DEFINITION. Flush-token resolution and the root hand-over (44_flush_root.md R230 to R234). -/

namespace Sys2Proof.Machine

/-- The resolution of a token: its page and class are reported and its state is cleared
(44_flush_root.md R230, R231). `flush` is what happens to the TLB. -/
def resolveToken (flush : State → State) (s : State) : State :=
  if s.tv then (flush s).clearToken.complete s.tokenVa (s.tsz.setWidth 64) 0 0 0
  else s.raise .noToken

/-- The invalidation of FLUSH_TOKEN: the token's page, once (44_flush_root.md R230). -/
def flushTokenPage (s : State) : State := s.tlbFlush s.tokenVa

/-- IGNORE_TOKEN invalidates nothing (44_flush_root.md R231). -/
def flushNothing (s : State) : State := s

/-- FLUSH_TOKEN (44_flush_root.md R230). -/
def execFlushToken (s : State) : Host.Outcome State Fault Refusal :=
  command (resolveToken flushTokenPage) s

/-- IGNORE_TOKEN (44_flush_root.md R231). -/
def execIgnoreToken (s : State) : Host.Outcome State Fault Refusal :=
  command (resolveToken flushNothing) s

/-- `ROOT <- r; UNIT.RV <- 1`. Bits 63:52 are hardwired to 0 (10_state.md R24, 44 R234). -/
def State.setRoot (s : State) (r : Word) : State := { s with root := r.setWidth 52, rv := true }

/-- SET_ROOT (44_flush_root.md R234). -/
def setRootBody (s : State) : State :=
  checkPhysical s s.operand1 ((s.setRoot s.operand1).complete s.rootReg 0 0 0 0)

/-- SET_ROOT: the common check, then its body (44_flush_root.md R234, 60_exceptions.md R253). -/
def execSetRoot (s : State) : Host.Outcome State Fault Refusal :=
  command setRootBody s

end Sys2Proof.Machine
end

