-- ==== Sys2Proof/Machine/Walk.lean ====
section
/-! DEFINITION. The walk engine and the translate commands (42_walk_translate.md R160 to R168). -/

namespace Sys2Proof.Machine

/-- The outcomes of the class-directed walk (42_walk_translate.md R161). -/
inductive WalkEnd where
  | absent (level : Nat)
  | malformed (level : Nat) (e : Word)
  | hugeAbove (level : Nat) (e : Word)
  | terminal (ea : Nat) (e : Word)
deriving DecidableEq, Repr

/-- The part of `walk(va, S)` from the table at `t`, which is `d` levels above the terminal level
(42_walk_translate.md R161). -/
def walkFrom (va : Word) (c : SizeClass) : Nat → Word → State → Port WalkEnd
  | 0, t, s =>
    match memRead (entryPa (terminalLevel c) va t) s with
    | .stop s' => .stop s'
    | .ok e s' => .ok (.terminal (entryPa (terminalLevel c) va t) e) s'
  | d + 1, t, s =>
    match memRead (entryPa (terminalLevel c + d + 1) va t) s with
    | .stop s' => .stop s'
    | .ok e s' =>
      match decodeEntry (terminalLevel c + d + 1) e with
      | .absent => .ok (.absent (terminalLevel c + d + 1)) s'
      | .malformed => .ok (.malformed (terminalLevel c + d + 1) e) s'
      | .leaf _ _ => .ok (.hugeAbove (terminalLevel c + d + 1) e) s'
      | .table t' => walkFrom va c d t' s'

/-- `walk(va, S)` (42_walk_translate.md R161). -/
def walk (va : Word) (c : SizeClass) (s : State) : Port WalkEnd :=
  walkFrom va c (4 - terminalLevel c) s.rootFrame s

/-- The outcomes of the class-agnostic walk (42_walk_translate.md R162). -/
inductive AnyEnd where
  | absent (level : Nat)
  | malformed (level : Nat) (e : Word)
  | leaf (c : SizeClass) (a : Word) (e : Word)
deriving DecidableEq, Repr

/-- The part of `walk_any(va)` from the level-`L` table at `t` (42_walk_translate.md R162). Level 0
is never reached: `decode(1, e)` is never TABLE. -/
def walkAnyFrom (va : Word) : Nat → Word → State → Port AnyEnd
  | 0, _, s => .ok (.absent 0) s
  | l + 1, t, s =>
    match memRead (entryPa (l + 1) va t) s with
    | .stop s' => .stop s'
    | .ok e s' =>
      match decodeEntry (l + 1) e with
      | .absent => .ok (.absent (l + 1)) s'
      | .malformed => .ok (.malformed (l + 1) e) s'
      | .leaf c a => .ok (.leaf c a e) s'
      | .table t' => walkAnyFrom va l t' s'

/-- `walk_any(va)` (42_walk_translate.md R162). -/
def walkAny (va : Word) (s : State) : Port AnyEnd := walkAnyFrom va 4 s.rootFrame s

/-- A level as the value of a result register. -/
def levelWord (level : Nat) : Word := BitVec.ofNat 64 level

/-- The checks of the tree commands on a page operand: canonical, then aligned
(42_walk_translate.md R163, 43_mapper.md R190 step 3). -/
def checkPage (s : State) (c : SizeClass) (va : Word) (k : State) : State :=
  checkCanonical s va (checkVaAligned s c va k)

/-- What TRANSLATE_PAGE.S answers for the terminal entry (42_walk_translate.md R163). -/
def translateTerminal (c : SizeClass) (e : Word) (s : State) : State :=
  match decodeEntry (terminalLevel c) e with
  | .absent => s.raise .notMapped (levelWord (terminalLevel c))
  | .table _ => s.raise .notMapped (levelWord (terminalLevel c))
  | .malformed => s.raise .malformedEntry (levelWord (terminalLevel c)) e
  | .leaf _ a =>
    if alignedTo c a then s.complete a a 0 (codeWord c) (entryFlags e)
    else s.raise .invalidFrameAddr a

/-- TRANSLATE_PAGE.S (42_walk_translate.md R163). -/
def translatePageBody (c : SizeClass) (s : State) : State :=
  let va := s.operand0
  withRoot s
    (checkPage s c va
      ((walk va c s).run fun w s' =>
        match w with
        | .absent l => s'.raise .notMapped (levelWord l)
        | .hugeAbove l _ => s'.raise .notMapped (levelWord l)
        | .malformed l e => s'.raise .malformedEntry (levelWord l) e
        | .terminal _ e => translateTerminal c e s'))

/-- TRANSLATE_PAGE.4K (42_walk_translate.md R163). -/
def execTranslatePage4K (s : State) : Host.Outcome State Fault Refusal :=
  command (translatePageBody .s4K) s

/-- TRANSLATE_PAGE.2M (42_walk_translate.md R163). -/
def execTranslatePage2M (s : State) : Host.Outcome State Fault Refusal :=
  command (translatePageBody .s2M) s

/-- TRANSLATE_PAGE.1G (42_walk_translate.md R163). -/
def execTranslatePage1G (s : State) : Host.Outcome State Fault Refusal :=
  command (translatePageBody .s1G) s

/-- The pseudocode of 42_walk_translate.md R164, with the OK completion left to `done`, which gets
the class, the frame, the in-frame offset and the entry. -/
def translateBody (done : State → SizeClass → Word → Word → Word → State) (s : State) : State :=
  let va := s.operand0
  withRoot s
    (checkCanonical s va
      ((walkAny va s).run fun w s' =>
        match w with
        | .absent l => s'.raise .notMapped (levelWord l)
        | .malformed l e => s'.raise .malformedEntry (levelWord l) e
        | .leaf c a e =>
          if alignedTo c a then done s' c a (va &&& offsetMask c) e
          else s'.raise .invalidFrameAddr a))

/-- The TLB entry that a successful TRANSLATE of `va` offers (42_walk_translate.md R169). -/
def offeredEntry (va : Word) (c : SizeClass) (a e : Word) : TlbEntry :=
  { page := va &&& ~~~(offsetMask c), cls := c, frame := a, flags := entryFlags e }

/-- The OK completion of TRANSLATE (42_walk_translate.md R164); its result is offered to the TLB
(20_memory.md R66(a)). -/
def translateDone (s : State) (c : SizeClass) (a off e : Word) : State :=
  (s.offer (offeredEntry s.operand0 c a e)).complete (a + off) a off (codeWord c) (entryFlags e)

/-- The OK completion of TRANSLATE_ADDR (42_walk_translate.md R165). -/
def translateAddrDone (s : State) (_ : SizeClass) (a off _ : Word) : State :=
  s.complete (a + off) 0 0 0 0

/-- TRANSLATE (42_walk_translate.md R164). -/
def execTranslate (s : State) : Host.Outcome State Fault Refusal :=
  command (translateBody translateDone) s

/-- TRANSLATE_ADDR (42_walk_translate.md R165). -/
def execTranslateAddr (s : State) : Host.Outcome State Fault Refusal :=
  command (translateBody translateAddrDone) s

end Sys2Proof.Machine
end

