-- ==== Sys2Proof/Machine/Mapper.lean ====
section
/-! DEFINITION. The mapper commands (43_mapper.md R190 to R202). -/

namespace Sys2Proof.Machine

/-- Steps 1 and 2 of 43_mapper.md R190: a root, and no outstanding token. -/
def mapperReady (s : State) (k : State) : State := withRoot s (withoutToken s k)

/-- The outcomes of the read-only pre-walk of MAP_TO (43_mapper.md R191 phase 1). -/
inductive MapEnd where
  /-- A present huge entry at a non-terminal level (43_mapper.md R195). -/
  | parentHuge (level : Nat)
  /-- The terminal entry is present (43_mapper.md R194). -/
  | mapped (e : Word)
  /-- The entry for `va` in the table at `t` is absent; `n` tables are missing below it. -/
  | room (t : Word) (n : Nat)
deriving DecidableEq, Repr

/-- The pre-walk from the table at `t`, which is `d` levels above the terminal level
(43_mapper.md R191 phase 1). -/
def mapWalkFrom (va : Word) (c : SizeClass) : Nat → Word → State → Port MapEnd
  | 0, t, s =>
    match memRead (entryPa (terminalLevel c) va t) s with
    | .stop s' => .stop s'
    | .ok e s' => if isPresent e then .ok (.mapped e) s' else .ok (.room t 0) s'
  | d + 1, t, s =>
    match memRead (entryPa (terminalLevel c + d + 1) va t) s with
    | .stop s' => .stop s'
    | .ok e s' =>
      if !isPresent e then .ok (.room t (d + 1)) s'
      else if isHuge e then .ok (.parentHuge (terminalLevel c + d + 1)) s'
      else mapWalkFrom va c d (entryAddr e) s'

/-- Phase 1 of MAP_TO (43_mapper.md R191). -/
def mapWalk (va : Word) (c : SizeClass) (s : State) : Port MapEnd :=
  mapWalkFrom va c (4 - terminalLevel c) s.rootFrame s

/-- The outcomes of the allocation phase (43_mapper.md R191 phase 2). -/
inductive AllocEnd where
  | got (frames : List Word) (s : State)
  | failed (frames : List Word) (s : State)
  | stop (s : State)

/-- A frame the allocator may answer with: a valid 4 KiB frame (20_memory.md R64). Whether it is in
use the walker cannot check (log entry 18). -/
def validFrame (f : Word) : Bool := validPa f && alignedTo .s4K f

/-- Ask for `n` more frames, with `got` those obtained so far, in request order (43_mapper.md R191
phase 2, R196). -/
def allocFrames : Nat → List Word → State → AllocEnd
  | 0, got, s => .got got s
  | n + 1, got, s =>
    match s.nextAnswer with
    | none => .failed got s.takeAnswer
    | some f =>
      if validFrame f then allocFrames n (got ++ [f]) s.takeAnswer
      else .stop (s.takeAnswer.takeFault .allocProtocol)

/-- The 512 writes that zero the table at `f`, in rising order (20_memory.md R58). -/
def zeroWrites (f : Word) : List (Nat × Word) :=
  (List.range Config.tableEntries).map fun i => (f.toNat + 8 * i, 0)

/-- The writes of phase 3 (43_mapper.md R191): each new table is zeroed and then linked, top-down,
and the leaf comes last (R193). `t` is the table with the absent entry for `va`. -/
def mapWrites (va : Word) (c : SizeClass) (link leaf : Word) : Word → List Word → List (Nat × Word)
  | t, [] => [(entryPa (terminalLevel c) va t, leaf)]
  | t, f :: fs =>
    zeroWrites f ++
      (entryPa (terminalLevel c + fs.length + 1) va t, f ||| link) :: mapWrites va c link leaf f fs

/-- ALLOC_FAILED with the frames already obtained (43_mapper.md R196). -/
def raiseAllocFailed (frames : List Word) (s : State) : State :=
  s.raise .allocFailed (BitVec.ofNat 64 frames.length) (frames.getD 0 0) (frames.getD 1 0)

/-- Phases 2 and 3 of MAP_TO for `n` missing tables below the entry in `t` (43_mapper.md R191).
DESIGN CHOICE, unsafe (log entry 18): for a valid frame that is in use, or that is answered twice,
20_memory.md R64 "leaves the results unsaid"; here it is zeroed and linked as every other frame. -/
def mapInstall (c : SizeClass) (va pa f : Word) (t : Word) (n : Nat) (s : State) : State :=
  match allocFrames n [] s with
  | .failed frames s' => raiseAllocFailed frames s'
  | .stop s' => s'
  | .got frames s' =>
    (memWrites (mapWrites va c (nonLeafFlags f) (leafEntry c pa f) t frames) s').run fun _ s'' =>
      (s''.issueToken c va).complete va (BitVec.ofNat 64 n) 0 0 0

/-- Phases 1 to 3 of MAP_TO (43_mapper.md R191). -/
def mapPhases (c : SizeClass) (va pa f : Word) (s : State) : State :=
  (mapWalk va c s).run fun w s' =>
    match w with
    | .parentHuge l => s'.raise .parentHuge (levelWord l)
    | .mapped e => s'.raise .alreadyMapped (entryAddr e)
    | .room t n => mapInstall c va pa f t n s'

/-- MAP_TO.S (43_mapper.md R191). -/
def mapToBody (c : SizeClass) (s : State) : State :=
  let va := s.operand0
  let pa := s.operand1
  let f := s.operandFlags
  mapperReady s
    (checkPage s c va
      (checkPhysical s pa (checkPaAligned s c pa (checkFlags s c f (mapPhases c va pa f s)))))

/-- MAP_TO.4K (43_mapper.md R191). -/
def execMapTo4K (s : State) : Host.Outcome State Fault Refusal := command (mapToBody .s4K) s

/-- MAP_TO.2M (43_mapper.md R191). -/
def execMapTo2M (s : State) : Host.Outcome State Fault Refusal := command (mapToBody .s2M) s

/-- MAP_TO.1G (43_mapper.md R191). -/
def execMapTo1G (s : State) : Host.Outcome State Fault Refusal := command (mapToBody .s1G) s

/-- IDENTITY_MAP.S (43_mapper.md R197): the page is the frame's own address. -/
def identityMapBody (c : SizeClass) (s : State) : State :=
  let pa := s.operand1
  let f := s.operandFlags
  mapperReady s
    (checkPhysical s pa
      (checkPaAligned s c pa (checkCanonical s pa (checkFlags s c f (mapPhases c pa pa f s)))))

/-- IDENTITY_MAP.4K (43_mapper.md R197). -/
def execIdentityMap4K (s : State) : Host.Outcome State Fault Refusal :=
  command (identityMapBody .s4K) s

/-- IDENTITY_MAP.2M (43_mapper.md R197). -/
def execIdentityMap2M (s : State) : Host.Outcome State Fault Refusal :=
  command (identityMapBody .s2M) s

/-- IDENTITY_MAP.1G (43_mapper.md R197). -/
def execIdentityMap1G (s : State) : Host.Outcome State Fault Refusal :=
  command (identityMapBody .s1G) s

/-- What UNMAP.S does with the terminal entry `e` at `ea` (43_mapper.md R198). -/
def unmapTerminal (c : SizeClass) (va : Word) (ea : Nat) (e : Word) (s : State) : State :=
  if !isPresent e then s.raise .notMapped (levelWord (terminalLevel c))
  else if !classMatch c e then s.raise .sizeMismatch (levelWord (terminalLevel c))
  else if !alignedTo c (entryAddr e) then s.raise .invalidFrameAddr (entryAddr e)
  else (memWrite ea 0 s).run fun _ s' =>
    (s'.issueToken c va).complete (entryAddr e) 0 0 0 0

/-- UNMAP.S (43_mapper.md R198). -/
def unmapBody (c : SizeClass) (s : State) : State :=
  let va := s.operand0
  mapperReady s
    (checkPage s c va
      ((walk va c s).run fun w s' =>
        match w with
        | .absent l => s'.raise .notMapped (levelWord l)
        | .hugeAbove l _ => s'.raise .sizeMismatch (levelWord l)
        | .malformed l _ => s'.raise .sizeMismatch (levelWord l)
        | .terminal ea e => unmapTerminal c va ea e s'))

/-- UNMAP.4K (43_mapper.md R198). -/
def execUnmap4K (s : State) : Host.Outcome State Fault Refusal := command (unmapBody .s4K) s

/-- UNMAP.2M (43_mapper.md R198). -/
def execUnmap2M (s : State) : Host.Outcome State Fault Refusal := command (unmapBody .s2M) s

/-- UNMAP.1G (43_mapper.md R198). -/
def execUnmap1G (s : State) : Host.Outcome State Fault Refusal := command (unmapBody .s1G) s

/-- What UPDATE_FLAGS.S does with the terminal entry `e` at `ea` (43_mapper.md R199): the address
field is kept bit for bit, the old flags are replaced. -/
def updateTerminal (c : SizeClass) (va f : Word) (ea : Nat) (e : Word) (s : State) : State :=
  if !isPresent e || !classMatch c e then s.raise .notMapped (levelWord (terminalLevel c))
  else (memWrite ea (leafEntry c (entryAddr e) f) s).run fun _ s' =>
    (s'.issueToken c va).complete (leafEntry c (entryAddr e) f) 0 0 0 0

/-- UPDATE_FLAGS.S (43_mapper.md R199). -/
def updateFlagsBody (c : SizeClass) (s : State) : State :=
  let va := s.operand0
  let f := s.operandFlags
  mapperReady s
    (checkPage s c va
      (checkFlags s c f
        ((walk va c s).run fun w s' =>
          match w with
          | .absent l => s'.raise .notMapped (levelWord l)
          | .hugeAbove l _ => s'.raise .notMapped (levelWord l)
          | .malformed l _ => s'.raise .notMapped (levelWord l)
          | .terminal ea e => updateTerminal c va f ea e s')))

/-- UPDATE_FLAGS.4K (43_mapper.md R199). -/
def execUpdateFlags4K (s : State) : Host.Outcome State Fault Refusal :=
  command (updateFlagsBody .s4K) s

/-- UPDATE_FLAGS.2M (43_mapper.md R199). -/
def execUpdateFlags2M (s : State) : Host.Outcome State Fault Refusal :=
  command (updateFlagsBody .s2M) s

/-- UPDATE_FLAGS.1G (43_mapper.md R199). -/
def execUpdateFlags1G (s : State) : Host.Outcome State Fault Refusal :=
  command (updateFlagsBody .s1G) s

end Sys2Proof.Machine
end

