-- ==== Sys2Proof/Machine/Dispatch.lean ====
section
/-! DEFINITION. The dispatch: the meaning of every command (30_encoding.md R88). -/

namespace Sys2Proof.Machine

def exec (i : Instr) (s : State) : Host.Outcome State Fault Refusal :=
  match i with
  | .vaTryNew => Sys2Proof.Machine.execVaTryNew s
  | .vaNewUnchecked => Sys2Proof.Machine.execVaNewUnchecked s
  | .vaSplit => Sys2Proof.Machine.execVaSplit s
  | .vaAdd => Sys2Proof.Machine.execVaAdd s
  | .vaSub => Sys2Proof.Machine.execVaSub s
  | .paTryNew => Sys2Proof.Machine.execPaTryNew s
  | .paAdd => Sys2Proof.Machine.execPaAdd s
  | .paSub => Sys2Proof.Machine.execPaSub s
  | .paIsAligned => Sys2Proof.Machine.execPaIsAligned s
  | .paAlignDown => Sys2Proof.Machine.execPaAlignDown s
  | .paAlignUp => Sys2Proof.Machine.execPaAlignUp s
  | .entryDecode => Sys2Proof.Machine.execEntryDecode s
  | .entryEncode4K => Sys2Proof.Machine.execEntryEncode4K s
  | .entryEncode2M => Sys2Proof.Machine.execEntryEncode2M s
  | .entryEncode1G => Sys2Proof.Machine.execEntryEncode1G s
  | .tableRead => Sys2Proof.Machine.execTableRead s
  | .mapTo4K => Sys2Proof.Machine.execMapTo4K s
  | .mapTo2M => Sys2Proof.Machine.execMapTo2M s
  | .mapTo1G => Sys2Proof.Machine.execMapTo1G s
  | .identityMap4K => Sys2Proof.Machine.execIdentityMap4K s
  | .identityMap2M => Sys2Proof.Machine.execIdentityMap2M s
  | .identityMap1G => Sys2Proof.Machine.execIdentityMap1G s
  | .unmap4K => Sys2Proof.Machine.execUnmap4K s
  | .unmap2M => Sys2Proof.Machine.execUnmap2M s
  | .unmap1G => Sys2Proof.Machine.execUnmap1G s
  | .updateFlags4K => Sys2Proof.Machine.execUpdateFlags4K s
  | .updateFlags2M => Sys2Proof.Machine.execUpdateFlags2M s
  | .updateFlags1G => Sys2Proof.Machine.execUpdateFlags1G s
  | .translatePage4K => Sys2Proof.Machine.execTranslatePage4K s
  | .translatePage2M => Sys2Proof.Machine.execTranslatePage2M s
  | .translatePage1G => Sys2Proof.Machine.execTranslatePage1G s
  | .translate => Sys2Proof.Machine.execTranslate s
  | .translateAddr => Sys2Proof.Machine.execTranslateAddr s
  | .flushToken => Sys2Proof.Machine.execFlushToken s
  | .ignoreToken => Sys2Proof.Machine.execIgnoreToken s
  | .setRoot => Sys2Proof.Machine.execSetRoot s

end Sys2Proof.Machine
end

