-- ==== Sys2Proof/Machine/Agents.lean ====
section
/-! DEFINITION. What the agents around the walker do, one action at a time: the host's accesses to
the register window and to memory, the core's miss path and TLB, and the platform's reset
(00_scope.md R6, 10_state.md R30, 20_memory.md R66 and R70, 42 R169, 70 R280). -/

namespace Sys2Proof.Machine

/-- A word written to `CMD` (10_state.md R21): FAULTED while the sticky fault holds, and the word is
then not decoded (60_exceptions.md R253 step 1, R257); ILLEGAL_COMMAND for an illegal word (R253
step 2, 30_encoding.md R89); else the command runs. -/
def issueWord (w : CommandWord) (s : State) : Host.Outcome State Fault Refusal :=
  if s.flt then .next s.raiseFaulted
  else
    match decode w with
    | .error _ => .next (s.raise .illegalCommand (w.setWidth 64))
    | .ok i => exec i s

/-- A command starts with no port event (20_memory.md R61; log entry 10). -/
def State.clearPorts (s : State) : State := { s with ports := [] }

/-- A host write of a slot of the register window (10_state.md R30): ARG0..ARG2 take the value, CMD
takes bits 31:0 as a command, every other slot ignores the write. -/
def hostWrite (slot : BitVec 4) (v : Word) (s : State) : Host.Outcome State Fault Refusal :=
  match slot.toNat with
  | 0 => .next { s with arg0 := v }
  | 1 => .next { s with arg1 := v }
  | 2 => .next { s with arg2 := v }
  | 3 => issueWord (v.setWidth 32) s.clearPorts
  | _ => .next s

/-- A direct host access of `n` bytes must lie in physical memory (20_memory.md R51, R70(a)). -/
def hostAccess (pa : Word) (n : Nat) (s : State) : Host.Outcome State Fault Refusal :=
  if pa.toNat + n ≤ Config.physicalBytes then .next s else .fault (.noSuchPhysicalAddress pa)

/-- The core's miss path for `va`: `ARG0 <- va`, then TRANSLATE. On OK the core uses `RES0`; on any
other status it takes its own translation fault (42_walk_translate.md R169). DESIGN CHOICE, unsafe
(log entry 20): no host access falls between the write of ARG0 and the issue of TRANSLATE, or before
the core reads RES0; R169 does not say whether one may. -/
def missPath (va : Word) (s : State) : Host.Outcome State Fault Refusal :=
  match issueWord (encode .translate) { s.clearPorts with arg0 := va } with
  | .next t =>
    .next { t with coreXlat := if t.status = Status.ok.code then some t.res0 else none }
  | .fault r => .fault r
  | .refused r => .refused r

/-- The TLB entry at a place, if it covers `va`. -/
def State.cachedFor (s : State) (va : Word) (n : Option Nat) : Option TlbEntry :=
  (n.bind fun k => s.tlb[k]?).filter fun e => e.covers va

/-- The physical address an entry gives for an address in its page (20_memory.md R66(e)). -/
def TlbEntry.translate (e : TlbEntry) (va : Word) : Word := e.frame + (va - e.page)

/-- A translation the core uses: by a cached entry that covers the address, or by a fresh walk of
the current tree (20_memory.md R66(e)). -/
def coreAccess (va : Word) (cached : Option Nat) (s : State) : Host.Outcome State Fault Refusal :=
  match s.cachedFor va cached with
  | some e => .next { s with coreXlat := some (e.translate va) }
  | none => missPath va s

/-- The TLB takes up an offered translation (20_memory.md R66(a)). -/
def State.tlbFill (s : State) (n : Nat) : State :=
  match s.fillable[n]? with
  | some e => { s with tlb := e :: s.tlb }
  | none => s

/-- The TLB drops an entry (20_memory.md R66(b)). -/
def State.tlbEvict (s : State) (n : Nat) : State := { s with tlb := s.tlb.eraseIdx n }

/-- A command of which these port events happened and the rest do not: every walker register takes
its reset value (70_reset_and_hazards.md R280, R281). -/
def State.abandoned (s : State) (events : List PortEvent) : State :=
  (s.clearPorts.replay events).walkerReset

/-- Reset in the middle of the command `w`, after `n` of its port events (R280). -/
def resetDuring (w : CommandWord) (n : Nat) (s : State) : Host.Outcome State Fault Refusal :=
  match issueWord w s.clearPorts with
  | .next t => .next (s.abandoned (t.ports.reverse.take n))
  | .fault r => .fault r
  | .refused r => .refused r

/-- A command starts (10_state.md R21, 42_walk_translate.md R169). -/
def startCommand (source : CommandSource) (s : State) : Host.Outcome State Fault Refusal :=
  match source with
  | .host w => issueWord w s.clearPorts
  | .core va => missPath va s

/-- The state after a race, where `t` is what the command gave with the reads as drawn: memory has
every write in its place among the command's own (20_memory.md R56, R68). DESIGN CHOICE, unsafe (log
entry 20): a core's access whose TRANSLATE a reset abandons gets no answer, and `coreXlat` stays;
70_reset_and_hazards.md R280 does not say what the core gets. -/
def State.raceDone (s : State) (rs : List RacingWrite) (reset : Option Nat) (t : State) : State :=
  match reset with
  | none =>
    { t with mem := s.mem.writeAll (raceWrites rs 0 (writesOf t.ports.reverse)), views := [] }
  | some n =>
    { s.abandoned (t.ports.reverse.take n) with
      mem := s.mem.writeAll (raceWrites rs 0 (writesOf (t.ports.reverse.take n))), views := [] }

/-- A command that other agents' writes race with: each of its reads returns old or new bytes, as
drawn (20_memory.md R62(c), R68; 93_implementation_defined.md U4, U10). -/
def raceCommand (source : CommandSource) (rs : List RacingWrite) (draws : List (List Bool))
    (reset : Option Nat) (s : State) : Host.Outcome State Fault Refusal :=
  match rs.find? fun r => decide (Config.physicalBytes < r.pa.toNat + 8) with
  | some r => .fault (.noSuchPhysicalAddress r.pa)
  | none =>
    match startCommand source { s with views := draws.map (seenWrites rs) } with
    | .next t => .next (s.raceDone rs reset t)
    | .fault r => .fault r
    | .refused r => .refused r

/-- The host's own actions (00_scope.md R6); the others are those of the core, the TLB and the
platform. A command that the host starts is the host's, also where another agent races with it or
the platform resets the walker in it (log entry 5). -/
def byHost (a : Action) : Bool :=
  match a with
  | .write _ _ => true
  | .read _ => true
  | .memWrite _ _ => true
  | .memRead _ => true
  | .memWriteByte _ _ => true
  | .memReadByte _ => true
  | .writeIfOk _ _ => true
  | .haltUnlessOk => true
  | .reset => false
  | .resetDuring _ _ => true
  | .race (.host _) _ _ _ => true
  | .race (.core _) _ _ _ => false
  | .access _ _ => false
  | .tlbFill _ => false
  | .tlbEvict _ => false
  | .tlbInvalidate _ _ => true

/-- The host's actions that can issue a command: a write of `CMD` (10_state.md R21, R30). -/
def issuesCommand (a : Action) : Bool :=
  match a with
  | .write slot _ => slot.toNat == 3
  | .writeIfOk slot _ => slot.toNat == 3
  | .resetDuring _ _ => true
  | .race (.host _) _ _ _ => true
  | _ => false

/-- Whether the host issues a command with this action in this state (30_encoding.md R96 for the
conditional write). -/
def State.hostIssues (s : State) (a : Action) : Bool :=
  issuesCommand a &&
    match a with
    | .writeIfOk _ _ => s.status == Status.ok.code
    | _ => true

/-- What is left of an action when the host stops its program: another agent's action, and the
platform's reset in a command that the host then does not start (log entry 5). -/
def withoutHost (a : Action) : Option Action :=
  match a with
  | .resetDuring _ _ => some .reset
  | .race (.host _) _ _ (some _) => some .reset
  | _ => if byHost a then none else some a

/-- The host stops its program: the actions of the other agents stay (30_encoding.md R96, log
entry 5). -/
def State.hostStops (s : State) : State := { s with pending := s.pending.filterMap withoutHost }

/-- One action of an agent. DESIGN CHOICE, unsafe (log entry 12): an access of memory at an address
of the register window reaches memory only, never a register. DESIGN CHOICE, unsafe (log entry 21):
in `writeIfOk` nothing falls between the read of `STATUS` and the write. -/
def act (a : Action) (s : State) : Host.Outcome State Fault Refusal :=
  match a with
  | .write slot v => hostWrite slot v s
  | .read slot => .next { s with hostData := s.readSlot slot }
  | .memWrite pa v => hostAccess pa 8 { s with mem := s.mem.write64 pa.toNat v }
  | .memRead pa => hostAccess pa 8 { s with hostData := s.mem.read64 pa.toNat }
  | .memWriteByte pa b => hostAccess pa 1 { s with mem := s.mem.writeByte pa.toNat b }
  | .memReadByte pa => hostAccess pa 1 { s with hostData := (s.mem.readByte pa.toNat).setWidth 64 }
  | .writeIfOk slot v => if s.status = Status.ok.code then hostWrite slot v s else .next s
  | .haltUnlessOk => .next (if s.status = Status.ok.code then s else s.hostStops)
  | .reset => .next s.walkerReset
  | .resetDuring w n => resetDuring w n s
  | .race source rs draws reset => raceCommand source rs draws reset s
  | .access va cached => coreAccess va cached s
  | .tlbFill n => .next (s.tlbFill n)
  | .tlbEvict n => .next (s.tlbEvict n)
  | .tlbInvalidate first last => .next (s.tlbInvalidate first last)

/-- The number of the `CMD` slot (10_state.md R30). -/
def cmdSlot : BitVec 4 := 3

/-- The table word `w` as a command word: its low `nbits` bits. -/
def tableCommand (nbits w : Nat) : CommandWord := BitVec.ofNat 32 (w % 2 ^ nbits)

end Sys2Proof.Machine
end

