-- ==== Sys2Proof/Machine/Step.lean ====
section
/-! DEFINITION. One step: the next pending action of an agent, or nothing. -/

namespace Sys2Proof.Machine

/-- One step takes the next pending action (10_state.md R27: host actions are what a model numbers).
With none pending the run has ended and the walker holds its state (44_flush_root.md R233,
60_exceptions.md R261). -/
def step (s : State) : Host.Outcome State Fault Refusal :=
  match s.pending with
  | [] => .next s
  | a :: rest => act a { s with pending := rest }

/-- `s` with a write of the command word to `CMD` as the next action (log entry 1). -/
def State.withFetchWord (s : State) (nbits w : Nat) : State :=
  { s with pending := .write cmdSlot ((tableCommand nbits w).setWidth 64) :: s.pending }

end Sys2Proof.Machine
end

