-- ==== Sys2Proof/Machine/Program.lean ====
section
/-! DEFINITION. Host programs: the lines of the host's assembler and its pseudo-instructions as
structured terms, and the actions they stand for (30_encoding.md R95, R96). -/

namespace Sys2Proof.Machine

/-- The mnemonic of a command, with its size suffix (30_encoding.md R88, R95). -/
def mnemonicOf : Instr → String
  | .vaTryNew => "VA_TRY_NEW"
  | .vaNewUnchecked => "VA_NEW_UNCHECKED"
  | .vaSplit => "VA_SPLIT"
  | .vaAdd => "VA_ADD"
  | .vaSub => "VA_SUB"
  | .paTryNew => "PA_TRY_NEW"
  | .paAdd => "PA_ADD"
  | .paSub => "PA_SUB"
  | .paIsAligned => "PA_IS_ALIGNED"
  | .paAlignDown => "PA_ALIGN_DOWN"
  | .paAlignUp => "PA_ALIGN_UP"
  | .entryDecode => "ENTRY_DECODE"
  | .entryEncode4K => "ENTRY_ENCODE.4K"
  | .entryEncode2M => "ENTRY_ENCODE.2M"
  | .entryEncode1G => "ENTRY_ENCODE.1G"
  | .tableRead => "TABLE_READ"
  | .mapTo4K => "MAP_TO.4K"
  | .mapTo2M => "MAP_TO.2M"
  | .mapTo1G => "MAP_TO.1G"
  | .identityMap4K => "IDENTITY_MAP.4K"
  | .identityMap2M => "IDENTITY_MAP.2M"
  | .identityMap1G => "IDENTITY_MAP.1G"
  | .unmap4K => "UNMAP.4K"
  | .unmap2M => "UNMAP.2M"
  | .unmap1G => "UNMAP.1G"
  | .updateFlags4K => "UPDATE_FLAGS.4K"
  | .updateFlags2M => "UPDATE_FLAGS.2M"
  | .updateFlags1G => "UPDATE_FLAGS.1G"
  | .translatePage4K => "TRANSLATE_PAGE.4K"
  | .translatePage2M => "TRANSLATE_PAGE.2M"
  | .translatePage1G => "TRANSLATE_PAGE.1G"
  | .translate => "TRANSLATE"
  | .translateAddr => "TRANSLATE_ADDR"
  | .flushToken => "FLUSH_TOKEN"
  | .ignoreToken => "IGNORE_TOKEN"
  | .setRoot => "SET_ROOT"

/-- A line of a host program (30_encoding.md R95) or a pseudo-instruction (R96). Immediates are
64-bit values; comments are no line. -/
inductive HostLine where
  /-- `WR ARGi, imm`. -/
  | wr (i : Fin 3) (imm : Word)
  /-- A mnemonic line: the command word goes to `CMD`. -/
  | cmd (i : Instr)
  /-- `RD reg`. -/
  | rd (slot : BitVec 4)
  /-- `MEMW pa, imm`. -/
  | memw (pa imm : Word)
  /-- `VA_NEW`: VA_TRY_NEW, a non-OK status being a fatal program error. -/
  | vaNew
  /-- `PA_NEW`: PA_TRY_NEW, likewise. -/
  | paNew
  /-- `ARGS a, b, c`. -/
  | args (a b c : Word)
  /-- `MAP_FLUSH.S`. -/
  | mapFlush (c : SizeClass)
  /-- `UNMAP_FLUSH.S`. -/
  | unmapFlush (c : SizeClass)
  /-- `UPDATE_FLUSH.S`. -/
  | updateFlush (c : SizeClass)
deriving DecidableEq, Repr

/-- The host writes a command's word to `CMD` (30_encoding.md R95). -/
def cmdWrite (i : Instr) : Action := .write cmdSlot ((encode i).setWidth 64)

/-- The host writes FLUSH_TOKEN to `CMD` if `STATUS` is OK (30_encoding.md R96), in one action with
its read of `STATUS` (log entry 21). -/
def flushIfOk : Action := .writeIfOk cmdSlot ((encode .flushToken).setWidth 64)

/-- The actions of a line (30_encoding.md R95, R96). -/
def assembleLine : HostLine → List Action
  | .wr i imm => [.write (BitVec.ofNat 4 i.val) imm]
  | .cmd i => [cmdWrite i]
  | .rd slot => [.read slot]
  | .memw pa imm => [.memWrite pa imm]
  | .vaNew => [cmdWrite .vaTryNew, .haltUnlessOk]
  | .paNew => [cmdWrite .paTryNew, .haltUnlessOk]
  | .args a b c => [.write 0 a, .write 1 b, .write 2 c]
  | .mapFlush c => [cmdWrite (Instr.mapTo c), flushIfOk]
  | .unmapFlush c => [cmdWrite (Instr.unmap c), flushIfOk]
  | .updateFlush c => [cmdWrite (Instr.updateFlags c), flushIfOk]

/-- The actions of a host program. -/
def assemble (lines : List HostLine) : List Action := lines.flatMap assembleLine

end Sys2Proof.Machine
end

