-- ==== Sys2Proof/Safety.lean ====
section
/-! DEFINITION. What claims speak of: the invariants of the walker's state (10_state.md R35), runs
that end well (44_flush_root.md R233), the tables a walk reaches (42_walk_translate.md R160), and
valid trees (70_reset_and_hazards.md R283). -/

namespace Sys2Proof.Machine

/-- The invariants of 10_state.md R35, on the values the host reads. -/
def State.RegistersOk (s : State) : Prop :=
  (s.tv = false → s.tokenVa = 0 ∧ s.tsz = 0) ∧
  (s.flt = false ↔ s.fcause = 0) ∧
  (s.rv = true → (s.readSlot 10).extractLsb' 52 12 = 0)

/-- A token names a page of its class (10_state.md R25), in the tree of a root that was handed over
(95_test_vectors.md 2.6: a token needs a mutation, a mutation needs a root). -/
def State.TokenOk (s : State) : Prop :=
  s.tv = true →
    s.rv = true ∧ canonical s.tokenVa = true ∧
      ∃ c : SizeClass, s.tsz = c.code ∧ s.tokenVa.toNat % sizeBytes c = 0

/-- Only the codes of 30_encoding.md R92 and R94 are ever written. -/
def State.CodesOk (s : State) : Prop := s.status.toNat ≤ 0x12 ∧ s.fcause.toNat ≤ 2

/-- A TLB entry maps a page of its class to a frame of its class (00_scope.md R13). -/
def TlbEntry.Aligned (e : TlbEntry) : Prop :=
  e.page.toNat % sizeBytes e.cls = 0 ∧ e.frame.toNat % sizeBytes e.cls = 0 ∧
    e.frame.toNat < 2 ^ 52

/-- The TLB, and what it may take up, hold aligned translations. -/
def State.TlbOk (s : State) : Prop :=
  (∀ e ∈ s.tlb, e.Aligned) ∧ ∀ e ∈ s.fillable, e.Aligned

/-- Every address listed in memory is a physical address (20_memory.md R51). -/
def Memory.InSpace (m : Memory) : Prop := ∀ c ∈ m, c.1 < Config.physicalBytes

/-- The host has no command left to issue (44_flush_root.md R233, 92_eei_decisions.md D48). -/
def State.hostDone (s : State) : Bool := s.pending.all fun a => !issuesCommand a

/-- The state at the point where the host stops issuing commands, in the run of at most `n` steps
from `s`: that after the last command it issues, or `c`, if it issues none from `s` on. DESIGN
CHOICE, unsafe (log entry 5): there is no such point when the model's fault `noSuchPhysicalAddress`
stops the run while the host still has commands to issue. -/
def State.atHostStop : Nat → State → State → Option State
  | 0, s, c => if s.hostDone then some c else none
  | n + 1, s, c =>
    if s.hostDone then some c
    else
      match step s with
      | .next t =>
        State.atHostStop n t (if s.pending.head?.any s.hostIssues then t else c)
      | _ => none

/-- The run from `s` is well ended: at the point where the host stops issuing commands, no token is
outstanding and no fault is set (44_flush_root.md R233). What comes after that point, the host's own
reads among it, does not count. Every step takes an action, so the run needs no more steps than
there are actions. -/
def State.wellEnded (s : State) : Bool :=
  (State.atHostStop s.pending.length s s).any fun t => !t.tv && !t.flt

/-- With this action in this state the walker runs the command `i` to its end: the host writes its
word to `CMD`, or the core's miss path issues TRANSLATE (10_state.md R21, 60_exceptions.md R257,
42_walk_translate.md R169). -/
def State.Runs (s : State) (a : Action) (i : Instr) : Prop :=
  s.flt = false ∧
    match a with
    | .write slot v => slot = 3 ∧ decode (v.setWidth 32) = .ok i
    | .writeIfOk slot v => slot = 3 ∧ s.status = 0x00 ∧ decode (v.setWidth 32) = .ok i
    | .access va cached => s.cachedFor va cached = none ∧ i = .translate
    | .race (.host w) _ _ none => decode w = .ok i
    | .race (.core _) _ _ none => i = .translate
    | _ => False

/-- The entry for `va` in the level-`L` table at `t`. -/
def State.entryAt (s : State) (level : Nat) (va t : Word) : Word :=
  s.mem.read64 (entryPa level va t)

/-- Whether the memory port admits that entry. -/
def State.entryAdmitted (s : State) (level : Nat) (va t : Word) : Prop :=
  s.admits (entryPa level va t) 8 = true

/-- A walk for `va` reaches the level-`L` table at `t`: from the root, through admitted, present
entries without HUGE_PAGE (42_walk_translate.md R160, R161). -/
inductive Reaches (s : State) (va : Word) : Nat → Word → Prop where
  | root : Reaches s va 4 s.rootFrame
  | down {level : Nat} {t : Word} (above : Reaches s va (level + 1) t) (low : 1 ≤ level)
      (admitted : s.entryAdmitted (level + 1) va t)
      (present : (s.entryAt (level + 1) va t).getLsbD 0 = true)
      (small : (s.entryAt (level + 1) va t).getLsbD 7 = false) :
      Reaches s va level (s.entryAt (level + 1) va t &&& Config.addrMask)

/-- The walk for `va` stops at level `L`, whose entry `e` it reads in a table it reaches. -/
def State.WalkReads (s : State) (va : Word) (level : Nat) (e : Word) : Prop :=
  ∃ t, Reaches s va level t ∧ s.entryAdmitted level va t ∧ e = s.entryAt level va t

/-- The table at `t` of the given level is valid: admitted, and every present entry is a legal leaf
or points to a valid table (70_reset_and_hazards.md R283). DESIGN CHOICE, unsafe (log entry 22): a
table is admitted when the port admits the 8 bytes of each of its entries, as the walker reads them;
R283 does not say whether it asks this or `PHYS_ADMITS` of the 4096 bytes at once. -/
def State.ValidTable (s : State) : Nat → Word → Prop
  | 0, _ => False
  | level + 1, t =>
    ∀ i < Config.tableEntries,
      s.admits (t.toNat + 8 * i) 8 = true ∧
      match decodeEntry (level + 1) (s.mem.read64 (t.toNat + 8 * i)) with
      | .absent => True
      | .leaf _ _ => True
      | .malformed => False
      | .table t' => s.ValidTable level t'

/-- The tree under the root is valid (70_reset_and_hazards.md R283). DESIGN CHOICE, unsafe (log entry
22): the root table must be admitted too, which R283 says only of tables that entries point to. -/
def State.ValidTree (s : State) : Prop := s.ValidTable 4 s.rootFrame

/-- The canonical addresses, by the bounds of their two halves (20_memory.md R50). -/
def CanonicalAddress (v : Word) : Prop := v.toNat < 2 ^ 47 ∨ 2 ^ 64 - 2 ^ 47 ≤ v.toNat

/-- The physical addresses, by their bound (20_memory.md R51). -/
def PhysicalAddress (v : Word) : Prop := v.toNat < 2 ^ 52

/-- The page address of a tree command passes its checks: canonical, and a multiple of the size of
its class (43_mapper.md R190 step 3). -/
def GoodPage (c : SizeClass) (va : Word) : Prop :=
  CanonicalAddress va ∧ va.toNat % sizeBytes c = 0

/-- The frame address of a mapper command passes its checks (43_mapper.md R190 step 3). -/
def GoodFrame (c : SizeClass) (pa : Word) : Prop :=
  PhysicalAddress pa ∧ pa.toNat % sizeBytes c = 0

/-- The flags of a mapper command pass their checks (43_mapper.md R190 step 4). -/
def GoodFlags (c : SizeClass) (f : Word) : Prop :=
  f &&& Config.addrMask = 0 ∧ (c = .s4K → f.getLsbD 7 = false)

/-- The state after a completion with the given status code and results: nothing else changes
(00_scope.md R10, 10_state.md R22). -/
def State.answered (s : State) (code : BitVec 8) (r0 r1 r2 r3 r4 : Word) : State :=
  { s with status := code, res0 := r0, res1 := r1, res2 := r2, res3 := r3, res4 := r4 }

/-- The state after a mutation of page `va` of class `c` that left memory as `m` and answered OK:
the token is issued (43_mapper.md R201). -/
def State.mutated (s : State) (m : Memory) (c : SizeClass) (va r0 r1 : Word) : State :=
  { s.answered 0x00 r0 r1 0 0 0 with mem := m, tv := true, tokenVa := va, tsz := c.code }

/-- The state after the sticky fault with the given cause code (60_exceptions.md R256). -/
def State.faultedWith (s : State) (cause : BitVec 8) : State :=
  { s.answered 0x12 (cause.setWidth 64) 0 0 0 0 with flt := true, fcause := cause }

/-- The commands that change the tree (00_scope.md R13, structural mutations). -/
def Mutates (i : Instr) : Prop :=
  ∃ c, i = Instr.mapTo c ∨ i = Instr.identityMap c ∨ i = Instr.unmap c ∨ i = Instr.updateFlags c

/-- The commands that ask the allocator (20_memory.md R63). -/
def Allocates (i : Instr) : Prop := ∃ c, i = Instr.mapTo c ∨ i = Instr.identityMap c

/-- The commands that walk the tree (44_flush_root.md R235). -/
def Walks (i : Instr) : Prop :=
  Mutates i ∨ i = .translate ∨ i = .translateAddr ∨ ∃ c, i = Instr.translatePage c

/-- The state after writes of 8 bytes in the order of the list, each performed on the memory port. -/
def State.storeWords (s : State) (ws : List (Nat × Word)) : State :=
  ws.foldl (fun s w => s.storeWord w.1 w.2) s

/-- The reads among port events. -/
def readCount (events : List PortEvent) : Nat :=
  events.countP fun e => match e with | .read _ => true | _ => false

/-- The writes among port events. -/
def writeCount (events : List PortEvent) : Nat :=
  events.countP fun e => match e with | .write _ _ => true | _ => false

/-- The allocator calls among port events. -/
def allocCount (events : List PortEvent) : Nat :=
  events.countP fun e => match e with | .alloc _ => true | _ => false

/-- The TLB invalidations among port events. -/
def flushCount (events : List PortEvent) : Nat :=
  events.countP fun e => match e with | .flush _ => true | _ => false

end Sys2Proof.Machine
end

