-- ==== Sys2Proof/Certificates/Slice0/Obligations.lean ====
section
/-! DEFINITION. The statements for the provers. Results are given as `State.answered`, `mutated` and
`faultedWith` (Safety.lean): record updates, so each equation is also the frame. Ports are the
model's own field; where a statement leaves them open it says so with `∃ ps`. A premise
`s.views = []` says that no write of another agent races with the command: it holds between any two
actions (`StepKeepsMachineInvariants`), and races are `RacedReadsSeeOldOrNew` (log entry 9). -/

open Sys2Proof Sys2Proof.Machine

/-! ### Encoding -/

/-- A word decodes to a command exactly when it is that command's word (30_encoding.md R88, R97). -/
def Obligations.DecodesExactlyItsEncoding : Prop :=
  ∀ (w : CommandWord) (i : Instr), decode w = .ok i ↔ w = encode i

/-- The words of 30_encoding.md R88, written out, decode to their commands. -/
def Obligations.SampleWordsDecode : Prop :=
  decode 0x00000001 = .ok .vaTryNew ∧ decode 0x0000004D = .ok .entryEncode1G ∧
  decode 0x0000000E = .ok .tableRead ∧ decode 0x00000030 = .ok .mapTo2M ∧
  decode 0x00000011 = .ok .identityMap4K ∧ decode 0x00000052 = .ok .unmap1G ∧
  decode 0x00000033 = .ok .updateFlags2M ∧ decode 0x00000014 = .ok .translatePage4K ∧
  decode 0x00000015 = .ok .translate ∧ decode 0x00000018 = .ok .flushToken ∧
  decode 0x0000001A = .ok .setRoot

/-- Which words are illegal, and what they answer (30_encoding.md R89). -/
def Obligations.IllegalWords : Prop :=
  (∀ w : CommandWord, (∃ i, decode w = .ok i) ↔
    w ∈ ([0x01, 0x02, 0x03, 0x04, 0x05, 0x06, 0x07, 0x08, 0x09, 0x0A, 0x0B, 0x0C, 0x0D, 0x2D, 0x4D,
      0x0E, 0x10, 0x30, 0x50, 0x11, 0x31, 0x51, 0x12, 0x32, 0x52, 0x13, 0x33, 0x53, 0x14, 0x34,
      0x54, 0x15, 0x16, 0x18, 0x19, 0x1A] : List CommandWord)) ∧
  (∀ w : CommandWord, (¬∃ i, decode w = .ok i) ↔
    (w.extractLsb' 7 25 ≠ 0 ∨
     w.extractLsb' 0 5 ∈ ([0x00, 0x0F, 0x17, 0x1B, 0x1C, 0x1D, 0x1E, 0x1F] : List (BitVec 5)) ∨
     (w.extractLsb' 0 5 ∈ ([0x0D, 0x10, 0x11, 0x12, 0x13, 0x14] : List (BitVec 5)) ∧
      w.extractLsb' 5 2 = 3) ∨
     (w.extractLsb' 0 5 ∈ ([0x01, 0x02, 0x03, 0x04, 0x05, 0x06, 0x07, 0x08, 0x09, 0x0A, 0x0B, 0x0C,
        0x0E, 0x15, 0x16, 0x18, 0x19, 0x1A] : List (BitVec 5)) ∧
      w.extractLsb' 5 2 ≠ 0))) ∧
  ∀ (s : State) (v : Word) (rest : List Action), s.pending = .write 3 v :: rest →
    (¬∃ i, decode (v.setWidth 32) = .ok i) →
    (s.flt = false → step s = .next
      (({ s with pending := rest, ports := [] } : State).answered 0x11
        ((v.setWidth 32 : CommandWord).setWidth 64) 0 0 0 0)) ∧
    (s.flt = true → step s = .next
      (({ s with pending := rest, ports := [] } : State).answered 0x12 (s.fcause.setWidth 64)
        0 0 0 0))

/-! ### The step, the register window, reset -/

/-- A legal word written to CMD runs its command: the step drops the action, empties the record of
port events, and is then the command's meaning; with nothing pending the machine holds its state
(10_state.md R21, 60_exceptions.md R261). -/
def Obligations.StepRunsDecodedCommand : Prop :=
  (∀ (s : State) (v : Word) (rest : List Action) (i : Instr), s.pending = .write 3 v :: rest →
    decode (v.setWidth 32) = .ok i → step s = exec i { s with pending := rest, ports := [] }) ∧
  ∀ s : State, s.pending = [] → step s = .next s

/-- The register window (10_state.md R30), with the layouts of UNIT (R26), STATUS (R23) and ROOT
(R24): what each slot reads as, and what a write of it does. That a host read lands in `hostData`
is the model's (log entry 11). -/
def Obligations.RegisterWindow : Prop :=
  (∀ (s : State) (slot : BitVec 4) (rest : List Action), s.pending = .read slot :: rest →
    step s = .next { s with pending := rest, hostData := s.readSlot slot }) ∧
  (∀ s : State,
    s.readSlot 0 = s.arg0 ∧ s.readSlot 1 = s.arg1 ∧ s.readSlot 2 = s.arg2 ∧ s.readSlot 3 = 0 ∧
    (s.readSlot 4).toNat = s.status.toNat ∧ s.readSlot 5 = s.res0 ∧ s.readSlot 6 = s.res1 ∧
    s.readSlot 7 = s.res2 ∧ s.readSlot 8 = s.res3 ∧ s.readSlot 9 = s.res4 ∧
    (s.readSlot 10).toNat = s.root.toNat ∧ s.readSlot 11 = s.tokenVa ∧
    (s.readSlot 12).toNat = s.rv.toNat + 2 * s.tv.toNat + 4 * s.flt.toNat + 8 * s.tsz.toNat +
      256 * s.fcause.toNat ∧
    s.readSlot 13 = 0 ∧ s.readSlot 14 = 0 ∧ s.readSlot 15 = 0) ∧
  (∀ (s : State) (v : Word) (rest : List Action),
    (s.pending = .write 0 v :: rest → step s = .next { s with pending := rest, arg0 := v }) ∧
    (s.pending = .write 1 v :: rest → step s = .next { s with pending := rest, arg1 := v }) ∧
    (s.pending = .write 2 v :: rest → step s = .next { s with pending := rest, arg2 := v }) ∧
    (s.pending = .write 3 v :: rest →
      step s = issueWord (v.setWidth 32) { s with pending := rest, ports := [] }) ∧
    ∀ slot : BitVec 4, 4 ≤ slot.toNat → s.pending = .write slot v :: rest →
      step s = .next { s with pending := rest }) ∧
  ∀ slot : BitVec 4, Config.slotAddress slot = Config.regBase + BitVec.ofNat 64 (8 * slot.toNat)

/-- Reset (10_state.md R34): every register of the walker is 0 after it and in `State.reset`, and
everything that is not the walker's stays as it is (70_reset_and_hazards.md R281). -/
def Obligations.ResetClearsTheWalkerOnly : Prop :=
  (∀ (s : State) (rest : List Action), s.pending = .reset :: rest →
    step s = .next
      { s with
        pending := rest
        arg0 := 0, arg1 := 0, arg2 := 0, status := 0x00
        res0 := 0, res1 := 0, res2 := 0, res3 := 0, res4 := 0
        root := 0, tokenVa := 0, rv := false, tv := false, flt := false, tsz := 0, fcause := 0 }) ∧
  State.reset.arg0 = 0 ∧ State.reset.arg1 = 0 ∧ State.reset.arg2 = 0 ∧
  State.reset.status = 0x00 ∧ State.reset.res0 = 0 ∧ State.reset.res1 = 0 ∧
  State.reset.res2 = 0 ∧ State.reset.res3 = 0 ∧ State.reset.res4 = 0 ∧ State.reset.root = 0 ∧
  State.reset.tokenVa = 0 ∧ State.reset.rv = false ∧ State.reset.tv = false ∧
  State.reset.flt = false ∧ State.reset.tsz = 0 ∧ State.reset.fcause = 0

/-- Reset in the middle of a command (70_reset_and_hazards.md R280): with `u` what the command alone
would have given, the writes among its first `n` port events stay performed and no other write
happens; the walker's registers are 0. With all port events let through, memory, allocator and TLB
are those of the finished command. The cut after whole port events is the model's (log entry 10). -/
def Obligations.ResetInMidCommand : Prop :=
  ∀ (s u : State) (w : CommandWord) (n : Nat) (rest : List Action),
    s.pending = .resetDuring w n :: rest →
    issueWord w { s with pending := rest, ports := [] } = .next u →
    ∃ t, step s = .next t ∧
      t.mem = s.mem.writeAll (writesOf (u.ports.reverse.take n)) ∧
      t.ports = (u.ports.reverse.take n).reverse ∧
      (u.ports.length ≤ n →
        t.mem = u.mem ∧ t.allocQ = u.allocQ ∧ t.allocCalls = u.allocCalls ∧ t.tlb = u.tlb) ∧
      t.arg0 = 0 ∧ t.arg1 = 0 ∧ t.arg2 = 0 ∧ t.status = 0 ∧ t.res0 = 0 ∧ t.res1 = 0 ∧ t.res2 = 0 ∧
      t.res3 = 0 ∧ t.res4 = 0 ∧ t.root = 0 ∧ t.tokenVa = 0 ∧ t.rv = false ∧ t.tv = false ∧
      t.flt = false ∧ t.tsz = 0 ∧ t.fcause = 0 ∧
      t.pending = rest ∧ t.admitted = s.admitted ∧ t.coreXlat = s.coreXlat ∧
      t.hostData = s.hostData

/-- While the sticky fault holds, every word and every command answers FAULTED with the cause, and
only reset clears the fault (60_exceptions.md R257). -/
def Obligations.StickyFault : Prop :=
  (∀ (s : State) (v : Word) (rest : List Action), s.flt = true →
    s.pending = .write 3 v :: rest →
    step s = .next (({ s with pending := rest, ports := [] } : State).answered 0x12
      (s.fcause.setWidth 64) 0 0 0 0)) ∧
  (∀ (i : Instr) (s : State), s.flt = true →
    exec i s = .next (s.answered 0x12 (s.fcause.setWidth 64) 0 0 0 0)) ∧
  (∀ (s t : State) (a : Action) (rest : List Action), s.flt = true → s.pending = a :: rest →
    a ≠ .reset → (∀ w n, a ≠ .resetDuring w n) →
    (∀ source rs draws n, a ≠ .race source rs draws (some n)) → step s = .next t →
    t.flt = true ∧ t.fcause = s.fcause) ∧
  ∀ (s : State) (rest : List Action), s.pending = .reset :: rest →
    ∃ t, step s = .next t ∧ t.flt = false ∧ t.fcause = 0

/-! ### Address validation and arithmetic -/

/-- VA_TRY_NEW (40_address.md R110). -/
def Obligations.VaTryNewResult : Prop :=
  encode .vaTryNew = 0x01 ∧ ∀ s : State, s.flt = false →
    (CanonicalAddress s.arg0 → exec .vaTryNew s = .next (s.answered 0x00 s.arg0 0 0 0 0)) ∧
    (¬CanonicalAddress s.arg0 →
      exec .vaTryNew s = .next (s.answered 0x01 (s.arg0 >>> 47) 0 0 0 0))

/-- VA_NEW_UNCHECKED (40_address.md R111): bits 47:0 kept, bits 63:48 copied from bit 47; the result
is canonical, and a canonical input is returned unchanged. -/
def Obligations.VaNewUncheckedResult : Prop :=
  encode .vaNewUnchecked = 0x02 ∧ ∀ s : State, s.flt = false →
    ∃ v : Word, exec .vaNewUnchecked s = .next (s.answered 0x00 v 0 0 0 0) ∧
      (∀ k < 48, v.getLsbD k = s.arg0.getLsbD k) ∧
      (∀ k, 48 ≤ k → k < 64 → v.getLsbD k = s.arg0.getLsbD 47) ∧
      CanonicalAddress v ∧ (CanonicalAddress s.arg0 → v = s.arg0)

/-- VA_SPLIT (40_address.md R112): offset, idx1, idx2, idx3, idx4. -/
def Obligations.VaSplitResult : Prop :=
  encode .vaSplit = 0x03 ∧ ∀ s : State, s.flt = false →
    (CanonicalAddress s.arg0 →
      exec .vaSplit s = .next (s.answered 0x00
        (BitVec.ofNat 64 (s.arg0.toNat % 2 ^ 12))
        (BitVec.ofNat 64 (s.arg0.toNat / 2 ^ 12 % 2 ^ 9))
        (BitVec.ofNat 64 (s.arg0.toNat / 2 ^ 21 % 2 ^ 9))
        (BitVec.ofNat 64 (s.arg0.toNat / 2 ^ 30 % 2 ^ 9))
        (BitVec.ofNat 64 (s.arg0.toNat / 2 ^ 39 % 2 ^ 9)))) ∧
    (¬CanonicalAddress s.arg0 →
      exec .vaSplit s = .next (s.answered 0x01 (s.arg0 >>> 47) 0 0 0 0))

/-- The parts that VA_SPLIT gives reconstruct the low 48 bits (30_encoding.md R81). -/
def Obligations.SplitReconstructsLow48 : Prop :=
  ∀ s : State, s.flt = false → CanonicalAddress s.arg0 →
    ∃ t, exec .vaSplit s = .next t ∧
      t.res0 ||| (t.res1 <<< 12) ||| (t.res2 <<< 21) ||| (t.res3 <<< 30) ||| (t.res4 <<< 39) =
        s.arg0 &&& 0x0000FFFFFFFFFFFF#64

/-- VA_ADD (40_address.md R113): exact, never wrapping. -/
def Obligations.VaAddResult : Prop :=
  encode .vaAdd = 0x04 ∧ ∀ s : State, s.flt = false →
    (¬CanonicalAddress s.arg0 →
      exec .vaAdd s = .next (s.answered 0x01 (s.arg0 >>> 47) 0 0 0 0)) ∧
    (CanonicalAddress s.arg0 → 2 ^ 64 ≤ s.arg0.toNat + s.arg1.toNat →
      exec .vaAdd s = .next (s.answered 0x0B 0 0 0 0 0)) ∧
    ∀ r : Word, CanonicalAddress s.arg0 → r.toNat = s.arg0.toNat + s.arg1.toNat →
      (¬CanonicalAddress r → exec .vaAdd s = .next (s.answered 0x01 (r >>> 47) 0 0 0 0)) ∧
      (CanonicalAddress r → exec .vaAdd s = .next (s.answered 0x00 r 0 0 0 0))

/-- VA_SUB (40_address.md R114): exact, never wrapping. -/
def Obligations.VaSubResult : Prop :=
  encode .vaSub = 0x05 ∧ ∀ s : State, s.flt = false →
    (¬CanonicalAddress s.arg0 →
      exec .vaSub s = .next (s.answered 0x01 (s.arg0 >>> 47) 0 0 0 0)) ∧
    (CanonicalAddress s.arg0 → s.arg0.toNat < s.arg1.toNat →
      exec .vaSub s = .next (s.answered 0x0B 0 0 0 0 0)) ∧
    ∀ r : Word, CanonicalAddress s.arg0 → r.toNat + s.arg1.toNat = s.arg0.toNat →
      (¬CanonicalAddress r → exec .vaSub s = .next (s.answered 0x01 (r >>> 47) 0 0 0 0)) ∧
      (CanonicalAddress r → exec .vaSub s = .next (s.answered 0x00 r 0 0 0 0))

/-- PA_TRY_NEW (40_address.md R115). -/
def Obligations.PaTryNewResult : Prop :=
  encode .paTryNew = 0x06 ∧ ∀ s : State, s.flt = false →
    (PhysicalAddress s.arg0 → exec .paTryNew s = .next (s.answered 0x00 s.arg0 0 0 0 0)) ∧
    (¬PhysicalAddress s.arg0 →
      exec .paTryNew s = .next (s.answered 0x02 (s.arg0 >>> 52) 0 0 0 0))

/-- PA_ADD (40_address.md R116). -/
def Obligations.PaAddResult : Prop :=
  encode .paAdd = 0x07 ∧ ∀ s : State, s.flt = false →
    (¬PhysicalAddress s.arg0 →
      exec .paAdd s = .next (s.answered 0x02 (s.arg0 >>> 52) 0 0 0 0)) ∧
    (PhysicalAddress s.arg0 → 2 ^ 64 ≤ s.arg0.toNat + s.arg1.toNat →
      exec .paAdd s = .next (s.answered 0x0B 0 0 0 0 0)) ∧
    ∀ r : Word, PhysicalAddress s.arg0 → r.toNat = s.arg0.toNat + s.arg1.toNat →
      (¬PhysicalAddress r → exec .paAdd s = .next (s.answered 0x02 (r >>> 52) 0 0 0 0)) ∧
      (PhysicalAddress r → exec .paAdd s = .next (s.answered 0x00 r 0 0 0 0))

/-- PA_SUB (40_address.md R117). -/
def Obligations.PaSubResult : Prop :=
  encode .paSub = 0x08 ∧ ∀ s : State, s.flt = false →
    (¬PhysicalAddress s.arg0 →
      exec .paSub s = .next (s.answered 0x02 (s.arg0 >>> 52) 0 0 0 0)) ∧
    (PhysicalAddress s.arg0 → s.arg0.toNat < s.arg1.toNat →
      exec .paSub s = .next (s.answered 0x0B 0 0 0 0 0)) ∧
    ∀ r : Word, PhysicalAddress s.arg0 → r.toNat + s.arg1.toNat = s.arg0.toNat →
      exec .paSub s = .next (s.answered 0x00 r 0 0 0 0)

/-- PA_IS_ALIGNED (40_address.md R118): a legal alignment is a power of two. -/
def Obligations.PaIsAlignedResult : Prop :=
  encode .paIsAligned = 0x09 ∧ ∀ s : State, s.flt = false →
    (¬PhysicalAddress s.arg0 →
      exec .paIsAligned s = .next (s.answered 0x02 (s.arg0 >>> 52) 0 0 0 0)) ∧
    (PhysicalAddress s.arg0 → (¬∃ k < 64, s.arg1.toNat = 2 ^ k) →
      exec .paIsAligned s = .next (s.answered 0x0C 6 0 0 0 0)) ∧
    (PhysicalAddress s.arg0 → (∃ k < 64, s.arg1.toNat = 2 ^ k) →
      s.arg0.toNat % s.arg1.toNat = 0 →
      exec .paIsAligned s = .next (s.answered 0x00 1 0 0 0 0)) ∧
    (PhysicalAddress s.arg0 → (∃ k < 64, s.arg1.toNat = 2 ^ k) →
      s.arg0.toNat % s.arg1.toNat ≠ 0 →
      exec .paIsAligned s = .next (s.answered 0x00 0 0 0 0 0))

/-- PA_ALIGN_DOWN (40_address.md R119): the greatest multiple that is not above the address. -/
def Obligations.PaAlignDownResult : Prop :=
  encode .paAlignDown = 0x0A ∧ ∀ s : State, s.flt = false →
    (¬PhysicalAddress s.arg0 →
      exec .paAlignDown s = .next (s.answered 0x02 (s.arg0 >>> 52) 0 0 0 0)) ∧
    (PhysicalAddress s.arg0 → (¬∃ k < 64, s.arg1.toNat = 2 ^ k) →
      exec .paAlignDown s = .next (s.answered 0x0C 6 0 0 0 0)) ∧
    (PhysicalAddress s.arg0 → (∃ k < 64, s.arg1.toNat = 2 ^ k) →
      ∃ r : Word, exec .paAlignDown s = .next (s.answered 0x00 r 0 0 0 0) ∧
        r.toNat = s.arg0.toNat / s.arg1.toNat * s.arg1.toNat)

/-- PA_ALIGN_UP (40_address.md R120): the least multiple that is not below the address, which must
be a physical address. -/
def Obligations.PaAlignUpResult : Prop :=
  encode .paAlignUp = 0x0B ∧ ∀ s : State, s.flt = false →
    (¬PhysicalAddress s.arg0 →
      exec .paAlignUp s = .next (s.answered 0x02 (s.arg0 >>> 52) 0 0 0 0)) ∧
    (PhysicalAddress s.arg0 → (¬∃ k < 64, s.arg1.toNat = 2 ^ k) →
      exec .paAlignUp s = .next (s.answered 0x0C 6 0 0 0 0)) ∧
    (PhysicalAddress s.arg0 → (∃ k < 64, s.arg1.toNat = 2 ^ k) →
      ∃ r : Word,
        r.toNat = (s.arg0.toNat + s.arg1.toNat - 1) / s.arg1.toNat * s.arg1.toNat ∧
        (PhysicalAddress r → exec .paAlignUp s = .next (s.answered 0x00 r 0 0 0 0)) ∧
        (¬PhysicalAddress r → exec .paAlignUp s = .next (s.answered 0x02 (r >>> 52) 0 0 0 0)))

/-! ### Entries and tables -/

/-- ENTRY_DECODE (41_entry_table.md R140). -/
def Obligations.EntryDecodeResult : Prop :=
  encode .entryDecode = 0x0C ∧ ∀ (s : State) (a f : Word), s.flt = false →
    a = s.arg0 &&& 0x000FFFFFFFFFF000#64 → f = s.arg0 &&& 0xFFF0000000000FFF#64 →
    (s.arg0.getLsbD 0 = false →
      exec .entryDecode s = .next (s.answered 0x09 a f 0 0 0)) ∧
    (s.arg0.getLsbD 0 = true → s.arg0.getLsbD 7 = true →
      exec .entryDecode s = .next (s.answered 0x0A a f 0 0 0)) ∧
    (s.arg0.getLsbD 0 = true → s.arg0.getLsbD 7 = false →
      exec .entryDecode s = .next (s.answered 0x00 a f a 0 0))

/-- ENTRY_ENCODE.S for each size class (41_entry_table.md R141), with the order of its checks. -/
def Obligations.EntryEncodeResult : Prop :=
  encode .entryEncode4K = 0x0D ∧ encode .entryEncode2M = 0x2D ∧ encode .entryEncode1G = 0x4D ∧
  ∀ (c : SizeClass) (s : State), s.flt = false →
    (¬PhysicalAddress s.arg1 →
      exec (Instr.entryEncode c) s = .next (s.answered 0x02 (s.arg1 >>> 52) 0 0 0 0)) ∧
    (PhysicalAddress s.arg1 → s.arg1.toNat % sizeBytes c ≠ 0 →
      exec (Instr.entryEncode c) s = .next (s.answered 0x0C 2 0 0 0 0)) ∧
    (GoodFrame c s.arg1 → s.arg2 &&& 0x000FFFFFFFFFF000#64 ≠ 0 →
      exec (Instr.entryEncode c) s = .next (s.answered 0x0C 3 0 0 0 0)) ∧
    (GoodFrame c s.arg1 → s.arg2 &&& 0x000FFFFFFFFFF000#64 = 0 → c = .s4K →
      s.arg2.getLsbD 7 = true →
      exec (Instr.entryEncode c) s = .next (s.answered 0x0C 4 0 0 0 0)) ∧
    (GoodFrame c s.arg1 → GoodFlags c s.arg2 →
      exec (Instr.entryEncode c) s = .next (s.answered 0x00
        (s.arg1 ||| s.arg2 ||| (if c = .s4K then 0 else 0x80#64)) 0 0 0 0))

/-- TABLE_READ (41_entry_table.md R142), with the precedence of its checks and the refused read. -/
def Obligations.TableReadResult : Prop :=
  encode .tableRead = 0x0E ∧ ∀ s : State, s.flt = false →
    (¬PhysicalAddress s.arg1 →
      exec .tableRead s = .next (s.answered 0x02 (s.arg1 >>> 52) 0 0 0 0)) ∧
    (PhysicalAddress s.arg1 → s.arg1.toNat % 0x1000 ≠ 0 →
      exec .tableRead s = .next (s.answered 0x0C 2 0 0 0 0)) ∧
    (PhysicalAddress s.arg1 → s.arg1.toNat % 0x1000 = 0 → 511 < s.arg0.toNat →
      exec .tableRead s = .next (s.answered 0x0C 5 0 0 0 0)) ∧
    (PhysicalAddress s.arg1 → s.arg1.toNat % 0x1000 = 0 → s.arg0.toNat ≤ 511 →
      s.admits (s.arg1.toNat + 8 * s.arg0.toNat) 8 = false →
      exec .tableRead s = .next (s.faultedWith 0x01)) ∧
    (PhysicalAddress s.arg1 → s.arg1.toNat % 0x1000 = 0 → s.arg0.toNat ≤ 511 →
      s.admits (s.arg1.toNat + 8 * s.arg0.toNat) 8 = true → s.views = [] →
      exec .tableRead s = .next
        { s.answered 0x00 (s.mem.read64 (s.arg1.toNat + 8 * s.arg0.toNat)) 0 0 0 0 with
          ports := .read (s.arg1.toNat + 8 * s.arg0.toNat) :: s.ports })

/-- The level-indexed entry decode (41_entry_table.md R143), cell by cell. -/
def Obligations.EntryDecodeTable : Prop :=
  ∀ e a : Word, a = e &&& 0x000FFFFFFFFFF000#64 →
    (e.getLsbD 0 = false → ∀ l, 1 ≤ l → l ≤ 4 → decodeEntry l e = .absent) ∧
    (e.getLsbD 0 = true → e.getLsbD 7 = true →
      decodeEntry 4 e = .malformed ∧ decodeEntry 3 e = .leaf .s1G a ∧
      decodeEntry 2 e = .leaf .s2M a ∧ decodeEntry 1 e = .malformed) ∧
    (e.getLsbD 0 = true → e.getLsbD 7 = false →
      decodeEntry 4 e = .table a ∧ decodeEntry 3 e = .table a ∧ decodeEntry 2 e = .table a ∧
      decodeEntry 1 e = .leaf .s4K a)

/-! ### Translation -/

/-- TRANSLATE_PAGE.S of a page whose terminal entry is a leaf of its class (42 R163). -/
def Obligations.TranslatePageOfMappedPage : Prop :=
  ∀ (c : SizeClass) (s : State) (t e a : Word), s.flt = false → s.rv = true →
    s.views = [] →
    GoodPage c s.arg0 → Reaches s s.arg0 (terminalLevel c) t →
    s.entryAdmitted (terminalLevel c) s.arg0 t → e = s.entryAt (terminalLevel c) s.arg0 t →
    e.getLsbD 0 = true → e.getLsbD 7 = decide (c ≠ .s4K) → a = e &&& 0x000FFFFFFFFFF000#64 →
    (a.toNat % sizeBytes c = 0 →
      ∃ ps, exec (Instr.translatePage c) s = .next
        { s.answered 0x00 a a 0 (codeWord c) (e &&& 0xFFF0000000000FFF#64) with ports := ps }) ∧
    (a.toNat % sizeBytes c ≠ 0 →
      ∃ ps, exec (Instr.translatePage c) s = .next
        { s.answered 0x08 a 0 0 0 0 with ports := ps })

/-- What TRANSLATE_PAGE.S answers otherwise (42_walk_translate.md R163): the argument checks, and
the walk outcomes by the level and the entry at which the walk stops. -/
def Obligations.TranslatePageRefusals : Prop :=
  ∀ (c : SizeClass) (s : State), s.flt = false → s.rv = true →
    (¬CanonicalAddress s.arg0 → exec (Instr.translatePage c) s = .next
      (s.answered 0x01 (s.arg0 >>> 47) 0 0 0 0)) ∧
    (CanonicalAddress s.arg0 → s.arg0.toNat % sizeBytes c ≠ 0 →
      exec (Instr.translatePage c) s = .next (s.answered 0x0C 1 0 0 0 0)) ∧
    (GoodPage c s.arg0 → s.views = [] →
      (∀ l e, terminalLevel c ≤ l → s.WalkReads s.arg0 l e → e.getLsbD 0 = false →
        ∃ ps, exec (Instr.translatePage c) s = .next
          { s.answered 0x03 (BitVec.ofNat 64 l) 0 0 0 0 with ports := ps }) ∧
      (∀ l e, terminalLevel c < l → l ≠ 4 → s.WalkReads s.arg0 l e → e.getLsbD 0 = true →
        e.getLsbD 7 = true →
        ∃ ps, exec (Instr.translatePage c) s = .next
          { s.answered 0x03 (BitVec.ofNat 64 l) 0 0 0 0 with ports := ps }) ∧
      (∀ e, s.WalkReads s.arg0 4 e → e.getLsbD 0 = true → e.getLsbD 7 = true →
        ∃ ps, exec (Instr.translatePage c) s = .next
          { s.answered 0x0F 4 e 0 0 0 with ports := ps }) ∧
      (∀ e, c = .s4K → s.WalkReads s.arg0 1 e → e.getLsbD 0 = true → e.getLsbD 7 = true →
        ∃ ps, exec (Instr.translatePage c) s = .next
          { s.answered 0x0F 1 e 0 0 0 with ports := ps }) ∧
      (∀ e, c ≠ .s4K → s.WalkReads s.arg0 (terminalLevel c) e → e.getLsbD 0 = true →
        e.getLsbD 7 = false →
        ∃ ps, exec (Instr.translatePage c) s = .next
          { s.answered 0x03 (BitVec.ofNat 64 (terminalLevel c)) 0 0 0 0 with ports := ps }) ∧
      (∀ l t, terminalLevel c ≤ l → Reaches s s.arg0 l t →
        s.admits (entryPa l s.arg0 t) 8 = false →
        ∃ ps, exec (Instr.translatePage c) s = .next { s.faultedWith 0x01 with ports := ps }))

/-- TRANSLATE and TRANSLATE_ADDR of an address whose walk ends in a leaf of class `c` (42 R164,
R165). That TRANSLATE then offers its result to the TLB (`fillable`) is the model's (log entry 7). -/
def Obligations.TranslateOfMappedAddress : Prop :=
  ∀ (c : SizeClass) (s : State) (e a off : Word), s.flt = false → s.rv = true →
    s.views = [] → CanonicalAddress s.arg0 → s.WalkReads s.arg0 (terminalLevel c) e →
    e.getLsbD 0 = true →
    e.getLsbD 7 = decide (c ≠ .s4K) → a = e &&& 0x000FFFFFFFFFF000#64 →
    off.toNat = s.arg0.toNat % sizeBytes c →
    (a.toNat % sizeBytes c = 0 →
      (a + off).toNat = a.toNat + off.toNat ∧ PhysicalAddress (a + off) ∧
      (∃ ps, exec .translate s = .next
        { s.answered 0x00 (a + off) a off (codeWord c) (e &&& 0xFFF0000000000FFF#64) with
          ports := ps
          fillable :=
            { page := s.arg0 - off, cls := c, frame := a, flags := e &&& 0xFFF0000000000FFF#64 } ::
              s.fillable }) ∧
      ∃ ps, exec .translateAddr s = .next
        { s.answered 0x00 (a + off) 0 0 0 0 with ports := ps }) ∧
    (a.toNat % sizeBytes c ≠ 0 →
      (∃ ps, exec .translate s = .next { s.answered 0x08 a 0 0 0 0 with ports := ps }) ∧
      ∃ ps, exec .translateAddr s = .next { s.answered 0x08 a 0 0 0 0 with ports := ps })

/-- What TRANSLATE and TRANSLATE_ADDR answer otherwise (42_walk_translate.md R164, R165). -/
def Obligations.TranslateRefusals : Prop :=
  ∀ (i : Instr) (s : State), i = .translate ∨ i = .translateAddr → s.flt = false → s.rv = true →
    (¬CanonicalAddress s.arg0 →
      exec i s = .next (s.answered 0x01 (s.arg0 >>> 47) 0 0 0 0)) ∧
    (CanonicalAddress s.arg0 → s.views = [] →
      (∀ l e, s.WalkReads s.arg0 l e → e.getLsbD 0 = false →
        ∃ ps, exec i s = .next
          { s.answered 0x03 (BitVec.ofNat 64 l) 0 0 0 0 with ports := ps }) ∧
      (∀ l e, l = 4 ∨ l = 1 → s.WalkReads s.arg0 l e → e.getLsbD 0 = true → e.getLsbD 7 = true →
        ∃ ps, exec i s = .next
          { s.answered 0x0F (BitVec.ofNat 64 l) e 0 0 0 with ports := ps }) ∧
      (∀ l t, Reaches s s.arg0 l t → s.admits (entryPa l s.arg0 t) 8 = false →
        ∃ ps, exec i s = .next { s.faultedWith 0x01 with ports := ps }))

/-- TRANSLATE of an address answers what TRANSLATE_PAGE of the one matching class answers for the
page that holds the address; at most one class matches, and when none does, TRANSLATE fails too
(42_walk_translate.md R166). `u c` is what TRANSLATE_PAGE.c gives for that page. -/
def Obligations.TranslateAgreesWithTranslatePage : Prop :=
  ∀ (s t : State) (va : Word) (u : SizeClass → State), s.views = [] →
    exec .translate { s with arg0 := va } = .next t →
    (∀ c, exec (Instr.translatePage c)
      { s with arg0 := BitVec.ofNat 64 (va.toNat / sizeBytes c * sizeBytes c) } = .next (u c)) →
    (∀ c c', (u c).status = 0x00 ∨ (u c).status = 0x08 →
      (u c').status = 0x00 ∨ (u c').status = 0x08 → c = c') ∧
    (∀ c, (u c).status = 0x00 →
      t.status = 0x00 ∧ t.res1 = (u c).res0 ∧ t.res3 = (u c).res3 ∧ t.res4 = (u c).res4 ∧
      t.res0.toNat = (u c).res0.toNat + va.toNat % sizeBytes c ∧
      t.res2.toNat = va.toNat % sizeBytes c) ∧
    (∀ c, (u c).status = 0x08 → t.status = 0x08 ∧ t.res0 = (u c).res0) ∧
    (t.status = 0x00 ∨ t.status = 0x08 → ∃ c, (u c).status = t.status)

/-- The translate commands only read: memory, allocator, TLB, root, token and UNIT stay, but for a
fault; and they read at most `4 - T(S) + 1`, or 4, entries (42_walk_translate.md R167, R168). -/
def Obligations.TranslateFamilyOnlyReads : Prop :=
  ∀ (i : Instr) (bound : Nat) (s t : State),
    (i = .translate ∧ bound = 4 ∨ i = .translateAddr ∧ bound = 4 ∨
      ∃ c, i = Instr.translatePage c ∧ bound = 4 - terminalLevel c + 1) →
    exec i s = .next t →
    t.mem = s.mem ∧ t.allocQ = s.allocQ ∧ t.allocCalls = s.allocCalls ∧ t.tlb = s.tlb ∧
    t.root = s.root ∧ t.rv = s.rv ∧ t.tv = s.tv ∧ t.tokenVa = s.tokenVa ∧ t.tsz = s.tsz ∧
    t.arg0 = s.arg0 ∧ t.arg1 = s.arg1 ∧ t.arg2 = s.arg2 ∧
    ((t.flt = s.flt ∧ t.fcause = s.fcause) ∨
      (t.flt = true ∧ t.fcause = 0x01 ∧ t.status = 0x12 ∧ t.res0 = 1)) ∧
    ∃ pas : List Nat, pas.length ≤ bound ∧ t.ports = pas.map PortEvent.read ++ s.ports

/-- Before a root is handed over (44_flush_root.md R235): the walking commands answer NO_ROOT and
read nothing; no other command ever answers it; and `RV` is 0 after reset. -/
def Obligations.NoRootAnswers : Prop :=
  (∀ (i : Instr) (s : State), Walks i → s.flt = false → s.rv = false →
    exec i s = .next (s.answered 0x10 0 0 0 0 0)) ∧
  (∀ (i : Instr) (s t : State), ¬Walks i → exec i s = .next t → t.status ≠ 0x10) ∧
  State.reset.rv = false

/-! ### The mapper -/

/-- The checks that come before the walk of a mapper command, in their order (43_mapper.md R190,
R197): each holds when no earlier one does. -/
def Obligations.MapperChecksInOrder : Prop :=
  (∀ (i : Instr) (s : State), Mutates i → s.flt = false →
    (s.rv = false → exec i s = .next (s.answered 0x10 0 0 0 0 0)) ∧
    (s.rv = true → s.tv = true → exec i s = .next (s.answered 0x0D s.tokenVa 0 0 0 0))) ∧
  (∀ (i : Instr) (c : SizeClass) (s : State),
    i = Instr.mapTo c ∨ i = Instr.unmap c ∨ i = Instr.updateFlags c →
    s.flt = false → s.rv = true → s.tv = false →
    (¬CanonicalAddress s.arg0 → exec i s = .next (s.answered 0x01 (s.arg0 >>> 47) 0 0 0 0)) ∧
    (CanonicalAddress s.arg0 → s.arg0.toNat % sizeBytes c ≠ 0 →
      exec i s = .next (s.answered 0x0C 1 0 0 0 0))) ∧
  (∀ (i : Instr) (c : SizeClass) (s : State),
    (i = Instr.mapTo c ∧ GoodPage c s.arg0) ∨ i = Instr.identityMap c →
    s.flt = false → s.rv = true → s.tv = false →
    (¬PhysicalAddress s.arg1 → exec i s = .next (s.answered 0x02 (s.arg1 >>> 52) 0 0 0 0)) ∧
    (PhysicalAddress s.arg1 → s.arg1.toNat % sizeBytes c ≠ 0 →
      exec i s = .next (s.answered 0x0C 2 0 0 0 0))) ∧
  (∀ (c : SizeClass) (s : State), s.flt = false → s.rv = true → s.tv = false →
    GoodFrame c s.arg1 → 2 ^ 47 ≤ s.arg1.toNat →
    exec (Instr.identityMap c) s = .next (s.answered 0x01 (s.arg1 >>> 47) 0 0 0 0)) ∧
  ∀ (i : Instr) (c : SizeClass) (s : State),
    (i = Instr.mapTo c ∧ GoodPage c s.arg0 ∧ GoodFrame c s.arg1) ∨
      (i = Instr.identityMap c ∧ GoodFrame c s.arg1 ∧ s.arg1.toNat < 2 ^ 47) ∨
      (i = Instr.updateFlags c ∧ GoodPage c s.arg0) →
    s.flt = false → s.rv = true → s.tv = false →
    (s.arg2 &&& 0x000FFFFFFFFFF000#64 ≠ 0 → exec i s = .next (s.answered 0x0C 3 0 0 0 0)) ∧
    (s.arg2 &&& 0x000FFFFFFFFFF000#64 = 0 → c = .s4K → s.arg2.getLsbD 7 = true →
      exec i s = .next (s.answered 0x0C 4 0 0 0 0))

/-- The writes of phase 3 of MAP_TO, in order (43_mapper.md R191 to R193, 20_memory.md R58): each
new table is zeroed by 512 rising writes and then linked, and the leaf comes last. The equation for
`f :: fs` is for every number of new tables; the cases of each class are then written out. -/
def Obligations.MapWritesInOrder : Prop :=
  (∀ f : Word, (zeroWrites f).length = 512 ∧
    ∀ i (h : i < (zeroWrites f).length), (zeroWrites f)[i] = (f.toNat + 8 * i, 0)) ∧
  (∀ (c : SizeClass) (va link leaf t f : Word) (fs : List Word),
    mapWrites va c link leaf t (f :: fs) =
      zeroWrites f ++ (entryPa (terminalLevel c + fs.length + 1) va t, f ||| link) ::
        mapWrites va c link leaf f fs) ∧
  (∀ (va link leaf t f₁ f₂ f₃ : Word),
    mapWrites va .s4K link leaf t [f₁, f₂, f₃] =
      zeroWrites f₁ ++ [(t.toNat + 8 * (va.extractLsb' 39 9).toNat, f₁ ||| link)] ++
      zeroWrites f₂ ++ [(f₁.toNat + 8 * (va.extractLsb' 30 9).toNat, f₂ ||| link)] ++
      zeroWrites f₃ ++ [(f₂.toNat + 8 * (va.extractLsb' 21 9).toNat, f₃ ||| link)] ++
      [(f₃.toNat + 8 * (va.extractLsb' 12 9).toNat, leaf)] ∧
    mapWrites va .s4K link leaf t [f₁, f₂] =
      zeroWrites f₁ ++ [(t.toNat + 8 * (va.extractLsb' 30 9).toNat, f₁ ||| link)] ++
      zeroWrites f₂ ++ [(f₁.toNat + 8 * (va.extractLsb' 21 9).toNat, f₂ ||| link)] ++
      [(f₂.toNat + 8 * (va.extractLsb' 12 9).toNat, leaf)] ∧
    mapWrites va .s4K link leaf t [f₁] =
      zeroWrites f₁ ++ [(t.toNat + 8 * (va.extractLsb' 21 9).toNat, f₁ ||| link)] ++
      [(f₁.toNat + 8 * (va.extractLsb' 12 9).toNat, leaf)] ∧
    mapWrites va .s2M link leaf t [f₁, f₂] =
      zeroWrites f₁ ++ [(t.toNat + 8 * (va.extractLsb' 39 9).toNat, f₁ ||| link)] ++
      zeroWrites f₂ ++ [(f₁.toNat + 8 * (va.extractLsb' 30 9).toNat, f₂ ||| link)] ++
      [(f₂.toNat + 8 * (va.extractLsb' 21 9).toNat, leaf)] ∧
    mapWrites va .s2M link leaf t [f₁] =
      zeroWrites f₁ ++ [(t.toNat + 8 * (va.extractLsb' 30 9).toNat, f₁ ||| link)] ++
      [(f₁.toNat + 8 * (va.extractLsb' 21 9).toNat, leaf)] ∧
    mapWrites va .s1G link leaf t [f₁] =
      zeroWrites f₁ ++ [(t.toNat + 8 * (va.extractLsb' 39 9).toNat, f₁ ||| link)] ++
      [(f₁.toNat + 8 * (va.extractLsb' 30 9).toNat, leaf)]) ∧
  (∀ (c : SizeClass) (va link leaf t : Word),
    mapWrites va c link leaf t [] = [(entryPa (terminalLevel c) va t, leaf)]) ∧
  (∀ f : Word, nonLeafFlags f = if f.getLsbD 2 then 0x7#64 else 0x3#64) ∧
  ∀ (c : SizeClass) (pa f : Word),
    leafEntry c pa f = pa ||| f ||| (if c = .s4K then 0 else 0x80#64)

/-- MAP_TO.S of an unmapped page (43_mapper.md R191): the entry for the page in the table at `t`,
`fs.length` levels above the terminal one, is absent, and the allocator answers with the frames
`fs`. `ws` are the writes of phase 3. When all are admitted, everything else but the token, the
results and the allocator's answers stays. When the write `w` is refused, those before it stay
performed and the sticky fault is taken (20_memory.md R53, 60_exceptions.md R256,
70_reset_and_hazards.md R291). Either way the writes on the ports are these, in this order (R193);
the record of port events is the model's (log entry 10). That it holds also for frames in use, or
answered twice, is the model's choice (log entry 18). -/
def Obligations.MapToInstallsMapping : Prop :=
  ∀ (c : SizeClass) (s : State) (t : Word) (fs : List Word) (q : List (Option Word))
    (ws : List (Nat × Word)), s.flt = false → s.rv = true → s.tv = false →
    s.views = [] →
    GoodPage c s.arg0 → GoodFrame c s.arg1 → GoodFlags c s.arg2 →
    Reaches s s.arg0 (terminalLevel c + fs.length) t →
    s.entryAdmitted (terminalLevel c + fs.length) s.arg0 t →
    (s.entryAt (terminalLevel c + fs.length) s.arg0 t).getLsbD 0 = false →
    s.allocQ = fs.map some ++ q → (∀ f ∈ fs, f.toNat < 2 ^ 52 ∧ f.toNat % 4096 = 0) →
    ws = mapWrites s.arg0 c (nonLeafFlags s.arg2) (leafEntry c s.arg1 s.arg2) t fs →
    ((∀ w ∈ ws, s.admits w.1 8 = true) →
      ∃ ps, writesOf ps.reverse = ws ∧ exec (Instr.mapTo c) s = .next
        { s.mutated (s.mem.writeAll ws) c s.arg0 s.arg0 (BitVec.ofNat 64 fs.length) with
          allocQ := q, ports := ps ++ s.ports }) ∧
    ∀ (before : List (Nat × Word)) (w : Nat × Word) (later : List (Nat × Word)),
      ws = before ++ w :: later → (∀ x ∈ before, s.admits x.1 8 = true) →
      s.admits w.1 8 = false →
      ∃ ps, writesOf ps.reverse = before ∧ exec (Instr.mapTo c) s = .next
        { s.faultedWith 0x01 with
          mem := s.mem.writeAll before, allocQ := q, ports := ps ++ s.ports }

/-- IDENTITY_MAP.S of an unmapped page (43_mapper.md R197): as MAP_TO, at the frame's own address,
which is below 2^47, with a refused write too; ARG0 is not read. Frames in use and the record of port
events are as in MAP_TO (log entries 10, 18). -/
def Obligations.IdentityMapInstallsMapping : Prop :=
  ∀ (c : SizeClass) (s : State) (t : Word) (fs : List Word) (q : List (Option Word))
    (ws : List (Nat × Word)), s.flt = false → s.rv = true → s.tv = false →
    s.views = [] →
    GoodFrame c s.arg1 → s.arg1.toNat < 2 ^ 47 → GoodFlags c s.arg2 →
    Reaches s s.arg1 (terminalLevel c + fs.length) t →
    s.entryAdmitted (terminalLevel c + fs.length) s.arg1 t →
    (s.entryAt (terminalLevel c + fs.length) s.arg1 t).getLsbD 0 = false →
    s.allocQ = fs.map some ++ q → (∀ f ∈ fs, f.toNat < 2 ^ 52 ∧ f.toNat % 4096 = 0) →
    ws = mapWrites s.arg1 c (nonLeafFlags s.arg2) (leafEntry c s.arg1 s.arg2) t fs →
    ((∀ w ∈ ws, s.admits w.1 8 = true) →
      ∃ ps, writesOf ps.reverse = ws ∧ exec (Instr.identityMap c) s = .next
        { s.mutated (s.mem.writeAll ws) c s.arg1 s.arg1 (BitVec.ofNat 64 fs.length) with
          allocQ := q, ports := ps ++ s.ports }) ∧
    ∀ (before : List (Nat × Word)) (w : Nat × Word) (later : List (Nat × Word)),
      ws = before ++ w :: later → (∀ x ∈ before, s.admits x.1 8 = true) →
      s.admits w.1 8 = false →
      ∃ ps, writesOf ps.reverse = before ∧ exec (Instr.identityMap c) s = .next
        { s.faultedWith 0x01 with
          mem := s.mem.writeAll before, allocQ := q, ports := ps ++ s.ports }

/-- What the pre-walk of MAP_TO and IDENTITY_MAP refuses (43_mapper.md R194, R195, R197), and a read
that the platform does not admit (20_memory.md R53): nothing is written and no frame is asked for.
`va` is the page. -/
def Obligations.MapToRefusedByTheTree : Prop :=
  ∀ (i : Instr) (c : SizeClass) (s : State) (va : Word),
    (i = Instr.mapTo c ∧ va = s.arg0 ∧ GoodPage c va) ∨
      (i = Instr.identityMap c ∧ va = s.arg1 ∧ s.arg1.toNat < 2 ^ 47) →
    s.flt = false → s.rv = true → s.tv = false → s.views = [] →
    GoodFrame c s.arg1 → GoodFlags c s.arg2 →
    (∀ l e, terminalLevel c < l → s.WalkReads va l e → e.getLsbD 0 = true →
      e.getLsbD 7 = true →
      ∃ ps, exec i s = .next
        { s.answered 0x05 (BitVec.ofNat 64 l) 0 0 0 0 with ports := ps }) ∧
    (∀ e, s.WalkReads va (terminalLevel c) e → e.getLsbD 0 = true →
      ∃ ps, exec i s = .next
        { s.answered 0x06 (e &&& 0x000FFFFFFFFFF000#64) 0 0 0 0 with ports := ps }) ∧
    (∀ l t, terminalLevel c ≤ l → Reaches s va l t →
      s.admits (entryPa l va t) 8 = false →
      ∃ ps, exec i s = .next { s.faultedWith 0x01 with ports := ps })

/-- Allocation failure of MAP_TO and IDENTITY_MAP, and an answer that is no valid frame (43_mapper.md
R191 phase 2, R196, R197, 20_memory.md R64): `n` tables are missing for the page `va`, `fs` were
obtained; nothing is written. -/
def Obligations.MapToAllocationOutcomes : Prop :=
  ∀ (i : Instr) (c : SizeClass) (s : State) (va t : Word) (n : Nat) (fs : List Word)
    (r : Option Word) (q : List (Option Word)),
    (i = Instr.mapTo c ∧ va = s.arg0 ∧ GoodPage c va) ∨
      (i = Instr.identityMap c ∧ va = s.arg1 ∧ s.arg1.toNat < 2 ^ 47) →
    s.flt = false → s.rv = true → s.tv = false → s.views = [] →
    GoodFrame c s.arg1 → GoodFlags c s.arg2 →
    Reaches s va (terminalLevel c + n) t → s.entryAdmitted (terminalLevel c + n) va t →
    (s.entryAt (terminalLevel c + n) va t).getLsbD 0 = false → fs.length < n →
    s.allocQ = fs.map some ++ r :: q → (∀ f ∈ fs, f.toNat < 2 ^ 52 ∧ f.toNat % 4096 = 0) →
    (r = none → ∃ ps, exec i s = .next
      { s.answered 0x04 (BitVec.ofNat 64 fs.length) (fs.getD 0 0) (fs.getD 1 0) 0 0 with
        allocQ := q, ports := ps }) ∧
    (∀ f : Word, r = some f → (2 ^ 52 ≤ f.toNat ∨ f.toNat % 4096 ≠ 0) →
      ∃ ps, exec i s = .next
        { s.faultedWith 0x02 with allocQ := q, ports := ps })

/-- UNMAP.S of a mapped page (43_mapper.md R198): the whole terminal entry is cleared. -/
def Obligations.UnmapClearsTheEntry : Prop :=
  ∀ (c : SizeClass) (s : State) (t e a : Word), s.flt = false → s.rv = true → s.tv = false →
    s.views = [] →
    GoodPage c s.arg0 → Reaches s s.arg0 (terminalLevel c) t →
    s.entryAdmitted (terminalLevel c) s.arg0 t → e = s.entryAt (terminalLevel c) s.arg0 t →
    e.getLsbD 0 = true → e.getLsbD 7 = decide (c ≠ .s4K) → a = e &&& 0x000FFFFFFFFFF000#64 →
    a.toNat % sizeBytes c = 0 →
    ∃ ps, exec (Instr.unmap c) s = .next
      { s.mutated (s.mem.write64 (entryPa (terminalLevel c) s.arg0 t) 0) c s.arg0 a 0 with
        ports := ps }

/-- What UNMAP.S refuses (43_mapper.md R198). -/
def Obligations.UnmapRefusals : Prop :=
  ∀ (c : SizeClass) (s : State), s.flt = false → s.rv = true → s.tv = false →
    s.views = [] →
    GoodPage c s.arg0 →
    (∀ l e, terminalLevel c ≤ l → s.WalkReads s.arg0 l e → e.getLsbD 0 = false →
      ∃ ps, exec (Instr.unmap c) s = .next
        { s.answered 0x03 (BitVec.ofNat 64 l) 0 0 0 0 with ports := ps }) ∧
    (∀ l e, terminalLevel c < l → s.WalkReads s.arg0 l e → e.getLsbD 0 = true →
      e.getLsbD 7 = true →
      ∃ ps, exec (Instr.unmap c) s = .next
        { s.answered 0x07 (BitVec.ofNat 64 l) 0 0 0 0 with ports := ps }) ∧
    (∀ e, s.WalkReads s.arg0 (terminalLevel c) e → e.getLsbD 0 = true →
      e.getLsbD 7 ≠ decide (c ≠ .s4K) →
      ∃ ps, exec (Instr.unmap c) s = .next
        { s.answered 0x07 (BitVec.ofNat 64 (terminalLevel c)) 0 0 0 0 with ports := ps }) ∧
    (∀ e a, s.WalkReads s.arg0 (terminalLevel c) e → e.getLsbD 0 = true →
      e.getLsbD 7 = decide (c ≠ .s4K) → a = e &&& 0x000FFFFFFFFFF000#64 →
      a.toNat % sizeBytes c ≠ 0 →
      ∃ ps, exec (Instr.unmap c) s = .next { s.answered 0x08 a 0 0 0 0 with ports := ps }) ∧
    (∀ l t, terminalLevel c ≤ l → Reaches s s.arg0 l t →
      s.admits (entryPa l s.arg0 t) 8 = false →
      ∃ ps, exec (Instr.unmap c) s = .next { s.faultedWith 0x01 with ports := ps })

/-- UPDATE_FLAGS.S of a mapped page (43_mapper.md R199): the address field is kept, even where it is
misaligned for the class, and the flags are replaced. -/
def Obligations.UpdateFlagsReplacesFlags : Prop :=
  ∀ (c : SizeClass) (s : State) (t e n : Word), s.flt = false → s.rv = true → s.tv = false →
    s.views = [] →
    GoodPage c s.arg0 → GoodFlags c s.arg2 → Reaches s s.arg0 (terminalLevel c) t →
    s.entryAdmitted (terminalLevel c) s.arg0 t → e = s.entryAt (terminalLevel c) s.arg0 t →
    e.getLsbD 0 = true → e.getLsbD 7 = decide (c ≠ .s4K) →
    n = ((e &&& 0x000FFFFFFFFFF000#64) ||| s.arg2 ||| (if c = .s4K then 0 else 0x80#64)) →
    ∃ ps, exec (Instr.updateFlags c) s = .next
      { s.mutated (s.mem.write64 (entryPa (terminalLevel c) s.arg0 t) n) c s.arg0 n 0 with
        ports := ps }

/-- What UPDATE_FLAGS.S refuses after its checks: every walk failure and class mismatch is
NOT_MAPPED (43_mapper.md R199). -/
def Obligations.UpdateFlagsRefusals : Prop :=
  ∀ (c : SizeClass) (s : State), s.flt = false → s.rv = true → s.tv = false →
    s.views = [] →
    GoodPage c s.arg0 → GoodFlags c s.arg2 →
    (∀ l e, terminalLevel c ≤ l → s.WalkReads s.arg0 l e →
      (e.getLsbD 0 = false ∨ (terminalLevel c < l ∧ e.getLsbD 7 = true) ∨
        (l = terminalLevel c ∧ e.getLsbD 7 ≠ decide (c ≠ .s4K))) →
      ∃ ps, exec (Instr.updateFlags c) s = .next
        { s.answered 0x03 (BitVec.ofNat 64 l) 0 0 0 0 with ports := ps }) ∧
    (∀ l t, terminalLevel c ≤ l → Reaches s s.arg0 l t →
      s.admits (entryPa l s.arg0 t) 8 = false →
      ∃ ps, exec (Instr.updateFlags c) s = .next { s.faultedWith 0x01 with ports := ps })

/-- UNMAP and UPDATE_FLAGS store to the terminal entry of the page and nowhere else, whatever they
answer (43_mapper.md R198, R199, R200). -/
def Obligations.UnmapAndUpdateMemoryFrame : Prop :=
  ∀ (i : Instr) (c : SizeClass) (s t : State), i = Instr.unmap c ∨ i = Instr.updateFlags c →
    s.views = [] → exec i s = .next t →
    ∀ a : Nat,
      (∀ tb, Reaches s s.arg0 (terminalLevel c) tb →
        a < entryPa (terminalLevel c) s.arg0 tb ∨ entryPa (terminalLevel c) s.arg0 tb + 8 ≤ a) →
      t.mem.readByte a = s.mem.readByte a

/-- MAP_TO and IDENTITY_MAP store to the absent entry at which the walk stops and into the frames
that the allocator answered in this command, and nowhere else, whatever they answer (43_mapper.md
R191, R192, R200). `va` is the page. -/
def Obligations.MapMemoryFrame : Prop :=
  ∀ (i : Instr) (c : SizeClass) (s t : State) (va : Word),
    (i = Instr.mapTo c ∧ va = s.arg0) ∨ (i = Instr.identityMap c ∧ va = s.arg1) →
    s.ports = [] → s.views = [] → exec i s = .next t →
    ∀ a : Nat,
      (∀ l tb, terminalLevel c ≤ l → Reaches s va l tb →
        (s.entryAt l va tb).getLsbD 0 = false →
        a < entryPa l va tb ∨ entryPa l va tb + 8 ≤ a) →
      (∀ f : Word, PortEvent.alloc (some f) ∈ t.ports → a < f.toNat ∨ f.toNat + 4096 ≤ a) →
      t.mem.readByte a = s.mem.readByte a

/-- A page that MAP_TO.S maps translates to its frame with its flags (95_test_vectors.md E4), when
the flags hold PRESENT and the host's duty on new frames (20_memory.md R70(d)) is kept: the frames
`fs` answered are distinct and are no tables of the walk. HUGE_PAGE is the only flag added. -/
def Obligations.MapThenTranslatePage : Prop :=
  ∀ (c : SizeClass) (s t : State) (fs : List Word), s.flt = false → s.views = [] →
    exec (Instr.mapTo c) s = .next t → t.status = 0x00 → s.arg2.getLsbD 0 = true →
    s.allocQ = fs.map some ++ t.allocQ → fs.length = t.res1.toNat → fs.Nodup →
    (∀ l tb, Reaches s s.arg0 l tb → tb ∉ fs) →
    ∃ u, exec (Instr.translatePage c) t = .next u ∧ u.status = 0x00 ∧ u.res0 = s.arg1 ∧
      u.res3 = codeWord c ∧ u.res4 = s.arg2 ||| (if c = .s4K then 0 else 0x80#64)

/-- A page that UNMAP.S unmaps no longer translates: TRANSLATE_PAGE.S answers NOT_MAPPED with the
level where the walk stops (43_mapper.md R198, 42 R163). -/
def Obligations.UnmapThenNotMapped : Prop :=
  ∀ (c : SizeClass) (s t : State), s.flt = false → s.views = [] →
    exec (Instr.unmap c) s = .next t →
    t.status = 0x00 →
    ∃ u, exec (Instr.translatePage c) t = .next u ∧ u.status = 0x03 ∧
      terminalLevel c ≤ u.res0.toNat ∧ u.res0.toNat ≤ 4 ∧ u.mem = t.mem

/-! ### Token, root, TLB -/

/-- FLUSH_TOKEN and IGNORE_TOKEN (44_flush_root.md R230, R231). That the flush also withdraws the
offered translations of the page (`fillable`) is the model's (log entry 7). -/
def Obligations.TokenResolution : Prop :=
  encode .flushToken = 0x18 ∧ encode .ignoreToken = 0x19 ∧ ∀ s : State, s.flt = false →
    (s.tv = false →
      exec .flushToken s = .next (s.answered 0x0E 0 0 0 0 0) ∧
      exec .ignoreToken s = .next (s.answered 0x0E 0 0 0 0 0)) ∧
    (s.tv = true →
      exec .flushToken s = .next
        { s.answered 0x00 s.tokenVa (s.tsz.setWidth 64) 0 0 0 with
          tv := false, tokenVa := 0, tsz := 0
          tlb := s.tlb.filter (fun e => !e.covers s.tokenVa)
          fillable := s.fillable.filter (fun e => !e.covers s.tokenVa)
          ports := .flush s.tokenVa :: s.ports } ∧
      exec .ignoreToken s = .next
        { s.answered 0x00 s.tokenVa (s.tsz.setWidth 64) 0 0 0 with
          tv := false, tokenVa := 0, tsz := 0 })

/-- SET_ROOT (44_flush_root.md R234). -/
def Obligations.SetRootResult : Prop :=
  encode .setRoot = 0x1A ∧ ∀ s : State, s.flt = false →
    (¬PhysicalAddress s.arg1 →
      exec .setRoot s = .next (s.answered 0x02 (s.arg1 >>> 52) 0 0 0 0)) ∧
    (PhysicalAddress s.arg1 → ∃ r : BitVec 52, r.toNat = s.arg1.toNat ∧
      exec .setRoot s = .next
        { s.answered 0x00 (s.readSlot 10) 0 0 0 0 with root := r, rv := true })

/-- The token discipline (44_flush_root.md R232, 43_mapper.md R201): who issues a token, who
resolves it, who leaves it alone. -/
def Obligations.TokenDiscipline : Prop :=
  (∀ (i : Instr) (s t : State) (c : SizeClass) (va : Word), s.flt = false →
    ((i = Instr.mapTo c ∨ i = Instr.unmap c ∨ i = Instr.updateFlags c) ∧ va = s.arg0 ∨
      i = Instr.identityMap c ∧ va = s.arg1) →
    exec i s = .next t →
    (t.status = 0x00 → s.tv = false ∧ t.tv = true ∧ t.tokenVa = va ∧ t.tsz = c.code) ∧
    (t.status ≠ 0x00 → t.tv = s.tv ∧ t.tokenVa = s.tokenVa ∧ t.tsz = s.tsz)) ∧
  (∀ (i : Instr) (s : State), Mutates i → s.flt = false → s.rv = true → s.tv = true →
    exec i s = .next (s.answered 0x0D s.tokenVa 0 0 0 0)) ∧
  (∀ (i : Instr) (s t : State), ¬Mutates i → i ≠ .flushToken → i ≠ .ignoreToken →
    exec i s = .next t → t.tv = s.tv ∧ t.tokenVa = s.tokenVa ∧ t.tsz = s.tsz) ∧
  ∀ (i j : Instr) (s t : State), i = .flushToken ∨ i = .ignoreToken →
    j = .flushToken ∨ j = .ignoreToken → s.flt = false → exec i s = .next t → t.status = 0x00 →
    s.tv = true ∧ t.tv = false ∧ ∃ u, exec j t = .next u ∧ u.status = 0x0E

/-- After FLUSH_TOKEN no TLB entry covers the token's page start, and every other entry stays
(20_memory.md R67). The host's own invalidation of a range (70_reset_and_hazards.md R287) does the
same for every entry that has an address in it, and withdraws the translations on offer (`fillable`)
too, which is the model's choice (log entry 19). -/
def Obligations.FlushLeavesNoCoveringEntry : Prop :=
  (∀ s : State, s.flt = false → s.tv = true →
    ∃ t, exec .flushToken s = .next t ∧
      ∀ e, e ∈ t.tlb ↔ e ∈ s.tlb ∧
        (s.tokenVa.toNat < e.page.toNat ∨ e.page.toNat + sizeBytes e.cls ≤ s.tokenVa.toNat)) ∧
  ∀ (s : State) (first last : Word) (rest : List Action),
    s.pending = .tlbInvalidate first last :: rest →
    ∃ tlb fillable : List TlbEntry,
      step s = .next { s with pending := rest, tlb := tlb, fillable := fillable } ∧
      (∀ e, e ∈ tlb ↔ e ∈ s.tlb ∧
        (last.toNat < e.page.toNat ∨ e.page.toNat + sizeBytes e.cls ≤ first.toNat)) ∧
      ∀ e, e ∈ fillable ↔ e ∈ s.fillable ∧
        (last.toNat < e.page.toNat ∨ e.page.toNat + sizeBytes e.cls ≤ first.toNat)

/-- A translation the core uses is by a cached entry that covers the address, or by the walker's
TRANSLATE of it (20_memory.md R66(e), 42_walk_translate.md R169). `coreXlat` is the model's record of
it (log entry 11), and that the miss path is one action is its choice (log entry 20). -/
def Obligations.CoreAccessUsesEntryOrWalk : Prop :=
  ∀ (s : State) (va : Word) (cached : Option Nat) (rest : List Action),
    s.pending = .access va cached :: rest →
    (∀ n e, cached = some n → s.tlb[n]? = some e → e.page.toNat ≤ va.toNat →
      va.toNat < e.page.toNat + sizeBytes e.cls →
      step s = .next { s with pending := rest, coreXlat := some (e.frame + (va - e.page)) }) ∧
    ((∀ n e, cached = some n → s.tlb[n]? = some e →
        va.toNat < e.page.toNat ∨ e.page.toNat + sizeBytes e.cls ≤ va.toNat) →
      ∃ u, exec .translate { s with pending := rest, ports := [], arg0 := va } = .next u ∧
        step s = .next
          { u with coreXlat := if u.status = 0x00 then some u.res0 else none })

/-- The TLB holds only what it held, or takes up what TRANSLATE answered (20_memory.md R66(a) to
(c)): in every step, an entry that is new in the TLB was on offer, and when an entry is newly on
offer the action of the step ran the command TRANSLATE, without the sticky fault, and the entry is
its OK result. What is on offer (`fillable`) is the model's record (log entry 7). -/
def Obligations.TlbHoldsOnlyTranslateResults : Prop :=
  ∀ s t : State, step s = .next t →
    (∀ e ∈ t.tlb, e ∈ s.tlb ∨ e ∈ s.fillable) ∧
    ∀ e ∈ t.fillable, e ∈ s.fillable ∨
      ((∃ a rest, s.pending = a :: rest ∧ State.Runs { s with pending := rest } a .translate) ∧
        t.status = 0x00 ∧ e.frame = t.res1 ∧ codeWord e.cls = t.res3 ∧ e.flags = t.res4 ∧
        e.page.toNat = t.arg0.toNat / sizeBytes e.cls * sizeBytes e.cls)

/-! ### The host and memory -/

/-- A direct host access of memory, of 8 bytes or of one (30_encoding.md R95 `MEMW`, 20_memory.md
R55, R70(a)): byte `k` of the value at address `pa + k`, every other byte as before, read back
whole. Choices of the model: the platform's `PHYS_ADMITS` does not apply to the host, so that no
premise names the admitted regions (log entry 8); an access outside the 2^52 bytes stops the run (log
entry 8); and no address of memory is one of the register window (log entry 12). -/
def Obligations.HostMemoryAccess : Prop :=
  ∀ (s : State) (pa v : Word) (b : Byte) (rest : List Action),
    (s.pending = .memWrite pa v :: rest → pa.toNat + 8 ≤ 2 ^ 52 →
      ∃ m, step s = .next { s with pending := rest, mem := m } ∧
        (∀ k < 8, m.readByte (pa.toNat + k) = v.extractLsb' (8 * k) 8) ∧
        (∀ a, (a < pa.toNat ∨ pa.toNat + 8 ≤ a) → m.readByte a = s.mem.readByte a) ∧
        m.read64 pa.toNat = v) ∧
    (s.pending = .memRead pa :: rest → pa.toNat + 8 ≤ 2 ^ 52 →
      ∃ d : Word, step s = .next { s with pending := rest, hostData := d } ∧
        ∀ k < 8, d.extractLsb' (8 * k) 8 = s.mem.readByte (pa.toNat + k)) ∧
    (s.pending = .memWriteByte pa b :: rest → pa.toNat < 2 ^ 52 →
      ∃ m, step s = .next { s with pending := rest, mem := m } ∧ m.readByte pa.toNat = b ∧
        ∀ a, a ≠ pa.toNat → m.readByte a = s.mem.readByte a) ∧
    (s.pending = .memReadByte pa :: rest → pa.toNat < 2 ^ 52 →
      step s = .next
        { s with pending := rest, hostData := (s.mem.readByte pa.toNat).setWidth 64 }) ∧
    (s.pending = .memWrite pa v :: rest ∨ s.pending = .memRead pa :: rest →
      2 ^ 52 < pa.toNat + 8 → step s = .fault (.noSuchPhysicalAddress pa)) ∧
    (s.pending = .memWriteByte pa b :: rest ∨ s.pending = .memReadByte pa :: rest →
      2 ^ 52 ≤ pa.toNat → step s = .fault (.noSuchPhysicalAddress pa))

/-- Writes of another agent that race with a command (20_memory.md R56, R62(c), R68;
93_implementation_defined.md U4, U10). A read of a command returns the old word where it sees no
racing write to its bytes, the new one where the last that it sees is to them; its draw is its own.
A race is the command with these reads, and memory then has every write in its place among the
command's own, which stay in their order: a racing write comes after as many of them as its `after`
says, or after all of them if they are fewer. A reset may end it after `n` port events. TABLE_READ
shows one draw end to end. Choices of the model: the form of the draws and of the places (log entry
9), the stop on a racing write outside the 2^52 bytes (log entry 8), that a reset cuts the command
after whole port events (log entry 10), and that no racing write meets the register window (log entry
12). -/
def Obligations.RacedReadsSeeOldOrNew : Prop :=
  (∀ (s : State) (pa : Nat), s.admits pa 8 = true →
    ∃ d : Word, memRead pa s =
        .ok d { s with ports := .read pa :: s.ports, views := s.views.tail } ∧
      ((∀ w ∈ s.views.headD [], pa + 8 ≤ w.1 ∨ w.1 + 8 ≤ pa) → d = s.mem.read64 pa) ∧
      ∀ (v : Word) (before later : List (Nat × Word)),
        s.views.headD [] = before ++ (pa, v) :: later →
        (∀ w ∈ later, pa + 8 ≤ w.1 ∨ w.1 + 8 ≤ pa) → d = v) ∧
  (∀ (s u : State) (source : CommandSource) (rs : List RacingWrite) (draws : List (List Bool))
    (reset : Option Nat) (rest : List Action), s.pending = .race source rs draws reset :: rest →
    (∀ r ∈ rs, r.pa.toNat + 8 ≤ 2 ^ 52) →
    startCommand source { s with pending := rest, views := draws.map (seenWrites rs) } = .next u →
    (reset = none → step s = .next
      { u with mem := s.mem.writeAll (raceWrites rs 0 (writesOf u.ports.reverse)), views := [] }) ∧
    ∀ n, reset = some n → ∃ t, step s = .next t ∧
      t.mem = s.mem.writeAll (raceWrites rs 0 (writesOf (u.ports.reverse.take n))) ∧
      t.views = [] ∧ ∀ slot, t.readSlot slot = 0) ∧
  (∀ (s : State) (source : CommandSource) (rs : List RacingWrite) (draws : List (List Bool))
    (reset : Option Nat) (rest : List Action), s.pending = .race source rs draws reset :: rest →
    (∃ r ∈ rs, 2 ^ 52 < r.pa.toNat + 8) → ∃ pa, step s = .fault (.noSuchPhysicalAddress pa)) ∧
  (∀ (rs : List RacingWrite) (own : List (Nat × Word)),
    raceWrites rs 0 own =
      (own.zipIdx.flatMap fun w =>
        (rs.filter fun r => r.after == w.2).map RacingWrite.store ++ [w.1]) ++
      (rs.filter fun r => decide (own.length ≤ r.after)).map RacingWrite.store) ∧
  ∀ (s : State) (r : RacingWrite) (sees : Bool) (rest : List Action), s.flt = false →
    s.pending = .race (.host 0x0E) [r] [[sees]] none :: rest →
    r.pa.toNat = s.arg1.toNat + 8 * s.arg0.toNat → GoodFrame .s4K s.arg1 → s.arg0.toNat ≤ 511 →
    s.admits r.pa.toNat 8 = true →
    ∃ t, step s = .next t ∧ t.status = 0x00 ∧
      t.res0 = (if sees then r.v else s.mem.read64 r.pa.toNat) ∧
      t.mem = s.mem.write64 r.pa.toNat r.v

/-! ### Rules of the whole machine -/

/-- A completion other than OK and FAULTED changes only STATUS and the result registers; the one
effect on another agent is the allocator calls that ALLOC_FAILED reports (60_exceptions.md R252). -/
def Obligations.NotOkChangesOnlyResults : Prop :=
  ∀ (i : Instr) (s t : State), exec i s = .next t → t.status ≠ 0x00 → t.status ≠ 0x12 →
    t = { s with
      status := t.status, res0 := t.res0, res1 := t.res1, res2 := t.res2, res3 := t.res3
      res4 := t.res4, ports := t.ports, allocQ := t.allocQ, allocCalls := t.allocCalls
      views := t.views } ∧
    (t.status ≠ 0x04 → t.allocQ = s.allocQ ∧ t.allocCalls = s.allocCalls)

/-- A command that takes the sticky fault (60_exceptions.md R256): cause 1 or 2 in FCAUSE and RES0,
STATUS FAULTED, and token, root and argument registers as before. ALLOC_PROTOCOL leaves memory
unchanged (20_memory.md R64). -/
def Obligations.FaultKeepsTokenAndRoot : Prop :=
  ∀ (i : Instr) (s t : State), s.flt = false → exec i s = .next t →
    (t.flt = true ↔ t.status = 0x12) ∧
    (t.flt = false → t.fcause = s.fcause) ∧
    (t.flt = true →
      (t.fcause = 0x01 ∨ t.fcause = 0x02) ∧ t.res0 = t.fcause.setWidth 64 ∧ t.res1 = 0 ∧
      t.res2 = 0 ∧ t.res3 = 0 ∧ t.res4 = 0 ∧ t.tv = s.tv ∧ t.tokenVa = s.tokenVa ∧
      t.tsz = s.tsz ∧ t.root = s.root ∧ t.rv = s.rv ∧ t.arg0 = s.arg0 ∧ t.arg1 = s.arg1 ∧
      t.arg2 = s.arg2 ∧ t.tlb = s.tlb ∧ (t.fcause = 0x02 → t.mem = s.mem))

/-- A command changes memory only through its port writes, performed in the order recorded, and
every access is 8 bytes at a multiple of 8, inside physical memory and admitted (20_memory.md R53,
R54, R61). The record of port events is the model's (log entry 10). -/
def Obligations.MemoryChangesOnlyByPortWrites : Prop :=
  ∀ (i : Instr) (s t : State), s.ports = [] → exec i s = .next t →
    t.mem = s.mem.writeAll (writesOf t.ports.reverse) ∧
    (∀ pa, (PortEvent.read pa ∈ t.ports ∨ ∃ v, PortEvent.write pa v ∈ t.ports) →
      pa % 8 = 0 ∧ pa + 8 ≤ 2 ^ 52 ∧ s.admits pa 8 = true)

/-- The access counts of the commands (70_reset_and_hazards.md R292), in the model's record of port
events (log entry 10). -/
def Obligations.AccessCounts : Prop :=
  ∀ (i : Instr) (s t : State), s.ports = [] → exec i s = .next t →
    (i ∈ [Instr.vaTryNew, .vaNewUnchecked, .vaSplit, .vaAdd, .vaSub, .paTryNew, .paAdd, .paSub,
        .paIsAligned, .paAlignDown, .paAlignUp, .entryDecode, .entryEncode4K, .entryEncode2M,
        .entryEncode1G, .ignoreToken, .setRoot] → t.ports = []) ∧
    (i = .flushToken →
      flushCount t.ports ≤ 1 ∧ readCount t.ports = 0 ∧ writeCount t.ports = 0 ∧
      allocCount t.ports = 0) ∧
    (i ≠ .flushToken → flushCount t.ports = 0) ∧
    (i = .tableRead →
      readCount t.ports ≤ 1 ∧ writeCount t.ports = 0 ∧ allocCount t.ports = 0) ∧
    (i = .translate ∨ i = .translateAddr →
      readCount t.ports ≤ 4 ∧ writeCount t.ports = 0 ∧ allocCount t.ports = 0) ∧
    ∀ c : SizeClass,
      (i = Instr.translatePage c →
        readCount t.ports ≤ 4 - terminalLevel c + 1 ∧ writeCount t.ports = 0 ∧
        allocCount t.ports = 0) ∧
      (i = Instr.unmap c ∨ i = Instr.updateFlags c →
        readCount t.ports ≤ 4 - terminalLevel c + 1 ∧ allocCount t.ports = 0 ∧
        writeCount t.ports = (if t.status = 0x00 then 1 else 0)) ∧
      (i = Instr.mapTo c ∨ i = Instr.identityMap c →
        readCount t.ports ≤ 4 - terminalLevel c + 1 ∧
        allocCount t.ports ≤ 4 - terminalLevel c ∧
        (t.status = 0x00 →
          writeCount t.ports = 513 * t.res1.toNat + 1 ∧ allocCount t.ports = t.res1.toNat) ∧
        (t.status ≠ 0x00 → t.status ≠ 0x12 → writeCount t.ports = 0))

/-- The invariants of 10_state.md R35 hold at reset and are kept by every step of every agent. -/
def Obligations.StepKeepsRegisterInvariants : Prop :=
  State.reset.RegistersOk ∧ ∀ s t : State, s.RegistersOk → step s = .next t → t.RegistersOk

/-- Every step keeps: memory in its canonical form and inside physical memory, the token naming a
page of its class under a root, only defined status and cause codes, aligned TLB entries, and that
between two actions no read has a racing write to see (log entry 9). That `TlbOk` also speaks of the
translations on offer (`fillable`) is the model's (log entry 7). -/
def Obligations.StepKeepsMachineInvariants : Prop :=
  ∀ s t : State, s.mem.wf → s.mem.InSpace → s.TokenOk → s.CodesOk → s.TlbOk → s.views = [] →
    step s = .next t →
    t.mem.wf ∧ t.mem.InSpace ∧ t.TokenOk ∧ t.CodesOk ∧ t.TlbOk ∧ t.views = []

/-- The invariants hold at reset. That memory lists nothing there, the TLB is empty, nothing is on
offer (`fillable`) and no write races is the model's choice (log entries 2, 6, 7, 9). -/
def Obligations.InvariantsHoldAtReset : Prop :=
  State.reset.RegistersOk ∧ State.reset.mem.wf ∧ State.reset.mem.InSpace ∧ State.reset.TokenOk ∧
  State.reset.CodesOk ∧ State.reset.TlbOk ∧ State.reset.views = []
end

