-- ==== Sys2Proof/Laws/State.lean ====
section
/-! SUPPORT. One lemma per field of State per update, so that no proof unfolds an update. The normal
form of a completion is `State.finish`. -/

namespace Sys2Proof.Machine

/-! ### Completions are `finish` -/

@[simp] theorem complete_eq_finish (s : State) (r0 r1 r2 r3 r4 : Word) :
    s.complete r0 r1 r2 r3 r4 = s.finish .ok r0 r1 r2 r3 r4 := rfl

@[simp] theorem raise_eq_finish (s : State) (st : Status) (a0 a1 a2 : Word) :
    s.raise st a0 a1 a2 = s.finish st a0 a1 a2 0 0 := rfl

@[simp] theorem argError_eq_finish (s : State) (sub : ArgSub) :
    s.argError sub = s.finish .argError sub.code 0 0 0 0 := rfl

@[simp] theorem raiseNonCanonical_eq_finish (s : State) (v : Word) :
    s.raiseNonCanonical v = s.finish .nonCanonical ((canonicalBits v).setWidth 64) 0 0 0 0 := rfl

@[simp] theorem raiseInvalidPhys_eq_finish (s : State) (v : Word) :
    s.raiseInvalidPhys v = s.finish .invalidPhys ((physicalBits v).setWidth 64) 0 0 0 0 := rfl

@[simp] theorem raiseFaulted_eq_finish (s : State) :
    s.raiseFaulted = s.finish .faulted (s.fcause.setWidth 64) 0 0 0 0 := rfl

@[simp] theorem operand0_eq (s : State) : s.operand0 = s.arg0 := rfl
@[simp] theorem operand1_eq (s : State) : s.operand1 = s.arg1 := rfl
@[simp] theorem operandFlags_eq (s : State) : s.operandFlags = s.arg2 := rfl

/-! ### finish -/

@[simp] theorem finish_arg0 (s : State) (st : Status) (r0 r1 r2 r3 r4 : Word) :
    (s.finish st r0 r1 r2 r3 r4).arg0 = s.arg0 := rfl
@[simp] theorem finish_arg1 (s : State) (st : Status) (r0 r1 r2 r3 r4 : Word) :
    (s.finish st r0 r1 r2 r3 r4).arg1 = s.arg1 := rfl
@[simp] theorem finish_arg2 (s : State) (st : Status) (r0 r1 r2 r3 r4 : Word) :
    (s.finish st r0 r1 r2 r3 r4).arg2 = s.arg2 := rfl
@[simp] theorem finish_status (s : State) (st : Status) (r0 r1 r2 r3 r4 : Word) :
    (s.finish st r0 r1 r2 r3 r4).status = st.code := rfl
@[simp] theorem finish_res0 (s : State) (st : Status) (r0 r1 r2 r3 r4 : Word) :
    (s.finish st r0 r1 r2 r3 r4).res0 = r0 := rfl
@[simp] theorem finish_res1 (s : State) (st : Status) (r0 r1 r2 r3 r4 : Word) :
    (s.finish st r0 r1 r2 r3 r4).res1 = r1 := rfl
@[simp] theorem finish_res2 (s : State) (st : Status) (r0 r1 r2 r3 r4 : Word) :
    (s.finish st r0 r1 r2 r3 r4).res2 = r2 := rfl
@[simp] theorem finish_res3 (s : State) (st : Status) (r0 r1 r2 r3 r4 : Word) :
    (s.finish st r0 r1 r2 r3 r4).res3 = r3 := rfl
@[simp] theorem finish_res4 (s : State) (st : Status) (r0 r1 r2 r3 r4 : Word) :
    (s.finish st r0 r1 r2 r3 r4).res4 = r4 := rfl
@[simp] theorem finish_root (s : State) (st : Status) (r0 r1 r2 r3 r4 : Word) :
    (s.finish st r0 r1 r2 r3 r4).root = s.root := rfl
@[simp] theorem finish_tokenVa (s : State) (st : Status) (r0 r1 r2 r3 r4 : Word) :
    (s.finish st r0 r1 r2 r3 r4).tokenVa = s.tokenVa := rfl
@[simp] theorem finish_rv (s : State) (st : Status) (r0 r1 r2 r3 r4 : Word) :
    (s.finish st r0 r1 r2 r3 r4).rv = s.rv := rfl
@[simp] theorem finish_tv (s : State) (st : Status) (r0 r1 r2 r3 r4 : Word) :
    (s.finish st r0 r1 r2 r3 r4).tv = s.tv := rfl
@[simp] theorem finish_flt (s : State) (st : Status) (r0 r1 r2 r3 r4 : Word) :
    (s.finish st r0 r1 r2 r3 r4).flt = s.flt := rfl
@[simp] theorem finish_tsz (s : State) (st : Status) (r0 r1 r2 r3 r4 : Word) :
    (s.finish st r0 r1 r2 r3 r4).tsz = s.tsz := rfl
@[simp] theorem finish_fcause (s : State) (st : Status) (r0 r1 r2 r3 r4 : Word) :
    (s.finish st r0 r1 r2 r3 r4).fcause = s.fcause := rfl
@[simp] theorem finish_mem (s : State) (st : Status) (r0 r1 r2 r3 r4 : Word) :
    (s.finish st r0 r1 r2 r3 r4).mem = s.mem := rfl
@[simp] theorem finish_admitted (s : State) (st : Status) (r0 r1 r2 r3 r4 : Word) :
    (s.finish st r0 r1 r2 r3 r4).admitted = s.admitted := rfl
@[simp] theorem finish_allocQ (s : State) (st : Status) (r0 r1 r2 r3 r4 : Word) :
    (s.finish st r0 r1 r2 r3 r4).allocQ = s.allocQ := rfl
@[simp] theorem finish_allocCalls (s : State) (st : Status) (r0 r1 r2 r3 r4 : Word) :
    (s.finish st r0 r1 r2 r3 r4).allocCalls = s.allocCalls := rfl
@[simp] theorem finish_tlb (s : State) (st : Status) (r0 r1 r2 r3 r4 : Word) :
    (s.finish st r0 r1 r2 r3 r4).tlb = s.tlb := rfl
@[simp] theorem finish_fillable (s : State) (st : Status) (r0 r1 r2 r3 r4 : Word) :
    (s.finish st r0 r1 r2 r3 r4).fillable = s.fillable := rfl
@[simp] theorem finish_coreXlat (s : State) (st : Status) (r0 r1 r2 r3 r4 : Word) :
    (s.finish st r0 r1 r2 r3 r4).coreXlat = s.coreXlat := rfl
@[simp] theorem finish_hostData (s : State) (st : Status) (r0 r1 r2 r3 r4 : Word) :
    (s.finish st r0 r1 r2 r3 r4).hostData = s.hostData := rfl
@[simp] theorem finish_pending (s : State) (st : Status) (r0 r1 r2 r3 r4 : Word) :
    (s.finish st r0 r1 r2 r3 r4).pending = s.pending := rfl
@[simp] theorem finish_ports (s : State) (st : Status) (r0 r1 r2 r3 r4 : Word) :
    (s.finish st r0 r1 r2 r3 r4).ports = s.ports := rfl
@[simp] theorem finish_views (s : State) (st : Status) (r0 r1 r2 r3 r4 : Word) :
    (s.finish st r0 r1 r2 r3 r4).views = s.views := rfl

/-! ### takeFault -/

@[simp] theorem takeFault_arg0 (s : State) (c : FaultCause) : (s.takeFault c).arg0 = s.arg0 := rfl
@[simp] theorem takeFault_arg1 (s : State) (c : FaultCause) : (s.takeFault c).arg1 = s.arg1 := rfl
@[simp] theorem takeFault_arg2 (s : State) (c : FaultCause) : (s.takeFault c).arg2 = s.arg2 := rfl
@[simp] theorem takeFault_status (s : State) (c : FaultCause) :
    (s.takeFault c).status = Status.faulted.code := rfl
@[simp] theorem takeFault_res0 (s : State) (c : FaultCause) :
    (s.takeFault c).res0 = c.code.setWidth 64 := rfl
@[simp] theorem takeFault_res1 (s : State) (c : FaultCause) : (s.takeFault c).res1 = 0 := rfl
@[simp] theorem takeFault_res2 (s : State) (c : FaultCause) : (s.takeFault c).res2 = 0 := rfl
@[simp] theorem takeFault_res3 (s : State) (c : FaultCause) : (s.takeFault c).res3 = 0 := rfl
@[simp] theorem takeFault_res4 (s : State) (c : FaultCause) : (s.takeFault c).res4 = 0 := rfl
@[simp] theorem takeFault_root (s : State) (c : FaultCause) : (s.takeFault c).root = s.root := rfl
@[simp] theorem takeFault_tokenVa (s : State) (c : FaultCause) :
    (s.takeFault c).tokenVa = s.tokenVa := rfl
@[simp] theorem takeFault_rv (s : State) (c : FaultCause) : (s.takeFault c).rv = s.rv := rfl
@[simp] theorem takeFault_tv (s : State) (c : FaultCause) : (s.takeFault c).tv = s.tv := rfl
@[simp] theorem takeFault_flt (s : State) (c : FaultCause) : (s.takeFault c).flt = true := rfl
@[simp] theorem takeFault_tsz (s : State) (c : FaultCause) : (s.takeFault c).tsz = s.tsz := rfl
@[simp] theorem takeFault_fcause (s : State) (c : FaultCause) :
    (s.takeFault c).fcause = c.code := rfl
@[simp] theorem takeFault_mem (s : State) (c : FaultCause) : (s.takeFault c).mem = s.mem := rfl
@[simp] theorem takeFault_admitted (s : State) (c : FaultCause) :
    (s.takeFault c).admitted = s.admitted := rfl
@[simp] theorem takeFault_allocQ (s : State) (c : FaultCause) :
    (s.takeFault c).allocQ = s.allocQ := rfl
@[simp] theorem takeFault_allocCalls (s : State) (c : FaultCause) :
    (s.takeFault c).allocCalls = s.allocCalls := rfl
@[simp] theorem takeFault_tlb (s : State) (c : FaultCause) : (s.takeFault c).tlb = s.tlb := rfl
@[simp] theorem takeFault_fillable (s : State) (c : FaultCause) :
    (s.takeFault c).fillable = s.fillable := rfl
@[simp] theorem takeFault_coreXlat (s : State) (c : FaultCause) :
    (s.takeFault c).coreXlat = s.coreXlat := rfl
@[simp] theorem takeFault_hostData (s : State) (c : FaultCause) :
    (s.takeFault c).hostData = s.hostData := rfl
@[simp] theorem takeFault_pending (s : State) (c : FaultCause) :
    (s.takeFault c).pending = s.pending := rfl
@[simp] theorem takeFault_ports (s : State) (c : FaultCause) :
    (s.takeFault c).ports = s.ports := rfl
@[simp] theorem takeFault_views (s : State) (c : FaultCause) :
    (s.takeFault c).views = s.views := rfl

/-! ### walkerReset -/

@[simp] theorem walkerReset_arg0 (s : State) : (s.walkerReset).arg0 = 0 := rfl
@[simp] theorem walkerReset_arg1 (s : State) : (s.walkerReset).arg1 = 0 := rfl
@[simp] theorem walkerReset_arg2 (s : State) : (s.walkerReset).arg2 = 0 := rfl
@[simp] theorem walkerReset_status (s : State) : (s.walkerReset).status = 0 := rfl
@[simp] theorem walkerReset_res0 (s : State) : (s.walkerReset).res0 = 0 := rfl
@[simp] theorem walkerReset_res1 (s : State) : (s.walkerReset).res1 = 0 := rfl
@[simp] theorem walkerReset_res2 (s : State) : (s.walkerReset).res2 = 0 := rfl
@[simp] theorem walkerReset_res3 (s : State) : (s.walkerReset).res3 = 0 := rfl
@[simp] theorem walkerReset_res4 (s : State) : (s.walkerReset).res4 = 0 := rfl
@[simp] theorem walkerReset_root (s : State) : (s.walkerReset).root = 0 := rfl
@[simp] theorem walkerReset_tokenVa (s : State) : (s.walkerReset).tokenVa = 0 := rfl
@[simp] theorem walkerReset_rv (s : State) : (s.walkerReset).rv = false := rfl
@[simp] theorem walkerReset_tv (s : State) : (s.walkerReset).tv = false := rfl
@[simp] theorem walkerReset_flt (s : State) : (s.walkerReset).flt = false := rfl
@[simp] theorem walkerReset_tsz (s : State) : (s.walkerReset).tsz = 0 := rfl
@[simp] theorem walkerReset_fcause (s : State) : (s.walkerReset).fcause = 0 := rfl
@[simp] theorem walkerReset_mem (s : State) : (s.walkerReset).mem = s.mem := rfl
@[simp] theorem walkerReset_admitted (s : State) : (s.walkerReset).admitted = s.admitted := rfl
@[simp] theorem walkerReset_allocQ (s : State) : (s.walkerReset).allocQ = s.allocQ := rfl
@[simp] theorem walkerReset_allocCalls (s : State) :
    (s.walkerReset).allocCalls = s.allocCalls := rfl
@[simp] theorem walkerReset_tlb (s : State) : (s.walkerReset).tlb = s.tlb := rfl
@[simp] theorem walkerReset_fillable (s : State) : (s.walkerReset).fillable = s.fillable := rfl
@[simp] theorem walkerReset_coreXlat (s : State) : (s.walkerReset).coreXlat = s.coreXlat := rfl
@[simp] theorem walkerReset_hostData (s : State) : (s.walkerReset).hostData = s.hostData := rfl
@[simp] theorem walkerReset_pending (s : State) : (s.walkerReset).pending = s.pending := rfl
@[simp] theorem walkerReset_ports (s : State) : (s.walkerReset).ports = s.ports := rfl
@[simp] theorem walkerReset_views (s : State) : (s.walkerReset).views = s.views := rfl

/-! ### log -/

@[simp] theorem log_arg0 (s : State) (e : PortEvent) : (s.log e).arg0 = s.arg0 := rfl
@[simp] theorem log_arg1 (s : State) (e : PortEvent) : (s.log e).arg1 = s.arg1 := rfl
@[simp] theorem log_arg2 (s : State) (e : PortEvent) : (s.log e).arg2 = s.arg2 := rfl
@[simp] theorem log_status (s : State) (e : PortEvent) : (s.log e).status = s.status := rfl
@[simp] theorem log_res0 (s : State) (e : PortEvent) : (s.log e).res0 = s.res0 := rfl
@[simp] theorem log_res1 (s : State) (e : PortEvent) : (s.log e).res1 = s.res1 := rfl
@[simp] theorem log_res2 (s : State) (e : PortEvent) : (s.log e).res2 = s.res2 := rfl
@[simp] theorem log_res3 (s : State) (e : PortEvent) : (s.log e).res3 = s.res3 := rfl
@[simp] theorem log_res4 (s : State) (e : PortEvent) : (s.log e).res4 = s.res4 := rfl
@[simp] theorem log_root (s : State) (e : PortEvent) : (s.log e).root = s.root := rfl
@[simp] theorem log_tokenVa (s : State) (e : PortEvent) : (s.log e).tokenVa = s.tokenVa := rfl
@[simp] theorem log_rv (s : State) (e : PortEvent) : (s.log e).rv = s.rv := rfl
@[simp] theorem log_tv (s : State) (e : PortEvent) : (s.log e).tv = s.tv := rfl
@[simp] theorem log_flt (s : State) (e : PortEvent) : (s.log e).flt = s.flt := rfl
@[simp] theorem log_tsz (s : State) (e : PortEvent) : (s.log e).tsz = s.tsz := rfl
@[simp] theorem log_fcause (s : State) (e : PortEvent) : (s.log e).fcause = s.fcause := rfl
@[simp] theorem log_mem (s : State) (e : PortEvent) : (s.log e).mem = s.mem := rfl
@[simp] theorem log_admitted (s : State) (e : PortEvent) : (s.log e).admitted = s.admitted := rfl
@[simp] theorem log_allocQ (s : State) (e : PortEvent) : (s.log e).allocQ = s.allocQ := rfl
@[simp] theorem log_allocCalls (s : State) (e : PortEvent) :
    (s.log e).allocCalls = s.allocCalls := rfl
@[simp] theorem log_tlb (s : State) (e : PortEvent) : (s.log e).tlb = s.tlb := rfl
@[simp] theorem log_fillable (s : State) (e : PortEvent) : (s.log e).fillable = s.fillable := rfl
@[simp] theorem log_coreXlat (s : State) (e : PortEvent) : (s.log e).coreXlat = s.coreXlat := rfl
@[simp] theorem log_hostData (s : State) (e : PortEvent) : (s.log e).hostData = s.hostData := rfl
@[simp] theorem log_pending (s : State) (e : PortEvent) : (s.log e).pending = s.pending := rfl
@[simp] theorem log_ports (s : State) (e : PortEvent) : (s.log e).ports = e :: s.ports := rfl
@[simp] theorem log_views (s : State) (e : PortEvent) : (s.log e).views = s.views := rfl

/-! ### clearPorts -/

@[simp] theorem clearPorts_arg0 (s : State) : (s.clearPorts).arg0 = s.arg0 := rfl
@[simp] theorem clearPorts_arg1 (s : State) : (s.clearPorts).arg1 = s.arg1 := rfl
@[simp] theorem clearPorts_arg2 (s : State) : (s.clearPorts).arg2 = s.arg2 := rfl
@[simp] theorem clearPorts_status (s : State) : (s.clearPorts).status = s.status := rfl
@[simp] theorem clearPorts_res0 (s : State) : (s.clearPorts).res0 = s.res0 := rfl
@[simp] theorem clearPorts_res1 (s : State) : (s.clearPorts).res1 = s.res1 := rfl
@[simp] theorem clearPorts_res2 (s : State) : (s.clearPorts).res2 = s.res2 := rfl
@[simp] theorem clearPorts_res3 (s : State) : (s.clearPorts).res3 = s.res3 := rfl
@[simp] theorem clearPorts_res4 (s : State) : (s.clearPorts).res4 = s.res4 := rfl
@[simp] theorem clearPorts_root (s : State) : (s.clearPorts).root = s.root := rfl
@[simp] theorem clearPorts_tokenVa (s : State) : (s.clearPorts).tokenVa = s.tokenVa := rfl
@[simp] theorem clearPorts_rv (s : State) : (s.clearPorts).rv = s.rv := rfl
@[simp] theorem clearPorts_tv (s : State) : (s.clearPorts).tv = s.tv := rfl
@[simp] theorem clearPorts_flt (s : State) : (s.clearPorts).flt = s.flt := rfl
@[simp] theorem clearPorts_tsz (s : State) : (s.clearPorts).tsz = s.tsz := rfl
@[simp] theorem clearPorts_fcause (s : State) : (s.clearPorts).fcause = s.fcause := rfl
@[simp] theorem clearPorts_mem (s : State) : (s.clearPorts).mem = s.mem := rfl
@[simp] theorem clearPorts_admitted (s : State) : (s.clearPorts).admitted = s.admitted := rfl
@[simp] theorem clearPorts_allocQ (s : State) : (s.clearPorts).allocQ = s.allocQ := rfl
@[simp] theorem clearPorts_allocCalls (s : State) : (s.clearPorts).allocCalls = s.allocCalls := rfl
@[simp] theorem clearPorts_tlb (s : State) : (s.clearPorts).tlb = s.tlb := rfl
@[simp] theorem clearPorts_fillable (s : State) : (s.clearPorts).fillable = s.fillable := rfl
@[simp] theorem clearPorts_coreXlat (s : State) : (s.clearPorts).coreXlat = s.coreXlat := rfl
@[simp] theorem clearPorts_hostData (s : State) : (s.clearPorts).hostData = s.hostData := rfl
@[simp] theorem clearPorts_pending (s : State) : (s.clearPorts).pending = s.pending := rfl
@[simp] theorem clearPorts_ports (s : State) : (s.clearPorts).ports = [] := rfl
@[simp] theorem clearPorts_views (s : State) : (s.clearPorts).views = s.views := rfl

/-! ### hostStops -/

@[simp] theorem hostStops_arg0 (s : State) : (s.hostStops).arg0 = s.arg0 := rfl
@[simp] theorem hostStops_arg1 (s : State) : (s.hostStops).arg1 = s.arg1 := rfl
@[simp] theorem hostStops_arg2 (s : State) : (s.hostStops).arg2 = s.arg2 := rfl
@[simp] theorem hostStops_status (s : State) : (s.hostStops).status = s.status := rfl
@[simp] theorem hostStops_res0 (s : State) : (s.hostStops).res0 = s.res0 := rfl
@[simp] theorem hostStops_res1 (s : State) : (s.hostStops).res1 = s.res1 := rfl
@[simp] theorem hostStops_res2 (s : State) : (s.hostStops).res2 = s.res2 := rfl
@[simp] theorem hostStops_res3 (s : State) : (s.hostStops).res3 = s.res3 := rfl
@[simp] theorem hostStops_res4 (s : State) : (s.hostStops).res4 = s.res4 := rfl
@[simp] theorem hostStops_root (s : State) : (s.hostStops).root = s.root := rfl
@[simp] theorem hostStops_tokenVa (s : State) : (s.hostStops).tokenVa = s.tokenVa := rfl
@[simp] theorem hostStops_rv (s : State) : (s.hostStops).rv = s.rv := rfl
@[simp] theorem hostStops_tv (s : State) : (s.hostStops).tv = s.tv := rfl
@[simp] theorem hostStops_flt (s : State) : (s.hostStops).flt = s.flt := rfl
@[simp] theorem hostStops_tsz (s : State) : (s.hostStops).tsz = s.tsz := rfl
@[simp] theorem hostStops_fcause (s : State) : (s.hostStops).fcause = s.fcause := rfl
@[simp] theorem hostStops_mem (s : State) : (s.hostStops).mem = s.mem := rfl
@[simp] theorem hostStops_admitted (s : State) : (s.hostStops).admitted = s.admitted := rfl
@[simp] theorem hostStops_allocQ (s : State) : (s.hostStops).allocQ = s.allocQ := rfl
@[simp] theorem hostStops_allocCalls (s : State) : (s.hostStops).allocCalls = s.allocCalls := rfl
@[simp] theorem hostStops_tlb (s : State) : (s.hostStops).tlb = s.tlb := rfl
@[simp] theorem hostStops_fillable (s : State) : (s.hostStops).fillable = s.fillable := rfl
@[simp] theorem hostStops_coreXlat (s : State) : (s.hostStops).coreXlat = s.coreXlat := rfl
@[simp] theorem hostStops_hostData (s : State) : (s.hostStops).hostData = s.hostData := rfl
@[simp] theorem hostStops_pending (s : State) :
    (s.hostStops).pending = s.pending.filterMap withoutHost := rfl
@[simp] theorem hostStops_ports (s : State) : (s.hostStops).ports = s.ports := rfl
@[simp] theorem hostStops_views (s : State) : (s.hostStops).views = s.views := rfl

/-! ### storeWord -/

@[simp] theorem storeWord_arg0 (s : State) (pa : Nat) (v : Word) :
    (s.storeWord pa v).arg0 = s.arg0 := rfl
@[simp] theorem storeWord_arg1 (s : State) (pa : Nat) (v : Word) :
    (s.storeWord pa v).arg1 = s.arg1 := rfl
@[simp] theorem storeWord_arg2 (s : State) (pa : Nat) (v : Word) :
    (s.storeWord pa v).arg2 = s.arg2 := rfl
@[simp] theorem storeWord_status (s : State) (pa : Nat) (v : Word) :
    (s.storeWord pa v).status = s.status := rfl
@[simp] theorem storeWord_res0 (s : State) (pa : Nat) (v : Word) :
    (s.storeWord pa v).res0 = s.res0 := rfl
@[simp] theorem storeWord_res1 (s : State) (pa : Nat) (v : Word) :
    (s.storeWord pa v).res1 = s.res1 := rfl
@[simp] theorem storeWord_res2 (s : State) (pa : Nat) (v : Word) :
    (s.storeWord pa v).res2 = s.res2 := rfl
@[simp] theorem storeWord_res3 (s : State) (pa : Nat) (v : Word) :
    (s.storeWord pa v).res3 = s.res3 := rfl
@[simp] theorem storeWord_res4 (s : State) (pa : Nat) (v : Word) :
    (s.storeWord pa v).res4 = s.res4 := rfl
@[simp] theorem storeWord_root (s : State) (pa : Nat) (v : Word) :
    (s.storeWord pa v).root = s.root := rfl
@[simp] theorem storeWord_tokenVa (s : State) (pa : Nat) (v : Word) :
    (s.storeWord pa v).tokenVa = s.tokenVa := rfl
@[simp] theorem storeWord_rv (s : State) (pa : Nat) (v : Word) : (s.storeWord pa v).rv = s.rv := rfl
@[simp] theorem storeWord_tv (s : State) (pa : Nat) (v : Word) : (s.storeWord pa v).tv = s.tv := rfl
@[simp] theorem storeWord_flt (s : State) (pa : Nat) (v : Word) :
    (s.storeWord pa v).flt = s.flt := rfl
@[simp] theorem storeWord_tsz (s : State) (pa : Nat) (v : Word) :
    (s.storeWord pa v).tsz = s.tsz := rfl
@[simp] theorem storeWord_fcause (s : State) (pa : Nat) (v : Word) :
    (s.storeWord pa v).fcause = s.fcause := rfl
@[simp] theorem storeWord_mem (s : State) (pa : Nat) (v : Word) :
    (s.storeWord pa v).mem = s.mem.write64 pa v := rfl
@[simp] theorem storeWord_admitted (s : State) (pa : Nat) (v : Word) :
    (s.storeWord pa v).admitted = s.admitted := rfl
@[simp] theorem storeWord_allocQ (s : State) (pa : Nat) (v : Word) :
    (s.storeWord pa v).allocQ = s.allocQ := rfl
@[simp] theorem storeWord_allocCalls (s : State) (pa : Nat) (v : Word) :
    (s.storeWord pa v).allocCalls = s.allocCalls := rfl
@[simp] theorem storeWord_tlb (s : State) (pa : Nat) (v : Word) :
    (s.storeWord pa v).tlb = s.tlb := rfl
@[simp] theorem storeWord_fillable (s : State) (pa : Nat) (v : Word) :
    (s.storeWord pa v).fillable = s.fillable := rfl
@[simp] theorem storeWord_coreXlat (s : State) (pa : Nat) (v : Word) :
    (s.storeWord pa v).coreXlat = s.coreXlat := rfl
@[simp] theorem storeWord_hostData (s : State) (pa : Nat) (v : Word) :
    (s.storeWord pa v).hostData = s.hostData := rfl
@[simp] theorem storeWord_pending (s : State) (pa : Nat) (v : Word) :
    (s.storeWord pa v).pending = s.pending := rfl
@[simp] theorem storeWord_ports (s : State) (pa : Nat) (v : Word) :
    (s.storeWord pa v).ports = .write pa v :: s.ports := rfl
@[simp] theorem storeWord_views (s : State) (pa : Nat) (v : Word) :
    (s.storeWord pa v).views = s.views := rfl

/-! ### tlbFlush -/

@[simp] theorem tlbFlush_arg0 (s : State) (va : Word) : (s.tlbFlush va).arg0 = s.arg0 := rfl
@[simp] theorem tlbFlush_arg1 (s : State) (va : Word) : (s.tlbFlush va).arg1 = s.arg1 := rfl
@[simp] theorem tlbFlush_arg2 (s : State) (va : Word) : (s.tlbFlush va).arg2 = s.arg2 := rfl
@[simp] theorem tlbFlush_status (s : State) (va : Word) : (s.tlbFlush va).status = s.status := rfl
@[simp] theorem tlbFlush_res0 (s : State) (va : Word) : (s.tlbFlush va).res0 = s.res0 := rfl
@[simp] theorem tlbFlush_res1 (s : State) (va : Word) : (s.tlbFlush va).res1 = s.res1 := rfl
@[simp] theorem tlbFlush_res2 (s : State) (va : Word) : (s.tlbFlush va).res2 = s.res2 := rfl
@[simp] theorem tlbFlush_res3 (s : State) (va : Word) : (s.tlbFlush va).res3 = s.res3 := rfl
@[simp] theorem tlbFlush_res4 (s : State) (va : Word) : (s.tlbFlush va).res4 = s.res4 := rfl
@[simp] theorem tlbFlush_root (s : State) (va : Word) : (s.tlbFlush va).root = s.root := rfl
@[simp] theorem tlbFlush_tokenVa (s : State) (va : Word) :
    (s.tlbFlush va).tokenVa = s.tokenVa := rfl
@[simp] theorem tlbFlush_rv (s : State) (va : Word) : (s.tlbFlush va).rv = s.rv := rfl
@[simp] theorem tlbFlush_tv (s : State) (va : Word) : (s.tlbFlush va).tv = s.tv := rfl
@[simp] theorem tlbFlush_flt (s : State) (va : Word) : (s.tlbFlush va).flt = s.flt := rfl
@[simp] theorem tlbFlush_tsz (s : State) (va : Word) : (s.tlbFlush va).tsz = s.tsz := rfl
@[simp] theorem tlbFlush_fcause (s : State) (va : Word) : (s.tlbFlush va).fcause = s.fcause := rfl
@[simp] theorem tlbFlush_mem (s : State) (va : Word) : (s.tlbFlush va).mem = s.mem := rfl
@[simp] theorem tlbFlush_admitted (s : State) (va : Word) :
    (s.tlbFlush va).admitted = s.admitted := rfl
@[simp] theorem tlbFlush_allocQ (s : State) (va : Word) : (s.tlbFlush va).allocQ = s.allocQ := rfl
@[simp] theorem tlbFlush_allocCalls (s : State) (va : Word) :
    (s.tlbFlush va).allocCalls = s.allocCalls := rfl
@[simp] theorem tlbFlush_tlb (s : State) (va : Word) :
    (s.tlbFlush va).tlb = s.tlb.filter (fun e => !e.covers va) := rfl
@[simp] theorem tlbFlush_fillable (s : State) (va : Word) :
    (s.tlbFlush va).fillable = s.fillable.filter (fun e => !e.covers va) := rfl
@[simp] theorem tlbFlush_coreXlat (s : State) (va : Word) :
    (s.tlbFlush va).coreXlat = s.coreXlat := rfl
@[simp] theorem tlbFlush_hostData (s : State) (va : Word) :
    (s.tlbFlush va).hostData = s.hostData := rfl
@[simp] theorem tlbFlush_pending (s : State) (va : Word) :
    (s.tlbFlush va).pending = s.pending := rfl
@[simp] theorem tlbFlush_ports (s : State) (va : Word) :
    (s.tlbFlush va).ports = .flush va :: s.ports := rfl
@[simp] theorem tlbFlush_views (s : State) (va : Word) : (s.tlbFlush va).views = s.views := rfl

/-! ### offer -/

@[simp] theorem offer_arg0 (s : State) (e : TlbEntry) : (s.offer e).arg0 = s.arg0 := rfl
@[simp] theorem offer_arg1 (s : State) (e : TlbEntry) : (s.offer e).arg1 = s.arg1 := rfl
@[simp] theorem offer_arg2 (s : State) (e : TlbEntry) : (s.offer e).arg2 = s.arg2 := rfl
@[simp] theorem offer_status (s : State) (e : TlbEntry) : (s.offer e).status = s.status := rfl
@[simp] theorem offer_res0 (s : State) (e : TlbEntry) : (s.offer e).res0 = s.res0 := rfl
@[simp] theorem offer_res1 (s : State) (e : TlbEntry) : (s.offer e).res1 = s.res1 := rfl
@[simp] theorem offer_res2 (s : State) (e : TlbEntry) : (s.offer e).res2 = s.res2 := rfl
@[simp] theorem offer_res3 (s : State) (e : TlbEntry) : (s.offer e).res3 = s.res3 := rfl
@[simp] theorem offer_res4 (s : State) (e : TlbEntry) : (s.offer e).res4 = s.res4 := rfl
@[simp] theorem offer_root (s : State) (e : TlbEntry) : (s.offer e).root = s.root := rfl
@[simp] theorem offer_tokenVa (s : State) (e : TlbEntry) : (s.offer e).tokenVa = s.tokenVa := rfl
@[simp] theorem offer_rv (s : State) (e : TlbEntry) : (s.offer e).rv = s.rv := rfl
@[simp] theorem offer_tv (s : State) (e : TlbEntry) : (s.offer e).tv = s.tv := rfl
@[simp] theorem offer_flt (s : State) (e : TlbEntry) : (s.offer e).flt = s.flt := rfl
@[simp] theorem offer_tsz (s : State) (e : TlbEntry) : (s.offer e).tsz = s.tsz := rfl
@[simp] theorem offer_fcause (s : State) (e : TlbEntry) : (s.offer e).fcause = s.fcause := rfl
@[simp] theorem offer_mem (s : State) (e : TlbEntry) : (s.offer e).mem = s.mem := rfl
@[simp] theorem offer_admitted (s : State) (e : TlbEntry) : (s.offer e).admitted = s.admitted := rfl
@[simp] theorem offer_allocQ (s : State) (e : TlbEntry) : (s.offer e).allocQ = s.allocQ := rfl
@[simp] theorem offer_allocCalls (s : State) (e : TlbEntry) :
    (s.offer e).allocCalls = s.allocCalls := rfl
@[simp] theorem offer_tlb (s : State) (e : TlbEntry) : (s.offer e).tlb = s.tlb := rfl
@[simp] theorem offer_fillable (s : State) (e : TlbEntry) :
    (s.offer e).fillable = e :: s.fillable := rfl
@[simp] theorem offer_coreXlat (s : State) (e : TlbEntry) : (s.offer e).coreXlat = s.coreXlat := rfl
@[simp] theorem offer_hostData (s : State) (e : TlbEntry) : (s.offer e).hostData = s.hostData := rfl
@[simp] theorem offer_pending (s : State) (e : TlbEntry) : (s.offer e).pending = s.pending := rfl
@[simp] theorem offer_ports (s : State) (e : TlbEntry) : (s.offer e).ports = s.ports := rfl
@[simp] theorem offer_views (s : State) (e : TlbEntry) : (s.offer e).views = s.views := rfl

/-! ### issueToken -/

@[simp] theorem issueToken_arg0 (s : State) (c : SizeClass) (va : Word) :
    (s.issueToken c va).arg0 = s.arg0 := rfl
@[simp] theorem issueToken_arg1 (s : State) (c : SizeClass) (va : Word) :
    (s.issueToken c va).arg1 = s.arg1 := rfl
@[simp] theorem issueToken_arg2 (s : State) (c : SizeClass) (va : Word) :
    (s.issueToken c va).arg2 = s.arg2 := rfl
@[simp] theorem issueToken_status (s : State) (c : SizeClass) (va : Word) :
    (s.issueToken c va).status = s.status := rfl
@[simp] theorem issueToken_res0 (s : State) (c : SizeClass) (va : Word) :
    (s.issueToken c va).res0 = s.res0 := rfl
@[simp] theorem issueToken_res1 (s : State) (c : SizeClass) (va : Word) :
    (s.issueToken c va).res1 = s.res1 := rfl
@[simp] theorem issueToken_res2 (s : State) (c : SizeClass) (va : Word) :
    (s.issueToken c va).res2 = s.res2 := rfl
@[simp] theorem issueToken_res3 (s : State) (c : SizeClass) (va : Word) :
    (s.issueToken c va).res3 = s.res3 := rfl
@[simp] theorem issueToken_res4 (s : State) (c : SizeClass) (va : Word) :
    (s.issueToken c va).res4 = s.res4 := rfl
@[simp] theorem issueToken_root (s : State) (c : SizeClass) (va : Word) :
    (s.issueToken c va).root = s.root := rfl
@[simp] theorem issueToken_tokenVa (s : State) (c : SizeClass) (va : Word) :
    (s.issueToken c va).tokenVa = va := rfl
@[simp] theorem issueToken_rv (s : State) (c : SizeClass) (va : Word) :
    (s.issueToken c va).rv = s.rv := rfl
@[simp] theorem issueToken_tv (s : State) (c : SizeClass) (va : Word) :
    (s.issueToken c va).tv = true := rfl
@[simp] theorem issueToken_flt (s : State) (c : SizeClass) (va : Word) :
    (s.issueToken c va).flt = s.flt := rfl
@[simp] theorem issueToken_tsz (s : State) (c : SizeClass) (va : Word) :
    (s.issueToken c va).tsz = c.code := rfl
@[simp] theorem issueToken_fcause (s : State) (c : SizeClass) (va : Word) :
    (s.issueToken c va).fcause = s.fcause := rfl
@[simp] theorem issueToken_mem (s : State) (c : SizeClass) (va : Word) :
    (s.issueToken c va).mem = s.mem := rfl
@[simp] theorem issueToken_admitted (s : State) (c : SizeClass) (va : Word) :
    (s.issueToken c va).admitted = s.admitted := rfl
@[simp] theorem issueToken_allocQ (s : State) (c : SizeClass) (va : Word) :
    (s.issueToken c va).allocQ = s.allocQ := rfl
@[simp] theorem issueToken_allocCalls (s : State) (c : SizeClass) (va : Word) :
    (s.issueToken c va).allocCalls = s.allocCalls := rfl
@[simp] theorem issueToken_tlb (s : State) (c : SizeClass) (va : Word) :
    (s.issueToken c va).tlb = s.tlb := rfl
@[simp] theorem issueToken_fillable (s : State) (c : SizeClass) (va : Word) :
    (s.issueToken c va).fillable = s.fillable := rfl
@[simp] theorem issueToken_coreXlat (s : State) (c : SizeClass) (va : Word) :
    (s.issueToken c va).coreXlat = s.coreXlat := rfl
@[simp] theorem issueToken_hostData (s : State) (c : SizeClass) (va : Word) :
    (s.issueToken c va).hostData = s.hostData := rfl
@[simp] theorem issueToken_pending (s : State) (c : SizeClass) (va : Word) :
    (s.issueToken c va).pending = s.pending := rfl
@[simp] theorem issueToken_ports (s : State) (c : SizeClass) (va : Word) :
    (s.issueToken c va).ports = s.ports := rfl
@[simp] theorem issueToken_views (s : State) (c : SizeClass) (va : Word) :
    (s.issueToken c va).views = s.views := rfl

/-! ### clearToken -/

@[simp] theorem clearToken_arg0 (s : State) : (s.clearToken).arg0 = s.arg0 := rfl
@[simp] theorem clearToken_arg1 (s : State) : (s.clearToken).arg1 = s.arg1 := rfl
@[simp] theorem clearToken_arg2 (s : State) : (s.clearToken).arg2 = s.arg2 := rfl
@[simp] theorem clearToken_status (s : State) : (s.clearToken).status = s.status := rfl
@[simp] theorem clearToken_res0 (s : State) : (s.clearToken).res0 = s.res0 := rfl
@[simp] theorem clearToken_res1 (s : State) : (s.clearToken).res1 = s.res1 := rfl
@[simp] theorem clearToken_res2 (s : State) : (s.clearToken).res2 = s.res2 := rfl
@[simp] theorem clearToken_res3 (s : State) : (s.clearToken).res3 = s.res3 := rfl
@[simp] theorem clearToken_res4 (s : State) : (s.clearToken).res4 = s.res4 := rfl
@[simp] theorem clearToken_root (s : State) : (s.clearToken).root = s.root := rfl
@[simp] theorem clearToken_tokenVa (s : State) : (s.clearToken).tokenVa = 0 := rfl
@[simp] theorem clearToken_rv (s : State) : (s.clearToken).rv = s.rv := rfl
@[simp] theorem clearToken_tv (s : State) : (s.clearToken).tv = false := rfl
@[simp] theorem clearToken_flt (s : State) : (s.clearToken).flt = s.flt := rfl
@[simp] theorem clearToken_tsz (s : State) : (s.clearToken).tsz = 0 := rfl
@[simp] theorem clearToken_fcause (s : State) : (s.clearToken).fcause = s.fcause := rfl
@[simp] theorem clearToken_mem (s : State) : (s.clearToken).mem = s.mem := rfl
@[simp] theorem clearToken_admitted (s : State) : (s.clearToken).admitted = s.admitted := rfl
@[simp] theorem clearToken_allocQ (s : State) : (s.clearToken).allocQ = s.allocQ := rfl
@[simp] theorem clearToken_allocCalls (s : State) : (s.clearToken).allocCalls = s.allocCalls := rfl
@[simp] theorem clearToken_tlb (s : State) : (s.clearToken).tlb = s.tlb := rfl
@[simp] theorem clearToken_fillable (s : State) : (s.clearToken).fillable = s.fillable := rfl
@[simp] theorem clearToken_coreXlat (s : State) : (s.clearToken).coreXlat = s.coreXlat := rfl
@[simp] theorem clearToken_hostData (s : State) : (s.clearToken).hostData = s.hostData := rfl
@[simp] theorem clearToken_pending (s : State) : (s.clearToken).pending = s.pending := rfl
@[simp] theorem clearToken_ports (s : State) : (s.clearToken).ports = s.ports := rfl
@[simp] theorem clearToken_views (s : State) : (s.clearToken).views = s.views := rfl

/-! ### setRoot -/

@[simp] theorem setRoot_arg0 (s : State) (r : Word) : (s.setRoot r).arg0 = s.arg0 := rfl
@[simp] theorem setRoot_arg1 (s : State) (r : Word) : (s.setRoot r).arg1 = s.arg1 := rfl
@[simp] theorem setRoot_arg2 (s : State) (r : Word) : (s.setRoot r).arg2 = s.arg2 := rfl
@[simp] theorem setRoot_status (s : State) (r : Word) : (s.setRoot r).status = s.status := rfl
@[simp] theorem setRoot_res0 (s : State) (r : Word) : (s.setRoot r).res0 = s.res0 := rfl
@[simp] theorem setRoot_res1 (s : State) (r : Word) : (s.setRoot r).res1 = s.res1 := rfl
@[simp] theorem setRoot_res2 (s : State) (r : Word) : (s.setRoot r).res2 = s.res2 := rfl
@[simp] theorem setRoot_res3 (s : State) (r : Word) : (s.setRoot r).res3 = s.res3 := rfl
@[simp] theorem setRoot_res4 (s : State) (r : Word) : (s.setRoot r).res4 = s.res4 := rfl
@[simp] theorem setRoot_root (s : State) (r : Word) : (s.setRoot r).root = r.setWidth 52 := rfl
@[simp] theorem setRoot_tokenVa (s : State) (r : Word) : (s.setRoot r).tokenVa = s.tokenVa := rfl
@[simp] theorem setRoot_rv (s : State) (r : Word) : (s.setRoot r).rv = true := rfl
@[simp] theorem setRoot_tv (s : State) (r : Word) : (s.setRoot r).tv = s.tv := rfl
@[simp] theorem setRoot_flt (s : State) (r : Word) : (s.setRoot r).flt = s.flt := rfl
@[simp] theorem setRoot_tsz (s : State) (r : Word) : (s.setRoot r).tsz = s.tsz := rfl
@[simp] theorem setRoot_fcause (s : State) (r : Word) : (s.setRoot r).fcause = s.fcause := rfl
@[simp] theorem setRoot_mem (s : State) (r : Word) : (s.setRoot r).mem = s.mem := rfl
@[simp] theorem setRoot_admitted (s : State) (r : Word) : (s.setRoot r).admitted = s.admitted := rfl
@[simp] theorem setRoot_allocQ (s : State) (r : Word) : (s.setRoot r).allocQ = s.allocQ := rfl
@[simp] theorem setRoot_allocCalls (s : State) (r : Word) :
    (s.setRoot r).allocCalls = s.allocCalls := rfl
@[simp] theorem setRoot_tlb (s : State) (r : Word) : (s.setRoot r).tlb = s.tlb := rfl
@[simp] theorem setRoot_fillable (s : State) (r : Word) : (s.setRoot r).fillable = s.fillable := rfl
@[simp] theorem setRoot_coreXlat (s : State) (r : Word) : (s.setRoot r).coreXlat = s.coreXlat := rfl
@[simp] theorem setRoot_hostData (s : State) (r : Word) : (s.setRoot r).hostData = s.hostData := rfl
@[simp] theorem setRoot_pending (s : State) (r : Word) : (s.setRoot r).pending = s.pending := rfl
@[simp] theorem setRoot_ports (s : State) (r : Word) : (s.setRoot r).ports = s.ports := rfl
@[simp] theorem setRoot_views (s : State) (r : Word) : (s.setRoot r).views = s.views := rfl

/-! ### readDone -/

@[simp] theorem readDone_arg0 (s : State) (pa : Nat) : (s.readDone pa).arg0 = s.arg0 := rfl
@[simp] theorem readDone_arg1 (s : State) (pa : Nat) : (s.readDone pa).arg1 = s.arg1 := rfl
@[simp] theorem readDone_arg2 (s : State) (pa : Nat) : (s.readDone pa).arg2 = s.arg2 := rfl
@[simp] theorem readDone_status (s : State) (pa : Nat) : (s.readDone pa).status = s.status := rfl
@[simp] theorem readDone_res0 (s : State) (pa : Nat) : (s.readDone pa).res0 = s.res0 := rfl
@[simp] theorem readDone_res1 (s : State) (pa : Nat) : (s.readDone pa).res1 = s.res1 := rfl
@[simp] theorem readDone_res2 (s : State) (pa : Nat) : (s.readDone pa).res2 = s.res2 := rfl
@[simp] theorem readDone_res3 (s : State) (pa : Nat) : (s.readDone pa).res3 = s.res3 := rfl
@[simp] theorem readDone_res4 (s : State) (pa : Nat) : (s.readDone pa).res4 = s.res4 := rfl
@[simp] theorem readDone_root (s : State) (pa : Nat) : (s.readDone pa).root = s.root := rfl
@[simp] theorem readDone_tokenVa (s : State) (pa : Nat) : (s.readDone pa).tokenVa = s.tokenVa := rfl
@[simp] theorem readDone_rv (s : State) (pa : Nat) : (s.readDone pa).rv = s.rv := rfl
@[simp] theorem readDone_tv (s : State) (pa : Nat) : (s.readDone pa).tv = s.tv := rfl
@[simp] theorem readDone_flt (s : State) (pa : Nat) : (s.readDone pa).flt = s.flt := rfl
@[simp] theorem readDone_tsz (s : State) (pa : Nat) : (s.readDone pa).tsz = s.tsz := rfl
@[simp] theorem readDone_fcause (s : State) (pa : Nat) : (s.readDone pa).fcause = s.fcause := rfl
@[simp] theorem readDone_mem (s : State) (pa : Nat) : (s.readDone pa).mem = s.mem := rfl
@[simp] theorem readDone_admitted (s : State) (pa : Nat) :
    (s.readDone pa).admitted = s.admitted := rfl
@[simp] theorem readDone_allocQ (s : State) (pa : Nat) : (s.readDone pa).allocQ = s.allocQ := rfl
@[simp] theorem readDone_allocCalls (s : State) (pa : Nat) :
    (s.readDone pa).allocCalls = s.allocCalls := rfl
@[simp] theorem readDone_tlb (s : State) (pa : Nat) : (s.readDone pa).tlb = s.tlb := rfl
@[simp] theorem readDone_fillable (s : State) (pa : Nat) :
    (s.readDone pa).fillable = s.fillable := rfl
@[simp] theorem readDone_coreXlat (s : State) (pa : Nat) :
    (s.readDone pa).coreXlat = s.coreXlat := rfl
@[simp] theorem readDone_hostData (s : State) (pa : Nat) :
    (s.readDone pa).hostData = s.hostData := rfl
@[simp] theorem readDone_pending (s : State) (pa : Nat) : (s.readDone pa).pending = s.pending := rfl
@[simp] theorem readDone_ports (s : State) (pa : Nat) :
    (s.readDone pa).ports = .read pa :: s.ports := rfl
@[simp] theorem readDone_views (s : State) (pa : Nat) : (s.readDone pa).views = s.views.tail := rfl

/-! ### tlbInvalidate -/

@[simp] theorem tlbInvalidate_arg0 (s : State) (first last : Word) :
    (s.tlbInvalidate first last).arg0 = s.arg0 := rfl
@[simp] theorem tlbInvalidate_arg1 (s : State) (first last : Word) :
    (s.tlbInvalidate first last).arg1 = s.arg1 := rfl
@[simp] theorem tlbInvalidate_arg2 (s : State) (first last : Word) :
    (s.tlbInvalidate first last).arg2 = s.arg2 := rfl
@[simp] theorem tlbInvalidate_status (s : State) (first last : Word) :
    (s.tlbInvalidate first last).status = s.status := rfl
@[simp] theorem tlbInvalidate_res0 (s : State) (first last : Word) :
    (s.tlbInvalidate first last).res0 = s.res0 := rfl
@[simp] theorem tlbInvalidate_res1 (s : State) (first last : Word) :
    (s.tlbInvalidate first last).res1 = s.res1 := rfl
@[simp] theorem tlbInvalidate_res2 (s : State) (first last : Word) :
    (s.tlbInvalidate first last).res2 = s.res2 := rfl
@[simp] theorem tlbInvalidate_res3 (s : State) (first last : Word) :
    (s.tlbInvalidate first last).res3 = s.res3 := rfl
@[simp] theorem tlbInvalidate_res4 (s : State) (first last : Word) :
    (s.tlbInvalidate first last).res4 = s.res4 := rfl
@[simp] theorem tlbInvalidate_root (s : State) (first last : Word) :
    (s.tlbInvalidate first last).root = s.root := rfl
@[simp] theorem tlbInvalidate_tokenVa (s : State) (first last : Word) :
    (s.tlbInvalidate first last).tokenVa = s.tokenVa := rfl
@[simp] theorem tlbInvalidate_rv (s : State) (first last : Word) :
    (s.tlbInvalidate first last).rv = s.rv := rfl
@[simp] theorem tlbInvalidate_tv (s : State) (first last : Word) :
    (s.tlbInvalidate first last).tv = s.tv := rfl
@[simp] theorem tlbInvalidate_flt (s : State) (first last : Word) :
    (s.tlbInvalidate first last).flt = s.flt := rfl
@[simp] theorem tlbInvalidate_tsz (s : State) (first last : Word) :
    (s.tlbInvalidate first last).tsz = s.tsz := rfl
@[simp] theorem tlbInvalidate_fcause (s : State) (first last : Word) :
    (s.tlbInvalidate first last).fcause = s.fcause := rfl
@[simp] theorem tlbInvalidate_mem (s : State) (first last : Word) :
    (s.tlbInvalidate first last).mem = s.mem := rfl
@[simp] theorem tlbInvalidate_admitted (s : State) (first last : Word) :
    (s.tlbInvalidate first last).admitted = s.admitted := rfl
@[simp] theorem tlbInvalidate_allocQ (s : State) (first last : Word) :
    (s.tlbInvalidate first last).allocQ = s.allocQ := rfl
@[simp] theorem tlbInvalidate_allocCalls (s : State) (first last : Word) :
    (s.tlbInvalidate first last).allocCalls = s.allocCalls := rfl
@[simp] theorem tlbInvalidate_tlb (s : State) (first last : Word) :
    (s.tlbInvalidate first last).tlb = s.tlb.filter (fun e => !e.overlaps first last) := rfl
@[simp] theorem tlbInvalidate_fillable (s : State) (first last : Word) :
    (s.tlbInvalidate first last).fillable =
      s.fillable.filter (fun e => !e.overlaps first last) := rfl
@[simp] theorem tlbInvalidate_coreXlat (s : State) (first last : Word) :
    (s.tlbInvalidate first last).coreXlat = s.coreXlat := rfl
@[simp] theorem tlbInvalidate_hostData (s : State) (first last : Word) :
    (s.tlbInvalidate first last).hostData = s.hostData := rfl
@[simp] theorem tlbInvalidate_pending (s : State) (first last : Word) :
    (s.tlbInvalidate first last).pending = s.pending := rfl
@[simp] theorem tlbInvalidate_ports (s : State) (first last : Word) :
    (s.tlbInvalidate first last).ports = s.ports := rfl
@[simp] theorem tlbInvalidate_views (s : State) (first last : Word) :
    (s.tlbInvalidate first last).views = s.views := rfl

/-! ### tlbEvict -/

@[simp] theorem tlbEvict_arg0 (s : State) (n : Nat) : (s.tlbEvict n).arg0 = s.arg0 := rfl
@[simp] theorem tlbEvict_arg1 (s : State) (n : Nat) : (s.tlbEvict n).arg1 = s.arg1 := rfl
@[simp] theorem tlbEvict_arg2 (s : State) (n : Nat) : (s.tlbEvict n).arg2 = s.arg2 := rfl
@[simp] theorem tlbEvict_status (s : State) (n : Nat) : (s.tlbEvict n).status = s.status := rfl
@[simp] theorem tlbEvict_res0 (s : State) (n : Nat) : (s.tlbEvict n).res0 = s.res0 := rfl
@[simp] theorem tlbEvict_res1 (s : State) (n : Nat) : (s.tlbEvict n).res1 = s.res1 := rfl
@[simp] theorem tlbEvict_res2 (s : State) (n : Nat) : (s.tlbEvict n).res2 = s.res2 := rfl
@[simp] theorem tlbEvict_res3 (s : State) (n : Nat) : (s.tlbEvict n).res3 = s.res3 := rfl
@[simp] theorem tlbEvict_res4 (s : State) (n : Nat) : (s.tlbEvict n).res4 = s.res4 := rfl
@[simp] theorem tlbEvict_root (s : State) (n : Nat) : (s.tlbEvict n).root = s.root := rfl
@[simp] theorem tlbEvict_tokenVa (s : State) (n : Nat) : (s.tlbEvict n).tokenVa = s.tokenVa := rfl
@[simp] theorem tlbEvict_rv (s : State) (n : Nat) : (s.tlbEvict n).rv = s.rv := rfl
@[simp] theorem tlbEvict_tv (s : State) (n : Nat) : (s.tlbEvict n).tv = s.tv := rfl
@[simp] theorem tlbEvict_flt (s : State) (n : Nat) : (s.tlbEvict n).flt = s.flt := rfl
@[simp] theorem tlbEvict_tsz (s : State) (n : Nat) : (s.tlbEvict n).tsz = s.tsz := rfl
@[simp] theorem tlbEvict_fcause (s : State) (n : Nat) : (s.tlbEvict n).fcause = s.fcause := rfl
@[simp] theorem tlbEvict_mem (s : State) (n : Nat) : (s.tlbEvict n).mem = s.mem := rfl
@[simp] theorem tlbEvict_admitted (s : State) (n : Nat) :
    (s.tlbEvict n).admitted = s.admitted := rfl
@[simp] theorem tlbEvict_allocQ (s : State) (n : Nat) : (s.tlbEvict n).allocQ = s.allocQ := rfl
@[simp] theorem tlbEvict_allocCalls (s : State) (n : Nat) :
    (s.tlbEvict n).allocCalls = s.allocCalls := rfl
@[simp] theorem tlbEvict_tlb (s : State) (n : Nat) : (s.tlbEvict n).tlb = s.tlb.eraseIdx n := rfl
@[simp] theorem tlbEvict_fillable (s : State) (n : Nat) :
    (s.tlbEvict n).fillable = s.fillable := rfl
@[simp] theorem tlbEvict_coreXlat (s : State) (n : Nat) :
    (s.tlbEvict n).coreXlat = s.coreXlat := rfl
@[simp] theorem tlbEvict_hostData (s : State) (n : Nat) :
    (s.tlbEvict n).hostData = s.hostData := rfl
@[simp] theorem tlbEvict_pending (s : State) (n : Nat) : (s.tlbEvict n).pending = s.pending := rfl
@[simp] theorem tlbEvict_ports (s : State) (n : Nat) : (s.tlbEvict n).ports = s.ports := rfl
@[simp] theorem tlbEvict_views (s : State) (n : Nat) : (s.tlbEvict n).views = s.views := rfl

/-! ### takeAnswer -/

@[simp] theorem takeAnswer_arg0 (s : State) : (s.takeAnswer).arg0 = s.arg0 := by
  unfold State.takeAnswer; split <;> rfl
@[simp] theorem takeAnswer_arg1 (s : State) : (s.takeAnswer).arg1 = s.arg1 := by
  unfold State.takeAnswer; split <;> rfl
@[simp] theorem takeAnswer_arg2 (s : State) : (s.takeAnswer).arg2 = s.arg2 := by
  unfold State.takeAnswer; split <;> rfl
@[simp] theorem takeAnswer_status (s : State) : (s.takeAnswer).status = s.status := by
  unfold State.takeAnswer; split <;> rfl
@[simp] theorem takeAnswer_res0 (s : State) : (s.takeAnswer).res0 = s.res0 := by
  unfold State.takeAnswer; split <;> rfl
@[simp] theorem takeAnswer_res1 (s : State) : (s.takeAnswer).res1 = s.res1 := by
  unfold State.takeAnswer; split <;> rfl
@[simp] theorem takeAnswer_res2 (s : State) : (s.takeAnswer).res2 = s.res2 := by
  unfold State.takeAnswer; split <;> rfl
@[simp] theorem takeAnswer_res3 (s : State) : (s.takeAnswer).res3 = s.res3 := by
  unfold State.takeAnswer; split <;> rfl
@[simp] theorem takeAnswer_res4 (s : State) : (s.takeAnswer).res4 = s.res4 := by
  unfold State.takeAnswer; split <;> rfl
@[simp] theorem takeAnswer_root (s : State) : (s.takeAnswer).root = s.root := by
  unfold State.takeAnswer; split <;> rfl
@[simp] theorem takeAnswer_tokenVa (s : State) : (s.takeAnswer).tokenVa = s.tokenVa := by
  unfold State.takeAnswer; split <;> rfl
@[simp] theorem takeAnswer_rv (s : State) : (s.takeAnswer).rv = s.rv := by
  unfold State.takeAnswer; split <;> rfl
@[simp] theorem takeAnswer_tv (s : State) : (s.takeAnswer).tv = s.tv := by
  unfold State.takeAnswer; split <;> rfl
@[simp] theorem takeAnswer_flt (s : State) : (s.takeAnswer).flt = s.flt := by
  unfold State.takeAnswer; split <;> rfl
@[simp] theorem takeAnswer_tsz (s : State) : (s.takeAnswer).tsz = s.tsz := by
  unfold State.takeAnswer; split <;> rfl
@[simp] theorem takeAnswer_fcause (s : State) : (s.takeAnswer).fcause = s.fcause := by
  unfold State.takeAnswer; split <;> rfl
@[simp] theorem takeAnswer_mem (s : State) : (s.takeAnswer).mem = s.mem := by
  unfold State.takeAnswer; split <;> rfl
@[simp] theorem takeAnswer_admitted (s : State) : (s.takeAnswer).admitted = s.admitted := by
  unfold State.takeAnswer; split <;> rfl
@[simp] theorem takeAnswer_tlb (s : State) : (s.takeAnswer).tlb = s.tlb := by
  unfold State.takeAnswer; split <;> rfl
@[simp] theorem takeAnswer_fillable (s : State) : (s.takeAnswer).fillable = s.fillable := by
  unfold State.takeAnswer; split <;> rfl
@[simp] theorem takeAnswer_coreXlat (s : State) : (s.takeAnswer).coreXlat = s.coreXlat := by
  unfold State.takeAnswer; split <;> rfl
@[simp] theorem takeAnswer_hostData (s : State) : (s.takeAnswer).hostData = s.hostData := by
  unfold State.takeAnswer; split <;> rfl
@[simp] theorem takeAnswer_pending (s : State) : (s.takeAnswer).pending = s.pending := by
  unfold State.takeAnswer; split <;> rfl

/-! ### tlbFill -/

@[simp] theorem tlbFill_arg0 (s : State) (n : Nat) : (s.tlbFill n).arg0 = s.arg0 := by
  unfold State.tlbFill; split <;> rfl
@[simp] theorem tlbFill_arg1 (s : State) (n : Nat) : (s.tlbFill n).arg1 = s.arg1 := by
  unfold State.tlbFill; split <;> rfl
@[simp] theorem tlbFill_arg2 (s : State) (n : Nat) : (s.tlbFill n).arg2 = s.arg2 := by
  unfold State.tlbFill; split <;> rfl
@[simp] theorem tlbFill_status (s : State) (n : Nat) : (s.tlbFill n).status = s.status := by
  unfold State.tlbFill; split <;> rfl
@[simp] theorem tlbFill_res0 (s : State) (n : Nat) : (s.tlbFill n).res0 = s.res0 := by
  unfold State.tlbFill; split <;> rfl
@[simp] theorem tlbFill_res1 (s : State) (n : Nat) : (s.tlbFill n).res1 = s.res1 := by
  unfold State.tlbFill; split <;> rfl
@[simp] theorem tlbFill_res2 (s : State) (n : Nat) : (s.tlbFill n).res2 = s.res2 := by
  unfold State.tlbFill; split <;> rfl
@[simp] theorem tlbFill_res3 (s : State) (n : Nat) : (s.tlbFill n).res3 = s.res3 := by
  unfold State.tlbFill; split <;> rfl
@[simp] theorem tlbFill_res4 (s : State) (n : Nat) : (s.tlbFill n).res4 = s.res4 := by
  unfold State.tlbFill; split <;> rfl
@[simp] theorem tlbFill_root (s : State) (n : Nat) : (s.tlbFill n).root = s.root := by
  unfold State.tlbFill; split <;> rfl
@[simp] theorem tlbFill_tokenVa (s : State) (n : Nat) : (s.tlbFill n).tokenVa = s.tokenVa := by
  unfold State.tlbFill; split <;> rfl
@[simp] theorem tlbFill_rv (s : State) (n : Nat) : (s.tlbFill n).rv = s.rv := by
  unfold State.tlbFill; split <;> rfl
@[simp] theorem tlbFill_tv (s : State) (n : Nat) : (s.tlbFill n).tv = s.tv := by
  unfold State.tlbFill; split <;> rfl
@[simp] theorem tlbFill_flt (s : State) (n : Nat) : (s.tlbFill n).flt = s.flt := by
  unfold State.tlbFill; split <;> rfl
@[simp] theorem tlbFill_tsz (s : State) (n : Nat) : (s.tlbFill n).tsz = s.tsz := by
  unfold State.tlbFill; split <;> rfl
@[simp] theorem tlbFill_fcause (s : State) (n : Nat) : (s.tlbFill n).fcause = s.fcause := by
  unfold State.tlbFill; split <;> rfl
@[simp] theorem tlbFill_mem (s : State) (n : Nat) : (s.tlbFill n).mem = s.mem := by
  unfold State.tlbFill; split <;> rfl
@[simp] theorem tlbFill_admitted (s : State) (n : Nat) : (s.tlbFill n).admitted = s.admitted := by
  unfold State.tlbFill; split <;> rfl
@[simp] theorem tlbFill_allocQ (s : State) (n : Nat) : (s.tlbFill n).allocQ = s.allocQ := by
  unfold State.tlbFill; split <;> rfl
@[simp] theorem tlbFill_allocCalls (s : State) (n : Nat) :
    (s.tlbFill n).allocCalls = s.allocCalls := by
  unfold State.tlbFill; split <;> rfl
@[simp] theorem tlbFill_fillable (s : State) (n : Nat) : (s.tlbFill n).fillable = s.fillable := by
  unfold State.tlbFill; split <;> rfl
@[simp] theorem tlbFill_coreXlat (s : State) (n : Nat) : (s.tlbFill n).coreXlat = s.coreXlat := by
  unfold State.tlbFill; split <;> rfl
@[simp] theorem tlbFill_hostData (s : State) (n : Nat) : (s.tlbFill n).hostData = s.hostData := by
  unfold State.tlbFill; split <;> rfl
@[simp] theorem tlbFill_pending (s : State) (n : Nat) : (s.tlbFill n).pending = s.pending := by
  unfold State.tlbFill; split <;> rfl
@[simp] theorem tlbFill_ports (s : State) (n : Nat) : (s.tlbFill n).ports = s.ports := by
  unfold State.tlbFill; split <;> rfl
@[simp] theorem tlbFill_views (s : State) (n : Nat) : (s.tlbFill n).views = s.views := by
  unfold State.tlbFill; split <;> rfl

@[simp] theorem takeAnswer_ports (s : State) :
    s.takeAnswer.ports = .alloc s.nextAnswer :: s.ports := by
  unfold State.takeAnswer State.nextAnswer; split <;> rfl
@[simp] theorem takeAnswer_views (s : State) : s.takeAnswer.views = s.views := by
  unfold State.takeAnswer; split <;> rfl

/-! ### What an update keeps of the root and the admitted regions -/

@[simp] theorem finish_rootFrame (s : State) (st : Status) (r0 r1 r2 r3 r4 : Word) :
    (s.finish st r0 r1 r2 r3 r4).rootFrame = s.rootFrame := rfl
@[simp] theorem finish_rootReg (s : State) (st : Status) (r0 r1 r2 r3 r4 : Word) :
    (s.finish st r0 r1 r2 r3 r4).rootReg = s.rootReg := rfl
@[simp] theorem finish_admits (s : State) (st : Status) (r0 r1 r2 r3 r4 : Word) (a k : Nat) :
    (s.finish st r0 r1 r2 r3 r4).admits a k = s.admits a k := rfl
@[simp] theorem takeFault_rootFrame (s : State) (c : FaultCause) :
    (s.takeFault c).rootFrame = s.rootFrame := rfl
@[simp] theorem takeFault_rootReg (s : State) (c : FaultCause) :
    (s.takeFault c).rootReg = s.rootReg := rfl
@[simp] theorem takeFault_admits (s : State) (c : FaultCause) (a k : Nat) :
    (s.takeFault c).admits a k = s.admits a k := rfl
@[simp] theorem log_rootFrame (s : State) (e : PortEvent) : (s.log e).rootFrame = s.rootFrame := rfl
@[simp] theorem log_rootReg (s : State) (e : PortEvent) : (s.log e).rootReg = s.rootReg := rfl
@[simp] theorem log_admits (s : State) (e : PortEvent) (a k : Nat) :
    (s.log e).admits a k = s.admits a k := rfl
@[simp] theorem readDone_rootFrame (s : State) (pa : Nat) :
    (s.readDone pa).rootFrame = s.rootFrame := rfl
@[simp] theorem readDone_rootReg (s : State) (pa : Nat) :
    (s.readDone pa).rootReg = s.rootReg := rfl
@[simp] theorem readDone_admits (s : State) (pa a k : Nat) :
    (s.readDone pa).admits a k = s.admits a k := rfl
@[simp] theorem clearPorts_rootFrame (s : State) : (s.clearPorts).rootFrame = s.rootFrame := rfl
@[simp] theorem clearPorts_rootReg (s : State) : (s.clearPorts).rootReg = s.rootReg := rfl
@[simp] theorem clearPorts_admits (s : State) (a k : Nat) :
    (s.clearPorts).admits a k = s.admits a k := rfl
@[simp] theorem storeWord_rootFrame (s : State) (pa : Nat) (v : Word) :
    (s.storeWord pa v).rootFrame = s.rootFrame := rfl
@[simp] theorem storeWord_rootReg (s : State) (pa : Nat) (v : Word) :
    (s.storeWord pa v).rootReg = s.rootReg := rfl
@[simp] theorem storeWord_admits (s : State) (pa : Nat) (v : Word) (a k : Nat) :
    (s.storeWord pa v).admits a k = s.admits a k := rfl
@[simp] theorem tlbFlush_rootFrame (s : State) (va : Word) :
    (s.tlbFlush va).rootFrame = s.rootFrame := rfl
@[simp] theorem tlbFlush_rootReg (s : State) (va : Word) : (s.tlbFlush va).rootReg = s.rootReg := rfl
@[simp] theorem tlbFlush_admits (s : State) (va : Word) (a k : Nat) :
    (s.tlbFlush va).admits a k = s.admits a k := rfl
@[simp] theorem offer_rootFrame (s : State) (e : TlbEntry) :
    (s.offer e).rootFrame = s.rootFrame := rfl
@[simp] theorem offer_rootReg (s : State) (e : TlbEntry) : (s.offer e).rootReg = s.rootReg := rfl
@[simp] theorem offer_admits (s : State) (e : TlbEntry) (a k : Nat) :
    (s.offer e).admits a k = s.admits a k := rfl
@[simp] theorem issueToken_rootFrame (s : State) (c : SizeClass) (va : Word) :
    (s.issueToken c va).rootFrame = s.rootFrame := rfl
@[simp] theorem issueToken_rootReg (s : State) (c : SizeClass) (va : Word) :
    (s.issueToken c va).rootReg = s.rootReg := rfl
@[simp] theorem issueToken_admits (s : State) (c : SizeClass) (va : Word) (a k : Nat) :
    (s.issueToken c va).admits a k = s.admits a k := rfl
@[simp] theorem clearToken_rootFrame (s : State) : (s.clearToken).rootFrame = s.rootFrame := rfl
@[simp] theorem clearToken_rootReg (s : State) : (s.clearToken).rootReg = s.rootReg := rfl
@[simp] theorem clearToken_admits (s : State) (a k : Nat) :
    (s.clearToken).admits a k = s.admits a k := rfl
@[simp] theorem takeAnswer_rootFrame (s : State) : s.takeAnswer.rootFrame = s.rootFrame := by
  unfold State.takeAnswer; split <;> rfl
@[simp] theorem takeAnswer_rootReg (s : State) : s.takeAnswer.rootReg = s.rootReg := by
  unfold State.takeAnswer; split <;> rfl
@[simp] theorem takeAnswer_admits (s : State) (a k : Nat) :
    s.takeAnswer.admits a k = s.admits a k := by
  unfold State.takeAnswer; split <;> rfl

end Sys2Proof.Machine
end

