-- ==== Sys2Proof/Laws/Memory.lean ====
section
/-! SUPPORT. The laws of physical memory: read after write, everything else unchanged, the canonical
form kept. None of the read laws needs the canonical form. -/

namespace Sys2Proof.Machine

@[simp] theorem Memory.readByte_nil (a : Nat) : Memory.readByte [] a = 0 := rfl

theorem Memory.readByte_cons (k : Nat) (b : Byte) (m : Memory) (a : Nat) :
    Memory.readByte ((k, b) :: m) a = if k = a then b else m.readByte a := rfl

theorem Memory.readByte_erase (m : Memory) (a a' : Nat) :
    (m.erase a).readByte a' = if a' = a then 0 else m.readByte a' := by
  induction m with
  | nil => simp [Memory.erase]
  | cons c m ih =>
    obtain ⟨k, b⟩ := c
    unfold Memory.erase at ih ⊢
    by_cases hk : k = a
    · subst hk
      simp only [List.filter_cons, bne_self_eq_false, Bool.false_eq_true, if_false, ih,
        Memory.readByte_cons]
      by_cases h : a' = k
      · simp [h]
      · simp [h, Ne.symm h]
    · simp only [List.filter_cons, bne_iff_ne, ne_eq, hk, not_false_iff, if_true,
        Memory.readByte_cons, ih]
      by_cases h : k = a'
      · subst h; simp [hk]
      · simp [h]

theorem Memory.readByte_insert (a : Nat) (b : Byte) (m : Memory) (a' : Nat)
    (h : ∀ c ∈ m, c.1 ≠ a) :
    (Memory.insert a b m).readByte a' = if a' = a then b else m.readByte a' := by
  induction m with
  | nil => by_cases h : a = a' <;> simp [Memory.insert, Memory.readByte_cons, h, eq_comm]
  | cons c m ih =>
    obtain ⟨k, x⟩ := c
    have hk : k ≠ a := h (k, x) (by simp)
    unfold Memory.insert
    by_cases hlt : a < k
    · rw [if_pos hlt, Memory.readByte_cons]
      by_cases ha : a = a'
      · simp [ha]
      · simp [ha, Ne.symm ha]
    · simp only [hlt, if_false, Memory.readByte_cons, ih (fun c hc => h c (by simp [hc]))]
      by_cases ha : k = a'
      · subst ha; simp [hk]
      · simp [ha]

theorem Memory.mem_erase {m : Memory} {a : Nat} {c : Host.Cell} :
    c ∈ m.erase a ↔ c ∈ m ∧ c.1 ≠ a := by
  simp [Memory.erase]

/-- Reading a byte after writing one. -/
theorem Memory.readByte_writeByte (m : Memory) (a : Nat) (b : Byte) (a' : Nat) :
    (m.writeByte a b).readByte a' = if a' = a then b else m.readByte a' := by
  unfold Memory.writeByte
  split
  · rename_i h
    subst h
    exact Memory.readByte_erase m a a'
  · rw [Memory.readByte_insert _ _ _ _ (fun c hc => (Memory.mem_erase.1 hc).2),
      Memory.readByte_erase]
    by_cases h : a' = a <;> simp [h]

@[simp] theorem Memory.readByte_writeByte_same (m : Memory) (a : Nat) (b : Byte) :
    (m.writeByte a b).readByte a = b := by
  simp [Memory.readByte_writeByte]

theorem Memory.readByte_writeByte_of_ne (m : Memory) (b : Byte) {a a' : Nat} (h : a' ≠ a) :
    (m.writeByte a b).readByte a' = m.readByte a' := by
  simp [Memory.readByte_writeByte, h]

theorem Memory.mem_insert {a : Nat} {b : Byte} {m : Memory} {c : Host.Cell} :
    c ∈ Memory.insert a b m ↔ c = (a, b) ∨ c ∈ m := by
  induction m with
  | nil => simp [Memory.insert]
  | cons d m ih =>
    unfold Memory.insert
    split
    · simp
    · simp only [List.mem_cons, ih]; tauto

theorem Memory.pairwise_insert {a : Nat} {b : Byte} {m : Memory}
    (h : m.Pairwise (fun c d => c.1 < d.1)) (ha : ∀ c ∈ m, c.1 ≠ a) :
    (Memory.insert a b m).Pairwise (fun c d => c.1 < d.1) := by
  induction m with
  | nil => simp [Memory.insert]
  | cons d m ih =>
    obtain ⟨hd, hm⟩ := List.pairwise_cons.1 h
    unfold Memory.insert
    split
    · rename_i hlt
      refine List.pairwise_cons.2 ⟨?_, h⟩
      intro c hc
      rcases List.mem_cons.1 hc with rfl | hc
      · exact hlt
      · exact Nat.lt_trans hlt (hd c hc)
    · rename_i hlt
      refine List.pairwise_cons.2 ⟨?_, ih hm (fun c hc => ha c (by simp [hc]))⟩
      intro c hc
      rcases Memory.mem_insert.1 hc with rfl | hc
      · have := ha d (by simp)
        show d.1 < a
        omega
      · exact hd c hc

/-- Writing a byte keeps the canonical form. -/
theorem Memory.wf_writeByte {m : Memory} (h : m.wf) (a : Nat) (b : Byte) :
    (m.writeByte a b).wf := by
  have hp : (m.erase a).Pairwise (fun c d => c.1 < d.1) := h.1.filter _
  have hv : ∀ c ∈ m.erase a, c.2 ≠ Memory.unlisted :=
    fun c hc => h.2 c (Memory.mem_erase.1 hc).1
  unfold Memory.writeByte
  split
  · exact ⟨hp, hv⟩
  · rename_i hb
    refine ⟨Memory.pairwise_insert hp (fun c hc => (Memory.mem_erase.1 hc).2), ?_⟩
    intro c hc
    rcases Memory.mem_insert.1 hc with rfl | hc
    · exact hb
    · exact hv c hc

/-- Writing a byte inside physical memory lists only physical addresses. -/
theorem Memory.inSpace_writeByte {m : Memory} (h : m.InSpace) {a : Nat} (b : Byte)
    (ha : a < Config.physicalBytes) : (m.writeByte a b).InSpace := by
  unfold Memory.writeByte
  intro c hc
  split at hc
  · exact h c (Memory.mem_erase.1 hc).1
  · rcases Memory.mem_insert.1 hc with rfl | hc
    · exact ha
    · exact h c (Memory.mem_erase.1 hc).1

/-- Writing 8 bytes keeps the canonical form. -/
theorem Memory.wf_write64 {m : Memory} (h : m.wf) (pa : Nat) (v : Word) : (m.write64 pa v).wf := by
  simp only [Memory.write64, Memory.writeBytes]
  repeat' apply Memory.wf_writeByte
  exact h

/-- Writing 8 bytes inside physical memory lists only physical addresses. -/
theorem Memory.inSpace_write64 {m : Memory} (h : m.InSpace) {pa : Nat} (v : Word)
    (ha : pa + 8 ≤ Config.physicalBytes) : (m.write64 pa v).InSpace := by
  simp only [Memory.write64, Memory.writeBytes]
  repeat' apply Memory.inSpace_writeByte
  all_goals first | exact h | omega

/-- Every byte outside the 8 bytes stored reads as before. -/
theorem Memory.readByte_write64_of_outside (m : Memory) (v : Word) {pa a : Nat}
    (h : a < pa ∨ pa + 8 ≤ a) : (m.write64 pa v).readByte a = m.readByte a := by
  simp only [Memory.write64, Memory.writeBytes]
  repeat rw [Memory.readByte_writeByte_of_ne]
  all_goals omega

/-- Byte `k` of a stored word (20_memory.md R55). -/
theorem Memory.readByte_write64 (m : Memory) (v : Word) (pa : Nat) {k : Nat} (h : k < 8) :
    (m.write64 pa v).readByte (pa + k) = wordByte v k := by
  simp only [Memory.write64, Memory.writeBytes]
  interval_cases k <;> simp [Memory.readByte_writeByte]

theorem wordByte_append (v : Word) :
    wordByte v 7 ++ wordByte v 6 ++ wordByte v 5 ++ wordByte v 4 ++ wordByte v 3 ++ wordByte v 2 ++
      wordByte v 1 ++ wordByte v 0 = v := by
  apply BitVec.eq_of_getLsbD_eq
  intro i hi
  have hi' : i < 64 := hi
  simp only [wordByte, BitVec.getLsbD_append, BitVec.getLsbD_extractLsb']
  interval_cases i <;> simp

/-- A stored word is read back. -/
@[simp] theorem Memory.read64_write64_same (m : Memory) (pa : Nat) (v : Word) :
    (m.write64 pa v).read64 pa = v := by
  have h0 : (m.write64 pa v).readByte pa = wordByte v 0 :=
    m.readByte_write64 v pa (k := 0) (by omega)
  simp only [Memory.read64, h0, Memory.readByte_write64 m v pa (k := 7) (by omega),
    Memory.readByte_write64 m v pa (k := 6) (by omega),
    Memory.readByte_write64 m v pa (k := 5) (by omega),
    Memory.readByte_write64 m v pa (k := 4) (by omega),
    Memory.readByte_write64 m v pa (k := 3) (by omega),
    Memory.readByte_write64 m v pa (k := 2) (by omega),
    Memory.readByte_write64 m v pa (k := 1) (by omega)]
  exact wordByte_append v

/-- Two memories that agree on 8 bytes give the same word there. -/
theorem Memory.read64_congr {m m' : Memory} {pa : Nat}
    (h : ∀ k < 8, m'.readByte (pa + k) = m.readByte (pa + k)) : m'.read64 pa = m.read64 pa := by
  have h0 := h 0 (by omega)
  simp only [Nat.add_zero] at h0
  simp only [Memory.read64, h0, h 1 (by omega), h 2 (by omega), h 3 (by omega), h 4 (by omega),
    h 5 (by omega), h 6 (by omega), h 7 (by omega)]

/-- A word that overlaps no byte of the store reads as before. -/
theorem Memory.read64_write64_of_disjoint (m : Memory) (v : Word) {pa pb : Nat}
    (h : pb + 8 ≤ pa ∨ pa + 8 ≤ pb) : (m.write64 pa v).read64 pb = m.read64 pb :=
  Memory.read64_congr fun k hk => Memory.readByte_write64_of_outside m v (by omega)

end Sys2Proof.Machine
end

