-- ==== Sys2Proof/Laws/Ports.lean ====
section
/-! SUPPORT. What each port operation can do, said once: reads, single writes, lists of writes,
allocations, racing writes, and the replay of port events. -/

namespace Sys2Proof.Machine

@[simp] theorem Port.run_ok {α : Type} (a : α) (s : State) (k : α → State → State) :
    (Port.ok a s).run k = k a s := rfl

@[simp] theorem Port.run_stop {α : Type} (s : State) (k : α → State → State) :
    (Port.stop s : Port α).run k = s := rfl

/-! ### Reads and writes -/

theorem memRead_of_admits {s : State} {pa : Nat} (h : s.admits pa 8 = true) :
    memRead pa s = .ok (s.seenWord pa) (s.readDone pa) := by simp [memRead, h]

/-- While no write races, a read returns the word in memory (20_memory.md R62(b)). -/
theorem seenWord_of_views {s : State} (h : s.views = []) (pa : Nat) :
    s.seenWord pa = s.mem.read64 pa := by simp [State.seenWord, h, Memory.writeAll]

theorem readDone_of_views {s : State} (h : s.views = []) (pa : Nat) :
    s.readDone pa = s.log (.read pa) := by simp [State.readDone, State.log, h]

theorem memRead_of_not_admits {s : State} {pa : Nat} (h : s.admits pa 8 = false) :
    memRead pa s = .stop (s.takeFault .busError) := by simp [memRead, h]

theorem memWrite_of_admits {s : State} {pa : Nat} (v : Word) (h : s.admits pa 8 = true) :
    memWrite pa v s = .ok () (s.storeWord pa v) := by simp [memWrite, h]

theorem memWrite_of_not_admits {s : State} {pa : Nat} (v : Word) (h : s.admits pa 8 = false) :
    memWrite pa v s = .stop (s.takeFault .busError) := by simp [memWrite, h]

@[simp] theorem storeWords_nil (s : State) : s.storeWords [] = s := rfl

@[simp] theorem storeWords_cons (s : State) (w : Nat × Word) (ws : List (Nat × Word)) :
    s.storeWords (w :: ws) = (s.storeWord w.1 w.2).storeWords ws := rfl

@[simp] theorem writeAll_nil (m : Memory) : m.writeAll [] = m := rfl

@[simp] theorem writeAll_cons (m : Memory) (w : Nat × Word) (ws : List (Nat × Word)) :
    m.writeAll (w :: ws) = (m.write64 w.1 w.2).writeAll ws := rfl

theorem writeAll_append (m : Memory) (ws ws' : List (Nat × Word)) :
    m.writeAll (ws ++ ws') = (m.writeAll ws).writeAll ws' := by
  simp [Memory.writeAll, List.foldl_append]

/-- A list of writes changes memory and the port events, nothing else. -/
theorem storeWords_eq (s : State) (ws : List (Nat × Word)) :
    s.storeWords ws =
      { s with
        mem := s.mem.writeAll ws
        ports := (ws.map fun w => PortEvent.write w.1 w.2).reverse ++ s.ports } := by
  induction ws generalizing s with
  | nil => rfl
  | cons w ws ih => rw [storeWords_cons, ih]; simp [State.storeWord]

/-- Everything a list of writes can do: all admitted and performed, or those before the first
refused one performed and the fault taken (20_memory.md R53). -/
theorem memWrites_cases (ws : List (Nat × Word)) (s : State) :
    ((∀ w ∈ ws, s.admits w.1 8 = true) ∧ memWrites ws s = .ok () (s.storeWords ws)) ∨
    ∃ pre w post, ws = pre ++ w :: post ∧ (∀ x ∈ pre, s.admits x.1 8 = true) ∧
      s.admits w.1 8 = false ∧ memWrites ws s = .stop ((s.storeWords pre).takeFault .busError) := by
  induction ws generalizing s with
  | nil => exact .inl ⟨by simp, rfl⟩
  | cons w ws ih =>
    obtain ⟨pa, v⟩ := w
    cases h : s.admits pa 8 with
    | false =>
      exact .inr ⟨[], (pa, v), ws, rfl, by simp, h, by simp [memWrites, memWrite, h]⟩
    | true =>
      rcases ih (s.storeWord pa v) with ⟨ha, he⟩ | ⟨pre, w, post, rfl, ha, hw, he⟩
      · refine .inl ⟨by simpa [h] using ha, ?_⟩
        simp [memWrites, memWrite, h, he]
      · refine .inr ⟨(pa, v) :: pre, w, post, rfl, by simpa [h] using ha, by simpa using hw, ?_⟩
        simp only [memWrites, memWrite, h, if_true]
        exact he

theorem memWrites_of_admits {ws : List (Nat × Word)} {s : State}
    (h : ∀ w ∈ ws, s.admits w.1 8 = true) : memWrites ws s = .ok () (s.storeWords ws) := by
  rcases memWrites_cases ws s with ⟨_, he⟩ | ⟨pre, w, post, rfl, _, hw, _⟩
  · exact he
  · simp [h w (by simp)] at hw

theorem memWrites_of_refused {pre post : List (Nat × Word)} {w : Nat × Word} {s : State}
    (ha : ∀ x ∈ pre, s.admits x.1 8 = true) (hn : s.admits w.1 8 = false) :
    memWrites (pre ++ w :: post) s = .stop ((s.storeWords pre).takeFault .busError) := by
  induction pre generalizing s with
  | nil => simp [memWrites, memWrite, hn]
  | cons x pre ih =>
    have hx : s.admits x.1 8 = true := ha x (by simp)
    have h := ih (s := s.storeWord x.1 x.2) (fun y hy => by simpa using ha y (by simp [hy]))
      (by simpa using hn)
    simp [memWrites, memWrite, hx, h]

theorem Memory.wf_writeAll {m : Memory} (h : m.wf) (ws : List (Nat × Word)) :
    (m.writeAll ws).wf := by
  induction ws generalizing m with
  | nil => exact h
  | cons w ws ih => exact ih (Memory.wf_write64 h _ _)

theorem Memory.inSpace_writeAll {m : Memory} (h : m.InSpace) {ws : List (Nat × Word)}
    (hw : ∀ w ∈ ws, w.1 + 8 ≤ Config.physicalBytes) : (m.writeAll ws).InSpace := by
  induction ws generalizing m with
  | nil => exact h
  | cons w ws ih =>
    exact ih (Memory.inSpace_write64 h _ (hw w (by simp))) fun x hx => hw x (by simp [hx])

/-- A byte that no write of the list stores to reads as before. -/
theorem Memory.readByte_writeAll {m : Memory} {ws : List (Nat × Word)} {a : Nat}
    (h : ∀ w ∈ ws, a < w.1 ∨ w.1 + 8 ≤ a) : (m.writeAll ws).readByte a = m.readByte a := by
  induction ws generalizing m with
  | nil => rfl
  | cons w ws ih =>
    rw [writeAll_cons, ih fun x hx => h x (by simp [hx]),
      Memory.readByte_write64_of_outside _ _ (h w (by simp))]

/-- A word that overlaps no write of the list reads as before. -/
theorem Memory.read64_writeAll {m : Memory} {ws : List (Nat × Word)} {pa : Nat}
    (h : ∀ w ∈ ws, pa + 8 ≤ w.1 ∨ w.1 + 8 ≤ pa) : (m.writeAll ws).read64 pa = m.read64 pa :=
  Memory.read64_congr fun k hk =>
    Memory.readByte_writeAll fun w hw => by have := h w hw; omega

/-! ### Racing writes -/

/-- A read that sees no racing write to its 8 bytes returns the old word (20_memory.md R68). -/
theorem seenWord_old {s : State} {pa : Nat}
    (h : ∀ w ∈ s.views.headD [], pa + 8 ≤ w.1 ∨ w.1 + 8 ≤ pa) :
    s.seenWord pa = s.mem.read64 pa := Memory.read64_writeAll h

/-- A read that sees a racing write to its 8 bytes, and none after it, returns the new word. -/
theorem seenWord_new {s : State} {pa : Nat} {v : Word} {before after : List (Nat × Word)}
    (hv : s.views.headD [] = before ++ (pa, v) :: after)
    (h : ∀ w ∈ after, pa + 8 ≤ w.1 ∨ w.1 + 8 ≤ pa) : s.seenWord pa = v := by
  rw [State.seenWord, hv, writeAll_append, writeAll_cons, Memory.read64_writeAll h,
    Memory.read64_write64_same]

/-- A read sees racing writes only. -/
theorem mem_seenWrites {rs : List RacingWrite} {draw : List Bool} {w : Nat × Word}
    (h : w ∈ seenWrites rs draw) : ∃ r ∈ rs, w = r.store := by
  obtain ⟨⟨r, b⟩, hp, hw⟩ := List.mem_filterMap.1 h
  cases b with
  | false => simp at hw
  | true => exact ⟨r, (List.of_mem_zip hp).1, by simpa using hw.symm⟩

/-- With no racing write the command's own writes remain, in their order. -/
@[simp] theorem raceWrites_nil (k : Nat) (own : List (Nat × Word)) : raceWrites [] k own = own := by
  induction own generalizing k with
  | nil => rfl
  | cons w own ih => simp [raceWrites, ih]

/-- A command that writes nothing leaves the racing writes, in their order. -/
theorem raceWrites_none (rs : List RacingWrite) : raceWrites rs 0 [] = rs.map RacingWrite.store := by
  simp [raceWrites]

/-- The writes of a race are the racing ones that are still to come and the command's own. -/
theorem mem_raceWrites {rs : List RacingWrite} {k : Nat} {own : List (Nat × Word)}
    {w : Nat × Word} :
    w ∈ raceWrites rs k own ↔ (∃ r ∈ rs, k ≤ r.after ∧ w = r.store) ∨ w ∈ own := by
  induction own generalizing k with
  | nil => simp [raceWrites, eq_comm, and_assoc]
  | cons x own ih =>
    simp only [raceWrites, List.mem_append, List.mem_map, List.mem_filter, List.mem_cons, ih,
      beq_iff_eq]
    constructor
    · rintro (⟨r, ⟨hr, hk⟩, rfl⟩ | rfl | ⟨r, hr, hk, rfl⟩ | h)
      · exact .inl ⟨r, hr, by omega, rfl⟩
      · exact .inr (.inl rfl)
      · exact .inl ⟨r, hr, by omega, rfl⟩
      · exact .inr (.inr h)
    · rintro (⟨r, hr, hk, rfl⟩ | rfl | h)
      · by_cases h : r.after = k
        · exact .inl ⟨r, ⟨hr, h⟩, rfl⟩
        · exact .inr (.inr (.inl ⟨r, hr, by omega, rfl⟩))
      · exact .inr (.inl rfl)
      · exact .inr (.inr (.inr h))

/-! ### Replay -/

@[simp] theorem replay_nil (s : State) : s.replay [] = s := rfl

@[simp] theorem replay_cons (s : State) (e : PortEvent) (es : List PortEvent) :
    s.replay (e :: es) = (s.replayEvent e).replay es := rfl

theorem replay_append (s : State) (es es' : List PortEvent) :
    s.replay (es ++ es') = (s.replay es).replay es' := by
  simp [State.replay, List.foldl_append]

/-- Replaying reads only records them. -/
theorem replay_reads (s : State) (pas : List Nat) :
    s.replay (pas.map .read) = { s with ports := (pas.map PortEvent.read).reverse ++ s.ports } := by
  induction pas generalizing s with
  | nil => rfl
  | cons pa pas ih => simp [ih, State.replayEvent, State.log]

/-- Replaying writes performs them. -/
theorem replay_writes (s : State) (ws : List (Nat × Word)) :
    s.replay (ws.map fun w => .write w.1 w.2) = s.storeWords ws := by
  induction ws generalizing s with
  | nil => rfl
  | cons w ws ih => simp [ih, State.replayEvent]

/-! ### The writes among port events -/

@[simp] theorem writesOf_append (es es' : List PortEvent) :
    writesOf (es ++ es') = writesOf es ++ writesOf es' := by
  simp [writesOf]

@[simp] theorem writesOf_writes (ws : List (Nat × Word)) :
    writesOf (ws.map fun w => PortEvent.write w.1 w.2) = ws := by
  simp [writesOf]

@[simp] theorem writesOf_reads (pas : List Nat) : writesOf (pas.map PortEvent.read) = [] := by
  simp [writesOf]

@[simp] theorem writesOf_allocs (fs : List Word) :
    writesOf (fs.map fun f => PortEvent.alloc (some f)) = [] := by
  simp [writesOf]

/-! ### Allocations -/

/-- What taking an answer changes: the allocator and the port events. -/
theorem takeAnswer_eq (s : State) :
    s.takeAnswer =
      { s with
        allocQ := s.takeAnswer.allocQ, allocCalls := s.takeAnswer.allocCalls
        ports := .alloc s.nextAnswer :: s.ports } := by
  unfold State.takeAnswer State.nextAnswer; split <;> rfl

theorem takeAnswer_cons {s : State} {r : Option Word} {q : List (Option Word)}
    (h : s.allocQ = r :: q) :
    s.takeAnswer = { s with allocQ := q, ports := .alloc r :: s.ports } := by
  simp [State.takeAnswer, h]

theorem nextAnswer_cons {s : State} {r : Option Word} {q : List (Option Word)}
    (h : s.allocQ = r :: q) : s.nextAnswer = r := by
  simp [State.nextAnswer, h]

/-- `s'` is `s` after allocator calls only, newest first in `events`: what they change, and that
they are the allocator's own answers in turn. -/
def AllocsOnly (s s' : State) (events : List PortEvent) : Prop :=
  s' = { s with
    allocQ := s'.allocQ, allocCalls := s'.allocCalls, ports := events ++ s.ports } ∧
  s' = s.replay events.reverse

theorem AllocsOnly.refl (s : State) : AllocsOnly s s [] := ⟨rfl, rfl⟩

theorem AllocsOnly.takeAnswer {s s' : State} {es : List PortEvent}
    (h : AllocsOnly s.takeAnswer s' es) : AllocsOnly s s' (es ++ [.alloc s.nextAnswer]) := by
  constructor
  · rw [h.1, takeAnswer_eq]
    simp
  · rw [List.reverse_append]
    exact h.2

/-- Everything the allocation phase can do (43_mapper.md R191 phase 2, R196): `n` valid frames are
obtained; or the answer `None` comes after fewer than `n`; or an answer is no valid frame. -/
theorem allocFrames_cases (n : Nat) (got : List Word) (s : State) :
    (∃ (fs : List Word) (s' : State), fs.length = n ∧ (∀ f ∈ fs, validFrame f = true) ∧
      AllocsOnly s s' (fs.map fun f => PortEvent.alloc (some f)).reverse ∧
      allocFrames n got s = .got (got ++ fs) s') ∨
    (∃ (fs : List Word) (s' : State), fs.length < n ∧ (∀ f ∈ fs, validFrame f = true) ∧
      AllocsOnly s s' (.alloc none :: (fs.map fun f => PortEvent.alloc (some f)).reverse) ∧
      allocFrames n got s = .failed (got ++ fs) s') ∨
    (∃ (fs : List Word) (f : Word) (s' : State), fs.length < n ∧ validFrame f = false ∧
      AllocsOnly s s' (.alloc (some f) :: (fs.map fun f => PortEvent.alloc (some f)).reverse) ∧
      allocFrames n got s = .stop (s'.takeFault .allocProtocol)) := by
  induction n generalizing got s with
  | zero => exact .inl ⟨[], s, rfl, by simp, AllocsOnly.refl s, by simp [allocFrames]⟩
  | succ n ih =>
    have hbase := (AllocsOnly.refl s.takeAnswer).takeAnswer
    cases ha : s.nextAnswer with
    | none =>
      rw [ha] at hbase
      exact .inr (.inl ⟨[], s.takeAnswer, by simp, by simp, hbase, by simp [allocFrames, ha]⟩)
    | some f =>
      cases hv : validFrame f with
      | false =>
        rw [ha] at hbase
        exact .inr (.inr ⟨[], f, s.takeAnswer, by simp, hv, hbase, by simp [allocFrames, ha, hv]⟩)
      | true =>
        rcases ih (got ++ [f]) s.takeAnswer with
          ⟨fs, s', hl, hvs, hs, he⟩ | ⟨fs, s', hl, hvs, hs, he⟩ | ⟨fs, g, s', hl, hg, hs, he⟩
        · refine .inl ⟨f :: fs, s', by simp [hl], by simpa [hv] using hvs, ?_, ?_⟩
          · have := hs.takeAnswer; rw [ha] at this; simpa using this
          · simp [allocFrames, ha, hv, he]
        · refine .inr (.inl ⟨f :: fs, s', by simp [hl], by simpa [hv] using hvs, ?_, ?_⟩)
          · have := hs.takeAnswer; rw [ha] at this; simpa using this
          · simp [allocFrames, ha, hv, he]
        · refine .inr (.inr ⟨f :: fs, g, s', by simp [hl], hg, ?_, ?_⟩)
          · have := hs.takeAnswer; rw [ha] at this; simpa using this
          · simp [allocFrames, ha, hv, he]

/-- The answers listed in `allocQ` are the frames obtained, when they are valid and enough. -/
theorem allocFrames_of_queue (fs : List Word) (got : List Word) (q : List (Option Word)) (s : State)
    (hq : s.allocQ = fs.map some ++ q) (hv : ∀ f ∈ fs, validFrame f = true) :
    allocFrames fs.length got s =
      .got (got ++ fs)
        { s with
          allocQ := q
          ports := (fs.map fun f => PortEvent.alloc (some f)).reverse ++ s.ports } := by
  induction fs generalizing got s with
  | nil => simp at hq; simp [allocFrames, ← hq]
  | cons f fs ih =>
    have hq' : s.allocQ = some f :: (fs.map some ++ q) := by simpa using hq
    have :=
        ih (got ++ [f]) s.takeAnswer (by rw [takeAnswer_cons hq']) (fun g hg => hv g (by simp [hg]))
    simp only [List.length_cons, allocFrames, nextAnswer_cons hq', hv f (by simp), if_true, this]
    simp [takeAnswer_cons hq']

end Sys2Proof.Machine
end

