-- ==== Sys2Proof/Laws/Agents.lean ====
section
/-! SUPPORT. What each operation of Machine/Agents.lean can do, said once: an inversion lemma per
operation that may run a command, and the small lemmas of the host's own invalidation and of the end
of a run. -/

namespace Sys2Proof.Machine

/-! ### Commands as actions start them -/

/-- All that writing a word to CMD can give (10_state.md R21, 60_exceptions.md R253). -/
theorem issueWord_cases {w : CommandWord} {s t : State} (h : issueWord w s = .next t) :
    (s.flt = true ∧ t = s.raiseFaulted) ∨
    (s.flt = false ∧ (∃ e, decode w = .error e) ∧ t = s.raise .illegalCommand (w.setWidth 64)) ∨
    (s.flt = false ∧ ∃ i, decode w = .ok i ∧ exec i s = .next t) := by
  unfold issueWord at h
  split at h
  · cases h; exact .inl ⟨‹_›, rfl⟩
  · have hf : s.flt = false := by simpa using ‹¬s.flt = true›
    split at h
    · cases h; exact .inr (.inl ⟨hf, ⟨_, ‹_›⟩, rfl⟩)
    · exact .inr (.inr ⟨hf, _, ‹_›, h⟩)

/-- All that a host write of the register window can give (10_state.md R30). -/
theorem hostWrite_cases {slot : BitVec 4} {v : Word} {s t : State}
    (h : hostWrite slot v s = .next t) :
    (slot = 0 ∧ t = { s with arg0 := v }) ∨ (slot = 1 ∧ t = { s with arg1 := v }) ∨
    (slot = 2 ∧ t = { s with arg2 := v }) ∨
    (slot = 3 ∧ issueWord (v.setWidth 32) s.clearPorts = .next t) ∨ (4 ≤ slot.toNat ∧ t = s) := by
  unfold hostWrite at h
  split at h
  · cases h; exact .inl ⟨BitVec.eq_of_toNat_eq ‹_›, rfl⟩
  · cases h; exact .inr (.inl ⟨BitVec.eq_of_toNat_eq ‹_›, rfl⟩)
  · cases h; exact .inr (.inr (.inl ⟨BitVec.eq_of_toNat_eq ‹_›, rfl⟩))
  · exact .inr (.inr (.inr (.inl ⟨BitVec.eq_of_toNat_eq ‹_›, h⟩)))
  · rename_i h0 h1 h2 h3
    cases h
    simp only [imp_false] at h0 h1 h2 h3
    exact .inr (.inr (.inr (.inr ⟨by omega, rfl⟩)))

/-- A direct host access goes through exactly inside physical memory (20_memory.md R51). -/
theorem hostAccess_cases {pa : Word} {n : Nat} {s t : State} (h : hostAccess pa n s = .next t) :
    pa.toNat + n ≤ Config.physicalBytes ∧ t = s := by
  unfold hostAccess at h
  split at h
  · cases h; exact ⟨‹_›, rfl⟩
  · cases h

/-- The miss path is TRANSLATE of the address, and the core's use of the answer (42 R169). -/
theorem missPath_cases {va : Word} {s t : State} (h : missPath va s = .next t) :
    ∃ u, issueWord (encode .translate) { s.clearPorts with arg0 := va } = .next u ∧
      t = { u with coreXlat := if u.status = Status.ok.code then some u.res0 else none } := by
  unfold missPath at h
  split at h
  · cases h; exact ⟨_, ‹_›, rfl⟩
  · cases h
  · cases h

/-- A translation that the core uses is by a covering entry or by the miss path (20_memory.md
R66(e)). -/
theorem coreAccess_cases {va : Word} {cached : Option Nat} {s t : State}
    (h : coreAccess va cached s = .next t) :
    (∃ e, s.cachedFor va cached = some e ∧ t = { s with coreXlat := some (e.translate va) }) ∨
    (s.cachedFor va cached = none ∧ missPath va s = .next t) := by
  unfold coreAccess at h
  split at h
  · cases h; exact .inl ⟨_, ‹_›, rfl⟩
  · exact .inr ⟨‹_›, h⟩

/-- A reset in mid-command abandons what the command alone would have given (70 R280). -/
theorem resetDuring_cases {w : CommandWord} {n : Nat} {s t : State}
    (h : resetDuring w n s = .next t) :
    ∃ u, issueWord w s.clearPorts = .next u ∧ t = s.abandoned (u.ports.reverse.take n) := by
  unfold resetDuring at h
  split at h
  · cases h; exact ⟨_, ‹_›, rfl⟩
  · cases h
  · cases h

/-- A race is the command with its reads as drawn, every racing write being inside physical memory
(20_memory.md R51, R68). -/
theorem raceCommand_cases {source : CommandSource} {rs : List RacingWrite}
    {draws : List (List Bool)} {reset : Option Nat} {s t : State}
    (h : raceCommand source rs draws reset s = .next t) :
    (∀ r ∈ rs, r.pa.toNat + 8 ≤ Config.physicalBytes) ∧
    ∃ u, startCommand source { s with views := draws.map (seenWrites rs) } = .next u ∧
      t = s.raceDone rs reset u := by
  unfold raceCommand at h
  split at h
  · cases h
  · refine ⟨fun r hr => ?_, ?_⟩
    · exact Nat.not_lt.1 fun hlt =>
        List.find?_eq_none.1 ‹_› r hr (decide_eq_true hlt)
    · split at h
      · cases h; exact ⟨_, ‹_›, rfl⟩
      · cases h
      · cases h

/-! ### Fields after a race -/

@[simp] theorem raceDone_views (s t : State) (rs : List RacingWrite) (reset : Option Nat) :
    (s.raceDone rs reset t).views = [] := by
  cases reset <;> rfl

/-- Without a reset, a race leaves what the command left, but for memory (20_memory.md R56). -/
theorem raceDone_none (s t : State) (rs : List RacingWrite) :
    s.raceDone rs none t =
      { t with mem := s.mem.writeAll (raceWrites rs 0 (writesOf t.ports.reverse)), views := [] } :=
  rfl

/-- With a reset, a race leaves what the reset leaves, but for memory (70 R280). -/
theorem raceDone_some (s t : State) (rs : List RacingWrite) (n : Nat) :
    s.raceDone rs (some n) t =
      { s.abandoned (t.ports.reverse.take n) with
        mem := s.mem.writeAll (raceWrites rs 0 (writesOf (t.ports.reverse.take n)))
        views := [] } :=
  rfl

/-! ### The end of a run -/

theorem atHostStop_of_hostDone {s : State} (h : s.hostDone = true) (n : Nat) (c : State) :
    State.atHostStop n s c = some c := by
  cases n <;> simp [State.atHostStop, h]

/-- Without a command left to issue, the run is judged where it stands (44_flush_root.md R233). -/
theorem wellEnded_of_hostDone {s : State} (h : s.hostDone = true) :
    s.wellEnded = (!s.tv && !s.flt) := by
  simp [State.wellEnded, atHostStop_of_hostDone h]

/-! ### The host's own invalidation -/

/-- An entry has an address of a range of one address exactly when it covers it. -/
theorem overlaps_self (e : TlbEntry) (va : Word) : e.overlaps va va = e.covers va := rfl

theorem overlaps_iff (e : TlbEntry) (first last : Word) :
    e.overlaps first last = true ↔
      e.page.toNat ≤ last.toNat ∧ first.toNat < e.page.toNat + sizeBytes e.cls := by
  simp [TlbEntry.overlaps]

theorem mem_tlbInvalidate (s : State) (first last : Word) (e : TlbEntry) :
    e ∈ (s.tlbInvalidate first last).tlb ↔ e ∈ s.tlb ∧ e.overlaps first last = false := by
  simp [State.tlbInvalidate]

theorem mem_tlbInvalidate_fillable (s : State) (first last : Word) (e : TlbEntry) :
    e ∈ (s.tlbInvalidate first last).fillable ↔
      e ∈ s.fillable ∧ e.overlaps first last = false := by
  simp [State.tlbInvalidate]

/-- The TLB takes up nothing that was not on offer (20_memory.md R66(a)). -/
theorem mem_tlbFill {s : State} {n : Nat} {e : TlbEntry} (h : e ∈ (s.tlbFill n).tlb) :
    e ∈ s.tlb ∨ e ∈ s.fillable := by
  unfold State.tlbFill at h
  split at h
  · rcases List.mem_cons.1 h with rfl | h
    · exact .inr (List.mem_of_getElem? ‹_›)
    · exact .inl h
  · exact .inl h

end Sys2Proof.Machine
end

