-- ==== Sys2Proof/Laws/Walk.lean ====
section
/-! SUPPORT. The walks: what `Reaches` determines, and everything each walk can do, said once. -/

namespace Sys2Proof.Machine

/-! ### Numbers of the size classes -/

@[simp] theorem terminalLevel_s4K : terminalLevel .s4K = 1 := rfl
@[simp] theorem terminalLevel_s2M : terminalLevel .s2M = 2 := rfl
@[simp] theorem terminalLevel_s1G : terminalLevel .s1G = 3 := rfl

theorem terminalLevel_pos (c : SizeClass) : 1 ≤ terminalLevel c := by cases c <;> decide
theorem terminalLevel_le (c : SizeClass) : terminalLevel c ≤ 3 := by cases c <;> decide
theorem sizeBytes_pos (c : SizeClass) : 0 < sizeBytes c := by cases c <;> decide

/-! ### The entry decode, case by case -/

theorem decodeEntry_absent {l : Nat} {e : Word} (h : isPresent e = false) :
    decodeEntry l e = .absent := by simp [decodeEntry, h]

theorem decodeEntry_table {l : Nat} {e : Word} (hp : isPresent e = true) (hh : isHuge e = false)
    (hl : l ≠ 1) : decodeEntry l e = .table (entryAddr e) := by simp [decodeEntry, hp, hh, hl]

theorem decodeEntry_small {e : Word} (hp : isPresent e = true) (hh : isHuge e = false) :
    decodeEntry 1 e = .leaf .s4K (entryAddr e) := by simp [decodeEntry, hp, hh]

theorem decodeEntry_huge {l : Nat} {e : Word} (hp : isPresent e = true) (hh : isHuge e = true) :
    decodeEntry l e = decodeHuge l e := by simp [decodeEntry, hp, hh]

/-- What each outcome of the entry decode says of the entry (41_entry_table.md R143). -/
theorem decodeEntry_cases (l : Nat) (e : Word) :
    (isPresent e = false ∧ decodeEntry l e = .absent) ∨
    (isPresent e = true ∧ isHuge e = true ∧ l ≠ 3 ∧ l ≠ 2 ∧ decodeEntry l e = .malformed) ∨
    (isPresent e = true ∧ ∃ c, terminalLevel c = l ∧ classMatch c e = true ∧
      decodeEntry l e = .leaf c (entryAddr e)) ∨
    (isPresent e = true ∧ isHuge e = false ∧ l ≠ 1 ∧ decodeEntry l e = .table (entryAddr e)) := by
  cases hp : isPresent e with
  | false => exact .inl ⟨rfl, decodeEntry_absent hp⟩
  | true =>
    cases hh : isHuge e with
    | false =>
      by_cases hl : l = 1
      · subst hl
        exact .inr (.inr (.inl ⟨rfl, .s4K, rfl, by simp [classMatch, hh], decodeEntry_small hp hh⟩))
      · exact .inr (.inr (.inr ⟨rfl, rfl, hl, decodeEntry_table hp hh hl⟩))
    | true =>
      by_cases h3 : l = 3
      · subst h3
        exact .inr (.inr (.inl ⟨rfl, .s1G, rfl, by simp [classMatch, hh],
          by rw [decodeEntry_huge hp hh]; rfl⟩))
      · by_cases h2 : l = 2
        · subst h2
          exact .inr (.inr (.inl ⟨rfl, .s2M, rfl, by simp [classMatch, hh],
            by rw [decodeEntry_huge hp hh]; rfl⟩))
        · exact .inr (.inl ⟨rfl, rfl, h3, h2, by
            rw [decodeEntry_huge hp hh]; simp [decodeHuge, h3, h2]⟩)

/-! ### Reads only -/

/-- `s'` is `s` after reads only, of the entries in `pas`, newest first. -/
def ReadsOnly (s s' : State) (pas : List Nat) : Prop :=
  s' = { s with
    ports := pas.map PortEvent.read ++ s.ports, views := s.views.drop pas.length }

theorem ReadsOnly.refl (s : State) : ReadsOnly s s [] := rfl

theorem ReadsOnly.readDone {s s₁ : State} {pas : List Nat} (h : ReadsOnly s s₁ pas) (pa : Nat) :
    ReadsOnly s (s₁.readDone pa) ([pa] ++ pas) := by
  unfold ReadsOnly at h ⊢
  simp [h, State.readDone]

/-- While no write races, reads change the record of port events only. -/
theorem ReadsOnly.ports_eq {s s' : State} {pas : List Nat} (h : ReadsOnly s s' pas)
    (hv : s.views = []) : s' = { s with ports := pas.map PortEvent.read ++ s.ports } := by
  rw [h]; simp [hv]

/-! ### `Reaches` -/

/-- `Reaches` reads memory, the root and the admitted regions only. -/
theorem Reaches.congr {s s' : State} (hm : s'.mem = s.mem) (ha : s'.admitted = s.admitted)
    (hr : s'.root = s.root) {va : Word} {l : Nat} {t : Word} (h : Reaches s va l t) :
    Reaches s' va l t := by
  have he : ∀ l t, s'.entryAt l va t = s.entryAt l va t := by
    intro l t; simp [State.entryAt, hm]
  have hadm : ∀ l t, s'.entryAdmitted l va t ↔ s.entryAdmitted l va t := by
    intro l t; simp [State.entryAdmitted, State.admits, ha]
  induction h with
  | root =>
    have : s.rootFrame = s'.rootFrame := by simp [State.rootFrame, State.rootReg, hr]
    rw [this]; exact .root
  | down above low admitted present small ih =>
    have := Reaches.down ih low ((hadm _ _).2 admitted) (by rw [he]; exact present)
      (by rw [he]; exact small)
    rwa [he] at this

theorem Reaches.le_four {s : State} {va : Word} {l : Nat} {t : Word} (h : Reaches s va l t) :
    l ≤ 4 := by
  induction h with
  | root => omega
  | down _ _ _ _ _ ih => omega

theorem Reaches.pos {s : State} {va : Word} {l : Nat} {t : Word} (h : Reaches s va l t) :
    1 ≤ l := by
  cases h <;> omega

theorem reaches_unique_aux {s : State} {va : Word} {l : Nat} {t : Word} (h : Reaches s va l t) :
    ∀ t', Reaches s va l t' → t' = t := by
  induction h with
  | root =>
    intro t' h'
    generalize hl : 4 = l at h'
    cases h' with
    | root => rfl
    | down above low => have := above.le_four; omega
  | @down l t above low adm pres small ih =>
    intro t' h'
    generalize hl : l = k at h'
    cases h' with
    | root => have := above.le_four; omega
    | @down _ t'' above' =>
      subst hl
      rw [ih _ above']

/-- A walk reaches at most one table at each level. -/
theorem Reaches.unique {s : State} {va : Word} {l : Nat} {t t' : Word} (h : Reaches s va l t)
    (h' : Reaches s va l t') : t = t' := (reaches_unique_aux h t' h').symm

/-- A walk that reaches a level has passed an admitted, present entry without HUGE_PAGE at every
level above. -/
theorem Reaches.above {s : State} {va : Word} {l : Nat} {t : Word} (h : Reaches s va l t) :
    ∀ k, l < k → k ≤ 4 → ∃ u, Reaches s va k u ∧ s.entryAdmitted k va u ∧
      isPresent (s.entryAt k va u) = true ∧ isHuge (s.entryAt k va u) = false := by
  induction h with
  | root => intro k h1 h2; omega
  | @down l t above low adm pres small ih =>
    intro k h1 h2
    by_cases hk : k = l + 1
    · subst hk; exact ⟨t, above, adm, pres, small⟩
    · exact ih k (by omega) h2

theorem Reaches.next {s : State} {va : Word} {l : Nat} {t : Word} (h : Reaches s va (l + 1) t)
    (hl : 1 ≤ l) (ha : s.admits (entryPa (l + 1) va t) 8 = true)
    (hp : isPresent (s.mem.read64 (entryPa (l + 1) va t)) = true)
    (hh : isHuge (s.mem.read64 (entryPa (l + 1) va t)) = false) :
    Reaches s va l (entryAddr (s.mem.read64 (entryPa (l + 1) va t))) :=
  .down h hl ha hp hh

/-! ### Which addresses the walker accesses -/

/-- The base of a table or frame: a multiple of 4096 inside physical memory. -/
def IsFrame (t : Word) : Prop := t.toNat % 4096 = 0 ∧ t.toNat < 2 ^ 52

/-- An access that the walker may make: 8 bytes at a multiple of 8, inside physical memory and
admitted (20_memory.md R53, R54). -/
def State.Accessible (s : State) (pa : Nat) : Prop :=
  pa % 8 = 0 ∧ pa + 8 ≤ 2 ^ 52 ∧ s.admits pa 8 = true

theorem addrMask_toNat (e : Word) :
    (e &&& 0x000FFFFFFFFFF000#64).toNat = e.toNat / 2 ^ 12 % 2 ^ 40 * 2 ^ 12 := by
  have h : e &&& 0x000FFFFFFFFFF000#64 = (e.extractLsb' 12 40).setWidth 64 <<< 12 := by
    apply BitVec.eq_of_getLsbD_eq
    intro i hi
    have hi' : i < 64 := hi
    interval_cases i <;> simp
  rw [h]
  have := e.isLt
  simp only [BitVec.toNat_shiftLeft, BitVec.toNat_setWidth, BitVec.extractLsb'_toNat,
    Nat.shiftRight_eq_div_pow, Nat.shiftLeft_eq]
  omega

/-- The address field of an entry is the base of a frame (30_encoding.md R85). -/
theorem isFrame_mask (e : Word) : IsFrame (e &&& 0x000FFFFFFFFFF000#64) := by
  unfold IsFrame; rw [addrMask_toNat]; omega

/-- The base of a frame is its own address field. -/
theorem IsFrame.mask_eq {t : Word} (h : IsFrame t) : t &&& 0x000FFFFFFFFFF000#64 = t := by
  apply BitVec.eq_of_toNat_eq
  have := h.1; have := h.2
  rw [addrMask_toNat]; omega

theorem isFrame_rootFrame (s : State) : IsFrame s.rootFrame := isFrame_mask _

theorem Reaches.isFrame {s : State} {va : Word} {l : Nat} {t : Word} (h : Reaches s va l t) :
    IsFrame t := by
  cases h with
  | root => exact isFrame_rootFrame s
  | down => exact isFrame_mask _

/-- The addresses of the entries of a table (42_walk_translate.md R160). -/
theorem entryPa_bounds {t : Word} (h : IsFrame t) (l : Nat) (va : Word) :
    entryPa l va t % 8 = 0 ∧ t.toNat ≤ entryPa l va t ∧ entryPa l va t + 8 ≤ t.toNat + 4096 ∧
      entryPa l va t + 8 ≤ 2 ^ 52 := by
  have := (index l va).isLt
  have := h.1; have := h.2
  unfold entryPa; omega

/-- The entry of a table that a walk reaches is accessible where it is admitted. -/
theorem Reaches.accessible {s : State} {va : Word} {l : Nat} {t : Word} (h : Reaches s va l t)
    (k : Nat) (ha : s.admits (entryPa k va t) 8 = true) : s.Accessible (entryPa k va t) :=
  ⟨(entryPa_bounds h.isFrame k va).1, (entryPa_bounds h.isFrame k va).2.2.2, ha⟩

/-- The walk for `va` reaches a table of level at least `k` whose entry is not admitted. -/
def State.Refused (s : State) (va : Word) (k : Nat) : Prop :=
  ∃ l t, k ≤ l ∧ Reaches s va l t ∧ s.admits (entryPa l va t) 8 = false

/-! ### Where a walk stands, also while writes race with it -/

/-- A walk for `va` stands at the level-`l` table at `t`. While no write races it reaches that table;
in a race the table is one that its reads, as drawn, led it to (20_memory.md R68). -/
def State.Met (s : State) (va : Word) (l : Nat) (t : Word) : Prop :=
  IsFrame t ∧ l ≤ 4 ∧ (s.views = [] → Reaches s va l t)

/-- A walk for `va` reads `e` at level `l`, in a table at which it stands. -/
def State.MetReads (s : State) (va : Word) (l : Nat) (e : Word) : Prop :=
  ∃ t, s.Met va l t ∧ s.entryAdmitted l va t ∧ (s.views = [] → e = s.entryAt l va t)

/-- A read of the walk for `va`, at level `k` or above, is refused. -/
def State.MetRefused (s : State) (va : Word) (k : Nat) : Prop :=
  ∃ l t, k ≤ l ∧ s.Met va l t ∧ s.admits (entryPa l va t) 8 = false

theorem met_iff {s : State} (hv : s.views = []) {va : Word} {l : Nat} {t : Word} :
    s.Met va l t ↔ Reaches s va l t :=
  ⟨fun h => h.2.2 hv, fun h => ⟨h.isFrame, h.le_four, fun _ => h⟩⟩

theorem metReads_iff {s : State} (hv : s.views = []) {va : Word} {l : Nat} {e : Word} :
    s.MetReads va l e ↔ s.WalkReads va l e := by
  simp [State.MetReads, State.WalkReads, met_iff hv, hv]

theorem metRefused_iff {s : State} (hv : s.views = []) {va : Word} {k : Nat} :
    s.MetRefused va k ↔ s.Refused va k := by
  simp [State.MetRefused, State.Refused, met_iff hv]

theorem State.met_root (s : State) (va : Word) : s.Met va 4 s.rootFrame :=
  ⟨isFrame_rootFrame s, Nat.le_refl 4, fun _ => .root⟩

/-- The walk goes on from an entry that is present and has no HUGE_PAGE. -/
theorem State.Met.next {s : State} {va : Word} {l : Nat} {t e : Word} (h : s.Met va (l + 1) t)
    (hl : 1 ≤ l) (ha : s.admits (entryPa (l + 1) va t) 8 = true)
    (he : s.views = [] → e = s.mem.read64 (entryPa (l + 1) va t)) (hp : isPresent e = true)
    (hh : isHuge e = false) : s.Met va l (entryAddr e) := by
  refine ⟨isFrame_mask _, by have := h.2.1; omega, fun hv => ?_⟩
  have := (h.2.2 hv).next hl ha (he hv ▸ hp) (he hv ▸ hh)
  rwa [← he hv] at this

theorem State.Met.accessible {s : State} {va : Word} {l : Nat} {t : Word} (h : s.Met va l t)
    (k : Nat) (ha : s.admits (entryPa k va t) 8 = true) : s.Accessible (entryPa k va t) :=
  ⟨(entryPa_bounds h.1 k va).1, (entryPa_bounds h.1 k va).2.2.2, ha⟩

/-- While no write races, a read after reads returns the word in memory. -/
theorem ReadsOnly.seenWord_eq {s s₁ : State} {pas : List Nat} (h : ReadsOnly s s₁ pas)
    (hv : s.views = []) (pa : Nat) : s₁.seenWord pa = s.mem.read64 pa := by
  rw [seenWord_of_views (by rw [h]; simp [hv]), h]

/-! ### The class-directed walk -/

/-- What an outcome of the class-directed walk says of the tree (42_walk_translate.md R161). -/
def State.WalkSays (s : State) (va : Word) (c : SizeClass) : WalkEnd → Prop
  | .absent l => terminalLevel c < l ∧ ∃ e, s.WalkReads va l e ∧ isPresent e = false
  | .malformed l e =>
    l = 4 ∧ s.WalkReads va l e ∧ isPresent e = true ∧ isHuge e = true
  | .hugeAbove l e =>
    terminalLevel c < l ∧ l < 4 ∧ s.WalkReads va l e ∧ isPresent e = true ∧ isHuge e = true
  | .terminal ea e =>
    ∃ t, Reaches s va (terminalLevel c) t ∧ s.entryAdmitted (terminalLevel c) va t ∧
      ea = entryPa (terminalLevel c) va t ∧ e = s.entryAt (terminalLevel c) va t

/-- What an outcome says where writes may race with the walk. -/
def State.WalkMet (s : State) (va : Word) (c : SizeClass) : WalkEnd → Prop
  | .absent l => terminalLevel c < l ∧ ∃ e, s.MetReads va l e ∧ isPresent e = false
  | .malformed l e =>
    l = 4 ∧ s.MetReads va l e ∧ isPresent e = true ∧ isHuge e = true
  | .hugeAbove l e =>
    terminalLevel c < l ∧ l < 4 ∧ s.MetReads va l e ∧ isPresent e = true ∧ isHuge e = true
  | .terminal ea e =>
    ∃ t, s.Met va (terminalLevel c) t ∧ s.entryAdmitted (terminalLevel c) va t ∧
      ea = entryPa (terminalLevel c) va t ∧
      (s.views = [] → e = s.entryAt (terminalLevel c) va t)

theorem walkMet_iff {s : State} (hv : s.views = []) {va : Word} {c : SizeClass} {w : WalkEnd} :
    s.WalkMet va c w ↔ s.WalkSays va c w := by
  cases w <;> simp [State.WalkMet, State.WalkSays, met_iff hv, metReads_iff hv, hv]

theorem walkFrom_cases (va : Word) (c : SizeClass) (s : State) (d : Nat) :
    ∀ (t : Word) (s₁ : State) (pas : List Nat), ReadsOnly s s₁ pas →
      s.Met va (terminalLevel c + d) t →
      (∃ w s' ps, walkFrom va c d t s₁ = .ok w s' ∧ ReadsOnly s s' (ps ++ pas) ∧
        ps.length ≤ d + 1 ∧ (∀ pa ∈ ps, s.Accessible pa) ∧ s.WalkMet va c w) ∨
      (∃ s' ps, walkFrom va c d t s₁ = .stop (s'.takeFault .busError) ∧
        ReadsOnly s s' (ps ++ pas) ∧ ps.length ≤ d ∧ (∀ pa ∈ ps, s.Accessible pa) ∧
            s.MetRefused va (terminalLevel c)) := by
  induction d with
  | zero =>
    intro t s₁ pas h₁ hr
    have hadm : ∀ a k, s₁.admits a k = s.admits a k := by rw [h₁]; intro a k; rfl
    obtain ⟨e, hw₁⟩ : ∃ e, e = s₁.seenWord (entryPa (terminalLevel c) va t) := ⟨_, rfl⟩
    have hev : s.views = [] → e = s.mem.read64 (entryPa (terminalLevel c) va t) :=
      fun hv => hw₁.trans (h₁.seenWord_eq hv _)
    have g1 : s.admits (entryPa (terminalLevel c) va t) 8 = true →
        ∀ pa ∈ [entryPa (terminalLevel c) va t], s.Accessible pa :=
      fun h pa hp => by rw [List.mem_singleton.1 hp]; exact hr.accessible _ h
    simp only [Nat.add_zero] at hr
    cases ha : s.admits (entryPa (terminalLevel c) va t) 8 with
    | false =>
      exact .inr ⟨s₁, [], by simp [walkFrom, memRead, hadm, ha], h₁, by simp, by simp,
        ⟨_, t, Nat.le_refl _, hr, ha⟩⟩
    | true =>
      refine .inl ⟨.terminal (entryPa (terminalLevel c) va t)
        e,
        s₁.readDone (entryPa (terminalLevel c) va t), [entryPa (terminalLevel c) va t], ?_, ?_,
        by simp, g1 ha, ?_⟩
      · simp [walkFrom, memRead, hadm, ha, ← hw₁]
      · exact h₁.readDone _
      · exact ⟨t, hr, ha, rfl, hev⟩
  | succ d ih =>
    intro t s₁ pas h₁ hr
    have hadm : ∀ a k, s₁.admits a k = s.admits a k := by rw [h₁]; intro a k; rfl
    obtain ⟨e, hw₁⟩ : ∃ e, e = s₁.seenWord (entryPa (terminalLevel c + d + 1) va t) := ⟨_, rfl⟩
    have hev : s.views = [] → e = s.mem.read64 (entryPa (terminalLevel c + d + 1) va t) :=
      fun hv => hw₁.trans (h₁.seenWord_eq hv _)
    have g1 : s.admits (entryPa (terminalLevel c + d + 1) va t) 8 = true →
        ∀ pa ∈ [entryPa (terminalLevel c + d + 1) va t], s.Accessible pa :=
      fun h pa hp => by rw [List.mem_singleton.1 hp]; exact hr.accessible _ h
    have good : s.admits (entryPa (terminalLevel c + d + 1) va t) 8 = true → ∀ ps : List Nat,
        (∀ pa ∈ ps, s.Accessible pa) →
        ∀ pa ∈ ps ++ [entryPa (terminalLevel c + d + 1) va t], s.Accessible pa :=
      fun h ps hg pa hp => (List.mem_append.1 hp).elim (hg pa) (g1 h pa)
    have hr' : s.Met va (terminalLevel c + d + 1) t := hr
    have hpos := terminalLevel_pos c
    have hle := hr'.2.1
    cases ha : s.admits (entryPa (terminalLevel c + d + 1) va t) 8 with
    | false =>
      exact .inr ⟨s₁, [], by simp [walkFrom, memRead, hadm, ha], h₁, by simp, by simp,
        ⟨_, t, by omega, hr', ha⟩⟩
    | true =>
      have h₂ : ReadsOnly s (s₁.readDone (entryPa (terminalLevel c + d + 1) va t))
          ([entryPa (terminalLevel c + d + 1) va t] ++ pas) := h₁.readDone _
      have hreads : s.MetReads va (terminalLevel c + d + 1) e :=
        ⟨t, hr', ha, hev⟩
      rcases decodeEntry_cases (terminalLevel c + d + 1)
          e with
        ⟨hp, hd⟩ | ⟨hp, hh, h3, h2, hd⟩ | ⟨hp, c', hc', hm, hd⟩ | ⟨hp, hh, h1, hd⟩
      · exact .inl ⟨.absent (terminalLevel c + d + 1), _, _,
          by simp [walkFrom, memRead, hadm, ha, ← hw₁, hd], h₂, by simp, g1 ha, by omega, _,
              hreads, hp⟩
      · exact .inl ⟨.malformed (terminalLevel c + d + 1) _, _, _,
          by simp [walkFrom, memRead, hadm, ha, ← hw₁, hd], h₂, by simp, g1 ha, by omega, hreads,
              hp, hh⟩
      · refine .inl ⟨.hugeAbove (terminalLevel c + d + 1) _, _, _,
          by simp [walkFrom, memRead, hadm, ha, ← hw₁, hd], h₂, by simp, g1 ha, by omega, ?_,
              hreads, hp, ?_⟩
        · have := terminalLevel_le c'; omega
        · cases c' with
          | s4K => simp at hc'; omega
          | s2M => simpa [classMatch] using hm
          | s1G => simpa [classMatch] using hm
      · have hnext := hr'.next (by omega) ha hev hp hh
        rcases ih _ _ _ h₂ hnext with
          ⟨w, s', ps, he, hs, hl, hg, hw⟩ | ⟨s', ps, he, hs, hl, hg, hw⟩
        · refine .inl ⟨w, s', ps ++ [entryPa (terminalLevel c + d + 1) va t], ?_, ?_, by simpa,
            good ha _ hg, hw⟩
          · simp [walkFrom, memRead, hadm, ha, ← hw₁, hd, he]
          · simpa using hs
        · refine .inr ⟨s', ps ++ [entryPa (terminalLevel c + d + 1) va t], ?_, ?_, by simpa,
            good ha _ hg, hw⟩
          · simp [walkFrom, memRead, hadm, ha, ← hw₁, hd, he]
          · simpa using hs

/-- Everything the class-directed walk can do (42_walk_translate.md R161, R168): it reads at most
`4 - T(S) + 1` entries and gives an outcome that the entries it met bear out, or a read is refused.
This holds also while writes race with it. -/
theorem walk_cases (va : Word) (c : SizeClass) (s : State) :
    (∃ w s' ps, walk va c s = .ok w s' ∧ ReadsOnly s s' ps ∧
      ps.length ≤ 4 - terminalLevel c + 1 ∧ (∀ pa ∈ ps, s.Accessible pa) ∧ s.WalkMet va c w) ∨
    (∃ s' ps, walk va c s = .stop (s'.takeFault .busError) ∧ ReadsOnly s s' ps ∧
      ps.length ≤ 4 - terminalLevel c ∧ (∀ pa ∈ ps, s.Accessible pa) ∧
          s.MetRefused va (terminalLevel c)) := by
  have hle := terminalLevel_le c
  have hroot : s.Met va (terminalLevel c + (4 - terminalLevel c)) s.rootFrame := by
    have : terminalLevel c + (4 - terminalLevel c) = 4 := by omega
    rw [this]; exact s.met_root va
  simpa [walk] using walkFrom_cases va c s _ _ s [] (ReadsOnly.refl s) hroot

/-! ### The class-agnostic walk -/

/-- What an outcome of the class-agnostic walk says of the tree (42_walk_translate.md R162). -/
def State.AnySays (s : State) (va : Word) : AnyEnd → Prop
  | .absent l => ∃ e, s.WalkReads va l e ∧ isPresent e = false
  | .malformed l e =>
    l ≠ 3 ∧ l ≠ 2 ∧ s.WalkReads va l e ∧ isPresent e = true ∧ isHuge e = true
  | .leaf c a e =>
    s.WalkReads va (terminalLevel c) e ∧ isPresent e = true ∧ classMatch c e = true ∧
      a = entryAddr e

/-- What an outcome says where writes may race with the walk. -/
def State.AnyMet (s : State) (va : Word) : AnyEnd → Prop
  | .absent l => ∃ e, s.MetReads va l e ∧ isPresent e = false
  | .malformed l e =>
    l ≠ 3 ∧ l ≠ 2 ∧ s.MetReads va l e ∧ isPresent e = true ∧ isHuge e = true
  | .leaf c a e =>
    s.MetReads va (terminalLevel c) e ∧ isPresent e = true ∧ classMatch c e = true ∧
      a = entryAddr e

theorem anyMet_iff {s : State} (hv : s.views = []) {va : Word} {w : AnyEnd} :
    s.AnyMet va w ↔ s.AnySays va w := by
  cases w <;> simp [State.AnyMet, State.AnySays, metReads_iff hv]

theorem walkAnyFrom_cases (va : Word) (s : State) (l : Nat) :
    ∀ (t : Word) (s₁ : State) (pas : List Nat), ReadsOnly s s₁ pas → s.Met va (l + 1) t →
      (∃ w s' ps, walkAnyFrom va (l + 1) t s₁ = .ok w s' ∧ ReadsOnly s s' (ps ++ pas) ∧
        ps.length ≤ l + 1 ∧ (∀ pa ∈ ps, s.Accessible pa) ∧ s.AnyMet va w) ∨
      (∃ s' ps, walkAnyFrom va (l + 1) t s₁ = .stop (s'.takeFault .busError) ∧
        ReadsOnly s s' (ps ++ pas) ∧ ps.length ≤ l ∧ (∀ pa ∈ ps, s.Accessible pa) ∧
            s.MetRefused va 1) := by
  induction l with
  | zero =>
    intro t s₁ pas h₁ hr
    have hadm : ∀ a k, s₁.admits a k = s.admits a k := by rw [h₁]; intro a k; rfl
    obtain ⟨e, hw₁⟩ : ∃ e, e = s₁.seenWord (entryPa (0 + 1) va t) := ⟨_, rfl⟩
    have hev : s.views = [] → e = s.mem.read64 (entryPa (0 + 1) va t) :=
      fun hv => hw₁.trans (h₁.seenWord_eq hv _)
    have g1 : s.admits (entryPa (0 + 1) va t) 8 = true →
        ∀ pa ∈ [entryPa (0 + 1) va t], s.Accessible pa :=
      fun h pa hp => by rw [List.mem_singleton.1 hp]; exact hr.accessible _ h
    cases ha : s.admits (entryPa (0 + 1) va t) 8 with
    | false =>
      exact .inr ⟨s₁, [], by simp only [walkAnyFrom, memRead, hadm, ha]; simp, h₁, by simp, by simp,
        ⟨_, t, by omega, hr, ha⟩⟩
    | true =>
      have h₂ : ReadsOnly s (s₁.readDone (entryPa (0 + 1) va t))
          ([entryPa (0 + 1) va t] ++ pas) := h₁.readDone _
      have hreads : s.MetReads va (0 + 1) e :=
        ⟨t, hr, ha, hev⟩
      rcases decodeEntry_cases (0 + 1) e with
        ⟨hp, hd⟩ | ⟨hp, hh, h3, h2, hd⟩ | ⟨hp, c', hc', hm, hd⟩ | ⟨hp, hh, h1, hd⟩
      · exact .inl ⟨.absent (0 + 1), _, _,
          by simp only [walkAnyFrom, memRead, hadm, ha, ← hw₁, if_true, hd], h₂, by simp, g1 ha, _,
          hreads, hp⟩
      · exact .inl ⟨.malformed (0 + 1) _, _, _,
          by simp only [walkAnyFrom, memRead, hadm, ha, ← hw₁, if_true, hd], h₂, by simp, g1 ha,
              h3, h2,
          hreads, hp, hh⟩
      · exact .inl ⟨.leaf c' _ _, _, _,
          by simp only [walkAnyFrom, memRead, hadm, ha, ← hw₁, if_true, hd], h₂, by simp, g1 ha,
          by rw [hc']; exact hreads, hp, hm, rfl⟩
      · exact absurd rfl h1
  | succ l ih =>
    intro t s₁ pas h₁ hr
    have hadm : ∀ a k, s₁.admits a k = s.admits a k := by rw [h₁]; intro a k; rfl
    obtain ⟨e, hw₁⟩ : ∃ e, e = s₁.seenWord (entryPa (l + 1 + 1) va t) := ⟨_, rfl⟩
    have hev : s.views = [] → e = s.mem.read64 (entryPa (l + 1 + 1) va t) :=
      fun hv => hw₁.trans (h₁.seenWord_eq hv _)
    have g1 : s.admits (entryPa (l + 1 + 1) va t) 8 = true →
        ∀ pa ∈ [entryPa (l + 1 + 1) va t], s.Accessible pa :=
      fun h pa hp => by rw [List.mem_singleton.1 hp]; exact hr.accessible _ h
    have good : s.admits (entryPa (l + 1 + 1) va t) 8 = true → ∀ ps : List Nat,
        (∀ pa ∈ ps, s.Accessible pa) →
        ∀ pa ∈ ps ++ [entryPa (l + 1 + 1) va t], s.Accessible pa :=
      fun h ps hg pa hp => (List.mem_append.1 hp).elim (hg pa) (g1 h pa)
    cases ha : s.admits (entryPa (l + 1 + 1) va t) 8 with
    | false =>
      exact .inr ⟨s₁, [], by simp only [walkAnyFrom, memRead, hadm, ha]; simp, h₁, by simp, by simp,
        ⟨_, t, by omega, hr, ha⟩⟩
    | true =>
      have h₂ : ReadsOnly s (s₁.readDone (entryPa (l + 1 + 1) va t))
          ([entryPa (l + 1 + 1) va t] ++ pas) := h₁.readDone _
      have hreads : s.MetReads va (l + 1 + 1) e :=
        ⟨t, hr, ha, hev⟩
      have step : ∀ k, decodeEntry (l + 1 + 1) e = k →
          walkAnyFrom va (l + 1 + 1) t s₁ = (match k with
            | .absent => .ok (.absent (l + 1 + 1)) (s₁.readDone (entryPa (l + 1 + 1) va t))
            | .malformed => .ok (.malformed (l + 1 + 1)
                e)
                (s₁.readDone (entryPa (l + 1 + 1) va t))
            | .leaf c a => .ok (.leaf c a e)
                (s₁.readDone (entryPa (l + 1 + 1) va t))
            | .table t' => walkAnyFrom va (l + 1) t'
                (s₁.readDone (entryPa (l + 1 + 1) va t))) := by
        intro k hk
        rw [walkAnyFrom]
        cases k <;> simp only [memRead, hadm, ha, ← hw₁, if_true, hk]
      rcases decodeEntry_cases (l + 1 + 1) e with
        ⟨hp, hd⟩ | ⟨hp, hh, h3, h2, hd⟩ | ⟨hp, c', hc', hm, hd⟩ | ⟨hp, hh, h1, hd⟩
      · exact .inl ⟨.absent (l + 1 + 1), _, _, step _ hd, h₂, by simp, g1 ha, _, hreads, hp⟩
      · exact .inl ⟨.malformed (l + 1 + 1) _, _, _, step _ hd, h₂, by simp, g1 ha, h3, h2, hreads,
          hp,
          hh⟩
      · exact .inl ⟨.leaf c' _ _, _, _, step _ hd, h₂, by simp, g1 ha, by rw [hc']; exact hreads, hp,
          hm, rfl⟩
      · have hnext := hr.next (by omega) ha hev hp hh
        rcases ih _ _ _ h₂ hnext with
          ⟨w, s', ps, he, hs, hl, hg, hw⟩ | ⟨s', ps, he, hs, hl, hg, hw⟩
        · exact .inl ⟨w, s', ps ++ [entryPa (l + 1 + 1) va t], (step _ hd).trans he,
            by simpa using hs, by simpa, good ha _ hg, hw⟩
        · exact .inr ⟨s', ps ++ [entryPa (l + 1 + 1) va t], (step _ hd).trans he,
            by simpa using hs, by simpa, good ha _ hg, hw⟩

/-- Everything the class-agnostic walk can do (42_walk_translate.md R162, R168). -/
theorem walkAny_cases (va : Word) (s : State) :
    (∃ w s' ps, walkAny va s = .ok w s' ∧ ReadsOnly s s' ps ∧ ps.length ≤ 4 ∧
      (∀ pa ∈ ps, s.Accessible pa) ∧ s.AnyMet va w) ∨
    (∃ s' ps, walkAny va s = .stop (s'.takeFault .busError) ∧ ReadsOnly s s' ps ∧
      ps.length ≤ 3 ∧ (∀ pa ∈ ps, s.Accessible pa) ∧ s.MetRefused va 1) := by
  simpa [walkAny] using walkAnyFrom_cases va s 3 _ s [] (ReadsOnly.refl s) (s.met_root va)

/-! ### The pre-walk of MAP_TO -/

/-- What an outcome of the pre-walk says of the tree (43_mapper.md R191 phase 1). -/
def State.MapSays (s : State) (va : Word) (c : SizeClass) : MapEnd → Prop
  | .parentHuge l =>
    terminalLevel c < l ∧ ∃ e, s.WalkReads va l e ∧ isPresent e = true ∧ isHuge e = true
  | .mapped e => s.WalkReads va (terminalLevel c) e ∧ isPresent e = true
  | .room t n =>
    Reaches s va (terminalLevel c + n) t ∧ s.entryAdmitted (terminalLevel c + n) va t ∧
      isPresent (s.entryAt (terminalLevel c + n) va t) = false

/-- What an outcome says where writes may race with the walk. -/
def State.MapMet (s : State) (va : Word) (c : SizeClass) : MapEnd → Prop
  | .parentHuge l =>
    terminalLevel c < l ∧ ∃ e, s.MetReads va l e ∧ isPresent e = true ∧ isHuge e = true
  | .mapped e => s.MetReads va (terminalLevel c) e ∧ isPresent e = true
  | .room t n =>
    s.Met va (terminalLevel c + n) t ∧ s.entryAdmitted (terminalLevel c + n) va t ∧
      (s.views = [] → isPresent (s.entryAt (terminalLevel c + n) va t) = false)

theorem mapMet_iff {s : State} (hv : s.views = []) {va : Word} {c : SizeClass} {w : MapEnd} :
    s.MapMet va c w ↔ s.MapSays va c w := by
  cases w <;> simp [State.MapMet, State.MapSays, met_iff hv, metReads_iff hv, hv]

theorem mapWalkFrom_cases (va : Word) (c : SizeClass) (s : State) (d : Nat) :
    ∀ (t : Word) (s₁ : State) (pas : List Nat), ReadsOnly s s₁ pas →
      s.Met va (terminalLevel c + d) t →
      (∃ w s' ps, mapWalkFrom va c d t s₁ = .ok w s' ∧ ReadsOnly s s' (ps ++ pas) ∧
        ps.length ≤ d + 1 ∧ (∀ pa ∈ ps, s.Accessible pa) ∧ s.MapMet va c w) ∨
      (∃ s' ps, mapWalkFrom va c d t s₁ = .stop (s'.takeFault .busError) ∧
        ReadsOnly s s' (ps ++ pas) ∧ ps.length ≤ d ∧ (∀ pa ∈ ps, s.Accessible pa) ∧
            s.MetRefused va (terminalLevel c)) := by
  induction d with
  | zero =>
    intro t s₁ pas h₁ hr
    have hadm : ∀ a k, s₁.admits a k = s.admits a k := by rw [h₁]; intro a k; rfl
    obtain ⟨e, hw₁⟩ : ∃ e, e = s₁.seenWord (entryPa (terminalLevel c) va t) := ⟨_, rfl⟩
    have hev : s.views = [] → e = s.mem.read64 (entryPa (terminalLevel c) va t) :=
      fun hv => hw₁.trans (h₁.seenWord_eq hv _)
    have g1 : s.admits (entryPa (terminalLevel c) va t) 8 = true →
        ∀ pa ∈ [entryPa (terminalLevel c) va t], s.Accessible pa :=
      fun h pa hp => by rw [List.mem_singleton.1 hp]; exact hr.accessible _ h
    cases ha : s.admits (entryPa (terminalLevel c) va t) 8 with
    | false =>
      exact .inr ⟨s₁, [], by simp [mapWalkFrom, memRead, hadm, ha], h₁, by simp, by simp,
        ⟨_, t, Nat.le_refl _, hr, ha⟩⟩
    | true =>
      have h₂ : ReadsOnly s (s₁.readDone (entryPa (terminalLevel c) va t))
          ([entryPa (terminalLevel c) va t] ++ pas) := h₁.readDone _
      cases hp : isPresent e with
      | true =>
        exact .inl ⟨.mapped e, _, _,
          by simp [mapWalkFrom, memRead, hadm, ha, ← hw₁, hp], h₂,
          by simp, g1 ha, ⟨t, hr, ha, hev⟩, hp⟩
      | false =>
        exact .inl ⟨.room t 0, _, _, by simp [mapWalkFrom, memRead, hadm, ha, ← hw₁, hp], h₂,
          by simp, g1 ha, hr, ha, fun hv => (congrArg isPresent (hev hv)).symm.trans hp⟩
  | succ d ih =>
    intro t s₁ pas h₁ hr
    have hadm : ∀ a k, s₁.admits a k = s.admits a k := by rw [h₁]; intro a k; rfl
    obtain ⟨e, hw₁⟩ : ∃ e, e = s₁.seenWord (entryPa (terminalLevel c + d + 1) va t) := ⟨_, rfl⟩
    have hev : s.views = [] → e = s.mem.read64 (entryPa (terminalLevel c + d + 1) va t) :=
      fun hv => hw₁.trans (h₁.seenWord_eq hv _)
    have g1 : s.admits (entryPa (terminalLevel c + d + 1) va t) 8 = true →
        ∀ pa ∈ [entryPa (terminalLevel c + d + 1) va t], s.Accessible pa :=
      fun h pa hp => by rw [List.mem_singleton.1 hp]; exact hr.accessible _ h
    have good : s.admits (entryPa (terminalLevel c + d + 1) va t) 8 = true → ∀ ps : List Nat,
        (∀ pa ∈ ps, s.Accessible pa) →
        ∀ pa ∈ ps ++ [entryPa (terminalLevel c + d + 1) va t], s.Accessible pa :=
      fun h ps hg pa hp => (List.mem_append.1 hp).elim (hg pa) (g1 h pa)
    have hr' : s.Met va (terminalLevel c + d + 1) t := hr
    have hpos := terminalLevel_pos c
    cases ha : s.admits (entryPa (terminalLevel c + d + 1) va t) 8 with
    | false =>
      exact .inr ⟨s₁, [], by simp [mapWalkFrom, memRead, hadm, ha], h₁, by simp, by simp,
        ⟨_, t, by omega, hr', ha⟩⟩
    | true =>
      have h₂ : ReadsOnly s (s₁.readDone (entryPa (terminalLevel c + d + 1) va t))
          ([entryPa (terminalLevel c + d + 1) va t] ++ pas) := h₁.readDone _
      cases hp : isPresent e with
      | false =>
        exact .inl ⟨.room t (d + 1), _, _, by simp [mapWalkFrom, memRead, hadm, ha, ← hw₁, hp], h₂,
          by simp, g1 ha, hr, ha, fun hv => (congrArg isPresent (hev hv)).symm.trans hp⟩
      | true =>
        cases hh : isHuge e with
        | true =>
          exact .inl ⟨.parentHuge (terminalLevel c + d + 1), _, _,
            by simp [mapWalkFrom, memRead, hadm, ha, ← hw₁, hp, hh], h₂, by simp, g1 ha, by omega, _,
            ⟨t, hr', ha, hev⟩, hp, hh⟩
        | false =>
          have hnext := hr'.next (by omega) ha hev hp hh
          rcases ih _ _ _ h₂ hnext with
          ⟨w, s', ps, he, hs, hl, hg, hw⟩ | ⟨s', ps, he, hs, hl, hg, hw⟩
          · refine .inl ⟨w, s', ps ++ [entryPa (terminalLevel c + d + 1) va t], ?_,
              by simpa using hs, by simpa, good ha _ hg, hw⟩
            simp [mapWalkFrom, memRead, hadm, ha, ← hw₁, hp, hh, he]
          · refine .inr ⟨s', ps ++ [entryPa (terminalLevel c + d + 1) va t], ?_,
              by simpa using hs, by simpa, good ha _ hg, hw⟩
            simp [mapWalkFrom, memRead, hadm, ha, ← hw₁, hp, hh, he]

/-- Everything the pre-walk of MAP_TO can do (43_mapper.md R191 phase 1). -/
theorem mapWalk_cases (va : Word) (c : SizeClass) (s : State) :
    (∃ w s' ps, mapWalk va c s = .ok w s' ∧ ReadsOnly s s' ps ∧
      ps.length ≤ 4 - terminalLevel c + 1 ∧ (∀ pa ∈ ps, s.Accessible pa) ∧ s.MapMet va c w) ∨
    (∃ s' ps, mapWalk va c s = .stop (s'.takeFault .busError) ∧ ReadsOnly s s' ps ∧
      ps.length ≤ 4 - terminalLevel c ∧ (∀ pa ∈ ps, s.Accessible pa) ∧
          s.MetRefused va (terminalLevel c)) := by
  have hle := terminalLevel_le c
  have hroot : s.Met va (terminalLevel c + (4 - terminalLevel c)) s.rootFrame := by
    have : terminalLevel c + (4 - terminalLevel c) = 4 := by omega
    rw [this]; exact s.met_root va
  simpa [mapWalk] using mapWalkFrom_cases va c s _ _ s [] (ReadsOnly.refl s) hroot

/-! ### The walks while no write races with them -/

theorem walk_cases_of_views {s : State} (hv : s.views = []) (va : Word) (c : SizeClass) :
    (∃ w s' ps, walk va c s = .ok w s' ∧ ReadsOnly s s' ps ∧
      ps.length ≤ 4 - terminalLevel c + 1 ∧ (∀ pa ∈ ps, s.Accessible pa) ∧ s.WalkSays va c w) ∨
    (∃ s' ps, walk va c s = .stop (s'.takeFault .busError) ∧ ReadsOnly s s' ps ∧
      ps.length ≤ 4 - terminalLevel c ∧ (∀ pa ∈ ps, s.Accessible pa) ∧
      s.Refused va (terminalLevel c)) := by
  simpa only [walkMet_iff hv, metRefused_iff hv] using walk_cases va c s

theorem walkAny_cases_of_views {s : State} (hv : s.views = []) (va : Word) :
    (∃ w s' ps, walkAny va s = .ok w s' ∧ ReadsOnly s s' ps ∧ ps.length ≤ 4 ∧
      (∀ pa ∈ ps, s.Accessible pa) ∧ s.AnySays va w) ∨
    (∃ s' ps, walkAny va s = .stop (s'.takeFault .busError) ∧ ReadsOnly s s' ps ∧
      ps.length ≤ 3 ∧ (∀ pa ∈ ps, s.Accessible pa) ∧ s.Refused va 1) := by
  simpa only [anyMet_iff hv, metRefused_iff hv] using walkAny_cases va s

theorem mapWalk_cases_of_views {s : State} (hv : s.views = []) (va : Word) (c : SizeClass) :
    (∃ w s' ps, mapWalk va c s = .ok w s' ∧ ReadsOnly s s' ps ∧
      ps.length ≤ 4 - terminalLevel c + 1 ∧ (∀ pa ∈ ps, s.Accessible pa) ∧ s.MapSays va c w) ∨
    (∃ s' ps, mapWalk va c s = .stop (s'.takeFault .busError) ∧ ReadsOnly s s' ps ∧
      ps.length ≤ 4 - terminalLevel c ∧ (∀ pa ∈ ps, s.Accessible pa) ∧
      s.Refused va (terminalLevel c)) := by
  simpa only [mapMet_iff hv, metRefused_iff hv] using mapWalk_cases va c s

/-! ### Where a walk ends is determined -/

/-- Two levels at which a walk reads: at the higher one it goes on, so its entry is present and has
no HUGE_PAGE. -/
theorem State.WalkReads.above_lower {s : State} {va : Word} {l k : Nat} {e : Word} {t : Word}
    (h : s.WalkReads va k e) (hr : Reaches s va l t) (hlk : l < k) :
    isPresent e = true ∧ isHuge e = false := by
  obtain ⟨u, hu, _, he⟩ := h
  obtain ⟨u', hu', _, hp, hh⟩ := hr.above k hlk hu.le_four
  rw [hu.unique hu'] at he
  exact ⟨he ▸ hp, he ▸ hh⟩

/-- A walk that reaches a table whose entry is admitted is not refused at or above it. -/
theorem Reaches.not_refused {s : State} {va : Word} {l : Nat} {t : Word} (h : Reaches s va l t)
    (ha : s.entryAdmitted l va t) : ¬ s.Refused va l := by
  rintro ⟨k, u, hk, hu, hn⟩
  rcases Nat.lt_or_eq_of_le hk with hlt | rfl
  · obtain ⟨u', hu', ha', _⟩ := h.above k hlt hu.le_four
    rw [hu.unique hu'] at hn
    unfold State.entryAdmitted at ha'
    simp [hn] at ha'
  · rw [hu.unique h] at hn
    unfold State.entryAdmitted at ha
    simp [hn] at ha

/-- An entry at which a walk reads is determined by its level. -/
theorem State.WalkReads.unique {s : State} {va : Word} {l : Nat} {e e' : Word}
    (h : s.WalkReads va l e) (h' : s.WalkReads va l e') : e = e' := by
  obtain ⟨t, ht, _, rfl⟩ := h
  obtain ⟨t', ht', _, rfl⟩ := h'
  rw [ht.unique ht']

theorem State.WalkReads.not_refused {s : State} {va : Word} {l : Nat} {e : Word}
    (h : s.WalkReads va l e) : ¬ s.Refused va l := by
  obtain ⟨t, ht, ha, _⟩ := h
  exact ht.not_refused ha

theorem State.Refused.mono {s : State} {va : Word} {k l : Nat} (h : s.Refused va l) (hk : k ≤ l) :
    s.Refused va k := by
  obtain ⟨m, t, hm, ht, ha⟩ := h
  exact ⟨m, t, by omega, ht, ha⟩

/-- A walk that a refused read ends does not read at or below it. -/
theorem State.Refused.not_reads {s : State} {va : Word} {k l : Nat} {e : Word} {t : Word}
    (hr : Reaches s va l t) (hn : s.admits (entryPa l va t) 8 = false) (hk : k ≤ l) :
    ¬ s.WalkReads va k e := by
  rintro ⟨u, hu, ha, _⟩
  exact hu.not_refused ha ⟨l, t, hk, hr, hn⟩

/-- Two levels at which a walk stops, by an entry that is absent or huge, are the same. -/
theorem State.WalkReads.same_level {s : State} {va : Word} {l k : Nat} {e e' : Word}
    (h : s.WalkReads va l e) (hs : isPresent e = false ∨ isHuge e = true)
    (h' : s.WalkReads va k e') (hs' : isPresent e' = false ∨ isHuge e' = true) : l = k := by
  rcases Nat.lt_trichotomy l k with hlt | rfl | hlt
  · obtain ⟨t, ht, _, _⟩ := h
    have := State.WalkReads.above_lower h' ht hlt
    simp [this.1, this.2] at hs'
  · rfl
  · obtain ⟨t, ht, _, _⟩ := h'
    have := State.WalkReads.above_lower h ht hlt
    simp [this.1, this.2] at hs

/-- Where the walk of class `c` reads its terminal entry, that is its outcome. -/
theorem walk_of_terminal {s : State} {va : Word} {c : SizeClass} {t : Word}
    (hv : s.views = []) (h : Reaches s va (terminalLevel c) t)
    (ha : s.entryAdmitted (terminalLevel c) va t) :
    ∃ s' ps, ReadsOnly s s' ps ∧ walk va c s =
      .ok (.terminal (entryPa (terminalLevel c) va t) (s.entryAt (terminalLevel c) va t)) s' := by
  rcases walk_cases_of_views hv va c with ⟨w, s', ps, he, hs, _, _, hw⟩ | ⟨_, _, _, _, _, _, hw⟩
  · refine ⟨s', ps, hs, ?_⟩
    rw [he]
    cases w with
    | absent l =>
      obtain ⟨hl, e, hr, hp⟩ := hw
      simp [(hr.above_lower h hl).1] at hp
    | malformed l e =>
      obtain ⟨rfl, hr, _, hh⟩ := hw
      have := terminalLevel_le c
      simp [(hr.above_lower h (by omega)).2] at hh
    | hugeAbove l e =>
      obtain ⟨hl, _, hr, _, hh⟩ := hw
      simp [(hr.above_lower h hl).2] at hh
    | terminal ea e =>
      obtain ⟨u, hu, _, rfl, rfl⟩ := hw
      rw [hu.unique h]
  · exact absurd hw (h.not_refused ha)

/-- Where the walk of class `c` meets an absent entry above the terminal level. -/
theorem walk_of_absent {s : State} {va : Word} {c : SizeClass} {l : Nat} {e : Word}
    (hv : s.views = []) (hl : terminalLevel c < l) (h : s.WalkReads va l e)
    (hp : isPresent e = false) :
    ∃ s' ps, ReadsOnly s s' ps ∧ walk va c s = .ok (.absent l) s' := by
  rcases walk_cases_of_views hv va c with ⟨w, s', ps, he, hs, _, _, hw⟩ | ⟨_, _, _, _, _, _, hw⟩
  · refine ⟨s', ps, hs, ?_⟩
    rw [he]
    cases w with
    | absent l' =>
      obtain ⟨_, e', hr, hp'⟩ := hw
      rw [hr.same_level (.inl hp') h (.inl hp)]
    | malformed l' e' =>
      obtain ⟨_, hr, hp', hh⟩ := hw
      obtain rfl := hr.same_level (.inr hh) h (.inl hp)
      rw [hr.unique h, hp] at hp'; cases hp'
    | hugeAbove l' e' =>
      obtain ⟨_, _, hr, hp', hh⟩ := hw
      obtain rfl := hr.same_level (.inr hh) h (.inl hp)
      rw [hr.unique h, hp] at hp'; cases hp'
    | terminal ea e' =>
      obtain ⟨u, hu, _, _, _⟩ := hw
      have := (h.above_lower hu hl).1
      rw [hp] at this; cases this
  · obtain ⟨l', t', hl', ht', hn⟩ := hw
    rcases Nat.lt_or_ge l' l with hlt | hge
    · have := (h.above_lower ht' hlt).1
      rw [hp] at this; cases this
    · exact absurd h (State.Refused.not_reads ht' hn hge)

/-- Where the walk of class `c` meets a present huge entry above the terminal level: MALFORMED at
level 4, HUGE_ABOVE below it (42_walk_translate.md R161). -/
theorem walk_of_huge {s : State} {va : Word} {c : SizeClass} {l : Nat} {e : Word}
    (hv : s.views = []) (hl : terminalLevel c < l) (h : s.WalkReads va l e) (hp : isPresent e = true)
    (hh : isHuge e = true) :
    ∃ s' ps, ReadsOnly s s' ps ∧ walk va c s =
      .ok (if l = 4 then .malformed l e else .hugeAbove l e) s' := by
  rcases walk_cases_of_views hv va c with ⟨w, s', ps, he, hs, _, _, hw⟩ | ⟨_, _, _, _, _, _, hw⟩
  · refine ⟨s', ps, hs, ?_⟩
    rw [he]
    cases w with
    | absent l' =>
      obtain ⟨_, e', hr, hp'⟩ := hw
      obtain rfl := hr.same_level (.inl hp') h (.inr hh)
      rw [hr.unique h, hp] at hp'; cases hp'
    | malformed l' e' =>
      obtain ⟨h4, hr, _, hh'⟩ := hw
      obtain rfl := hr.same_level (.inr hh') h (.inr hh)
      rw [hr.unique h, if_pos h4]
    | hugeAbove l' e' =>
      obtain ⟨_, h4, hr, _, hh'⟩ := hw
      obtain rfl := hr.same_level (.inr hh') h (.inr hh)
      rw [hr.unique h, if_neg (by omega)]
    | terminal ea e' =>
      obtain ⟨u, hu, _, _, _⟩ := hw
      have := (h.above_lower hu hl).2
      rw [hh] at this; cases this
  · obtain ⟨l', t', hl', ht', hn⟩ := hw
    rcases Nat.lt_or_ge l' l with hlt | hge
    · have := (h.above_lower ht' hlt).2
      rw [hh] at this; cases this
    · exact absurd h (State.Refused.not_reads ht' hn hge)

/-- Where a read of the walk of class `c` is refused, that ends the walk. -/
theorem walk_of_refused {s : State} {va : Word} {c : SizeClass}
    (hv : s.views = []) (h : s.Refused va (terminalLevel c)) :
    ∃ s' ps, ReadsOnly s s' ps ∧ walk va c s = .stop (s'.takeFault .busError) := by
  rcases walk_cases_of_views hv va c with ⟨w, s', ps, he, hs, _, _, hw⟩ | ⟨s', ps, he, hs, _⟩
  · exfalso
    obtain ⟨l, t, hl, ht, hn⟩ := h
    have stops : ∀ k e, s.WalkReads va k e → (isPresent e = false ∨ isHuge e = true) → False := by
      intro k e hr hs
      rcases Nat.lt_or_ge l k with hlt | hge
      · have := hr.above_lower ht hlt
        simp [this.1, this.2] at hs
      · exact State.Refused.not_reads ht hn hge hr
    cases w with
    | absent l' => obtain ⟨_, e', hr, hp'⟩ := hw; exact stops _ _ hr (.inl hp')
    | malformed l' e' => obtain ⟨_, hr, _, hh⟩ := hw; exact stops _ _ hr (.inr hh)
    | hugeAbove l' e' => obtain ⟨_, _, hr, _, hh⟩ := hw; exact stops _ _ hr (.inr hh)
    | terminal ea e' =>
      obtain ⟨u, hu, ha, _, _⟩ := hw
      exact hu.not_refused ha ⟨l, t, hl, ht, hn⟩
  · exact ⟨s', ps, hs, he⟩

/-- The outcome of the class-agnostic walk where its entry is absent, malformed or a leaf. -/
theorem walkAny_of {s : State} {va : Word} {w : AnyEnd}
    (hv : s.views = []) (h : s.AnySays va w) :
    ∃ s' ps, ReadsOnly s s' ps ∧ walkAny va s = .ok w s' := by
  have stop : ∀ w, s.AnySays va w → ∃ l e, s.WalkReads va l e ∧
      (isPresent e = false ∨ isHuge e = true ∨ l = 1) := by
    intro w hw
    cases w with
    | absent l => obtain ⟨e, hr, hp⟩ := hw; exact ⟨l, e, hr, .inl hp⟩
    | malformed l e => exact ⟨l, e, hw.2.2.1, .inr (.inl hw.2.2.2.2)⟩
    | leaf c a e =>
      obtain ⟨hr, _, hm, _⟩ := hw
      refine ⟨_, e, hr, ?_⟩
      cases c <;> simp_all [classMatch]
  have level : ∀ {l k : Nat} {e e' : Word}, s.WalkReads va l e →
      (isPresent e = false ∨ isHuge e = true ∨ l = 1) → s.WalkReads va k e' →
      (isPresent e' = false ∨ isHuge e' = true ∨ k = 1) → l = k := by
    intro l k e e' hr hs hr' hs'
    rcases Nat.lt_trichotomy l k with hlt | rfl | hlt
    · obtain ⟨t, ht, _, _⟩ := hr
      have h1 := hr'.above_lower ht hlt
      have := ht.pos
      rcases hs' with h | h | h
      · simp [h1.1] at h
      · simp [h1.2] at h
      · omega
    · rfl
    · obtain ⟨t, ht, _, _⟩ := hr'
      have h1 := hr.above_lower ht hlt
      have := ht.pos
      rcases hs with h | h | h
      · simp [h1.1] at h
      · simp [h1.2] at h
      · omega
  obtain ⟨k, e', hr', hs'⟩ := stop w h
  rcases walkAny_cases_of_views hv va with ⟨w', s', ps, he, hs, _, _, hw⟩ | ⟨_, _, _, _, _, _, hw⟩
  · refine ⟨s', ps, hs, ?_⟩
    rw [he]
    congr 1
    cases w' with
    | absent l =>
      obtain ⟨e, hr, hp⟩ := hw
      cases w with
      | absent l' =>
        obtain ⟨e', hr', hp'⟩ := h
        rw [level hr (.inl hp) hr' (.inl hp')]
      | malformed l' e' =>
        obtain ⟨_, _, hr', hp', hh'⟩ := h
        obtain rfl := level hr (.inl hp) hr' (.inr (.inl hh'))
        rw [hr.unique hr', hp'] at hp; cases hp
      | leaf c a e' =>
        obtain ⟨hr', hp', hm, _⟩ := h
        have : isPresent e' = false ∨ isHuge e' = true ∨ terminalLevel c = 1 := by
          cases c <;> simp_all [classMatch]
        obtain rfl := level hr (.inl hp) hr' this
        rw [hr.unique hr', hp'] at hp; cases hp
    | malformed l e =>
      obtain ⟨h3, h2, hr, hp, hh⟩ := hw
      cases w with
      | absent l' =>
        obtain ⟨e', hr', hp'⟩ := h
        obtain rfl := level hr (.inr (.inl hh)) hr' (.inl hp')
        rw [hr.unique hr', hp'] at hp; cases hp
      | malformed l' e' =>
        obtain ⟨_, _, hr', hp', hh'⟩ := h
        obtain rfl := level hr (.inr (.inl hh)) hr' (.inr (.inl hh'))
        rw [hr.unique hr']
      | leaf c a e' =>
        obtain ⟨hr', hp', hm, _⟩ := h
        have : isPresent e' = false ∨ isHuge e' = true ∨ terminalLevel c = 1 := by
          cases c <;> simp_all [classMatch]
        obtain rfl := level hr (.inr (.inl hh)) hr' this
        rw [hr.unique hr'] at hh
        cases c <;> simp_all [classMatch]
    | leaf c a e =>
      obtain ⟨hr, hp, hm, rfl⟩ := hw
      have hst : isPresent e = false ∨ isHuge e = true ∨ terminalLevel c = 1 := by
        cases c <;> simp_all [classMatch]
      cases w with
      | absent l' =>
        obtain ⟨e', hr', hp'⟩ := h
        obtain rfl := level hr hst hr' (.inl hp')
        rw [hr.unique hr', hp'] at hp; cases hp
      | malformed l' e' =>
        obtain ⟨h3, h2, hr', hp', hh'⟩ := h
        obtain rfl := level hr hst hr' (.inr (.inl hh'))
        rw [hr.unique hr'] at hm
        cases c <;> simp_all [classMatch]
      | leaf c' a' e' =>
        obtain ⟨hr', hp', hm', rfl⟩ := h
        have hst' : isPresent e' = false ∨ isHuge e' = true ∨ terminalLevel c' = 1 := by
          cases c' <;> simp_all [classMatch]
        have hl := level hr hst hr' hst'
        have hc : c = c' := by cases c <;> cases c' <;> first | rfl | (simp at hl)
        subst hc
        rw [hr.unique hr']
  · exfalso
    obtain ⟨l, t, hl, ht, hn⟩ := hw
    rcases Nat.lt_or_ge l k with hlt | hge
    · have h1 := hr'.above_lower ht hlt
      rcases hs' with h | h | h
      · simp [h1.1] at h
      · simp [h1.2] at h
      · omega
    · exact State.Refused.not_reads ht hn hge hr'

/-- Where a read of the class-agnostic walk is refused, that ends the walk. -/
theorem walkAny_of_refused {s : State} {va : Word}
    (hv : s.views = []) (h : s.Refused va 1) :
    ∃ s' ps, ReadsOnly s s' ps ∧ walkAny va s = .stop (s'.takeFault .busError) := by
  rcases walkAny_cases_of_views hv va with ⟨w, s', ps, he, hs, _, _, hw⟩ | ⟨s', ps, he, hs, _⟩
  · exfalso
    obtain ⟨l, t, hl, ht, hn⟩ := h
    have stops : ∀ k e, s.WalkReads va k e → (isPresent e = false ∨ isHuge e = true ∨ k = 1) →
        False := by
      intro k e hr hs
      rcases Nat.lt_or_ge l k with hlt | hge
      · have := hr.above_lower ht hlt
        have := ht.pos
        simp_all
      · exact State.Refused.not_reads ht hn hge hr
    cases w with
    | absent l' => obtain ⟨e', hr, hp'⟩ := hw; exact stops _ _ hr (.inl hp')
    | malformed l' e' => obtain ⟨_, _, hr, _, hh⟩ := hw; exact stops _ _ hr (.inr (.inl hh))
    | leaf c a e' =>
      obtain ⟨hr, _, hm, _⟩ := hw
      refine stops _ _ hr ?_
      cases c <;> simp_all [classMatch]
  · exact ⟨s', ps, hs, he⟩

/-- The outcome of the pre-walk of MAP_TO where the tree bears it out. -/
theorem mapWalk_of {s : State} {va : Word} {c : SizeClass} {w : MapEnd}
    (hv : s.views = []) (h : s.MapSays va c w) :
    ∃ s' ps, ReadsOnly s s' ps ∧ mapWalk va c s = .ok w s' := by
  have stop : ∀ w, s.MapSays va c w → ∃ l e, terminalLevel c ≤ l ∧ s.WalkReads va l e ∧
      (isPresent e = false ∨ isHuge e = true ∨ l = terminalLevel c) := by
    intro w hw
    cases w with
    | parentHuge l =>
      obtain ⟨hl, e, hr, _, hh⟩ := hw; exact ⟨l, e, by omega, hr, .inr (.inl hh)⟩
    | mapped e => exact ⟨_, e, by omega, hw.1, .inr (.inr rfl)⟩
    | room t n => exact ⟨_, _, by omega, ⟨t, hw.1, hw.2.1, rfl⟩, .inl hw.2.2⟩
  have level : ∀ {l k : Nat} {e e' : Word}, terminalLevel c ≤ l → terminalLevel c ≤ k →
      s.WalkReads va l e → (isPresent e = false ∨ isHuge e = true ∨ l = terminalLevel c) →
      s.WalkReads va k e' → (isPresent e' = false ∨ isHuge e' = true ∨ k = terminalLevel c) →
      l = k := by
    intro l k e e' hl hk hr hs hr' hs'
    rcases Nat.lt_trichotomy l k with hlt | rfl | hlt
    · obtain ⟨t, ht, _, _⟩ := hr
      have h1 := hr'.above_lower ht hlt
      rcases hs' with h | h | h
      · simp [h1.1] at h
      · simp [h1.2] at h
      · omega
    · rfl
    · obtain ⟨t, ht, _, _⟩ := hr'
      have h1 := hr.above_lower ht hlt
      rcases hs with h | h | h
      · simp [h1.1] at h
      · simp [h1.2] at h
      · omega
  rcases mapWalk_cases_of_views hv va c with ⟨w', s', ps, he, hs, _, _, hw⟩ | ⟨_, _, _, _, _, _, hw⟩
  · refine ⟨s', ps, hs, ?_⟩
    rw [he]
    congr 1
    obtain ⟨k, e, hk, hr, hst⟩ := stop w' hw
    cases w' with
    | parentHuge l =>
      obtain ⟨hl, e, hr, hp, hh⟩ := hw
      cases w with
      | parentHuge l' =>
        obtain ⟨hl', e', hr', hp', hh'⟩ := h
        rw [level (by omega) (by omega) hr (.inr (.inl hh)) hr' (.inr (.inl hh'))]
      | mapped e' =>
        have := level (by omega) (by omega) hr (.inr (.inl hh)) h.1 (.inr (.inr rfl))
        omega
      | room t n =>
        have hr' : s.WalkReads va (terminalLevel c + n) _ := ⟨t, h.1, h.2.1, rfl⟩
        obtain rfl := level (by omega) (by omega) hr (.inr (.inl hh)) hr' (.inl h.2.2)
        have hp' := h.2.2
        rw [← hr.unique hr', hp] at hp'; cases hp'
    | mapped e =>
      cases w with
      | parentHuge l' =>
        obtain ⟨hl', e', hr', hp', hh'⟩ := h
        have := level (by omega) (by omega) hr' (.inr (.inl hh')) hw.1 (.inr (.inr rfl))
        omega
      | mapped e' => rw [hw.1.unique h.1]
      | room t n =>
        have hr' : s.WalkReads va (terminalLevel c + n) _ := ⟨t, h.1, h.2.1, rfl⟩
        have := level (by omega) (by omega) hw.1 (.inr (.inr rfl)) hr' (.inl h.2.2)
        have hn : n = 0 := by omega
        subst hn
        have hp' := h.2.2
        rw [← hw.1.unique hr', hw.2] at hp'; cases hp'
    | room t n =>
      have hr : s.WalkReads va (terminalLevel c + n) _ := ⟨t, hw.1, hw.2.1, rfl⟩
      cases w with
      | parentHuge l' =>
        obtain ⟨hl', e', hr', hp', hh'⟩ := h
        obtain rfl := level (by omega) (by omega) hr' (.inr (.inl hh')) hr (.inl hw.2.2)
        have hp := hw.2.2
        rw [hr.unique hr', hp'] at hp; cases hp
      | mapped e' =>
        have := level (by omega) (by omega) h.1 (.inr (.inr rfl)) hr (.inl hw.2.2)
        have hn : n = 0 := by omega
        subst hn
        have hp := hw.2.2
        rw [hr.unique h.1, h.2] at hp; cases hp
      | room t' n' =>
        have hr' : s.WalkReads va (terminalLevel c + n') _ := ⟨t', h.1, h.2.1, rfl⟩
        have := level (by omega) (by omega) hr (.inl hw.2.2) hr' (.inl h.2.2)
        have hn : n = n' := by omega
        subst hn
        rw [hw.1.unique h.1]
  · exfalso
    obtain ⟨k, e', hk, hr', hs'⟩ := stop w h
    obtain ⟨l, t, hl, ht, hn⟩ := hw
    rcases Nat.lt_or_ge l k with hlt | hge
    · have h1 := hr'.above_lower ht hlt
      rcases hs' with h | h | h
      · simp [h1.1] at h
      · simp [h1.2] at h
      · omega
    · exact State.Refused.not_reads ht hn hge hr'

/-- Where a read of the pre-walk of MAP_TO is refused, that ends the walk. -/
theorem mapWalk_of_refused {s : State} {va : Word} {c : SizeClass}
    (hv : s.views = []) (h : s.Refused va (terminalLevel c)) :
    ∃ s' ps, ReadsOnly s s' ps ∧ mapWalk va c s = .stop (s'.takeFault .busError) := by
  rcases mapWalk_cases_of_views hv va c with ⟨w, s', ps, he, hs, _, _, hw⟩ | ⟨s', ps, he, hs, _⟩
  · exfalso
    obtain ⟨l, t, hl, ht, hn⟩ := h
    have stops : ∀ k e, s.WalkReads va k e →
        (isPresent e = false ∨ isHuge e = true ∨ k ≤ l) → False := by
      intro k e hr hs
      rcases Nat.lt_or_ge l k with hlt | hge
      · have := hr.above_lower ht hlt
        simp_all
        omega
      · exact State.Refused.not_reads ht hn hge hr
    cases w with
    | parentHuge l' => obtain ⟨_, e, hr, _, hh⟩ := hw; exact stops _ _ hr (.inr (.inl hh))
    | mapped e => exact stops _ _ hw.1 (.inr (.inr hl))
    | room t n => exact stops _ _ ⟨t, hw.1, hw.2.1, rfl⟩ (.inl hw.2.2)
  · exact ⟨s', ps, hs, he⟩

end Sys2Proof.Machine
end

