-- ==== Sys2Proof/Laws/Exec.lean ====
section
/-! SUPPORT. What the shared checks and bodies of the commands do, said once, and the sized commands
as one meaning over their size class. -/

namespace Sys2Proof.Machine

/-! ### The common check -/

theorem command_of_flt {s : State} (h : s.flt = true) (body : State → State) :
    command body s = .next s.raiseFaulted := by simp [command, h]

theorem command_of_not_flt {s : State} (h : s.flt = false) (body : State → State) :
    command body s = .next (body s) := by simp [command, h]

/-! ### The sized commands -/

theorem exec_entryEncode (c : SizeClass) (s : State) :
    exec (Instr.entryEncode c) s = command (entryEncodeBody c) s := by cases c <;> rfl
theorem exec_mapTo (c : SizeClass) (s : State) :
    exec (Instr.mapTo c) s = command (mapToBody c) s := by cases c <;> rfl
theorem exec_identityMap (c : SizeClass) (s : State) :
    exec (Instr.identityMap c) s = command (identityMapBody c) s := by cases c <;> rfl
theorem exec_unmap (c : SizeClass) (s : State) :
    exec (Instr.unmap c) s = command (unmapBody c) s := by cases c <;> rfl
theorem exec_updateFlags (c : SizeClass) (s : State) :
    exec (Instr.updateFlags c) s = command (updateFlagsBody c) s := by cases c <;> rfl
theorem exec_translatePage (c : SizeClass) (s : State) :
    exec (Instr.translatePage c) s = command (translatePageBody c) s := by cases c <;> rfl

/-- The body of every command: its meaning is the common check and then this. -/
def bodyOf : Instr → State → State
  | .vaTryNew => vaTryNewBody
  | .vaNewUnchecked => vaNewUncheckedBody
  | .vaSplit => vaSplitBody
  | .vaAdd => vaAddBody
  | .vaSub => vaSubBody
  | .paTryNew => paTryNewBody
  | .paAdd => paAddBody
  | .paSub => paSubBody
  | .paIsAligned => paIsAlignedBody
  | .paAlignDown => paAlignDownBody
  | .paAlignUp => paAlignUpBody
  | .entryDecode => entryDecodeBody
  | .entryEncode4K => entryEncodeBody .s4K
  | .entryEncode2M => entryEncodeBody .s2M
  | .entryEncode1G => entryEncodeBody .s1G
  | .tableRead => tableReadBody
  | .mapTo4K => mapToBody .s4K
  | .mapTo2M => mapToBody .s2M
  | .mapTo1G => mapToBody .s1G
  | .identityMap4K => identityMapBody .s4K
  | .identityMap2M => identityMapBody .s2M
  | .identityMap1G => identityMapBody .s1G
  | .unmap4K => unmapBody .s4K
  | .unmap2M => unmapBody .s2M
  | .unmap1G => unmapBody .s1G
  | .updateFlags4K => updateFlagsBody .s4K
  | .updateFlags2M => updateFlagsBody .s2M
  | .updateFlags1G => updateFlagsBody .s1G
  | .translatePage4K => translatePageBody .s4K
  | .translatePage2M => translatePageBody .s2M
  | .translatePage1G => translatePageBody .s1G
  | .translate => translateBody translateDone
  | .translateAddr => translateBody translateAddrDone
  | .flushToken => resolveToken flushTokenPage
  | .ignoreToken => resolveToken flushNothing
  | .setRoot => setRootBody

/-- Every command is the common check and then its body (60_exceptions.md R253). -/
theorem exec_eq_command (i : Instr) (s : State) : exec i s = command (bodyOf i) s := by
  cases i <;> rfl

/-! ### Addresses -/

theorem canonicalBits_toNat (v : Word) : (canonicalBits v).toNat = v.toNat / 2 ^ 47 := by
  have := v.isLt
  simp only [canonicalBits, BitVec.extractLsb'_toNat, Nat.shiftRight_eq_div_pow]
  omega

theorem physicalBits_toNat (v : Word) : (physicalBits v).toNat = v.toNat / 2 ^ 52 := by
  have := v.isLt
  simp only [physicalBits, BitVec.extractLsb'_toNat, Nat.shiftRight_eq_div_pow]
  omega

/-- `canonical` tests the bounds of the two halves (20_memory.md R50). -/
theorem canonical_iff (v : Word) : canonical v = true ↔ CanonicalAddress v := by
  have := v.isLt
  have h := canonicalBits_toNat v
  simp only [canonical, CanonicalAddress, Bool.or_eq_true, beq_iff_eq, ← BitVec.toNat_inj, h,
    show (0 : BitVec 17).toNat = 0 from rfl,
    show (0x1FFFF : BitVec 17).toNat = 0x1FFFF from rfl]
  omega

/-- `validPa` tests the bound of physical memory (20_memory.md R51). -/
theorem validPa_iff (v : Word) : validPa v = true ↔ PhysicalAddress v := by
  have := v.isLt
  have h := physicalBits_toNat v
  simp only [validPa, PhysicalAddress, beq_iff_eq, ← BitVec.toNat_inj, h,
    show (0 : BitVec 12).toNat = 0 from rfl]
  omega

theorem alignedTo_iff (c : SizeClass) (v : Word) :
    alignedTo c v = true ↔ v.toNat % sizeBytes c = 0 := by simp [alignedTo]

/-! ### What each check does -/

theorem checkCanonical_pass {s k : State} {v : Word} (h : CanonicalAddress v) :
    checkCanonical s v k = k := by simp [checkCanonical, (canonical_iff v).2 h]

theorem checkCanonical_fail {s k : State} {v : Word} (h : ¬CanonicalAddress v) :
    checkCanonical s v k = s.raiseNonCanonical v := by
  simp [checkCanonical, mt (canonical_iff v).1 h]

theorem checkPhysical_pass {s k : State} {v : Word} (h : PhysicalAddress v) :
    checkPhysical s v k = k := by simp [checkPhysical, (validPa_iff v).2 h]

theorem checkPhysical_fail {s k : State} {v : Word} (h : ¬PhysicalAddress v) :
    checkPhysical s v k = s.raiseInvalidPhys v := by
  simp [checkPhysical, mt (validPa_iff v).1 h]

theorem checkVaAligned_pass {s k : State} {c : SizeClass} {v : Word}
    (h : v.toNat % sizeBytes c = 0) : checkVaAligned s c v k = k := by
  simp [checkVaAligned, alignedTo, h]

theorem checkVaAligned_fail {s k : State} {c : SizeClass} {v : Word}
    (h : v.toNat % sizeBytes c ≠ 0) : checkVaAligned s c v k = s.argError .vaMisaligned := by
  simp [checkVaAligned, alignedTo, h]

theorem checkPaAligned_pass {s k : State} {c : SizeClass} {v : Word}
    (h : v.toNat % sizeBytes c = 0) : checkPaAligned s c v k = k := by
  simp [checkPaAligned, alignedTo, h]

theorem checkPaAligned_fail {s k : State} {c : SizeClass} {v : Word}
    (h : v.toNat % sizeBytes c ≠ 0) : checkPaAligned s c v k = s.argError .paMisaligned := by
  simp [checkPaAligned, alignedTo, h]

theorem checkPage_pass {s k : State} {c : SizeClass} {v : Word} (h : GoodPage c v) :
    checkPage s c v k = k := by
  rw [checkPage, checkCanonical_pass h.1, checkVaAligned_pass h.2]

theorem checkFlags_pass {s k : State} {c : SizeClass} {f : Word} (h : GoodFlags c f) :
    checkFlags s c f k = k := by
  unfold checkFlags
  rw [if_neg (by simp [h.1]), if_neg]
  rintro ⟨hc, hh⟩
  rw [isHuge, h.2 hc] at hh
  exact Bool.noConfusion hh

theorem withRoot_pass {s k : State} (h : s.rv = true) : withRoot s k = k := by simp [withRoot, h]

theorem withRoot_fail {s k : State} (h : s.rv = false) : withRoot s k = s.raise .noRoot := by
  simp [withRoot, h]

theorem withoutToken_pass {s k : State} (h : s.tv = false) : withoutToken s k = k := by
  simp [withoutToken, h]

theorem withoutToken_fail {s k : State} (h : s.tv = true) :
    withoutToken s k = s.raise .tokenPending s.tokenVa := by simp [withoutToken, h]

theorem mapperReady_pass {s k : State} (hr : s.rv = true) (ht : s.tv = false) :
    mapperReady s k = k := by rw [mapperReady, withRoot_pass hr, withoutToken_pass ht]

/-- A check either passes or completes with a status that is not OK and writes only STATUS and the
result registers (60_exceptions.md R252). -/
def Answers (s t : State) : Prop :=
  ∃ st r0 r1 r2 r3 r4, st ≠ Status.ok ∧ st ≠ .faulted ∧ t = s.finish st r0 r1 r2 r3 r4

theorem checkCanonical_cases (s k : State) (v : Word) :
    (CanonicalAddress v ∧ checkCanonical s v k = k) ∨ Answers s (checkCanonical s v k) := by
  by_cases h : CanonicalAddress v
  · exact .inl ⟨h, checkCanonical_pass h⟩
  · rw [checkCanonical_fail h]; exact .inr ⟨_, _, _, _, _, _, by simp, by simp, rfl⟩

theorem checkPhysical_cases (s k : State) (v : Word) :
    (PhysicalAddress v ∧ checkPhysical s v k = k) ∨ Answers s (checkPhysical s v k) := by
  by_cases h : PhysicalAddress v
  · exact .inl ⟨h, checkPhysical_pass h⟩
  · rw [checkPhysical_fail h]; exact .inr ⟨_, _, _, _, _, _, by simp, by simp, rfl⟩

theorem checkVaAligned_cases (s k : State) (c : SizeClass) (v : Word) :
    (v.toNat % sizeBytes c = 0 ∧ checkVaAligned s c v k = k) ∨
      Answers s (checkVaAligned s c v k) := by
  by_cases h : v.toNat % sizeBytes c = 0
  · exact .inl ⟨h, checkVaAligned_pass h⟩
  · rw [checkVaAligned_fail h]; exact .inr ⟨_, _, _, _, _, _, by simp, by simp, rfl⟩

theorem checkPaAligned_cases (s k : State) (c : SizeClass) (v : Word) :
    (v.toNat % sizeBytes c = 0 ∧ checkPaAligned s c v k = k) ∨
      Answers s (checkPaAligned s c v k) := by
  by_cases h : v.toNat % sizeBytes c = 0
  · exact .inl ⟨h, checkPaAligned_pass h⟩
  · rw [checkPaAligned_fail h]; exact .inr ⟨_, _, _, _, _, _, by simp, by simp, rfl⟩

theorem checkPage_cases (s k : State) (c : SizeClass) (v : Word) :
    (GoodPage c v ∧ checkPage s c v k = k) ∨ Answers s (checkPage s c v k) := by
  rw [checkPage]
  rcases checkCanonical_cases s (checkVaAligned s c v k) v with ⟨hc, he⟩ | ha
  · rw [he]
    rcases checkVaAligned_cases s k c v with ⟨hv, he'⟩ | ha
    · exact .inl ⟨⟨hc, hv⟩, he'⟩
    · exact .inr ha
  · exact .inr ha

theorem checkFlags_cases (s k : State) (c : SizeClass) (f : Word) :
    (GoodFlags c f ∧ checkFlags s c f k = k) ∨ Answers s (checkFlags s c f k) := by
  unfold checkFlags
  split
  · exact .inr ⟨_, _, _, _, _, _, by simp, by simp, rfl⟩
  · rename_i h
    split
    · exact .inr ⟨_, _, _, _, _, _, by simp, by simp, rfl⟩
    · rename_i h'
      refine .inl ⟨⟨by simpa using h, fun hc => ?_⟩, rfl⟩
      cases hh : f.getLsbD 7 with
      | false => rfl
      | true => exact absurd ⟨hc, hh⟩ h'

theorem withRoot_cases (s k : State) :
    (s.rv = true ∧ withRoot s k = k) ∨ Answers s (withRoot s k) := by
  cases h : s.rv with
  | true => exact .inl ⟨rfl, withRoot_pass h⟩
  | false => rw [withRoot_fail h]; exact .inr ⟨_, _, _, _, _, _, by simp, by simp, rfl⟩

theorem mapperReady_cases (s k : State) :
    (s.rv = true ∧ s.tv = false ∧ mapperReady s k = k) ∨ Answers s (mapperReady s k) := by
  rw [mapperReady]
  rcases withRoot_cases s (withoutToken s k) with ⟨hr, he⟩ | ha
  · rw [he]
    cases h : s.tv with
    | false => exact .inl ⟨hr, rfl, withoutToken_pass h⟩
    | true =>
      rw [withoutToken_fail h]; exact .inr ⟨_, _, _, _, _, _, by simp, by simp, rfl⟩
  · exact .inr ha

/-- A completion that is not OK, after reads only. -/
theorem Answers.of_finish {s : State} {st : Status} {r0 r1 r2 r3 r4 : Word} (h : st ≠ .ok)
    (h' : st ≠ .faulted) : Answers s (s.finish st r0 r1 r2 r3 r4) :=
  ⟨_, _, _, _, _, _, h, h', rfl⟩

end Sys2Proof.Machine
end

