-- ==== Sys2Proof/Laws/Commands.lean ====
section
/-! SUPPORT. Everything the body of each tree command can do, said once: a refused check, an outcome
of its walk, a fault, or its effect. A proof about a tree command cites these and unfolds no body.
They hold also while writes race with the command; `met_iff`, `metReads_iff` and `metRefused_iff`
say what they say of the tree where none does. -/

namespace Sys2Proof.Machine

/-! ### What two states share after port operations -/

theorem ReadsOnly.mem_eq {s s' : State} {pas : List Nat} (h : ReadsOnly s s' pas) :
    s'.mem = s.mem := by rw [h]

theorem ReadsOnly.admits_eq {s s' : State} {pas : List Nat} (h : ReadsOnly s s' pas) (a n : Nat) :
    s'.admits a n = s.admits a n := by rw [h]; rfl

theorem ReadsOnly.entryAt_eq {s s' : State} {pas : List Nat} (h : ReadsOnly s s' pas) (l : Nat)
    (va t : Word) : s'.entryAt l va t = s.entryAt l va t := by rw [h]; rfl

theorem AllocsOnly.admits_eq {s s' : State} {es : List PortEvent} (h : AllocsOnly s s' es)
    (a n : Nat) : s'.admits a n = s.admits a n := by rw [h.1]; rfl

theorem AllocsOnly.mem_eq {s s' : State} {es : List PortEvent} (h : AllocsOnly s s' es) :
    s'.mem = s.mem := by rw [h.1]

theorem storeWords_admits (s : State) (ws : List (Nat × Word)) (a n : Nat) :
    (s.storeWords ws).admits a n = s.admits a n := by rw [storeWords_eq]; rfl

/-- A valid frame is a physical address and a multiple of 4096 (20_memory.md R64). -/
theorem validFrame_iff (f : Word) :
    validFrame f = true ↔ f.toNat < 2 ^ 52 ∧ f.toNat % 4096 = 0 := by
  simp [validFrame, validPa_iff, PhysicalAddress, alignedTo, sizeBytes]

/-! ### The writes of phase 3 -/

@[simp] theorem mapWrites_nil (va : Word) (c : SizeClass) (link leaf t : Word) :
    mapWrites va c link leaf t [] = [(entryPa (terminalLevel c) va t, leaf)] := rfl

theorem mapWrites_cons (va : Word) (c : SizeClass) (link leaf t f : Word) (fs : List Word) :
    mapWrites va c link leaf t (f :: fs) =
      zeroWrites f ++ (entryPa (terminalLevel c + fs.length + 1) va t, f ||| link) ::
        mapWrites va c link leaf f fs := rfl

@[simp] theorem zeroWrites_length (f : Word) : (zeroWrites f).length = 512 := by simp [zeroWrites]

theorem mem_zeroWrites {f : Word} {w : Nat × Word} :
    w ∈ zeroWrites f ↔ ∃ i < 512, w = (f.toNat + 8 * i, 0) := by
  simp [zeroWrites, eq_comm]

/-- One leaf, and for each new table 512 zeros and a link (70_reset_and_hazards.md R292). -/
theorem mapWrites_length (va : Word) (c : SizeClass) (link leaf t : Word) (fs : List Word) :
    (mapWrites va c link leaf t fs).length = 513 * fs.length + 1 := by
  induction fs generalizing t with
  | nil => rfl
  | cons f fs ih => rw [mapWrites_cons]; simp [ih]; omega

/-- Where phase 3 writes: at the entry of the absent page in `t`, and at places of the new tables
(43_mapper.md R191). -/
theorem mapWrites_places {va : Word} {c : SizeClass} {link leaf t : Word} {fs : List Word}
    {w : Nat × Word} (h : w ∈ mapWrites va c link leaf t fs) :
    w.1 = entryPa (terminalLevel c + fs.length) va t ∨
      ∃ f ∈ fs, ∃ i < 512, w.1 = f.toNat + 8 * i := by
  induction fs generalizing t with
  | nil => simp at h; exact .inl (by rw [h]; rfl)
  | cons f fs ih =>
    rw [mapWrites_cons] at h
    rcases List.mem_append.1 h with h | h
    · obtain ⟨i, hi, rfl⟩ := mem_zeroWrites.1 h
      exact .inr ⟨f, by simp, i, hi, rfl⟩
    · rcases List.mem_cons.1 h with rfl | h
      · exact .inl rfl
      · rcases ih h with h | ⟨g, hg, i, hi, h⟩
        · exact .inr ⟨f, by simp, _, (index _ va).isLt, h⟩
        · exact .inr ⟨g, by simp [hg], i, hi, h⟩

/-- Every write of phase 3 is to 8 bytes at a multiple of 8 inside physical memory. -/
theorem mapWrites_bounds {va : Word} {c : SizeClass} {link leaf t : Word} {fs : List Word}
    {w : Nat × Word} (ht : IsFrame t) (hv : ∀ f ∈ fs, validFrame f = true)
    (h : w ∈ mapWrites va c link leaf t fs) : w.1 % 8 = 0 ∧ w.1 + 8 ≤ 2 ^ 52 := by
  rcases mapWrites_places h with h | ⟨f, hf, i, hi, h⟩
  · have := entryPa_bounds ht (terminalLevel c + fs.length) va
    omega
  · have := (validFrame_iff f).1 (hv f hf)
    omega

/-! ### MAP_TO and IDENTITY_MAP -/

/-- Everything phases 2 and 3 can do (43_mapper.md R191, R196): the frames are obtained and every
write is admitted; or the allocator answers `None`; or with no valid frame; or a write is refused,
those before it being performed. -/
theorem mapInstall_cases (c : SizeClass) (va pa f t : Word) (n : Nat) (s : State) :
    (∃ (fs : List Word) (s' : State), fs.length = n ∧ (∀ g ∈ fs, validFrame g = true) ∧
      AllocsOnly s s' (fs.map fun g => PortEvent.alloc (some g)).reverse ∧
      (∀ w ∈ mapWrites va c (nonLeafFlags f) (leafEntry c pa f) t fs, s.admits w.1 8 = true) ∧
      mapInstall c va pa f t n s =
        ((s'.storeWords
          (mapWrites va c (nonLeafFlags f) (leafEntry c pa f) t fs)).issueToken c va).finish .ok va
          (BitVec.ofNat 64 n) 0 0 0) ∨
    (∃ (fs : List Word) (s' : State), fs.length < n ∧ (∀ g ∈ fs, validFrame g = true) ∧
      AllocsOnly s s' (.alloc none :: (fs.map fun g => PortEvent.alloc (some g)).reverse) ∧
      mapInstall c va pa f t n s =
        s'.finish .allocFailed (BitVec.ofNat 64 fs.length) (fs.getD 0 0) (fs.getD 1 0) 0 0) ∨
    (∃ (fs : List Word) (g : Word) (s' : State), fs.length < n ∧ validFrame g = false ∧
      AllocsOnly s s' (.alloc (some g) :: (fs.map fun g => PortEvent.alloc (some g)).reverse) ∧
      mapInstall c va pa f t n s = s'.takeFault .allocProtocol) ∨
    (∃ (fs : List Word) (s' : State) (pre : List (Nat × Word)) (w : Nat × Word)
      (post : List (Nat × Word)), fs.length = n ∧ (∀ g ∈ fs, validFrame g = true) ∧
      AllocsOnly s s' (fs.map fun g => PortEvent.alloc (some g)).reverse ∧
      mapWrites va c (nonLeafFlags f) (leafEntry c pa f) t fs = pre ++ w :: post ∧
      (∀ x ∈ pre, s.admits x.1 8 = true) ∧ s.admits w.1 8 = false ∧
      mapInstall c va pa f t n s = (s'.storeWords pre).takeFault .busError) := by
  rcases allocFrames_cases n [] s with
    ⟨fs, s', hl, hv, hs, he⟩ | ⟨fs, s', hl, hv, hs, he⟩ | ⟨fs, g, s', hl, hg, hs, he⟩
  · have hadm := hs.admits_eq
    rcases memWrites_cases (mapWrites va c (nonLeafFlags f) (leafEntry c pa f) t fs) s' with
      ⟨ha, hw⟩ | ⟨pre, w, post, hp, ha, hn, hw⟩
    · refine .inl ⟨fs, s', hl, hv, hs, fun w h => by rw [← hadm]; exact ha w h, ?_⟩
      simp [mapInstall, he, hw]
    · refine .inr (.inr (.inr ⟨fs, s', pre, w, post, hl, hv, hs, hp,
        fun w h => by rw [← hadm]; exact ha w h, by rw [← hadm]; exact hn, ?_⟩))
      simp [mapInstall, he, hw]
  · exact .inr (.inl ⟨fs, s', hl, hv, hs, by simp [mapInstall, he, raiseAllocFailed]⟩)
  · exact .inr (.inr (.inl ⟨fs, g, s', hl, hg, hs, by simp [mapInstall, he]⟩))

/-- Phases 2 and 3 when the allocator's listed answers are valid frames and every write is
admitted. -/
theorem mapInstall_of_queue {c : SizeClass} {va pa f t : Word} {fs : List Word}
    {q : List (Option Word)} {s : State} (hq : s.allocQ = fs.map some ++ q)
    (hv : ∀ g ∈ fs, validFrame g = true)
    (ha : ∀ w ∈ mapWrites va c (nonLeafFlags f) (leafEntry c pa f) t fs, s.admits w.1 8 = true) :
    mapInstall c va pa f t fs.length s =
      ((({ s with
          allocQ := q
          ports := (fs.map fun g => PortEvent.alloc (some g)).reverse ++ s.ports } :
        State).storeWords
          (mapWrites va c (nonLeafFlags f) (leafEntry c pa f) t fs)).issueToken c va).finish .ok va
          (BitVec.ofNat 64 fs.length) 0 0 0 := by
  have h := allocFrames_of_queue fs [] q s hq hv
  simp only [List.nil_append] at h
  simp only [mapInstall, h]
  rw [memWrites_of_admits]
  · rfl
  · exact ha

/-- Phases 2 and 3 when the allocator's listed answers are valid frames and the write `w` is the
first refused one (20_memory.md R53). -/
theorem mapInstall_of_refused {c : SizeClass} {va pa f t : Word} {fs : List Word}
    {q : List (Option Word)} {s : State} {pre post : List (Nat × Word)} {w : Nat × Word}
    (hq : s.allocQ = fs.map some ++ q) (hv : ∀ g ∈ fs, validFrame g = true)
    (hw : mapWrites va c (nonLeafFlags f) (leafEntry c pa f) t fs = pre ++ w :: post)
    (ha : ∀ x ∈ pre, s.admits x.1 8 = true) (hn : s.admits w.1 8 = false) :
    mapInstall c va pa f t fs.length s =
      (({ s with
          allocQ := q
          ports := (fs.map fun g => PortEvent.alloc (some g)).reverse ++ s.ports } :
        State).storeWords pre).takeFault .busError := by
  have h := allocFrames_of_queue fs [] q s hq hv
  simp only [List.nil_append] at h
  simp only [mapInstall, h, hw]
  rw [memWrites_of_refused]
  · rfl
  · exact ha
  · exact hn

/-- Everything phases 1 to 3 can do (43_mapper.md R191): a refused read, a huge parent, a mapped
page, or the entry in `t` is absent, `n` levels above the terminal one, and phases 2 and 3 run. -/
theorem mapPhases_cases (c : SizeClass) (va pa f : Word) (s : State) :
    ∃ s' pas, ReadsOnly s s' pas ∧ pas.length ≤ 4 - terminalLevel c + 1 ∧
      (∀ pa ∈ pas, s.Accessible pa) ∧
      ((s.MetRefused va (terminalLevel c) ∧ mapPhases c va pa f s = s'.takeFault .busError) ∨
       (∃ l e, terminalLevel c < l ∧ s.MetReads va l e ∧ isPresent e = true ∧ isHuge e = true ∧
         mapPhases c va pa f s = s'.finish .parentHuge (levelWord l) 0 0 0 0) ∨
       (∃ e, s.MetReads va (terminalLevel c) e ∧ isPresent e = true ∧
         mapPhases c va pa f s = s'.finish .alreadyMapped (entryAddr e) 0 0 0 0) ∨
       (∃ t n, s.Met va (terminalLevel c + n) t ∧
         s.entryAdmitted (terminalLevel c + n) va t ∧
         (s.views = [] → isPresent (s.entryAt (terminalLevel c + n) va t) = false) ∧
         mapPhases c va pa f s = mapInstall c va pa f t n s')) := by
  rcases mapWalk_cases va c s with
    ⟨w, s', pas, he, hs, hl, hg, hw⟩ | ⟨s', pas, he, hs, hl, hg, hw⟩
  · refine ⟨s', pas, hs, hl, hg, .inr ?_⟩
    cases w with
    | parentHuge l =>
      obtain ⟨h1, e, h2, h3, h4⟩ := hw
      exact .inl ⟨l, e, h1, h2, h3, h4, by simp [mapPhases, he]⟩
    | mapped e => exact .inr (.inl ⟨e, hw.1, hw.2, by simp [mapPhases, he]⟩)
    | room t n => exact .inr (.inr ⟨t, n, hw.1, hw.2.1, hw.2.2, by simp [mapPhases, he]⟩)
  · exact ⟨s', pas, hs, by omega, hg, .inl ⟨hw, by simp [mapPhases, he]⟩⟩

/-- MAP_TO.S refuses by a check, or runs its phases (43_mapper.md R190, R191). -/
theorem mapToBody_cases (c : SizeClass) (s : State) :
    (s.rv = true ∧ s.tv = false ∧ GoodPage c s.arg0 ∧ GoodFrame c s.arg1 ∧ GoodFlags c s.arg2 ∧
      mapToBody c s = mapPhases c s.arg0 s.arg1 s.arg2 s) ∨ Answers s (mapToBody c s) := by
  unfold mapToBody
  simp only [operand0_eq, operand1_eq, operandFlags_eq]
  rcases mapperReady_cases s (checkPage s c s.arg0 (checkPhysical s s.arg1
    (checkPaAligned s c s.arg1 (checkFlags s c s.arg2
      (mapPhases c s.arg0 s.arg1 s.arg2 s))))) with ⟨hr, ht, he⟩ | h
  · rw [he]
    rcases checkPage_cases s (checkPhysical s s.arg1 (checkPaAligned s c s.arg1
      (checkFlags s c s.arg2 (mapPhases c s.arg0 s.arg1 s.arg2 s)))) c s.arg0 with ⟨hp, he⟩ | h
    · rw [he]
      rcases checkPhysical_cases s (checkPaAligned s c s.arg1
        (checkFlags s c s.arg2 (mapPhases c s.arg0 s.arg1 s.arg2 s))) s.arg1 with ⟨hq, he⟩ | h
      · rw [he]
        rcases checkPaAligned_cases s
          (checkFlags s c s.arg2 (mapPhases c s.arg0 s.arg1 s.arg2 s)) c s.arg1 with ⟨ha, he⟩ | h
        · rw [he]
          rcases checkFlags_cases s (mapPhases c s.arg0 s.arg1 s.arg2 s) c s.arg2 with
            ⟨hf, he⟩ | h
          · exact .inl ⟨hr, ht, hp, ⟨hq, ha⟩, hf, he⟩
          · exact .inr h
        · exact .inr h
      · exact .inr h
    · exact .inr h
  · exact .inr h

/-- IDENTITY_MAP.S refuses by a check, or runs the phases at its frame's own address (43_mapper.md
R197). -/
theorem identityMapBody_cases (c : SizeClass) (s : State) :
    (s.rv = true ∧ s.tv = false ∧ GoodFrame c s.arg1 ∧ CanonicalAddress s.arg1 ∧
      GoodFlags c s.arg2 ∧ identityMapBody c s = mapPhases c s.arg1 s.arg1 s.arg2 s) ∨
      Answers s (identityMapBody c s) := by
  unfold identityMapBody
  simp only [operand1_eq, operandFlags_eq]
  rcases mapperReady_cases s (checkPhysical s s.arg1 (checkPaAligned s c s.arg1
    (checkCanonical s s.arg1 (checkFlags s c s.arg2
      (mapPhases c s.arg1 s.arg1 s.arg2 s))))) with ⟨hr, ht, he⟩ | h
  · rw [he]
    rcases checkPhysical_cases s (checkPaAligned s c s.arg1 (checkCanonical s s.arg1
      (checkFlags s c s.arg2 (mapPhases c s.arg1 s.arg1 s.arg2 s)))) s.arg1 with ⟨hq, he⟩ | h
    · rw [he]
      rcases checkPaAligned_cases s (checkCanonical s s.arg1
        (checkFlags s c s.arg2 (mapPhases c s.arg1 s.arg1 s.arg2 s))) c s.arg1 with ⟨ha, he⟩ | h
      · rw [he]
        rcases checkCanonical_cases s
          (checkFlags s c s.arg2 (mapPhases c s.arg1 s.arg1 s.arg2 s)) s.arg1 with ⟨hc, he⟩ | h
        · rw [he]
          rcases checkFlags_cases s (mapPhases c s.arg1 s.arg1 s.arg2 s) c s.arg2 with
            ⟨hf, he⟩ | h
          · exact .inl ⟨hr, ht, ⟨hq, ha⟩, hc, hf, he⟩
          · exact .inr h
        · exact .inr h
      · exact .inr h
    · exact .inr h
  · exact .inr h

/-! ### UNMAP and UPDATE_FLAGS -/

/-- Everything UNMAP.S can do (43_mapper.md R198): a check refuses it; a read or the write is
refused; it answers a status after reads only; or it clears the terminal entry. -/
theorem unmapBody_cases (c : SizeClass) (s : State) :
    Answers s (unmapBody c s) ∨
    (s.rv = true ∧ s.tv = false ∧ GoodPage c s.arg0 ∧
      ∃ s' pas, ReadsOnly s s' pas ∧ pas.length ≤ 4 - terminalLevel c + 1 ∧
      (∀ pa ∈ pas, s.Accessible pa) ∧
        (unmapBody c s = s'.takeFault .busError ∨ Answers s' (unmapBody c s) ∨
          ∃ t e, s.Met s.arg0 (terminalLevel c) t ∧
            s.entryAdmitted (terminalLevel c) s.arg0 t ∧
            (s.views = [] → e = s.entryAt (terminalLevel c) s.arg0 t) ∧ isPresent e = true ∧
            classMatch c e = true ∧ alignedTo c (entryAddr e) = true ∧
            unmapBody c s =
              ((s'.storeWord (entryPa (terminalLevel c) s.arg0 t) 0).issueToken c s.arg0).finish
                .ok (entryAddr e) 0 0 0 0)) := by
  have hb : unmapBody c s = mapperReady s (checkPage s c s.arg0 ((walk s.arg0 c s).run
      fun w s' => match w with
        | .absent l => s'.raise .notMapped (levelWord l)
        | .hugeAbove l _ => s'.raise .sizeMismatch (levelWord l)
        | .malformed l _ => s'.raise .sizeMismatch (levelWord l)
        | .terminal ea e => unmapTerminal c s.arg0 ea e s')) := rfl
  rcases mapperReady_cases s (checkPage s c s.arg0 ((walk s.arg0 c s).run
      fun w s' => match w with
        | .absent l => s'.raise .notMapped (levelWord l)
        | .hugeAbove l _ => s'.raise .sizeMismatch (levelWord l)
        | .malformed l _ => s'.raise .sizeMismatch (levelWord l)
        | .terminal ea e => unmapTerminal c s.arg0 ea e s')) with ⟨hr, ht, he⟩ | h
  · rcases checkPage_cases s ((walk s.arg0 c s).run
      fun w s' => match w with
        | .absent l => s'.raise .notMapped (levelWord l)
        | .hugeAbove l _ => s'.raise .sizeMismatch (levelWord l)
        | .malformed l _ => s'.raise .sizeMismatch (levelWord l)
        | .terminal ea e => unmapTerminal c s.arg0 ea e s') c s.arg0 with ⟨hp, he'⟩ | h
    · refine .inr ⟨hr, ht, hp, ?_⟩
      rw [hb, he, he']
      rcases walk_cases s.arg0 c s with
        ⟨w, s', pas, hw, hs, hl, hg, hsays⟩ | ⟨s', pas, hw, hs, hl, hg, _⟩
      · refine ⟨s', pas, hs, hl, hg, .inr ?_⟩
        rw [hw]
        cases w with
        | absent l => exact .inl (.of_finish (by simp) (by simp))
        | hugeAbove l e => exact .inl (.of_finish (by simp) (by simp))
        | malformed l e => exact .inl (.of_finish (by simp) (by simp))
        | terminal ea e =>
          obtain ⟨t, h1, h2, rfl, h4⟩ := hsays
          simp only [Port.run_ok, unmapTerminal]
          cases hpr : isPresent e with
          | false => exact .inl (.of_finish (by simp) (by simp))
          | true =>
            cases hm : classMatch c e with
            | false => exact .inl (.of_finish (by simp) (by simp))
            | true =>
              cases ha : alignedTo c (entryAddr e) with
              | false => exact .inl (.of_finish (by simp) (by simp))
              | true =>
                refine .inr ⟨t, e, h1, h2, h4, hpr, hm, ha, ?_⟩
                have : s'.admits (entryPa (terminalLevel c) s.arg0 t) 8 = true := by
                  rw [hs.admits_eq]; exact h2
                simp [memWrite, this]
      · exact ⟨s', pas, hs, by omega, hg, .inl (by rw [hw]; rfl)⟩
    · exact .inl (by rw [hb, he]; exact h)
  · exact .inl (by rw [hb]; exact h)

/-- Everything UPDATE_FLAGS.S can do (43_mapper.md R199): as UNMAP.S, with the new entry. -/
theorem updateFlagsBody_cases (c : SizeClass) (s : State) :
    Answers s (updateFlagsBody c s) ∨
    (s.rv = true ∧ s.tv = false ∧ GoodPage c s.arg0 ∧ GoodFlags c s.arg2 ∧
      ∃ s' pas, ReadsOnly s s' pas ∧ pas.length ≤ 4 - terminalLevel c + 1 ∧
      (∀ pa ∈ pas, s.Accessible pa) ∧
        (updateFlagsBody c s = s'.takeFault .busError ∨ Answers s' (updateFlagsBody c s) ∨
          ∃ t e, s.Met s.arg0 (terminalLevel c) t ∧
            s.entryAdmitted (terminalLevel c) s.arg0 t ∧
            (s.views = [] → e = s.entryAt (terminalLevel c) s.arg0 t) ∧ isPresent e = true ∧
            classMatch c e = true ∧
            updateFlagsBody c s =
              ((s'.storeWord (entryPa (terminalLevel c) s.arg0 t)
                (leafEntry c (entryAddr e) s.arg2)).issueToken c s.arg0).finish
                .ok (leafEntry c (entryAddr e) s.arg2) 0 0 0 0)) := by
  have hb : updateFlagsBody c s = mapperReady s (checkPage s c s.arg0 (checkFlags s c s.arg2
      ((walk s.arg0 c s).run fun w s' => match w with
        | .absent l => s'.raise .notMapped (levelWord l)
        | .hugeAbove l _ => s'.raise .notMapped (levelWord l)
        | .malformed l _ => s'.raise .notMapped (levelWord l)
        | .terminal ea e => updateTerminal c s.arg0 s.arg2 ea e s'))) := rfl
  rcases mapperReady_cases s (checkPage s c s.arg0 (checkFlags s c s.arg2
      ((walk s.arg0 c s).run fun w s' => match w with
        | .absent l => s'.raise .notMapped (levelWord l)
        | .hugeAbove l _ => s'.raise .notMapped (levelWord l)
        | .malformed l _ => s'.raise .notMapped (levelWord l)
        | .terminal ea e => updateTerminal c s.arg0 s.arg2 ea e s'))) with ⟨hr, ht, he⟩ | h
  · rcases checkPage_cases s (checkFlags s c s.arg2
      ((walk s.arg0 c s).run fun w s' => match w with
        | .absent l => s'.raise .notMapped (levelWord l)
        | .hugeAbove l _ => s'.raise .notMapped (levelWord l)
        | .malformed l _ => s'.raise .notMapped (levelWord l)
        | .terminal ea e => updateTerminal c s.arg0 s.arg2 ea e s')) c s.arg0 with ⟨hp, he'⟩ | h
    · rcases checkFlags_cases s
        ((walk s.arg0 c s).run fun w s' => match w with
          | .absent l => s'.raise .notMapped (levelWord l)
          | .hugeAbove l _ => s'.raise .notMapped (levelWord l)
          | .malformed l _ => s'.raise .notMapped (levelWord l)
          | .terminal ea e => updateTerminal c s.arg0 s.arg2 ea e s') c s.arg2 with ⟨hf, he''⟩ | h
      · refine .inr ⟨hr, ht, hp, hf, ?_⟩
        rw [hb, he, he', he'']
        rcases walk_cases s.arg0 c s with
        ⟨w, s', pas, hw, hs, hl, hg, hsays⟩ | ⟨s', pas, hw, hs, hl, hg, _⟩
        · refine ⟨s', pas, hs, hl, hg, .inr ?_⟩
          rw [hw]
          cases w with
          | absent l => exact .inl (.of_finish (by simp) (by simp))
          | hugeAbove l e => exact .inl (.of_finish (by simp) (by simp))
          | malformed l e => exact .inl (.of_finish (by simp) (by simp))
          | terminal ea e =>
            obtain ⟨t, h1, h2, rfl, h4⟩ := hsays
            simp only [Port.run_ok, updateTerminal]
            cases hpr : isPresent e with
            | false => exact .inl (.of_finish (by simp) (by simp))
            | true =>
              cases hm : classMatch c e with
              | false => exact .inl (.of_finish (by simp) (by simp))
              | true =>
                refine .inr ⟨t, e, h1, h2, h4, hpr, hm, ?_⟩
                have : s'.admits (entryPa (terminalLevel c) s.arg0 t) 8 = true := by
                  rw [hs.admits_eq]; exact h2
                simp [memWrite, this]
        · exact ⟨s', pas, hs, by omega, hg, .inl (by rw [hw]; rfl)⟩
      · exact .inl (by rw [hb, he, he']; exact h)
    · exact .inl (by rw [hb, he]; exact h)
  · exact .inl (by rw [hb]; exact h)

/-! ### The translate commands -/

/-- Everything TRANSLATE_PAGE.S can do (42_walk_translate.md R163): a check refuses it, a read is
refused, it answers a status after reads only, or it gives the leaf of its class. -/
theorem translatePageBody_cases (c : SizeClass) (s : State) :
    Answers s (translatePageBody c s) ∨
    (s.rv = true ∧ GoodPage c s.arg0 ∧
      ∃ s' pas, ReadsOnly s s' pas ∧ pas.length ≤ 4 - terminalLevel c + 1 ∧
      (∀ pa ∈ pas, s.Accessible pa) ∧
        (translatePageBody c s = s'.takeFault .busError ∨ Answers s' (translatePageBody c s) ∨
          ∃ e, s.MetReads s.arg0 (terminalLevel c) e ∧ isPresent e = true ∧
            classMatch c e = true ∧ alignedTo c (entryAddr e) = true ∧
            translatePageBody c s =
              s'.finish .ok (entryAddr e) (entryAddr e) 0 (codeWord c) (entryFlags e))) := by
  have hb : translatePageBody c s = withRoot s (checkPage s c s.arg0 ((walk s.arg0 c s).run
      fun w s' => match w with
        | .absent l => s'.raise .notMapped (levelWord l)
        | .hugeAbove l _ => s'.raise .notMapped (levelWord l)
        | .malformed l e => s'.raise .malformedEntry (levelWord l) e
        | .terminal _ e => translateTerminal c e s')) := rfl
  rcases withRoot_cases s (checkPage s c s.arg0 ((walk s.arg0 c s).run
      fun w s' => match w with
        | .absent l => s'.raise .notMapped (levelWord l)
        | .hugeAbove l _ => s'.raise .notMapped (levelWord l)
        | .malformed l e => s'.raise .malformedEntry (levelWord l) e
        | .terminal _ e => translateTerminal c e s')) with ⟨hr, he⟩ | h
  · rcases checkPage_cases s ((walk s.arg0 c s).run
      fun w s' => match w with
        | .absent l => s'.raise .notMapped (levelWord l)
        | .hugeAbove l _ => s'.raise .notMapped (levelWord l)
        | .malformed l e => s'.raise .malformedEntry (levelWord l) e
        | .terminal _ e => translateTerminal c e s') c s.arg0 with ⟨hp, he'⟩ | h
    · refine .inr ⟨hr, hp, ?_⟩
      rw [hb, he, he']
      rcases walk_cases s.arg0 c s with
        ⟨w, s', pas, hw, hs, hl, hg, hsays⟩ | ⟨s', pas, hw, hs, hl, hg, _⟩
      · refine ⟨s', pas, hs, hl, hg, .inr ?_⟩
        rw [hw]
        cases w with
        | absent l => exact .inl (.of_finish (by simp) (by simp))
        | hugeAbove l e => exact .inl (.of_finish (by simp) (by simp))
        | malformed l e => exact .inl (.of_finish (by simp) (by simp))
        | terminal ea e =>
          obtain ⟨t, h1, h2, rfl, h4⟩ := hsays
          simp only [Port.run_ok, translateTerminal]
          rcases decodeEntry_cases (terminalLevel c) e with
            ⟨_, hd⟩ | ⟨_, _, _, _, hd⟩ | ⟨hpr, c', hc', hm, hd⟩ | ⟨_, _, _, hd⟩
          · rw [hd]; exact .inl (.of_finish (by simp) (by simp))
          · rw [hd]; exact .inl (.of_finish (by simp) (by simp))
          · have hcc : c' = c := by cases c <;> cases c' <;> first | rfl | simp at hc'
            subst hcc
            rw [hd]
            cases ha : alignedTo c' (entryAddr e) with
            | false => exact .inl (by simp [ha]; exact .of_finish (by simp) (by simp))
            | true => exact .inr ⟨e, ⟨t, h1, h2, h4⟩, hpr, hm, ha, by simp [ha]⟩
          · rw [hd]; exact .inl (.of_finish (by simp) (by simp))
      · exact ⟨s', pas, hs, by omega, hg, .inl (by rw [hw]; rfl)⟩
    · exact .inl (by rw [hb, he]; exact h)
  · exact .inl (by rw [hb]; exact h)

/-- Everything TRANSLATE and TRANSLATE_ADDR can do (42_walk_translate.md R164, R165): a check refuses
it, a read is refused, it answers a status after reads only, or it completes as `done` says. -/
theorem translateBody_cases (done : State → SizeClass → Word → Word → Word → State) (s : State) :
    Answers s (translateBody done s) ∨
    (s.rv = true ∧ CanonicalAddress s.arg0 ∧
      ∃ s' pas, ReadsOnly s s' pas ∧ pas.length ≤ 4 ∧ (∀ pa ∈ pas, s.Accessible pa) ∧
        (translateBody done s = s'.takeFault .busError ∨ Answers s' (translateBody done s) ∨
          ∃ c e, s.MetReads s.arg0 (terminalLevel c) e ∧ isPresent e = true ∧
            classMatch c e = true ∧ alignedTo c (entryAddr e) = true ∧
            translateBody done s = done s' c (entryAddr e) (s.arg0 &&& offsetMask c) e)) := by
  have hb : translateBody done s = withRoot s (checkCanonical s s.arg0 ((walkAny s.arg0 s).run
      fun w s' => match w with
        | .absent l => s'.raise .notMapped (levelWord l)
        | .malformed l e => s'.raise .malformedEntry (levelWord l) e
        | .leaf c a e =>
          if alignedTo c a then done s' c a (s.arg0 &&& offsetMask c) e
          else s'.raise .invalidFrameAddr a)) := rfl
  rcases withRoot_cases s (checkCanonical s s.arg0 ((walkAny s.arg0 s).run
      fun w s' => match w with
        | .absent l => s'.raise .notMapped (levelWord l)
        | .malformed l e => s'.raise .malformedEntry (levelWord l) e
        | .leaf c a e =>
          if alignedTo c a then done s' c a (s.arg0 &&& offsetMask c) e
          else s'.raise .invalidFrameAddr a)) with ⟨hr, he⟩ | h
  · rcases checkCanonical_cases s ((walkAny s.arg0 s).run
      fun w s' => match w with
        | .absent l => s'.raise .notMapped (levelWord l)
        | .malformed l e => s'.raise .malformedEntry (levelWord l) e
        | .leaf c a e =>
          if alignedTo c a then done s' c a (s.arg0 &&& offsetMask c) e
          else s'.raise .invalidFrameAddr a) s.arg0 with ⟨hp, he'⟩ | h
    · refine .inr ⟨hr, hp, ?_⟩
      rw [hb, he, he']
      rcases walkAny_cases s.arg0 s with
        ⟨w, s', pas, hw, hs, hl, hg, hsays⟩ | ⟨s', pas, hw, hs, hl, hg, _⟩
      · refine ⟨s', pas, hs, hl, hg, .inr ?_⟩
        rw [hw]
        cases w with
        | absent l => exact .inl (.of_finish (by simp) (by simp))
        | malformed l e => exact .inl (.of_finish (by simp) (by simp))
        | leaf c a e =>
          obtain ⟨h1, h2, h3, rfl⟩ := hsays
          cases ha : alignedTo c (entryAddr e) with
          | false => exact .inl (by simp [ha]; exact .of_finish (by simp) (by simp))
          | true => exact .inr ⟨c, e, h1, h2, h3, ha, by simp [ha]⟩
      · exact ⟨s', pas, hs, by omega, hg, .inl (by rw [hw]; rfl)⟩
    · exact .inl (by rw [hb, he]; exact h)
  · exact .inl (by rw [hb]; exact h)

/-- Everything TABLE_READ can do (41_entry_table.md R142). -/
theorem tableReadBody_cases (s : State) :
    Answers s (tableReadBody s) ∨
    (GoodFrame .s4K s.arg1 ∧ s.arg0.toNat ≤ 511 ∧
      ((s.admits (s.arg1.toNat + 8 * s.arg0.toNat) 8 = false ∧
          tableReadBody s = s.takeFault .busError) ∨
        (s.admits (s.arg1.toNat + 8 * s.arg0.toNat) 8 = true ∧
          tableReadBody s = (s.readDone (s.arg1.toNat + 8 * s.arg0.toNat)).finish .ok
            (s.seenWord (s.arg1.toNat + 8 * s.arg0.toNat)) 0 0 0 0))) := by
  obtain ⟨k, hk⟩ : ∃ k, k = (if s.arg0.toNat ≤ 511 then
        (memRead (s.arg1.toNat + 8 * s.arg0.toNat) s).run fun e s' => s'.complete e 0 0 0 0
       else s.argError .indexRange) := ⟨_, rfl⟩
  have hb : tableReadBody s = checkPhysical s s.arg1 (checkPaAligned s .s4K s.arg1 k) := by
    rw [hk]; rfl
  rw [hb]
  rcases checkPhysical_cases s (checkPaAligned s .s4K s.arg1 k) s.arg1 with ⟨hp, he⟩ | h
  · rcases checkPaAligned_cases s k .s4K s.arg1 with ⟨ha, he'⟩ | h
    · rw [he, he', hk]
      by_cases hi : s.arg0.toNat ≤ 511
      · refine .inr ⟨⟨hp, ha⟩, hi, ?_⟩
        cases hadm : s.admits (s.arg1.toNat + 8 * s.arg0.toNat) 8 with
        | false => exact .inl ⟨rfl, by simp [hi, memRead, hadm]⟩
        | true => exact .inr ⟨rfl, by simp [hi, memRead, hadm]⟩
      · exact .inl (by rw [if_neg hi]; exact .of_finish (by simp) (by simp))
    · exact .inl (by rw [he]; exact h)
  · exact .inl h

end Sys2Proof.Machine
end

