-- ==== Sys2Proof/Laws/PerInstr.lean ====
section
/-! SUPPORT. Statements made per command: a command is well-formed, its word decodes to it, and its
word's fields are those of the opcode map (30_encoding.md R88). -/

namespace Sys2Proof.Laws

/-- The command is well-formed and its word decodes to it. -/
def RoundTrip.Statement (i : Instr) : Prop :=
  i.WellFormed = true ∧ fieldsOf (encode i) = i.fields ∧ decode (encode i) = .ok i

theorem RoundTrip.vaTryNew : RoundTrip.Statement .vaTryNew := ⟨rfl, rfl, rfl⟩
theorem RoundTrip.vaNewUnchecked : RoundTrip.Statement .vaNewUnchecked := ⟨rfl, rfl, rfl⟩
theorem RoundTrip.vaSplit : RoundTrip.Statement .vaSplit := ⟨rfl, rfl, rfl⟩
theorem RoundTrip.vaAdd : RoundTrip.Statement .vaAdd := ⟨rfl, rfl, rfl⟩
theorem RoundTrip.vaSub : RoundTrip.Statement .vaSub := ⟨rfl, rfl, rfl⟩
theorem RoundTrip.paTryNew : RoundTrip.Statement .paTryNew := ⟨rfl, rfl, rfl⟩
theorem RoundTrip.paAdd : RoundTrip.Statement .paAdd := ⟨rfl, rfl, rfl⟩
theorem RoundTrip.paSub : RoundTrip.Statement .paSub := ⟨rfl, rfl, rfl⟩
theorem RoundTrip.paIsAligned : RoundTrip.Statement .paIsAligned := ⟨rfl, rfl, rfl⟩
theorem RoundTrip.paAlignDown : RoundTrip.Statement .paAlignDown := ⟨rfl, rfl, rfl⟩
theorem RoundTrip.paAlignUp : RoundTrip.Statement .paAlignUp := ⟨rfl, rfl, rfl⟩
theorem RoundTrip.entryDecode : RoundTrip.Statement .entryDecode := ⟨rfl, rfl, rfl⟩
theorem RoundTrip.entryEncode4K : RoundTrip.Statement .entryEncode4K := ⟨rfl, rfl, rfl⟩
theorem RoundTrip.entryEncode2M : RoundTrip.Statement .entryEncode2M := ⟨rfl, rfl, rfl⟩
theorem RoundTrip.entryEncode1G : RoundTrip.Statement .entryEncode1G := ⟨rfl, rfl, rfl⟩
theorem RoundTrip.tableRead : RoundTrip.Statement .tableRead := ⟨rfl, rfl, rfl⟩
theorem RoundTrip.mapTo4K : RoundTrip.Statement .mapTo4K := ⟨rfl, rfl, rfl⟩
theorem RoundTrip.mapTo2M : RoundTrip.Statement .mapTo2M := ⟨rfl, rfl, rfl⟩
theorem RoundTrip.mapTo1G : RoundTrip.Statement .mapTo1G := ⟨rfl, rfl, rfl⟩
theorem RoundTrip.identityMap4K : RoundTrip.Statement .identityMap4K := ⟨rfl, rfl, rfl⟩
theorem RoundTrip.identityMap2M : RoundTrip.Statement .identityMap2M := ⟨rfl, rfl, rfl⟩
theorem RoundTrip.identityMap1G : RoundTrip.Statement .identityMap1G := ⟨rfl, rfl, rfl⟩
theorem RoundTrip.unmap4K : RoundTrip.Statement .unmap4K := ⟨rfl, rfl, rfl⟩
theorem RoundTrip.unmap2M : RoundTrip.Statement .unmap2M := ⟨rfl, rfl, rfl⟩
theorem RoundTrip.unmap1G : RoundTrip.Statement .unmap1G := ⟨rfl, rfl, rfl⟩
theorem RoundTrip.updateFlags4K : RoundTrip.Statement .updateFlags4K := ⟨rfl, rfl, rfl⟩
theorem RoundTrip.updateFlags2M : RoundTrip.Statement .updateFlags2M := ⟨rfl, rfl, rfl⟩
theorem RoundTrip.updateFlags1G : RoundTrip.Statement .updateFlags1G := ⟨rfl, rfl, rfl⟩
theorem RoundTrip.translatePage4K : RoundTrip.Statement .translatePage4K := ⟨rfl, rfl, rfl⟩
theorem RoundTrip.translatePage2M : RoundTrip.Statement .translatePage2M := ⟨rfl, rfl, rfl⟩
theorem RoundTrip.translatePage1G : RoundTrip.Statement .translatePage1G := ⟨rfl, rfl, rfl⟩
theorem RoundTrip.translate : RoundTrip.Statement .translate := ⟨rfl, rfl, rfl⟩
theorem RoundTrip.translateAddr : RoundTrip.Statement .translateAddr := ⟨rfl, rfl, rfl⟩
theorem RoundTrip.flushToken : RoundTrip.Statement .flushToken := ⟨rfl, rfl, rfl⟩
theorem RoundTrip.ignoreToken : RoundTrip.Statement .ignoreToken := ⟨rfl, rfl, rfl⟩
theorem RoundTrip.setRoot : RoundTrip.Statement .setRoot := ⟨rfl, rfl, rfl⟩

end Sys2Proof.Laws
end

