-- ==== Sys2Proof/Tests/Slice0.lean ====
section
/-! SUPPORT. Tests of the model against 95_test_vectors.md (the vector is named in each comment;
where none is named the expected result is worked out by hand from the rule), the smoke tests of
WellFormed, and for every statement with hypotheses a witness that meets them, clause by clause. -/

namespace Sys2Proof.Tests

open Sys2Proof.Machine

/-! ### States and observations -/

/-- The walker after reset with the given argument registers. -/
def args (a0 a1 a2 : Word) : State := { State.reset with arg0 := a0, arg1 := a1, arg2 := a2 }

/-- Tree W of 95_test_vectors.md section 2.3, byte by byte. -/
def treeW : Memory :=
  [(0x100000, 0x03), (0x100002, 0x11), (0x100008, 0x83), (0x10000A, 0x18), (0x100800, 0x03),
   (0x100802, 0x14), (0x110000, 0x03), (0x110002, 0x12), (0x110008, 0x83), (0x11000B, 0x40),
   (0x120000, 0x03), (0x120002, 0x13), (0x120008, 0x83), (0x12000A, 0x40), (0x120010, 0x83),
   (0x120011, 0x10), (0x120012, 0x40), (0x130008, 0x03), (0x130009, 0x20), (0x130010, 0x02),
   (0x130011, 0x30), (0x130018, 0x83), (0x130019, 0x50), (0x140000, 0x03), (0x140002, 0x15),
   (0x150000, 0x03), (0x150002, 0x16), (0x160000, 0x07), (0x160001, 0x70), (0x160007, 0x80)]

/-- Every entry that the spec lists reads back from these bytes, and there are no others: the listed
entries hold 30 bytes that are not 0. -/
theorem test_treeW :
    treeW.length = 30 ∧ ∀ w ∈ ([
      (0x100000, 0x110003), (0x100008, 0x180083), (0x100800, 0x140003), (0x110000, 0x120003),
       (0x110008, 0x40000083), (0x120000, 0x130003), (0x120008, 0x400083),
       (0x120010, 0x401083), (0x130008, 0x2003), (0x130010, 0x3002), (0x130018, 0x5083),
       (0x140000, 0x150003), (0x150000, 0x160003),
       (0x160000, 0x8000000000007007)] : List (Nat × Word)),
    treeW.read64 w.1 = w.2 := by
  decide

/-- The walker over tree W, with a root handed over (95_test_vectors.md section 2.3). -/
def onW (a0 a1 a2 : Word) : State :=
  { args a0 a1 a2 with mem := treeW, root := 0x100000, rv := true }

/-- The walker over an all-zero root table, with the given allocator answers (section 2.4). -/
def onEmpty (a0 a1 a2 : Word) (q : List (Option Word)) : State :=
  { args a0 a1 a2 with root := 0x100000, rv := true, allocQ := q }

/-- The status and the five results, if there is a next state. -/
def answer (o : Host.Outcome State Fault Refusal) : Option (BitVec 8 × List Word) :=
  match o with
  | .next t => some (t.status, [t.res0, t.res1, t.res2, t.res3, t.res4])
  | _ => none

/-- `UNIT` after, if there is a next state. -/
def unitAfter (o : Host.Outcome State Fault Refusal) : Option Word :=
  match o with
  | .next t => some t.unitReg
  | _ => none

/-- The word at an address of memory after, if there is a next state. -/
def wordAfter (pa : Nat) (o : Host.Outcome State Fault Refusal) : Option Word :=
  match o with
  | .next t => some (t.mem.read64 pa)
  | _ => none

/-! ### WellFormed: each check refuses an ill-formed term -/

theorem test_wellFormed_reserved_bits : Fields.WellFormed ⟨1, 0, 0x01⟩ = false := by decide
theorem test_wellFormed_reserved_opcode : Fields.WellFormed ⟨0, 0, 0x0F⟩ = false := by decide
theorem test_wellFormed_reserved_size : Fields.WellFormed ⟨0, 3, 0x10⟩ = false := by decide
theorem test_wellFormed_size_on_unsized : Fields.WellFormed ⟨0, 1, 0x01⟩ = false := by decide
theorem test_wellFormed_sized_word : Fields.WellFormed ⟨0, 2, 0x14⟩ = true := by decide

/-! ### Decoding: every command's word, written out from 30_encoding.md R88 -/

/-- The words of 30_encoding.md R88 with their commands. -/
def words : List (CommandWord × Instr) :=
  [(0x01, .vaTryNew), (0x02, .vaNewUnchecked), (0x03, .vaSplit), (0x04, .vaAdd), (0x05, .vaSub),
   (0x06, .paTryNew), (0x07, .paAdd), (0x08, .paSub), (0x09, .paIsAligned), (0x0A, .paAlignDown),
   (0x0B, .paAlignUp), (0x0C, .entryDecode), (0x0D, .entryEncode4K), (0x2D, .entryEncode2M),
   (0x4D, .entryEncode1G), (0x0E, .tableRead), (0x10, .mapTo4K), (0x30, .mapTo2M),
   (0x50, .mapTo1G), (0x11, .identityMap4K), (0x31, .identityMap2M), (0x51, .identityMap1G),
   (0x12, .unmap4K), (0x32, .unmap2M), (0x52, .unmap1G), (0x13, .updateFlags4K),
   (0x33, .updateFlags2M), (0x53, .updateFlags1G), (0x14, .translatePage4K),
   (0x34, .translatePage2M), (0x54, .translatePage1G), (0x15, .translate),
   (0x16, .translateAddr), (0x18, .flushToken), (0x19, .ignoreToken), (0x1A, .setRoot)]

theorem test_decode_words : ∀ p ∈ words, decode p.1 = .ok p.2 := by decide

theorem test_words_complete (i : Instr) : ∃ w, (w, i) ∈ words := by cases i <;> simp [words]

/-- 95_test_vectors.md section 2.6: the illegal words. -/
theorem test_decode_illegal :
    decode 0x00 = .error .reservedOpcode ∧ decode 0x0F = .error .reservedOpcode ∧
    decode 0x17 = .error .reservedOpcode ∧ decode 0x1B = .error .reservedOpcode ∧
    decode 0x1F = .error .reservedOpcode ∧ decode 0x21 = .error .sizeOnUnsized ∧
    decode 0x2E = .error .sizeOnUnsized ∧ decode 0x38 = .error .sizeOnUnsized ∧
    decode 0x6D = .error .reservedSize ∧ decode 0x70 = .error .reservedSize ∧
    decode 0x80 = .error .reservedBits ∧ decode 0x10001 = .error .reservedBits ∧
    decode 0xFFFFFFFF = .error .reservedBits := by decide

theorem test_decodeTableWord : decodeTableWord 32 0x4D = some .entryEncode1G ∧
    decodeTableWord 8 0x4D = some .entryEncode1G ∧ decodeTableWord 32 0x6D = none := by decide

/-- The first step after reset runs the word put there. -/
theorem test_withFetchWord : answer (step (State.reset.withFetchWord 32 0x1A)) =
    some (0x00, [0, 0, 0, 0, 0]) ∧
    unitAfter (step (State.reset.withFetchWord 32 0x1A)) = some 0x01 := by decide

/-! ### Address validation and arithmetic (95_test_vectors.md section 2.1) -/

/-- Vector VA5. -/
theorem test_vaTryNew_hole :
    answer (issueWord 0x01 (args 0x1000000000000 0x0 0x0)) =
    some (0x01, [2, 0, 0, 0, 0]) := by
  decide

/-- Vector VA4. -/
theorem test_vaTryNew_upper_half :
    answer (issueWord 0x01 (args 0xFFFF800000000000 0x0 0x0)) =
    some (0x00, [0xFFFF800000000000, 0, 0, 0, 0]) := by
  decide

/-- Vector VA7. -/
theorem test_vaNewUnchecked_clears :
    answer (issueWord 0x02 (args 0xFFFF7FFFFFFFFFFF 0x0 0x0)) =
    some (0x00, [0x7FFFFFFFFFFF, 0, 0, 0, 0]) := by
  decide

/-- Example E8. -/
theorem test_vaNewUnchecked_sets :
    answer (issueWord 0x02 (args 0x800000000000 0x0 0x0)) =
    some (0x00, [0xFFFF800000000000, 0, 0, 0, 0]) := by
  decide

/-- 40_address.md R112, worked out by hand; the indices differ. -/
theorem test_vaSplit_all_fields :
    answer (issueWord 0x03 (args 0xFFFF800040601123 0x0 0x0)) =
    some (0x00, [0x123, 1, 3, 1, 0x100]) := by
  decide

/-- Vector VA10. -/
theorem test_vaSplit_hole :
    answer (issueWord 0x03 (args 0x800000000000 0x0 0x0)) =
    some (0x01, [1, 0, 0, 0, 0]) := by
  decide

/-- Vector VA13. -/
theorem test_vaAdd_into_hole :
    answer (issueWord 0x04 (args 0x7FFFFFFFF000 0x1000 0x0)) =
    some (0x01, [1, 0, 0, 0, 0]) := by
  decide

/-- Vector VA15. -/
theorem test_vaAdd_across_hole :
    answer (issueWord 0x04 (args 0x7FFFFFFFFFFF 0xFFFF000000000001 0x0)) =
    some (0x00, [0xFFFF800000000000, 0, 0, 0, 0]) := by
  decide

/-- Vector VA21. -/
theorem test_vaSub_into_hole :
    answer (issueWord 0x05 (args 0xFFFF800000000000 0x1 0x0)) =
    some (0x01, [0x1FFFE, 0, 0, 0, 0]) := by
  decide

/-- Vector VA20. -/
theorem test_vaSub_below_zero :
    answer (issueWord 0x05 (args 0x1000 0x2000 0x0)) =
    some (0x0B, [0, 0, 0, 0, 0]) := by
  decide

/-- Example E9. -/
theorem test_paTryNew_bit_52 :
    answer (issueWord 0x06 (args 0x10000000000000 0x0 0x0)) =
    some (0x02, [1, 0, 0, 0, 0]) := by
  decide

/-- Vector VA23. -/
theorem test_paTryNew_top :
    answer (issueWord 0x06 (args 0xFFFFFFFFFFFFF 0x0 0x0)) =
    some (0x00, [0xFFFFFFFFFFFFF, 0, 0, 0, 0]) := by
  decide

/-- Vector VA27. -/
theorem test_paAdd_past_top :
    answer (issueWord 0x07 (args 0xFFFFFFFFFF000 0x1000 0x0)) =
    some (0x02, [1, 0, 0, 0, 0]) := by
  decide

/-- Vector VA28. -/
theorem test_paAdd_overflow :
    answer (issueWord 0x07 (args 0x1 0xFFFFFFFFFFFFFFFF 0x0)) =
    some (0x0B, [0, 0, 0, 0, 0]) := by
  decide

/-- Vector VA30. -/
theorem test_paSub_to_zero :
    answer (issueWord 0x08 (args 0x2123 0x2123 0x0)) =
    some (0x00, [0, 0, 0, 0, 0]) := by
  decide

/-- Vector VA31. -/
theorem test_paSub_below_zero :
    answer (issueWord 0x08 (args 0x0 0x1 0x0)) =
    some (0x0B, [0, 0, 0, 0, 0]) := by
  decide

/-- Vector VA33. -/
theorem test_paIsAligned_not :
    answer (issueWord 0x09 (args 0x201000 0x200000 0x0)) =
    some (0x00, [0, 0, 0, 0, 0]) := by
  decide

/-- Vector VA37. -/
theorem test_paIsAligned_not_pow2 :
    answer (issueWord 0x09 (args 0x1000 0x3 0x0)) =
    some (0x0C, [6, 0, 0, 0, 0]) := by
  decide

/-- Vector VA42. -/
theorem test_paAlignDown_2M :
    answer (issueWord 0x0A (args 0x3FFFFF 0x200000 0x0)) =
    some (0x00, [0x200000, 0, 0, 0, 0]) := by
  decide

/-- Vector VA43. -/
theorem test_paAlignDown_not_pow2 :
    answer (issueWord 0x0A (args 0x2FFF 0x6 0x0)) =
    some (0x0C, [6, 0, 0, 0, 0]) := by
  decide

/-- Vector VA44. -/
theorem test_paAlignUp_4K :
    answer (issueWord 0x0B (args 0x1001 0x1000 0x0)) =
    some (0x00, [0x2000, 0, 0, 0, 0]) := by
  decide

/-- Vector VA49. -/
theorem test_paAlignUp_past_top :
    answer (issueWord 0x0B (args 0x1 0x8000000000000000 0x0)) =
    some (0x02, [0x800, 0, 0, 0, 0]) := by
  decide

/-! ### Entries and tables (section 2.2) -/

/-- Vector VB5. -/
theorem test_entryDecode_fields :
    answer (issueWord 0x0C (args 0x8000000000002E07 0x0 0x0)) =
    some (0x00, [0x2000, 0x8000000000000E07, 0x2000, 0, 0]) := by
  decide

/-- Vector VB3. -/
theorem test_entryDecode_absent_first :
    answer (issueWord 0x0C (args 0x400080 0x0 0x0)) =
    some (0x09, [0x400000, 0x80, 0, 0, 0]) := by
  decide

/-- Vector VB8. -/
theorem test_entryEncode4K_nx :
    answer (issueWord 0x0D (args 0x0 0x2000 0x8000000000000003)) =
    some (0x00, [0x8000000000002003, 0, 0, 0, 0]) := by
  decide

/-- Vector VB16. -/
theorem test_entryEncode4K_huge :
    answer (issueWord 0x0D (args 0x0 0x2000 0x83)) =
    some (0x0C, [4, 0, 0, 0, 0]) := by
  decide

/-- Vector VB9. -/
theorem test_entryEncode2M_adds_huge :
    answer (issueWord 0x2D (args 0x0 0x200000 0x3)) =
    some (0x00, [0x200083, 0, 0, 0, 0]) := by
  decide

/-- Vector VB17. -/
theorem test_entryEncode2M_order :
    answer (issueWord 0x2D (args 0x0 0x1000 0x1083)) =
    some (0x0C, [2, 0, 0, 0, 0]) := by
  decide

/-- Vector VB10. -/
theorem test_entryEncode1G_huge_twice :
    answer (issueWord 0x4D (args 0x0 0x40000000 0x83)) =
    some (0x00, [0x40000083, 0, 0, 0, 0]) := by
  decide

/-- 41_entry_table.md R141, worked out by hand. -/
theorem test_entryEncode1G_misaligned :
    answer (issueWord 0x4D (args 0x0 0x200000 0x3)) =
    some (0x0C, [2, 0, 0, 0, 0]) := by
  decide

/-- 41_entry_table.md R142 on tree W. -/
theorem test_tableRead_top_index :
    answer (issueWord 0x0E (onW 0x100 0x100000 0x0)) =
    some (0x00, [0x140003, 0, 0, 0, 0]) := by
  decide

/-- Vector VB24. -/
theorem test_tableRead_refused :
    answer (issueWord 0x0E (args 0x0 0x2000000 0x0)) =
    some (0x12, [1, 0, 0, 0, 0]) ∧
    unitAfter (issueWord 0x0E (args 0x0 0x2000000 0x0)) = some 0x104 := by
  decide

/-! ### Translation (section 2.3) -/

/-- Vector VT1. -/
theorem test_translatePage4K_mapped :
    answer (issueWord 0x14 (onW 0x1000 0x0 0x0)) =
    some (0x00, [0x2000, 0x2000, 0, 0, 3]) := by
  decide

/-- Vector VT4. -/
theorem test_translatePage4K_malformed :
    answer (issueWord 0x14 (onW 0x3000 0x0 0x0)) =
    some (0x0F, [1, 0x5083, 0, 0, 0]) := by
  decide

/-- Vector VT10. -/
theorem test_translatePage2M_mapped :
    answer (issueWord 0x34 (onW 0x200000 0x0 0x0)) =
    some (0x00, [0x400000, 0x400000, 0, 1, 0x83]) := by
  decide

/-- Vector VT12. -/
theorem test_translatePage2M_bad_frame :
    answer (issueWord 0x34 (onW 0x400000 0x0 0x0)) =
    some (0x08, [0x401000, 0, 0, 0, 0]) := by
  decide

/-- Vector VT15. -/
theorem test_translatePage1G_mapped :
    answer (issueWord 0x54 (onW 0x40000000 0x0 0x0)) =
    some (0x00, [0x40000000, 0x40000000, 0, 2, 0x83]) := by
  decide

/-- Vector VT16. -/
theorem test_translatePage1G_table :
    answer (issueWord 0x54 (onW 0x0 0x0 0x0)) =
    some (0x03, [3, 0, 0, 0, 0]) := by
  decide

/-- Vector VT20. -/
theorem test_translate_2M :
    answer (issueWord 0x15 (onW 0x2ABCDE 0x0 0x0)) =
    some (0x00, [0x4ABCDE, 0x400000, 0xABCDE, 1, 0x83]) := by
  decide

/-- Vector VT27. -/
theorem test_translate_upper_half :
    answer (issueWord 0x15 (onW 0xFFFF800000000ABC 0x0 0x0)) =
    some (0x00, [0x7ABC, 0x7000, 0xABC, 0, 0x8000000000000007]) := by
  decide

/-- Vector VT32. -/
theorem test_translateAddr_upper_half :
    answer (issueWord 0x16 (onW 0xFFFF800000000ABC 0x0 0x0)) =
    some (0x00, [0x7ABC, 0, 0, 0, 0]) := by
  decide

/-- Vector VT31. -/
theorem test_translateAddr_none :
    answer (issueWord 0x16 (onW 0x80000000 0x0 0x0)) =
    some (0x03, [3, 0, 0, 0, 0]) := by
  decide

/-! ### Mapper (section 2.4) -/

/-- As vector VM10: the absent leaf that keeps an address is overwritten. -/
theorem test_mapTo4K_leaf :
    answer (issueWord 0x10 (onW 0x2000 0x4000 0x3)) =
    some (0x00, [0x2000, 0, 0, 0, 0]) ∧
    wordAfter 0x130010 (issueWord 0x10 (onW 0x2000 0x4000 0x3)) =
    some 0x4003 ∧
    unitAfter (issueWord 0x10 (onW 0x2000 0x4000 0x3)) = some 0x3 := by
  decide

/-- Vector VF3. -/
theorem test_mapTo4K_alloc_failed :
    answer (issueWord 0x10
      (onEmpty 0x1000 0x2000 0x3 [some 0x110000, some 0x120000, none])) =
    some (0x04, [2, 0x110000, 0x120000, 0, 0]) := by
  decide

/-- 43_mapper.md R191 on tree W, worked out by hand. -/
theorem test_mapTo2M_leaf :
    answer (issueWord 0x30 (onW 0x600000 0x200000 0x3)) =
    some (0x00, [0x600000, 0, 0, 0, 0]) ∧
    wordAfter 0x120018 (issueWord 0x30 (onW 0x600000 0x200000 0x3)) =
    some 0x200083 ∧
    unitAfter (issueWord 0x30 (onW 0x600000 0x200000 0x3)) = some 0xB := by
  decide

/-- As vector VM15. -/
theorem test_mapTo2M_parent_huge :
    answer (issueWord 0x30 (onW 0x40200000 0x600000 0x3)) =
    some (0x05, [3, 0, 0, 0, 0]) := by
  decide

/-- As vector VM13. -/
theorem test_mapTo1G_leaf :
    answer (issueWord 0x50 (onW 0x80000000 0x40000000 0x3)) =
    some (0x00, [0x80000000, 0, 0, 0, 0]) ∧
    wordAfter 0x110010 (issueWord 0x50 (onW 0x80000000 0x40000000 0x3)) =
    some 0x40000083 ∧
    unitAfter (issueWord 0x50 (onW 0x80000000 0x40000000 0x3)) = some 0x13 := by
  decide

/-- As vector VM12. -/
theorem test_mapTo1G_already :
    answer (issueWord 0x50 (onW 0x0 0x40000000 0x3)) =
    some (0x06, [0x120000, 0, 0, 0, 0]) := by
  decide

/-- 43_mapper.md R197 on tree W, worked out by hand; ARG0 is not read. -/
theorem test_identityMap4K_leaf :
    answer (issueWord 0x11 (onW 0x1000 0x5000 0x3)) =
    some (0x00, [0x5000, 0, 0, 0, 0]) ∧
    wordAfter 0x130028 (issueWord 0x11 (onW 0x1000 0x5000 0x3)) =
    some 0x5003 := by
  decide

/-- 43_mapper.md R197, R190 step 4. -/
theorem test_identityMap4K_flags :
    answer (issueWord 0x11 (onW 0x0 0x5000 0x83)) =
    some (0x0C, [4, 0, 0, 0, 0]) := by
  decide

/-- 43_mapper.md R197 on tree W, worked out by hand. -/
theorem test_identityMap2M_leaf :
    answer (issueWord 0x31 (onW 0x0 0x800000 0x1)) =
    some (0x00, [0x800000, 0, 0, 0, 0]) ∧
    wordAfter 0x120020 (issueWord 0x31 (onW 0x0 0x800000 0x1)) =
    some 0x800081 ∧
    unitAfter (issueWord 0x31 (onW 0x0 0x800000 0x1)) = some 0xB := by
  decide

/-- 43_mapper.md R197. -/
theorem test_identityMap2M_misaligned :
    answer (issueWord 0x31 (onW 0x0 0x801000 0x1)) =
    some (0x0C, [2, 0, 0, 0, 0]) := by
  decide

/-- 43_mapper.md R197 on tree W, worked out by hand. -/
theorem test_identityMap1G_leaf :
    answer (issueWord 0x51 (onW 0x0 0x80000000 0x3)) =
    some (0x00, [0x80000000, 0, 0, 0, 0]) ∧
    wordAfter 0x110010 (issueWord 0x51 (onW 0x0 0x80000000 0x3)) =
    some 0x80000083 := by
  decide

/-- Program P4 step 6. -/
theorem test_identityMap1G_hole :
    answer (issueWord 0x51 (onW 0x0 0x800000000000 0x3)) =
    some (0x01, [1, 0, 0, 0, 0]) := by
  decide

/-- As program P1 step 6. -/
theorem test_unmap4K_clears :
    answer (issueWord 0x12 (onW 0x1000 0x0 0x0)) =
    some (0x00, [0x2000, 0, 0, 0, 0]) ∧
    wordAfter 0x130008 (issueWord 0x12 (onW 0x1000 0x0 0x0)) =
    some 0x0 ∧
    unitAfter (issueWord 0x12 (onW 0x1000 0x0 0x0)) = some 0x3 := by
  decide

/-- Vector VU3. -/
theorem test_unmap4K_inside_2M :
    answer (issueWord 0x12 (onW 0x200000 0x0 0x0)) =
    some (0x07, [2, 0, 0, 0, 0]) := by
  decide

/-- 43_mapper.md R198 on tree W, worked out by hand. -/
theorem test_unmap2M_clears :
    answer (issueWord 0x32 (onW 0x200000 0x0 0x0)) =
    some (0x00, [0x400000, 0, 0, 0, 0]) ∧
    wordAfter 0x120008 (issueWord 0x32 (onW 0x200000 0x0 0x0)) =
    some 0x0 := by
  decide

/-- Vector VU8. -/
theorem test_unmap2M_bad_frame :
    answer (issueWord 0x32 (onW 0x400000 0x0 0x0)) =
    some (0x08, [0x401000, 0, 0, 0, 0]) := by
  decide

/-- Vector VU9. -/
theorem test_unmap1G_clears :
    answer (issueWord 0x52 (onW 0x40000000 0x0 0x0)) =
    some (0x00, [0x40000000, 0, 0, 0, 0]) ∧
    wordAfter 0x110008 (issueWord 0x52 (onW 0x40000000 0x0 0x0)) =
    some 0x0 ∧
    unitAfter (issueWord 0x52 (onW 0x40000000 0x0 0x0)) = some 0x13 := by
  decide

/-- 43_mapper.md R198 on tree W, worked out by hand. -/
theorem test_unmap1G_table :
    answer (issueWord 0x52 (onW 0x0 0x0 0x0)) =
    some (0x07, [3, 0, 0, 0, 0]) := by
  decide

/-- Vector VU10. -/
theorem test_updateFlags4K_replaces :
    answer (issueWord 0x13 (onW 0x1000 0x0 0x8000000000000007)) =
    some (0x00, [0x8000000000002007, 0, 0, 0, 0]) ∧
    wordAfter 0x130008 (issueWord 0x13 (onW 0x1000 0x0 0x8000000000000007)) =
    some 0x8000000000002007 ∧
    unitAfter (issueWord 0x13 (onW 0x1000 0x0 0x8000000000000007)) = some 0x3 := by
  decide

/-- Vector VU16. -/
theorem test_updateFlags4K_huge_entry :
    answer (issueWord 0x13 (onW 0x3000 0x0 0x3)) =
    some (0x03, [1, 0, 0, 0, 0]) := by
  decide

/-- Vector VU19. -/
theorem test_updateFlags2M_keeps_address :
    answer (issueWord 0x33 (onW 0x400000 0x0 0x3)) =
    some (0x00, [0x401083, 0, 0, 0, 0]) ∧
    wordAfter 0x120010 (issueWord 0x33 (onW 0x400000 0x0 0x3)) =
    some 0x401083 ∧
    unitAfter (issueWord 0x33 (onW 0x400000 0x0 0x3)) = some 0xB := by
  decide

/-- Vector VU20. -/
theorem test_updateFlags2M_absent :
    answer (issueWord 0x33 (onW 0x200000 0x0 0x0)) =
    some (0x00, [0x400080, 0, 0, 0, 0]) ∧
    wordAfter 0x120008 (issueWord 0x33 (onW 0x200000 0x0 0x0)) =
    some 0x400080 := by
  decide

/-- 43_mapper.md R199 on tree W, worked out by hand. -/
theorem test_updateFlags1G_replaces :
    answer (issueWord 0x53 (onW 0x40000000 0x0 0x1)) =
    some (0x00, [0x40000081, 0, 0, 0, 0]) ∧
    wordAfter 0x110008 (issueWord 0x53 (onW 0x40000000 0x0 0x1)) =
    some 0x40000081 := by
  decide

/-- 43_mapper.md R199 on tree W, worked out by hand. -/
theorem test_updateFlags1G_table :
    answer (issueWord 0x53 (onW 0x0 0x0 0x1)) =
    some (0x03, [3, 0, 0, 0, 0]) := by
  decide

/-! ### Token, root, TLB, reset (sections 2.5 to 2.7) -/

/-- Translations of page 0x1000, and of a page that lies inside the 2 MiB page 0x200000. -/
def cachedPages : List TlbEntry :=
  [⟨0x1000, .s4K, 0x2000, 0x3⟩, ⟨0x201000, .s4K, 0x5000, 0x3⟩]

/-- A walker over tree W with an outstanding token and cached translations. -/
def withToken (c : SizeClass) (va : Word) : State :=
  { onW 0 0 0 with tv := true, tokenVa := va, tsz := c.code, tlb := cachedPages }

/-- The TLB after, if there is a next state. -/
def tlbAfter (o : Host.Outcome State Fault Refusal) : Option (List TlbEntry) :=
  match o with
  | .next t => some t.tlb
  | _ => none

/-- As vector VU19's FLUSH_TOKEN; and vector VL3: the entry inside the page stays. -/
theorem test_flushToken_2M :
    answer (issueWord 0x18 (withToken .s2M 0x200000)) = some (0x00, [0x200000, 1, 0, 0, 0]) ∧
    unitAfter (issueWord 0x18 (withToken .s2M 0x200000)) = some 0x01 ∧
    tlbAfter (issueWord 0x18 (withToken .s2M 0x200000)) = some cachedPages := by decide

/-- Program P1 step 7 and vector VL2: the token's page goes. -/
theorem test_flushToken_4K :
    tlbAfter (issueWord 0x18 (withToken .s4K 0x1000)) =
      some [⟨0x201000, .s4K, 0x5000, 0x3⟩] := by decide

/-- As program P2 step 3: nothing is flushed. -/
theorem test_ignoreToken_2M :
    answer (issueWord 0x19 (withToken .s2M 0x200000)) = some (0x00, [0x200000, 1, 0, 0, 0]) ∧
    tlbAfter (issueWord 0x19 (withToken .s4K 0x1000)) = some cachedPages := by decide

/-- Vector VR2. -/
theorem test_ignoreToken_none :
    answer (issueWord 0x19 State.reset) = some (0x0E, [0, 0, 0, 0, 0]) := by decide

/-- Vector VR9: the old root is answered, and the token stays. -/
theorem test_setRoot_with_token :
    answer (issueWord 0x1A { withToken .s4K 0x1000 with arg1 := 0x100018 }) =
      some (0x00, [0x100000, 0, 0, 0, 0]) ∧
    unitAfter (issueWord 0x1A { withToken .s4K 0x1000 with arg1 := 0x100018 }) = some 0x03 := by
  decide

/-- Vector VR4. -/
theorem test_setRoot_not_physical :
    answer (issueWord 0x1A (args 0 0x0010000000000000 0)) = some (0x02, [1, 0, 0, 0, 0]) := by
  decide

/-- Vectors VQ3 and VQ4: the token before the arguments, the page before the frame. -/
theorem test_mapper_precedence :
    answer (issueWord 0x10
      { withToken .s4K 0x1000 with arg0 := 0x800000000000, arg1 := 0x3, arg2 := 0x83 }) =
      some (0x0D, [0x1000, 0, 0, 0, 0]) ∧
    answer (issueWord 0x10 (onW 0x800000000000 0x10000000000000 0x83)) =
      some (0x01, [1, 0, 0, 0, 0]) := by
  decide

/-- Vectors VB26 and VB25: a fault comes before an illegal word and before a command. -/
theorem test_fault_precedence :
    answer (issueWord 0x00 { State.reset with flt := true, fcause := 1 }) =
      some (0x12, [1, 0, 0, 0, 0]) ∧
    answer (issueWord 0x01 { State.reset with flt := true, fcause := 1 }) =
      some (0x12, [1, 0, 0, 0, 0]) := by
  decide

/-- Vector VL1: with the entry the core uses it, else the walker's TRANSLATE. -/
theorem test_core_access :
    (match coreAccess 0x1123 (some 0) (withToken .s4K 0x1000) with
     | .next t => t.coreXlat | _ => none) = some 0x2123 ∧
    (match coreAccess 0x2ABCDE (some 0) (withToken .s4K 0x1000) with
     | .next t => t.coreXlat | _ => none) = some 0x4ABCDE := by
  decide


/-! ### Tools for the witnesses -/

/-- The next state, where there is one. -/
def after (o : Host.Outcome State Fault Refusal) : State :=
  match o with
  | .next t => t
  | _ => State.reset

/-- Whether there is a next state. -/
def isNext (o : Host.Outcome State Fault Refusal) : Bool :=
  match o with
  | .next _ => true
  | _ => false

theorem eq_after {o : Host.Outcome State Fault Refusal} (h : isNext o = true) :
    o = .next (after o) := by
  cases o <;> simp_all [isNext, after]

/-- Every command answers a next state (00_scope.md R10). -/
theorem exec_after (i : Instr) (s : State) : exec i s = .next (after (exec i s)) := by
  rw [exec_eq_command]; rfl

/-- The first step after reset runs the word put there, for every command of the table. -/
theorem test_withFetchWord_every_command :
    words.all (fun p => decodeTableWord 32 p.1.toNat == some p.2 &&
      isNext (step (State.reset.withFetchWord 32 p.1.toNat)) &&
      after (step (State.reset.withFetchWord 32 p.1.toNat)) == after (exec p.2 State.reset)) =
      true := by decide

/-- Log entry 5: a fatal program error drops the host's actions; a reset of the platform stays. -/
theorem test_host_stops :
    (match act .haltUnlessOk { State.reset with
        status := 1
        pending := [.write 3 1, .tlbEvict 0, .resetDuring 0x12 2, .race (.core 0) [] [] none,
          .tlbInvalidate 0 1, .race (.host 0x12) [] [] none, .reset] } with
     | .next t => t.pending | _ => []) =
      [.tlbEvict 0, .reset, .race (.core 0) [] [] none, .reset] := by decide

/-- 44_flush_root.md R233: the run is judged after the last command that the host issues. A TLB
action after that point changes nothing, and the platform's reset after it does not make up for an
unresolved token, whatever the host still reads. -/
theorem test_wellEnded :
    ({ State.reset with pending := [.tlbEvict 0] } : State).wellEnded = true ∧
    ({ withToken .s4K 0x1000 with pending := [.reset] } : State).wellEnded = false ∧
    ({ withToken .s4K 0x1000 with pending := [.reset, .read 4, .write 0 1, .memRead 0] } :
      State).wellEnded = false ∧
    ({ withToken .s4K 0x1000 with pending := [.reset, .write 3 0x01, .read 4] } :
      State).wellEnded = true ∧
    ({ withToken .s4K 0x1000 with pending := [.write 3 0x18, .tlbEvict 0] } : State).wellEnded =
      true ∧
    ({ withToken .s4K 0x1000 with pending := [.write 3 0, .haltUnlessOk, .write 3 0x18] } :
      State).wellEnded = false := by decide

/-- A conditional write of `CMD` counts where it is made: after the reset it is; after the reset and
a failed miss path (NO_ROOT) it is not. -/
theorem test_wellEnded_conditional :
    ({ withToken .s4K 0x1000 with pending := [.reset, .writeIfOk 3 0x01] } : State).wellEnded =
      true ∧
    ({ withToken .s4K 0x1000 with pending := [.reset, .access 0x1000 none, .writeIfOk 3 0x01] } :
      State).wellEnded = false := by decide

/-- Log entry 5: a direct access outside physical memory counts only while commands are left. -/
theorem test_wellEnded_fault :
    ({ State.reset with pending := [.memRead 0x10000000000000] } : State).wellEnded = true ∧
    ({ State.reset with pending := [.memRead 0x10000000000000, .write 3 1] } : State).wellEnded =
      false := by decide

/-- Log entry 20: a reset abandons the core's TRANSLATE, and the core gets no answer. -/
theorem test_core_abandoned :
    (match act (.race (.core 0x1123) [] [] (some 1)) { onW 0 0 0 with coreXlat := some 7 } with
     | .next t => (t.coreXlat, t.arg0, t.rv)
     | _ => (none, 1, true)) = (some 7, 0, false) := by decide

/-! ### Other agents: racing writes and the host's own invalidation -/

/-- The command word `w` on tree W, with the arguments given, while another agent performs `r`. -/
def raced (w : CommandWord) (a0 a1 : Word) (r : RacingWrite) (draws : List (List Bool))
    (reset : Option Nat) : Host.Outcome State Fault Refusal :=
  act (.race (.host w) [r] draws reset) (onW a0 a1 0)

/-- 20_memory.md R62(c), R68: the read of a TABLE_READ gives the old word or the new one; the new
one is in memory after. -/
theorem test_race_tableRead :
    answer (raced 0x0E 1 0x130000 ⟨0, 0x130008, 0x9003⟩ [[false]] none) =
      some (0x00, [0x2003, 0, 0, 0, 0]) ∧
    answer (raced 0x0E 1 0x130000 ⟨0, 0x130008, 0x9003⟩ [[true]] none) =
      some (0x00, [0x9003, 0, 0, 0, 0]) ∧
    wordAfter 0x130008 (raced 0x0E 1 0x130000 ⟨0, 0x130008, 0x9003⟩ [[false]] none) =
      some 0x9003 := by decide

/-- The same in a walk of four reads, of which the last is raced with. -/
theorem test_race_translate :
    answer (raced 0x15 0x1123 0 ⟨0, 0x130008, 0x9001⟩ [[], [], [], [true]] none) =
      some (0x00, [0x9123, 0x9000, 0x123, 0, 1]) ∧
    answer (raced 0x15 0x1123 0 ⟨0, 0x130008, 0x9001⟩ [] none) =
      some (0x00, [0x2123, 0x2000, 0x123, 0, 3]) := by decide

/-- 20_memory.md R56: a racing write before the write of UNMAP is overwritten; one after it stays. -/
theorem test_race_unmap :
    wordAfter 0x130008 (raced 0x12 0x1000 0 ⟨0, 0x130008, 0x9003⟩ [] none) = some 0 ∧
    wordAfter 0x130008 (raced 0x12 0x1000 0 ⟨1, 0x130008, 0x9003⟩ [] none) = some 0x9003 := by
  decide

/-- 70_reset_and_hazards.md R280 with a race: a reset after the four reads of UNMAP. -/
theorem test_race_reset :
    wordAfter 0x130008 (raced 0x12 0x1000 0 ⟨0, 0x1000, 7⟩ [] (some 4)) = some 0x2003 ∧
    wordAfter 0x1000 (raced 0x12 0x1000 0 ⟨0, 0x1000, 7⟩ [] (some 4)) = some 7 ∧
    unitAfter (raced 0x12 0x1000 0 ⟨0, 0x1000, 7⟩ [] (some 4)) = some 0 := by decide

/-- 70_reset_and_hazards.md R287: no translation of the range is left, cached or on offer. -/
theorem test_tlbInvalidate :
    (match act (.tlbInvalidate 0x201FFF 0x3FFFFF)
        { withToken .s4K 0x1000 with fillable := cachedPages } with
     | .next t => (t.tlb, (t.tlbFill 1).tlb, t.tv)
     | _ => ([], [], false)) =
      ([⟨0x1000, .s4K, 0x2000, 0x3⟩], [⟨0x1000, .s4K, 0x2000, 0x3⟩], true) := by decide

/-- The table that a walk for `va` reaches `d` levels below the root. -/
def tableBelow (s : State) (va : Word) : Nat → Option Word
  | 0 => some s.rootFrame
  | d + 1 =>
    (tableBelow s va d).bind fun t =>
      let e := s.entryAt (4 - d) va t
      if s.admits (entryPa (4 - d) va t) 8 && e.getLsbD 0 && !e.getLsbD 7 then
        some (e &&& Config.addrMask)
      else none

theorem reaches_of {s : State} {va : Word} (d : Nat) {t : Word} (hd : d ≤ 3)
    (h : tableBelow s va d = some t) : Reaches s va (4 - d) t := by
  induction d generalizing t with
  | zero => cases h; exact .root
  | succ d ih =>
    obtain ⟨u, hu, h⟩ := Option.bind_eq_some_iff.1 h
    have e : 4 - (d + 1) + 1 = 4 - d := by omega
    simp only [Option.ite_none_right_eq_some, Bool.and_eq_true, Bool.not_eq_true',
      Option.some.injEq] at h
    obtain ⟨⟨⟨ha, hp⟩, hs⟩, rfl⟩ := h
    have := Reaches.down (level := 4 - (d + 1)) (t := u) (s := s) (va := va)
      (by rw [e]; exact ih (by omega) hu) (by omega) (by rw [e]; exact ha) (by rw [e]; exact hp)
      (by rw [e]; exact hs)
    rw [e] at this
    exact this

/-- The entry that a walk for `va` reads there. -/
def entryBelow (s : State) (va : Word) (d : Nat) : Option Word :=
  (tableBelow s va d).bind fun t =>
    if s.admits (entryPa (4 - d) va t) 8 then some (s.entryAt (4 - d) va t) else none

theorem reads_of {s : State} {va : Word} (d : Nat) {e : Word} (hd : d ≤ 3)
    (h : entryBelow s va d = some e) : s.WalkReads va (4 - d) e := by
  obtain ⟨t, ht, h⟩ := Option.bind_eq_some_iff.1 h
  simp only [Option.ite_none_right_eq_some, Option.some.injEq] at h
  exact ⟨t, reaches_of d hd ht, h.1, h.2.symm⟩

/-- The state with a write of `CMD` as its only action to come. -/
def withCmd (v : Word) (s : State) : State := { s with pending := [.write 3 v] }

/-! ### Witnesses: encoding, step, register window, reset -/

theorem witness_IllegalWords :
    (withCmd 0x80 State.reset).pending = .write 3 0x80 :: [] ∧
    (¬∃ i, decode ((0x80 : Word).setWidth 32) = .ok i) ∧ (withCmd 0x80 State.reset).flt = false ∧
    (withCmd 0x80 { State.reset with flt := true, fcause := 2 }).flt = true := by
  refine ⟨rfl, ?_, rfl, rfl⟩
  rintro ⟨i, h⟩
  have : decode ((0x80 : Word).setWidth 32) = .error .reservedBits := by decide
  rw [this] at h
  cases h

theorem witness_StepRunsDecodedCommand :
    (withCmd 0xFFFFFFFF00000015 (onW 0x1123 0 0)).pending = .write 3 0xFFFFFFFF00000015 :: [] ∧
    decode ((0xFFFFFFFF00000015 : Word).setWidth 32) = .ok .translate ∧
    (onW 0 0 0).pending = [] := ⟨rfl, by decide, rfl⟩

theorem witness_RegisterWindow (slot : BitVec 4) (h : 4 ≤ slot.toNat) :
    ({ State.reset with pending := [.read 12] } : State).pending = .read 12 :: [] ∧
    ({ State.reset with pending := [.write 0 7] } : State).pending = .write 0 7 :: [] ∧
    ({ State.reset with pending := [.write 1 7] } : State).pending = .write 1 7 :: [] ∧
    ({ State.reset with pending := [.write 2 7] } : State).pending = .write 2 7 :: [] ∧
    ({ State.reset with pending := [.write 3 7] } : State).pending = .write 3 7 :: [] ∧
    ({ State.reset with pending := [.write slot 7] } : State).pending = .write slot 7 :: [] ∧
    4 ≤ (4 : BitVec 4).toNat ∧ 4 ≤ (15 : BitVec 4).toNat ∧ 4 ≤ slot.toNat :=
  ⟨rfl, rfl, rfl, rfl, rfl, rfl, by decide, by decide, h⟩

theorem witness_ResetClearsTheWalkerOnly :
    ({ withToken .s4K 0x1000 with pending := [.reset] } : State).pending = .reset :: [] := rfl

/-- UNMAP.4K makes four reads and one write: a reset after 4 port events comes before the write,
and one after 5 comes when all is done. -/
theorem witness_ResetInMidCommand :
    ({ onW 0x1000 0 0 with pending := [.resetDuring 0x12 4] } : State).pending =
      .resetDuring 0x12 4 :: [] ∧
    ({ onW 0x1000 0 0 with pending := [.resetDuring 0x12 5] } : State).pending =
      .resetDuring 0x12 5 :: [] ∧
    ∃ u, issueWord 0x12 (onW 0x1000 0 0) = .next u ∧ u.ports.length = 5 :=
  ⟨rfl, rfl, after (issueWord 0x12 (onW 0x1000 0 0)), eq_after (by decide), by decide⟩

/-- A walker whose sticky fault is set, with one action to come. -/
def faultedWith (a : Action) : State :=
  { onW 0 0 0 with flt := true, fcause := 1, pending := [a] }

theorem witness_StickyFault :
    (faultedWith (.write 3 0x18)).flt = true ∧
    (faultedWith (.write 3 0x18)).pending = .write 3 0x18 :: [] ∧
    Action.write 3 0x18 ≠ .reset ∧ (∀ w n, Action.write 3 0x18 ≠ .resetDuring w n) ∧
    (∀ source rs draws n, Action.write 3 0x18 ≠ .race source rs draws (some n)) ∧
    step (faultedWith (.write 3 0x18)) = .next (after (step (faultedWith (.write 3 0x18)))) ∧
    (∀ source rs draws n, Action.race (.core 0) [] [] none ≠ .race source rs draws (some n)) ∧
    step (faultedWith (.race (.core 0) [] [] none)) =
      .next (after (step (faultedWith (.race (.core 0) [] [] none)))) ∧
    (faultedWith .reset).pending = .reset :: [] :=
  ⟨rfl, rfl, by decide, fun _ _ h => (by cases h), fun _ _ _ _ h => (by cases h),
    eq_after (by decide), fun _ _ _ _ h => (by cases h), eq_after (by decide), rfl⟩

/-! ### Witnesses: address validation and arithmetic, at the bounds of each clause -/

theorem witness_VaTryNewResult :
    (args 0x7FFFFFFFFFFF 0 0).flt = false ∧ CanonicalAddress (args 0x7FFFFFFFFFFF 0 0).arg0 ∧
    CanonicalAddress (args 0xFFFF800000000000 0 0).arg0 ∧
    ¬CanonicalAddress (args 0x800000000000 0 0).arg0 ∧
    ¬CanonicalAddress (args 0xFFFF7FFFFFFFFFFF 0 0).arg0 := by
  unfold CanonicalAddress; decide

theorem witness_VaNewUncheckedResult :
    (args 0x800000000000 0 0).flt = false ∧
    CanonicalAddress (args 0xFFFF800000000000 0 0).arg0 := by
  unfold CanonicalAddress; decide

theorem witness_VaSplitResult :
    (args 0xFFFF800000000000 0 0).flt = false ∧
    CanonicalAddress (args 0xFFFF800000000000 0 0).arg0 ∧
    ¬CanonicalAddress (args 0xFFFF7FFFFFFFFFFF 0 0).arg0 := by
  unfold CanonicalAddress; decide

theorem witness_SplitReconstructsLow48 :
    (args 0x8040201123 0 0).flt = false ∧ CanonicalAddress (args 0x8040201123 0 0).arg0 := by
  unfold CanonicalAddress; decide

theorem witness_VaAddResult :
    (args 0x800000000000 0 0).flt = false ∧ ¬CanonicalAddress (args 0x800000000000 0 0).arg0 ∧
    CanonicalAddress (args 0xFFFFFFFFFFFFF000 0x1000 0).arg0 ∧
    2 ^ 64 ≤ (0xFFFFFFFFFFFFF000#64).toNat + (0x1000#64).toNat ∧
    CanonicalAddress (args 0x7FFFFFFFF000 0x1000 0).arg0 ∧
    (0x800000000000#64).toNat = (0x7FFFFFFFF000#64).toNat + (0x1000#64).toNat ∧
    ¬CanonicalAddress 0x800000000000#64 ∧ CanonicalAddress (args 0x7FFFFFFFF000 0xFFF 0).arg0 ∧
    (0x7FFFFFFFFFFF#64).toNat = (0x7FFFFFFFF000#64).toNat + (0xFFF#64).toNat ∧
    CanonicalAddress 0x7FFFFFFFFFFF#64 := by
  unfold CanonicalAddress; decide

theorem witness_VaSubResult :
    (args 0x800000000000 0 0).flt = false ∧ ¬CanonicalAddress (args 0x800000000000 0 0).arg0 ∧
    CanonicalAddress (args 0x1000 0x1001 0).arg0 ∧ (0x1000#64).toNat < (0x1001#64).toNat ∧
    CanonicalAddress (args 0xFFFF800000000000 1 0).arg0 ∧
    (0xFFFF7FFFFFFFFFFF#64).toNat + (1#64).toNat = (0xFFFF800000000000#64).toNat ∧
    ¬CanonicalAddress 0xFFFF7FFFFFFFFFFF#64 ∧ CanonicalAddress (args 0x5000 0x5000 0).arg0 ∧
    (0#64).toNat + (0x5000#64).toNat = (0x5000#64).toNat ∧ CanonicalAddress 0#64 := by
  unfold CanonicalAddress; decide

theorem witness_PaTryNewResult :
    (args 0xFFFFFFFFFFFFF 0 0).flt = false ∧ PhysicalAddress (args 0xFFFFFFFFFFFFF 0 0).arg0 ∧
    ¬PhysicalAddress (args 0x10000000000000 0 0).arg0 := by
  unfold PhysicalAddress; decide

theorem witness_PaAddResult :
    (args 0x10000000000000 0 0).flt = false ∧ ¬PhysicalAddress (args 0x10000000000000 0 0).arg0 ∧
    PhysicalAddress (args 1 0xFFFFFFFFFFFFFFFF 0).arg0 ∧
    2 ^ 64 ≤ (1#64).toNat + (0xFFFFFFFFFFFFFFFF#64).toNat ∧
    PhysicalAddress (args 0xFFFFFFFFFFFFF 1 0).arg0 ∧
    (0x10000000000000#64).toNat = (0xFFFFFFFFFFFFF#64).toNat + (1#64).toNat ∧
    ¬PhysicalAddress 0x10000000000000#64 ∧ PhysicalAddress (args 0xFFFFFFFFFF000 0xFFF 0).arg0 ∧
    (0xFFFFFFFFFFFFF#64).toNat = (0xFFFFFFFFFF000#64).toNat + (0xFFF#64).toNat ∧
    PhysicalAddress 0xFFFFFFFFFFFFF#64 := by
  unfold PhysicalAddress; decide

theorem witness_PaSubResult :
    (args 0x10000000000000 0 0).flt = false ∧ ¬PhysicalAddress (args 0x10000000000000 0 0).arg0 ∧
    PhysicalAddress (args 0 1 0).arg0 ∧ (0#64).toNat < (1#64).toNat ∧
    PhysicalAddress (args 0x2123 0x2123 0).arg0 ∧
    (0#64).toNat + (0x2123#64).toNat = (0x2123#64).toNat := by
  unfold PhysicalAddress; decide

theorem witness_PaIsAlignedResult :
    (args 0x10000000000000 1 0).flt = false ∧ ¬PhysicalAddress (args 0x10000000000000 1 0).arg0 ∧
    PhysicalAddress (args 0x1000 0 0).arg0 ∧ (¬∃ k < 64, (args 0x1000 0 0).arg1.toNat = 2 ^ k) ∧
    PhysicalAddress (args 0 0x8000000000000000 0).arg0 ∧
    (∃ k < 64, (args 0 0x8000000000000000 0).arg1.toNat = 2 ^ k) ∧
    (0#64).toNat % (0x8000000000000000#64).toNat = 0 ∧
    (∃ k < 64, (args 0x201000 0x200000 0).arg1.toNat = 2 ^ k) ∧
    PhysicalAddress (args 0x201000 0x200000 0).arg0 ∧
    (0x201000#64).toNat % (0x200000#64).toNat ≠ 0 := by
  unfold PhysicalAddress; decide

theorem witness_PaAlignDownResult :
    (args 0x10000000000000 1 0).flt = false ∧ ¬PhysicalAddress (args 0x10000000000000 1 0).arg0 ∧
    PhysicalAddress (args 0x2FFF 6 0).arg0 ∧ (¬∃ k < 64, (args 0x2FFF 6 0).arg1.toNat = 2 ^ k) ∧
    PhysicalAddress (args 0xFFFFFFFFFFFFF 0x8000000000000000 0).arg0 ∧
    (∃ k < 64, (args 0xFFFFFFFFFFFFF 0x8000000000000000 0).arg1.toNat = 2 ^ k) := by
  unfold PhysicalAddress; decide

theorem witness_PaAlignUpResult :
    (args 0x10000000000000 1 0).flt = false ∧ ¬PhysicalAddress (args 0x10000000000000 1 0).arg0 ∧
    PhysicalAddress (args 0x2FFF 6 0).arg0 ∧ (¬∃ k < 64, (args 0x2FFF 6 0).arg1.toNat = 2 ^ k) ∧
    PhysicalAddress (args 0x1001 0x1000 0).arg0 ∧
    (∃ k < 64, (args 0x1001 0x1000 0).arg1.toNat = 2 ^ k) ∧
    (0x2000#64).toNat =
      ((0x1001#64).toNat + (0x1000#64).toNat - 1) / (0x1000#64).toNat * (0x1000#64).toNat ∧
    PhysicalAddress 0x2000#64 ∧ PhysicalAddress (args 1 0x8000000000000000 0).arg0 ∧
    (∃ k < 64, (args 1 0x8000000000000000 0).arg1.toNat = 2 ^ k) ∧
    (0x8000000000000000#64).toNat = ((1#64).toNat + (0x8000000000000000#64).toNat - 1) /
      (0x8000000000000000#64).toNat * (0x8000000000000000#64).toNat ∧
    ¬PhysicalAddress 0x8000000000000000#64 := by
  unfold PhysicalAddress; decide

/-! ### Witnesses: entries and tables -/

theorem witness_EntryDecodeResult :
    (args 0x400080 0 0).flt = false ∧
    0x400000#64 = (args 0x400080 0 0).arg0 &&& 0x000FFFFFFFFFF000#64 ∧
    0x80#64 = (args 0x400080 0 0).arg0 &&& 0xFFF0000000000FFF#64 ∧
    (args 0x400080 0 0).arg0.getLsbD 0 = false ∧ (args 0x400083 0 0).arg0.getLsbD 0 = true ∧
    (args 0x400083 0 0).arg0.getLsbD 7 = true ∧ (args 0x2003 0 0).arg0.getLsbD 0 = true ∧
    (args 0x2003 0 0).arg0.getLsbD 7 = false := by decide

theorem witness_EntryEncodeResult :
    (args 0 0x10000000000000 0).flt = false ∧ ¬PhysicalAddress (args 0 0x10000000000000 0).arg1 ∧
    PhysicalAddress (args 0 0x1000 0).arg1 ∧ (args 0 0x1000 0).arg1.toNat % sizeBytes .s2M ≠ 0 ∧
    GoodFrame .s1G (args 0 0x40000000 0x1003).arg1 ∧
    (args 0 0x40000000 0x1003).arg2 &&& 0x000FFFFFFFFFF000#64 ≠ 0 ∧
    GoodFrame .s4K (args 0 0x2000 0x83).arg1 ∧
    (args 0 0x2000 0x83).arg2 &&& 0x000FFFFFFFFFF000#64 = 0 ∧
    (args 0 0x2000 0x83).arg2.getLsbD 7 = true ∧
    GoodFrame .s4K (args 0 0x2000 0x8000000000000003).arg1 ∧
    GoodFlags .s4K (args 0 0x2000 0x8000000000000003).arg2 ∧
    GoodFrame .s2M (args 0 0x200000 0x83).arg1 ∧ GoodFlags .s2M (args 0 0x200000 0x83).arg2 ∧
    GoodFrame .s1G (args 0 0x40000000 0x83).arg1 ∧
    GoodFlags .s1G (args 0 0x40000000 0x83).arg2 := by
  unfold GoodFrame GoodFlags PhysicalAddress; decide

theorem witness_TableReadResult :
    (args 0 0x10000000000000 0).flt = false ∧ ¬PhysicalAddress (args 0 0x10000000000000 0).arg1 ∧
    PhysicalAddress (args 0 0x100008 0).arg1 ∧ (args 0 0x100008 0).arg1.toNat % 0x1000 ≠ 0 ∧
    PhysicalAddress (args 512 0x100000 0).arg1 ∧
    (args 512 0x100000 0).arg1.toNat % 0x1000 = 0 ∧ 511 < (args 512 0x100000 0).arg0.toNat ∧
    PhysicalAddress (args 0 0x1000000 0).arg1 ∧
    (args 0 0x1000000 0).arg1.toNat % 0x1000 = 0 ∧ (args 0 0x1000000 0).arg0.toNat ≤ 511 ∧
    (args 0 0x1000000 0).admits (0x1000000 + 8 * 0) 8 = false ∧
    PhysicalAddress (args 511 0xFFF000 0).arg1 ∧
    (args 511 0xFFF000 0).arg1.toNat % 0x1000 = 0 ∧ (args 511 0xFFF000 0).arg0.toNat ≤ 511 ∧
    (args 511 0xFFF000 0).admits (0xFFF000 + 8 * 511) 8 = true ∧
        (args 511 0xFFF000 0).views = [] := by
  unfold PhysicalAddress; decide

theorem witness_EntryDecodeTable :
    0x400000#64 = 0x400083#64 &&& 0x000FFFFFFFFFF000#64 ∧ (0x3002#64).getLsbD 0 = false ∧
    (0x400083#64).getLsbD 0 = true ∧ (0x400083#64).getLsbD 7 = true ∧ (0x2003#64).getLsbD 0 = true ∧
    (0x2003#64).getLsbD 7 = false := by decide

/-! ### Witnesses: translation -/

/-- A walker over a root table that the platform does not admit (vector VF6). -/
def offPort (a0 a1 a2 : Word) : State := { args a0 a1 a2 with root := 0x2000000, rv := true }

/-- There the first read of a walk is refused. -/
theorem offPort_refused (a0 a1 a2 va : Word) :
    Reaches (offPort a0 a1 a2) va 4 0x2000000 ∧
    (offPort a0 a1 a2).admits (entryPa 4 va 0x2000000) 8 = false := by
  refine ⟨reaches_of 0 (by decide)
    (congrArg some (show (offPort 0 0 0).rootFrame = 0x2000000 by decide)), ?_⟩
  have h : (0x2000000 : Word).toNat ≤ entryPa 4 va 0x2000000 := Nat.le_add_right _ _
  simp [State.admits, Region.covers, offPort, args, State.reset]
  simp at h
  omega

theorem witness_TranslatePageOfMappedPage :
    (onW 0x1000 0 0).flt = false ∧ (onW 0x1000 0 0).rv = true ∧ (onW 0x1000 0 0).views = [] ∧
    (GoodPage .s4K (onW 0x1000 0 0).arg0 ∧
      Reaches (onW 0x1000 0 0) 0x1000 (terminalLevel .s4K) 0x130000 ∧
      (onW 0x1000 0 0).entryAdmitted (terminalLevel .s4K) 0x1000 0x130000 ∧
      0x2003 = (onW 0x1000 0 0).entryAt (terminalLevel .s4K) 0x1000 0x130000 ∧
      (0x2003#64).getLsbD 0 = true ∧ (0x2003#64).getLsbD 7 = decide (SizeClass.s4K ≠ .s4K) ∧
      0x2000 = 0x2003#64 &&& 0x000FFFFFFFFFF000#64 ∧ (0x2000#64).toNat % sizeBytes .s4K = 0) ∧
    (GoodPage .s2M (onW 0x400000 0 0).arg0 ∧
      Reaches (onW 0x400000 0 0) 0x400000 (terminalLevel .s2M) 0x120000 ∧
      (onW 0x400000 0 0).entryAdmitted (terminalLevel .s2M) 0x400000 0x120000 ∧
      0x401083 = (onW 0x400000 0 0).entryAt (terminalLevel .s2M) 0x400000 0x120000 ∧
      (0x401083#64).getLsbD 0 = true ∧ (0x401083#64).getLsbD 7 = decide (SizeClass.s2M ≠ .s4K) ∧
      0x401000 = 0x401083#64 &&& 0x000FFFFFFFFFF000#64 ∧
      (0x401000#64).toNat % sizeBytes .s2M ≠ 0) := by
  unfold GoodPage CanonicalAddress State.entryAdmitted
  exact ⟨rfl, rfl, rfl, ⟨by decide, reaches_of 3 (by decide) (by decide), by decide⟩,
    by decide, reaches_of 2 (by decide) (by decide), by decide⟩

theorem witness_TranslatePageRefusals :
    (onW 0 0 0).flt = false ∧ (onW 0 0 0).rv = true ∧ (onW 0 0 0).views = [] ∧
    ¬CanonicalAddress (onW 0x800000000000 0 0).arg0 ∧
    (CanonicalAddress (onW 0x201000 0 0).arg0 ∧
      (onW 0x201000 0 0).arg0.toNat % sizeBytes .s2M ≠ 0) ∧
    (GoodPage .s4K (onW 0x4000 0 0).arg0 ∧ (onW 0x4000 0 0).WalkReads 0x4000 1 0) ∧
    (GoodPage .s1G (onW 0x10000000000 0 0).arg0 ∧
      (onW 0x10000000000 0 0).WalkReads 0x10000000000 4 0) ∧
    (GoodPage .s4K (onW 0x201000 0 0).arg0 ∧ terminalLevel .s4K < 2 ∧
      (onW 0x201000 0 0).WalkReads 0x201000 2 0x400083) ∧
    (GoodPage .s2M (onW 0x40200000 0 0).arg0 ∧ terminalLevel .s2M < 3 ∧
      (onW 0x40200000 0 0).WalkReads 0x40200000 3 0x40000083) ∧
    (GoodPage .s1G (onW 0x8000000000 0 0).arg0 ∧
      (onW 0x8000000000 0 0).WalkReads 0x8000000000 4 0x180083) ∧
    (GoodPage .s4K (onW 0x3000 0 0).arg0 ∧ (onW 0x3000 0 0).WalkReads 0x3000 1 0x5083) ∧
    (GoodPage .s2M (onW 0 0 0).arg0 ∧ (onW 0 0 0).WalkReads 0 (terminalLevel .s2M) 0x130003) ∧
    (GoodPage .s1G (onW 0 0 0).arg0 ∧ (onW 0 0 0).WalkReads 0 (terminalLevel .s1G) 0x120003) ∧
    (GoodPage .s4K (offPort 0x1000 0 0).arg0 ∧ Reaches (offPort 0x1000 0 0) 0x1000 4 0x2000000 ∧
      (offPort 0x1000 0 0).admits (entryPa 4 0x1000 0x2000000) 8 = false) := by
  unfold GoodPage CanonicalAddress
  refine ⟨rfl, rfl, rfl, by decide, by decide, ⟨by decide, reads_of 3 (by decide) (by decide)⟩,
    ⟨by decide, reads_of 0 (by decide) (by decide)⟩,
    ⟨by decide, by decide, reads_of 2 (by decide) (by decide)⟩,
    ⟨by decide, by decide, reads_of 1 (by decide) (by decide)⟩,
    ⟨by decide, reads_of 0 (by decide) (by decide)⟩,
    ⟨by decide, reads_of 3 (by decide) (by decide)⟩,
    ⟨by decide, reads_of 2 (by decide) (by decide)⟩,
    ⟨by decide, reads_of 1 (by decide) (by decide)⟩, by decide, offPort_refused _ _ _ _⟩

/-- The first and the last byte of the 1 GiB page, and the misaligned 2 MiB frame. -/
theorem witness_TranslateOfMappedAddress :
    (onW 0 0 0).flt = false ∧ (onW 0 0 0).rv = true ∧ (onW 0 0 0).views = [] ∧
    (CanonicalAddress (onW 0x40000000 0 0).arg0 ∧
      (onW 0x40000000 0 0).WalkReads 0x40000000 (terminalLevel .s1G) 0x40000083 ∧
      (0#64).toNat = (onW 0x40000000 0 0).arg0.toNat % sizeBytes .s1G) ∧
    (CanonicalAddress (onW 0x7FFFFFFF 0 0).arg0 ∧
      (onW 0x7FFFFFFF 0 0).WalkReads 0x7FFFFFFF (terminalLevel .s1G) 0x40000083 ∧
      (0x3FFFFFFF#64).toNat = (onW 0x7FFFFFFF 0 0).arg0.toNat % sizeBytes .s1G) ∧
    ((0x40000083#64).getLsbD 0 = true ∧
      (0x40000083#64).getLsbD 7 = decide (SizeClass.s1G ≠ .s4K) ∧
      0x40000000 = 0x40000083#64 &&& 0x000FFFFFFFFFF000#64 ∧
      (0x40000000#64).toNat % sizeBytes .s1G = 0) ∧
    (CanonicalAddress (onW 0x400123 0 0).arg0 ∧
      (onW 0x400123 0 0).WalkReads 0x400123 (terminalLevel .s2M) 0x401083 ∧
      (0x123#64).toNat = (onW 0x400123 0 0).arg0.toNat % sizeBytes .s2M ∧
      (0x401000#64).toNat % sizeBytes .s2M ≠ 0) := by
  unfold CanonicalAddress
  exact ⟨rfl, rfl, rfl, ⟨by decide, reads_of 1 (by decide) (by decide), by decide⟩,
    ⟨by decide, reads_of 1 (by decide) (by decide), by decide⟩, by decide,
    by decide, reads_of 2 (by decide) (by decide), by decide⟩

theorem witness_TranslateRefusals :
    (onW 0 0 0).flt = false ∧ (onW 0 0 0).rv = true ∧ (onW 0 0 0).views = [] ∧
    ¬CanonicalAddress (onW 0xFFFF7FFFFFFFF000 0 0).arg0 ∧
    (CanonicalAddress (onW 0x2000 0 0).arg0 ∧ (onW 0x2000 0 0).WalkReads 0x2000 1 0x3002) ∧
    (CanonicalAddress (onW 0x10000000000 0 0).arg0 ∧
      (onW 0x10000000000 0 0).WalkReads 0x10000000000 4 0) ∧
    (CanonicalAddress (onW 0x3456 0 0).arg0 ∧ (onW 0x3456 0 0).WalkReads 0x3456 1 0x5083) ∧
    (CanonicalAddress (onW 0x8000000000 0 0).arg0 ∧
      (onW 0x8000000000 0 0).WalkReads 0x8000000000 4 0x180083) ∧
    (CanonicalAddress (offPort 0x1000 0 0).arg0 ∧
      Reaches (offPort 0x1000 0 0) 0x1000 4 0x2000000 ∧
      (offPort 0x1000 0 0).admits (entryPa 4 0x1000 0x2000000) 8 = false) := by
  unfold CanonicalAddress
  exact ⟨rfl, rfl, rfl, by decide, ⟨by decide, reads_of 3 (by decide) (by decide)⟩,
    ⟨by decide, reads_of 0 (by decide) (by decide)⟩,
    ⟨by decide, reads_of 3 (by decide) (by decide)⟩,
    ⟨by decide, reads_of 0 (by decide) (by decide)⟩, by decide, offPort_refused _ _ _ _⟩

/-- What TRANSLATE_PAGE.c gives on tree W for the page that holds `va`. -/
def pageAnswer (va : Word) (c : SizeClass) : State :=
  after (exec (Instr.translatePage c)
    (onW (BitVec.ofNat 64 (va.toNat / sizeBytes c * sizeBytes c)) 0 0))

/-- Vectors VT20 and VT10, VT22 and VT12, VT25 and VT3. -/
theorem witness_TranslateAgreesWithTranslatePage (va : Word) :
    (onW 0 0 0).views = [] ∧
    exec .translate { onW 0 0 0 with arg0 := va } = .next (after (exec .translate (onW va 0 0))) ∧
    (∀ c, exec (Instr.translatePage c)
      { onW 0 0 0 with arg0 := BitVec.ofNat 64 (va.toNat / sizeBytes c * sizeBytes c) } =
        .next (pageAnswer va c)) ∧
    (pageAnswer 0x2ABCDE .s2M).status = 0x00 ∧ (pageAnswer 0x400123 .s2M).status = 0x08 ∧
    (after (exec .translate (onW 0x1FFF 0 0))).status = 0x00 ∧
    (after (exec .translate (onW 0x2000 0 0))).status = 0x03 :=
  ⟨rfl, exec_after _ _, fun _ => exec_after _ _, by decide, by decide, by decide, by decide⟩

theorem witness_TranslateFamilyOnlyReads (c : SizeClass) (va : Word) :
    exec .translate (onW va 0 0) = .next (after (exec .translate (onW va 0 0))) ∧
    exec .translateAddr (onW va 0 0) = .next (after (exec .translateAddr (onW va 0 0))) ∧
    exec (Instr.translatePage c) (onW va 0 0) =
      .next (after (exec (Instr.translatePage c) (onW va 0 0))) :=
  ⟨exec_after _ _, exec_after _ _, exec_after _ _⟩

theorem witness_NoRootAnswers (c : SizeClass) :
    Walks (Instr.mapTo c) ∧ Walks .translate ∧ Walks (Instr.translatePage c) ∧
    (args 0x1001 0 0).flt = false ∧ (args 0x1001 0 0).rv = false ∧ ¬Walks .tableRead ∧
    exec .tableRead State.reset = .next (after (exec .tableRead State.reset)) := by
  refine ⟨.inl ⟨c, .inl rfl⟩, .inr (.inl rfl), .inr (.inr (.inr ⟨c, rfl⟩)), rfl, rfl, ?_,
    exec_after _ _⟩
  rintro (⟨c, h | h | h | h⟩ | h | h | ⟨c, h⟩) <;> cases c <;> cases h

/-! ### Witnesses: the mapper -/

theorem witness_MapperChecksInOrder (c : SizeClass) :
    (Mutates (Instr.mapTo c) ∧ Mutates (Instr.identityMap c) ∧ Mutates (Instr.unmap c) ∧
      Mutates (Instr.updateFlags c)) ∧
    ((args 0 0 0).flt = false ∧ (args 0 0 0).rv = false) ∧
    ((withToken .s4K 0x1000).rv = true ∧ (withToken .s4K 0x1000).tv = true) ∧
    ((onW 0 0 0).flt = false ∧ (onW 0 0 0).rv = true ∧ (onW 0 0 0).tv = false) ∧
    ¬CanonicalAddress (onW 0x800000000000 0 0).arg0 ∧
    (CanonicalAddress (onW 0x1001 0 0).arg0 ∧ (onW 0x1001 0 0).arg0.toNat % sizeBytes c ≠ 0) ∧
    (GoodPage c (onW 0 0x10000000000000 0).arg0 ∧
      ¬PhysicalAddress (onW 0 0x10000000000000 0).arg1) ∧
    (GoodPage c (onW 0 0x1001 0).arg0 ∧ PhysicalAddress (onW 0 0x1001 0).arg1 ∧
      (onW 0 0x1001 0).arg1.toNat % sizeBytes c ≠ 0) ∧
    (GoodFrame c (onW 0 0x800000000000 0).arg1 ∧
      2 ^ 47 ≤ (onW 0 0x800000000000 0).arg1.toNat) ∧
    (GoodPage c (onW 0 0 0x1083).arg0 ∧ GoodFrame c (onW 0 0 0x1083).arg1 ∧
      (onW 0 0 0x1083).arg1.toNat < 2 ^ 47 ∧
      (onW 0 0 0x1083).arg2 &&& 0x000FFFFFFFFFF000#64 ≠ 0) ∧
    ((onW 0 0 0x83).arg2 &&& 0x000FFFFFFFFFF000#64 = 0 ∧
      (onW 0 0 0x83).arg2.getLsbD 7 = true) := by
  refine ⟨⟨⟨c, .inl rfl⟩, ⟨c, .inr (.inl rfl)⟩, ⟨c, .inr (.inr (.inl rfl))⟩,
    ⟨c, .inr (.inr (.inr rfl))⟩⟩, ?_⟩
  unfold GoodPage GoodFrame CanonicalAddress PhysicalAddress
  cases c <;> decide

/-- Program P1 before step 2: an empty root table and three frames. -/
def p1 : State :=
  onEmpty 0x1000 0x2000 0x3 [some 0x110000, some 0x120000, some 0x130000]

/-- The frames that the allocator answers in P1. -/
def p1Frames : List Word := [0x110000, 0x120000, 0x130000]

/-- The writes of P1 step 2. -/
def p1Writes : List (Nat × Word) :=
  mapWrites 0x1000 .s4K (nonLeafFlags 0x3) (leafEntry .s4K 0x2000 0x3) 0x100000 p1Frames

theorem p1Writes_admitted : ∀ w ∈ p1Writes, p1.admits w.1 8 = true := by
  intro w hw
  have h : w.1 + 8 ≤ 0x1000000 := by
    simp only [p1Writes, p1Frames, mapWrites_cons, mapWrites_nil, List.mem_append,
      List.mem_cons, mem_zeroWrites] at hw
    rcases hw with ⟨i, hi, rfl⟩ | rfl | ⟨i, hi, rfl⟩ | rfl | ⟨i, hi, rfl⟩ | rfl | rfl | hw
    all_goals first | decide | (simp at hw) | (simp; omega)
  simp [State.admits, Region.covers, p1, onEmpty, args, State.reset, h]

/-- The state after P1 step 2. -/
def p1Done : State := after (exec .mapTo4K p1)

theorem p1Frames_valid : ∀ f ∈ p1Frames, validFrame f = true := by
  simp only [p1Frames, List.forall_mem_cons]
  exact ⟨by decide, by decide, by decide, by simp⟩

/-- Program P1 step 2, by the phases of MAP_TO. -/
theorem p1Done_eq : p1Done =
    ((({ p1.log (.read 0x100000) with
        allocQ := []
        ports := (p1Frames.map fun g => PortEvent.alloc (some g)).reverse ++
          (p1.log (.read 0x100000)).ports } :
      State).storeWords p1Writes).issueToken .s4K 0x1000).finish .ok 0x1000
        (BitVec.ofNat 64 p1Frames.length) 0 0 0 := by
  have h := mapInstall_of_queue (c := .s4K) (va := 0x1000) (pa := 0x2000) (f := 0x3)
    (t := 0x100000) (fs := p1Frames) (q := []) (s := p1.log (.read 0x100000)) rfl
    p1Frames_valid p1Writes_admitted
  have e : p1Done = mapPhases .s4K 0x1000 0x2000 0x3 p1 := by
    rw [p1Done, show exec .mapTo4K p1 = exec (Instr.mapTo .s4K) p1 from rfl, exec_mapTo,
      command_of_not_flt rfl, mapToBody, mapperReady_pass rfl rfl]
    simp only [after]
    rw [checkPage_pass (by unfold GoodPage CanonicalAddress; decide),
      checkPhysical_pass (by unfold PhysicalAddress; decide), checkPaAligned_pass (by decide),
      checkFlags_pass (by unfold GoodFlags; decide)]
    rfl
  have w : mapWalk 0x1000 .s4K p1 = .ok (.room 0x100000 3) (p1.log (.read 0x100000)) := by rfl
  rw [e, mapPhases, w, Port.run_ok, p1Writes]
  simp only
  rw [← h]
  rfl

theorem p1Done_mem : p1Done.mem = p1.mem.writeAll p1Writes := by
  rw [p1Done_eq, storeWords_eq]
  generalize p1Writes = ws
  rfl

theorem p1Done_ports : p1Done.ports =
    (p1Writes.map fun w => PortEvent.write w.1 w.2).reverse ++
      ((p1Frames.map fun g => PortEvent.alloc (some g)).reverse ++ [.read 0x100000]) := by
  rw [p1Done_eq, storeWords_eq]
  generalize p1Writes = ws
  rfl

/-- Program P1 step 2: the writes, links and leaf as the spec lists them. -/
theorem test_P1_step_2_writes : p1Writes =
    zeroWrites 0x110000 ++ (0x100000, 0x110003) :: (zeroWrites 0x120000 ++
      (0x110000, 0x120003) :: (zeroWrites 0x130000 ++
        [(0x120000, 0x130003), (0x130008, 0x2003)])) := by
  rw [p1Writes, p1Frames, mapWrites_cons, mapWrites_cons, mapWrites_cons, mapWrites_nil,
    show (entryPa (terminalLevel .s4K + ([0x120000, 0x130000] : List Word).length + 1) 0x1000
      0x100000, 0x110000 ||| nonLeafFlags 0x3) = (0x100000, 0x110003) by decide,
    show (entryPa (terminalLevel .s4K + ([0x130000] : List Word).length + 1) 0x1000 0x110000,
      0x120000 ||| nonLeafFlags 0x3) = (0x110000, 0x120003) by decide,
    show (entryPa (terminalLevel .s4K + ([] : List Word).length + 1) 0x1000 0x120000,
      0x130000 ||| nonLeafFlags 0x3) = (0x120000, 0x130003) by decide,
    show (entryPa (terminalLevel .s4K) 0x1000 0x130000, leafEntry .s4K 0x2000 0x3) =
      (0x130008, 0x2003) by decide]

/-- Program P1 step 2: the results and the token. -/
theorem test_P1_step_2 :
    p1Done.status = 0x00 ∧ p1Done.res0 = 0x1000 ∧ p1Done.res1 = 3 ∧ p1Done.unitReg = 0x03 ∧
    p1Done.tokenVa = 0x1000 ∧ p1Done.allocQ = [] := by
  rw [p1Done_eq, storeWords_eq]
  generalize p1Writes = ws
  exact ⟨rfl, rfl, rfl, show 0#48 ++ 0#8 ++ 0#3 ++ 0#2 ++ BitVec.ofBool false ++
    BitVec.ofBool true ++ BitVec.ofBool true = 0x03#64 by decide, rfl, rfl⟩

/-- The last of a list of writes reads back. -/
theorem read64_last (m : Memory) (ws : List (Nat × Word)) (pa : Nat) (v : Word) :
    (m.writeAll (ws ++ [(pa, v)])).read64 pa = v := by
  rw [writeAll_append, writeAll_cons, writeAll_nil, Memory.read64_write64_same]

theorem append_last {α : Type} (z₁ z₂ z₃ : List α) (a b c d : α) :
    z₁ ++ a :: (z₂ ++ b :: (z₃ ++ [c, d])) = (z₁ ++ a :: (z₂ ++ b :: (z₃ ++ [c]))) ++ [d] := by
  simp

/-- Program P1 step 2: the leaf in memory. -/
theorem test_P1_step_2_leaf : p1Done.mem.read64 0x130008 = 0x2003 := by
  rw [p1Done_mem, test_P1_step_2_writes, append_last, read64_last]

theorem witness_MapWritesInOrder : 511 < (zeroWrites 0x110000).length := by simp

/-- The frames of vector VF5: the platform does not admit the second. -/
def vf5Frames : List Word := [0x110000, 0x2000000, 0x130000]

/-- The walker of vector VF5, with the page of IDENTITY_MAP in ARG1. -/
def vf5 : State := onEmpty 0x1000 0x2000 0x3 (vf5Frames.map some)

/-- The writes of vector VF5 that are performed. -/
def vf5Before : List (Nat × Word) := zeroWrites 0x110000 ++ [(0x100000, 0x110003)]

theorem zeroWrites_head (f : Word) : ∃ rest, zeroWrites f = (f.toNat, 0) :: rest :=
  ⟨(List.range' 1 511).map fun i => (f.toNat + 8 * i, 0), by
    rw [zeroWrites, Config.tableEntries, List.range_eq_range', List.range'_succ]; rfl⟩

theorem vf5_writes {va : Word} (leaf : Word) (h : entryPa 4 va 0x100000 = 0x100000) :
    ∃ later, mapWrites va .s4K (nonLeafFlags 0x3) leaf 0x100000 vf5Frames =
      vf5Before ++ (0x2000000, 0) :: later := by
  obtain ⟨rest, hr⟩ := zeroWrites_head 0x2000000
  rw [vf5Frames, mapWrites_cons, mapWrites_cons, hr]
  refine ⟨rest ++ (entryPa (terminalLevel .s4K + ([0x130000] : List Word).length + 1) va 0x110000,
    0x2000000 ||| nonLeafFlags 0x3) ::
      mapWrites va .s4K (nonLeafFlags 0x3) leaf 0x2000000 [0x130000], ?_⟩
  rw [show (entryPa (terminalLevel .s4K + ([0x2000000, 0x130000] : List Word).length + 1) va
    0x100000, 0x110000 ||| nonLeafFlags 0x3) = (0x100000, 0x110003) from
      congr (congrArg Prod.mk h) (by decide), vf5Before]
  simp

theorem vf5Before_admitted : ∀ x ∈ vf5Before, vf5.admits x.1 8 = true := by
  intro w hw
  have h : w.1 + 8 ≤ 0x1000000 := by
    simp only [vf5Before, List.mem_append, List.mem_singleton, mem_zeroWrites] at hw
    rcases hw with ⟨i, hi, rfl⟩ | rfl
    · simp; omega
    · decide
  simp [State.admits, Region.covers, vf5, onEmpty, args, State.reset, h]

theorem vf5Frames_valid : ∀ f ∈ vf5Frames, validFrame f = true := by
  simp only [vf5Frames, List.forall_mem_cons]
  exact ⟨by decide, by decide, by decide, by simp⟩

/-- Vector VF5: 513 writes are performed, no token is issued, and the fault is taken. -/
theorem test_VF5 :
    (after (exec .mapTo4K vf5)).status = 0x12 ∧ (after (exec .mapTo4K vf5)).res0 = 1 ∧
    (after (exec .mapTo4K vf5)).tv = false ∧ (after (exec .mapTo4K vf5)).fcause = 1 ∧
    (after (exec .mapTo4K vf5)).mem = vf5.mem.writeAll vf5Before ∧ vf5Before.length = 513 := by
  obtain ⟨later, hw⟩ := vf5_writes (va := 0x1000) (leafEntry .s4K 0x2000 0x3) (by decide)
  have h := mapInstall_of_refused (c := .s4K) (va := 0x1000) (pa := 0x2000) (f := 0x3)
    (t := 0x100000) (fs := vf5Frames) (q := []) (s := vf5.log (.read 0x100000)) rfl
    vf5Frames_valid hw vf5Before_admitted (by decide)
  have e : after (exec .mapTo4K vf5) = mapPhases .s4K 0x1000 0x2000 0x3 vf5 := by
    rw [show exec .mapTo4K vf5 = exec (Instr.mapTo .s4K) vf5 from rfl, exec_mapTo,
      command_of_not_flt rfl, mapToBody, mapperReady_pass rfl rfl]
    simp only [after]
    rw [checkPage_pass (by unfold GoodPage CanonicalAddress; decide),
      checkPhysical_pass (by unfold PhysicalAddress; decide), checkPaAligned_pass (by decide),
      checkFlags_pass (by unfold GoodFlags; decide)]
    rfl
  have w : mapWalk 0x1000 .s4K vf5 = .ok (.room 0x100000 3) (vf5.log (.read 0x100000)) := by rfl
  rw [e, mapPhases, w, Port.run_ok]
  simp only
  rw [show (3 : Nat) = vf5Frames.length from rfl, h, storeWords_eq]
  have hl : vf5Before.length = 513 := by simp [vf5Before]
  generalize vf5Before = ws at hl ⊢
  exact ⟨rfl, rfl, rfl, rfl, rfl, hl⟩

/-- Program P1 step 2, where every write is admitted, and vector VF5, where one is refused. -/
theorem witness_MapToInstallsMapping :
    (p1.flt = false ∧ p1.rv = true ∧ p1.tv = false ∧ p1.views = []) ∧
    (GoodPage .s4K p1.arg0 ∧ GoodFrame .s4K p1.arg1 ∧ GoodFlags .s4K p1.arg2) ∧
    Reaches p1 p1.arg0 (terminalLevel .s4K + p1Frames.length) 0x100000 ∧
    p1.entryAdmitted (terminalLevel .s4K + p1Frames.length) p1.arg0 0x100000 ∧
    (p1.entryAt (terminalLevel .s4K + p1Frames.length) p1.arg0 0x100000).getLsbD 0 = false ∧
    p1.allocQ = p1Frames.map some ++ [] ∧
    (∀ f ∈ p1Frames, f.toNat < 2 ^ 52 ∧ f.toNat % 4096 = 0) ∧
    p1Writes = mapWrites p1.arg0 .s4K (nonLeafFlags p1.arg2) (leafEntry .s4K p1.arg1 p1.arg2)
      0x100000 p1Frames ∧
    (∀ w ∈ p1Writes, p1.admits w.1 8 = true) ∧
    ((vf5.flt = false ∧ vf5.rv = true ∧ vf5.tv = false ∧ vf5.views = []) ∧
      (GoodPage .s4K vf5.arg0 ∧ GoodFrame .s4K vf5.arg1 ∧ GoodFlags .s4K vf5.arg2) ∧
      Reaches vf5 vf5.arg0 (terminalLevel .s4K + vf5Frames.length) 0x100000 ∧
      vf5.entryAdmitted (terminalLevel .s4K + vf5Frames.length) vf5.arg0 0x100000 ∧
      (vf5.entryAt (terminalLevel .s4K + vf5Frames.length) vf5.arg0 0x100000).getLsbD 0 = false ∧
      vf5.allocQ = vf5Frames.map some ++ [] ∧
      (∀ f ∈ vf5Frames, f.toNat < 2 ^ 52 ∧ f.toNat % 4096 = 0) ∧
      (∃ later, mapWrites vf5.arg0 .s4K (nonLeafFlags vf5.arg2)
        (leafEntry .s4K vf5.arg1 vf5.arg2) 0x100000 vf5Frames =
          vf5Before ++ (0x2000000, 0) :: later) ∧
      (∀ x ∈ vf5Before, vf5.admits x.1 8 = true) ∧ vf5.admits 0x2000000 8 = false) := by
  unfold GoodPage GoodFrame GoodFlags CanonicalAddress PhysicalAddress State.entryAdmitted
  exact ⟨by decide, by decide, reaches_of 0 (by decide) rfl, by decide, by decide, rfl,
    fun f hf => (validFrame_iff f).1 (p1Frames_valid f hf), rfl, p1Writes_admitted,
    by decide, by decide, reaches_of 0 (by decide) rfl, by decide, by decide, rfl,
    fun f hf => (validFrame_iff f).1 (vf5Frames_valid f hf), vf5_writes _ (by decide),
    vf5Before_admitted, by decide⟩

/-- Without new tables, a 1 GiB page on tree W; and the frames of vector VF5, where a write is
refused. -/
theorem witness_IdentityMapInstallsMapping :
    let s := onW 0 0x80000000 0x3
    let ws := mapWrites s.arg1 .s1G (nonLeafFlags s.arg2) (leafEntry .s1G s.arg1 s.arg2) 0x110000 []
    (s.flt = false ∧ s.rv = true ∧ s.tv = false ∧ s.views = []) ∧
    (GoodFrame .s1G s.arg1 ∧ s.arg1.toNat < 2 ^ 47 ∧ GoodFlags .s1G s.arg2) ∧
    Reaches s s.arg1 (terminalLevel .s1G + ([] : List Word).length) 0x110000 ∧
    s.entryAdmitted (terminalLevel .s1G + ([] : List Word).length) s.arg1 0x110000 ∧
    (s.entryAt (terminalLevel .s1G + ([] : List Word).length) s.arg1 0x110000).getLsbD 0 = false ∧
    s.allocQ = ([] : List Word).map some ++ [] ∧ (∀ w ∈ ws, s.admits w.1 8 = true) ∧
    ((vf5.flt = false ∧ vf5.rv = true ∧ vf5.tv = false ∧ vf5.views = []) ∧
      (GoodFrame .s4K vf5.arg1 ∧ vf5.arg1.toNat < 2 ^ 47 ∧ GoodFlags .s4K vf5.arg2) ∧
      Reaches vf5 vf5.arg1 (terminalLevel .s4K + vf5Frames.length) 0x100000 ∧
      vf5.entryAdmitted (terminalLevel .s4K + vf5Frames.length) vf5.arg1 0x100000 ∧
      (vf5.entryAt (terminalLevel .s4K + vf5Frames.length) vf5.arg1 0x100000).getLsbD 0 = false ∧
      vf5.allocQ = vf5Frames.map some ++ [] ∧
      (∀ f ∈ vf5Frames, f.toNat < 2 ^ 52 ∧ f.toNat % 4096 = 0) ∧
      (∃ later, mapWrites vf5.arg1 .s4K (nonLeafFlags vf5.arg2)
        (leafEntry .s4K vf5.arg1 vf5.arg2) 0x100000 vf5Frames =
          vf5Before ++ (0x2000000, 0) :: later) ∧
      (∀ x ∈ vf5Before, vf5.admits x.1 8 = true) ∧ vf5.admits 0x2000000 8 = false) := by
  unfold GoodFrame GoodFlags PhysicalAddress State.entryAdmitted
  exact ⟨by decide, by decide, reaches_of 1 (by decide) (by decide), by decide, by decide, rfl,
    by decide, by decide, by decide, reaches_of 0 (by decide) rfl, by decide, by decide, rfl,
    fun f hf => (validFrame_iff f).1 (vf5Frames_valid f hf), vf5_writes _ (by decide),
    vf5Before_admitted, by decide⟩

theorem witness_MapToRefusedByTheTree :
    ((onW 0 0 0).flt = false ∧ (onW 0 0 0).rv = true ∧ (onW 0 0 0).tv = false ∧
      (onW 0 0 0).views = []) ∧
    (GoodFrame .s4K (onW 0 0x5000 0x3).arg1 ∧ GoodFlags .s4K (onW 0 0x5000 0x3).arg2) ∧
    (GoodPage .s4K (onW 0x201000 0x5000 0x3).arg0 ∧ terminalLevel .s4K < 2 ∧
      (onW 0x201000 0x5000 0x3).WalkReads 0x201000 2 0x400083) ∧
    (GoodPage .s4K (onW 0x8000000000 0x5000 0x3).arg0 ∧
      (onW 0x8000000000 0x5000 0x3).WalkReads 0x8000000000 4 0x180083) ∧
    (GoodPage .s4K (onW 0x1000 0x5000 0x3).arg0 ∧
      (onW 0x1000 0x5000 0x3).WalkReads 0x1000 (terminalLevel .s4K) 0x2003) ∧
    (GoodPage .s1G (onW 0 0x40000000 0x3).arg0 ∧ GoodFrame .s1G (onW 0 0x40000000 0x3).arg1 ∧
      GoodFlags .s1G (onW 0 0x40000000 0x3).arg2 ∧
      (onW 0 0x40000000 0x3).WalkReads 0 (terminalLevel .s1G) 0x120003) ∧
    (GoodPage .s4K (offPort 0x1000 0x2000 0x3).arg0 ∧
      GoodFrame .s4K (offPort 0x1000 0x2000 0x3).arg1 ∧
      GoodFlags .s4K (offPort 0x1000 0x2000 0x3).arg2 ∧
      Reaches (offPort 0x1000 0x2000 0x3) 0x1000 4 0x2000000 ∧
      (offPort 0x1000 0x2000 0x3).admits (entryPa 4 0x1000 0x2000000) 8 = false) ∧
    (GoodFrame .s4K (onW 0 0x201000 0x3).arg1 ∧ (onW 0 0x201000 0x3).arg1.toNat < 2 ^ 47 ∧
      (onW 0 0x201000 0x3).WalkReads 0x201000 2 0x400083) ∧
    (GoodFrame .s4K (onW 0 0x1000 0x3).arg1 ∧ (onW 0 0x1000 0x3).arg1.toNat < 2 ^ 47 ∧
      (onW 0 0x1000 0x3).WalkReads 0x1000 (terminalLevel .s4K) 0x2003) ∧
    (GoodFrame .s4K (offPort 0 0x7FFFFFFFF000 0x3).arg1 ∧
      (offPort 0 0x7FFFFFFFF000 0x3).arg1.toNat < 2 ^ 47 ∧
      Reaches (offPort 0 0x7FFFFFFFF000 0x3) 0x7FFFFFFFF000 4 0x2000000 ∧
      (offPort 0 0x7FFFFFFFF000 0x3).admits (entryPa 4 0x7FFFFFFFF000 0x2000000) 8 = false) := by
  unfold GoodPage GoodFrame GoodFlags CanonicalAddress PhysicalAddress
  exact ⟨by decide, by decide, ⟨by decide, by decide, reads_of 2 (by decide) (by decide)⟩,
    ⟨by decide, reads_of 0 (by decide) (by decide)⟩,
    ⟨by decide, reads_of 3 (by decide) (by decide)⟩,
    ⟨by decide, by decide, by decide, reads_of 1 (by decide) (by decide)⟩,
    ⟨by decide, by decide, by decide, offPort_refused _ _ _ _⟩,
    ⟨by decide, by decide, reads_of 2 (by decide) (by decide)⟩,
    ⟨by decide, by decide, reads_of 3 (by decide) (by decide)⟩,
    by decide, by decide, offPort_refused _ _ _ _⟩

/-- Vectors VF1, VF3 and VF4: the allocator's answers in three states, with the frames obtained
before the last one, for MAP_TO.4K and for IDENTITY_MAP.4K of the highest page it can map; and a
frame just past physical memory. -/
theorem witness_MapToAllocationOutcomes :
    (∀ p ∈ ([([], none), (p1Frames.take 2, none), ([], some 0x110800)] :
        List (List Word × Option Word)),
      let s := onEmpty 0x1000 0x7FFFFFFFF000 0x3 (p.1.map some ++ [p.2])
      (s.flt = false ∧ s.rv = true ∧ s.tv = false ∧ s.views = []) ∧
      (GoodPage .s4K s.arg0 ∧ GoodFrame .s4K s.arg1 ∧ GoodFlags .s4K s.arg2) ∧
      Reaches s s.arg0 (terminalLevel .s4K + 3) 0x100000 ∧
      s.entryAdmitted (terminalLevel .s4K + 3) s.arg0 0x100000 ∧
      (s.entryAt (terminalLevel .s4K + 3) s.arg0 0x100000).getLsbD 0 = false ∧
      s.arg1.toNat < 2 ^ 47 ∧ Reaches s s.arg1 (terminalLevel .s4K + 3) 0x100000 ∧
      s.entryAdmitted (terminalLevel .s4K + 3) s.arg1 0x100000 ∧
      (s.entryAt (terminalLevel .s4K + 3) s.arg1 0x100000).getLsbD 0 = false ∧
      p.1.length < 3 ∧ s.allocQ = p.1.map some ++ p.2 :: [] ∧
      ∀ f ∈ p.1, f.toNat < 2 ^ 52 ∧ f.toNat % 4096 = 0) ∧
    (0x110800#64).toNat % 4096 ≠ 0 ∧ 2 ^ 52 ≤ (0x10000000000000#64).toNat := by
  unfold GoodPage GoodFrame GoodFlags CanonicalAddress PhysicalAddress State.entryAdmitted
  refine ⟨?_, by decide⟩
  have hv : ∀ f ∈ p1Frames.take 2, f.toNat < 2 ^ 52 ∧ f.toNat % 4096 = 0 := fun f hf =>
    (validFrame_iff f).1 (p1Frames_valid f (List.mem_of_mem_take hf))
  intro p hp
  simp only [List.mem_cons, List.not_mem_nil, or_false] at hp
  rcases hp with rfl | rfl | rfl
  · exact ⟨by decide, by decide, reaches_of 0 (by decide) rfl, by decide, by decide, by decide,
      reaches_of 0 (by decide) rfl, by decide, by decide, by decide, rfl,
      by simp⟩
  · exact ⟨by decide, by decide, reaches_of 0 (by decide) rfl, by decide, by decide, by decide,
      reaches_of 0 (by decide) rfl, by decide, by decide, by decide, rfl,
      hv⟩
  · exact ⟨by decide, by decide, reaches_of 0 (by decide) rfl, by decide, by decide, by decide,
      reaches_of 0 (by decide) rfl, by decide, by decide, by decide, rfl,
      by simp⟩

theorem witness_UnmapClearsTheEntry :
    ((onW 0 0 0).flt = false ∧ (onW 0 0 0).rv = true ∧ (onW 0 0 0).tv = false ∧
      (onW 0 0 0).views = []) ∧
    (GoodPage .s4K (onW 0x1000 0 0).arg0 ∧
      Reaches (onW 0x1000 0 0) 0x1000 (terminalLevel .s4K) 0x130000 ∧
      (onW 0x1000 0 0).entryAdmitted (terminalLevel .s4K) 0x1000 0x130000 ∧
      0x2003 = (onW 0x1000 0 0).entryAt (terminalLevel .s4K) 0x1000 0x130000 ∧
      (0x2003#64).getLsbD 0 = true ∧ (0x2003#64).getLsbD 7 = decide (SizeClass.s4K ≠ .s4K) ∧
      0x2000 = 0x2003#64 &&& 0x000FFFFFFFFFF000#64 ∧ (0x2000#64).toNat % sizeBytes .s4K = 0) ∧
    (GoodPage .s1G (onW 0x40000000 0 0).arg0 ∧
      Reaches (onW 0x40000000 0 0) 0x40000000 (terminalLevel .s1G) 0x110000 ∧
      (onW 0x40000000 0 0).entryAdmitted (terminalLevel .s1G) 0x40000000 0x110000 ∧
      0x40000083 = (onW 0x40000000 0 0).entryAt (terminalLevel .s1G) 0x40000000 0x110000 ∧
      (0x40000083#64).getLsbD 7 = decide (SizeClass.s1G ≠ .s4K) ∧
      0x40000000 = 0x40000083#64 &&& 0x000FFFFFFFFFF000#64 ∧
      (0x40000000#64).toNat % sizeBytes .s1G = 0) := by
  unfold GoodPage CanonicalAddress State.entryAdmitted
  exact ⟨by decide, ⟨by decide, reaches_of 3 (by decide) (by decide), by decide⟩,
    by decide, reaches_of 1 (by decide) (by decide), by decide⟩

theorem witness_UnmapRefusals :
    ((onW 0 0 0).flt = false ∧ (onW 0 0 0).rv = true ∧ (onW 0 0 0).tv = false ∧
      (onW 0 0 0).views = []) ∧
    (GoodPage .s4K (onW 0x2000 0 0).arg0 ∧ (onW 0x2000 0 0).WalkReads 0x2000 1 0x3002) ∧
    (GoodPage .s4K (onW 0x10000000000 0 0).arg0 ∧
      (onW 0x10000000000 0 0).WalkReads 0x10000000000 4 0) ∧
    (GoodPage .s4K (onW 0x200000 0 0).arg0 ∧ terminalLevel .s4K < 2 ∧
      (onW 0x200000 0 0).WalkReads 0x200000 2 0x400083) ∧
    (GoodPage .s4K (onW 0x8000000000 0 0).arg0 ∧
      (onW 0x8000000000 0 0).WalkReads 0x8000000000 4 0x180083) ∧
    (GoodPage .s4K (onW 0x3000 0 0).arg0 ∧
      (onW 0x3000 0 0).WalkReads 0x3000 (terminalLevel .s4K) 0x5083 ∧
      (0x5083#64).getLsbD 7 ≠ decide (SizeClass.s4K ≠ .s4K)) ∧
    (GoodPage .s2M (onW 0 0 0).arg0 ∧ (onW 0 0 0).WalkReads 0 (terminalLevel .s2M) 0x130003 ∧
      (0x130003#64).getLsbD 7 ≠ decide (SizeClass.s2M ≠ .s4K)) ∧
    (GoodPage .s2M (onW 0x400000 0 0).arg0 ∧
      (onW 0x400000 0 0).WalkReads 0x400000 (terminalLevel .s2M) 0x401083 ∧
      0x401000 = 0x401083#64 &&& 0x000FFFFFFFFFF000#64 ∧
      (0x401000#64).toNat % sizeBytes .s2M ≠ 0) ∧
    (GoodPage .s4K (offPort 0x1000 0 0).arg0 ∧ Reaches (offPort 0x1000 0 0) 0x1000 4 0x2000000 ∧
      (offPort 0x1000 0 0).admits (entryPa 4 0x1000 0x2000000) 8 = false) := by
  unfold GoodPage CanonicalAddress
  exact ⟨by decide, ⟨by decide, reads_of 3 (by decide) (by decide)⟩,
    ⟨by decide, reads_of 0 (by decide) (by decide)⟩,
    ⟨by decide, by decide, reads_of 2 (by decide) (by decide)⟩,
    ⟨by decide, reads_of 0 (by decide) (by decide)⟩,
    ⟨by decide, reads_of 3 (by decide) (by decide), by decide⟩,
    ⟨by decide, reads_of 2 (by decide) (by decide), by decide⟩,
    ⟨by decide, reads_of 2 (by decide) (by decide), by decide⟩, by decide,
    offPort_refused _ _ _ _⟩

/-- Vector VU19: the address is misaligned for the class. -/
theorem witness_UpdateFlagsReplacesFlags :
    let s := onW 0x400000 0 0x3
    (s.flt = false ∧ s.rv = true ∧ s.tv = false ∧ s.views = []) ∧
    (GoodPage .s2M s.arg0 ∧ GoodFlags .s2M s.arg2) ∧
    Reaches s s.arg0 (terminalLevel .s2M) 0x120000 ∧
    s.entryAdmitted (terminalLevel .s2M) s.arg0 0x120000 ∧
    0x401083 = s.entryAt (terminalLevel .s2M) s.arg0 0x120000 ∧
    (0x401083#64).getLsbD 0 = true ∧ (0x401083#64).getLsbD 7 = decide (SizeClass.s2M ≠ .s4K) ∧
    0x401083 = ((0x401083#64 &&& 0x000FFFFFFFFFF000#64) ||| s.arg2 |||
      (if SizeClass.s2M = .s4K then 0 else 0x80#64)) := by
  unfold GoodPage GoodFlags CanonicalAddress State.entryAdmitted
  exact ⟨by decide, by decide, reaches_of 2 (by decide) (by decide), by decide⟩

theorem witness_UpdateFlagsRefusals :
    ((onW 0 0 3).flt = false ∧ (onW 0 0 3).rv = true ∧ (onW 0 0 3).tv = false ∧
      (onW 0 0 3).views = []) ∧
    (GoodPage .s4K (onW 0x2000 0 3).arg0 ∧ GoodFlags .s4K (onW 0x2000 0 3).arg2 ∧
      (onW 0x2000 0 3).WalkReads 0x2000 1 0x3002) ∧
    (GoodPage .s4K (onW 0x8000000000 0 3).arg0 ∧
      (onW 0x8000000000 0 3).WalkReads 0x8000000000 4 0x180083) ∧
    (GoodPage .s2M (onW 0 0 3).arg0 ∧ GoodFlags .s2M (onW 0 0 3).arg2 ∧
      (onW 0 0 3).WalkReads 0 2 0x130003 ∧
      (0x130003#64).getLsbD 7 ≠ decide (SizeClass.s2M ≠ .s4K)) ∧
    (GoodPage .s4K (offPort 0x1000 0 3).arg0 ∧ Reaches (offPort 0x1000 0 3) 0x1000 4 0x2000000 ∧
      (offPort 0x1000 0 3).admits (entryPa 4 0x1000 0x2000000) 8 = false) := by
  unfold GoodPage GoodFlags CanonicalAddress
  exact ⟨by decide, ⟨by decide, by decide, reads_of 3 (by decide) (by decide)⟩,
    ⟨by decide, reads_of 0 (by decide) (by decide)⟩,
    ⟨by decide, by decide, reads_of 2 (by decide) (by decide), by decide⟩, by decide,
    offPort_refused _ _ _ _⟩

/-- The bytes right before and right after the entry that UNMAP.4K clears. -/
theorem witness_UnmapAndUpdateMemoryFrame (a : Nat) (ha : a = 0x130007 ∨ a = 0x130010) :
    (onW 0x1000 0 0).views = [] ∧ exec (Instr.unmap .s4K) (onW 0x1000 0 0) =
      .next (after (exec (Instr.unmap .s4K) (onW 0x1000 0 0))) ∧
    ∀ tb, Reaches (onW 0x1000 0 0) 0x1000 (terminalLevel .s4K) tb →
      a < entryPa (terminalLevel .s4K) 0x1000 tb ∨
        entryPa (terminalLevel .s4K) 0x1000 tb + 8 ≤ a := by
  refine ⟨rfl, exec_after _ _, fun tb h => ?_⟩
  rw [h.unique (reaches_of 3 (by decide) (by decide) : Reaches (onW 0x1000 0 0) 0x1000 1 0x130000)]
  rcases ha with rfl | rfl <;> decide

/-- In an empty tree a walk reaches the root table only. -/
theorem p1_reaches {l : Nat} {tb : Word} (h : Reaches p1 0x1000 l tb) : l = 4 ∧ tb = 0x100000 := by
  have hr : Reaches p1 0x1000 4 0x100000 := reaches_of 0 (by decide) rfl
  have hl : l = 4 := by
    by_contra hne
    have h0 : p1.WalkReads 0x1000 4 0 := reads_of 0 (by decide) rfl
    have := h0.above_lower h (Nat.lt_of_le_of_ne h.le_four hne)
    simp [isPresent] at this
  subst hl
  exact ⟨rfl, h.unique hr⟩

/-- Bytes that the MAP_TO of P1 step 2 may not change. -/
theorem witness_MapMemoryFrame (a : Nat) (ha : a = 0x100008 ∨ a = 0x10FFFF ∨ a = 0x131000) :
    p1.ports = [] ∧ p1.views = [] ∧ exec (Instr.mapTo .s4K) p1 = .next p1Done ∧
    (∀ l tb, terminalLevel .s4K ≤ l → Reaches p1 0x1000 l tb →
      (p1.entryAt l 0x1000 tb).getLsbD 0 = false →
      a < entryPa l 0x1000 tb ∨ entryPa l 0x1000 tb + 8 ≤ a) ∧
    ∀ f : Word, PortEvent.alloc (some f) ∈ p1Done.ports → a < f.toNat ∨ f.toNat + 4096 ≤ a := by
  refine ⟨rfl, rfl, exec_after _ _, fun l tb _ h _ => ?_, fun f hf => ?_⟩
  · obtain ⟨rfl, rfl⟩ := p1_reaches h
    rcases ha with rfl | rfl | rfl <;> decide
  · have hf' : f ∈ p1Frames := by
      rw [p1Done_ports] at hf
      simpa using hf
    simp only [p1Frames, List.mem_cons, List.not_mem_nil, or_false] at hf'
    rcases ha with rfl | rfl | rfl <;> rcases hf' with rfl | rfl | rfl <;> decide

theorem witness_MapThenTranslatePage :
    p1.flt = false ∧ p1.views = [] ∧ exec (Instr.mapTo .s4K) p1 = .next p1Done ∧
        p1Done.status = 0x00 ∧
    p1.arg2.getLsbD 0 = true ∧ p1.allocQ = p1Frames.map some ++ p1Done.allocQ ∧
    p1Frames.length = p1Done.res1.toNat ∧ p1Frames.Nodup ∧
    ∀ l tb, Reaches p1 p1.arg0 l tb → tb ∉ p1Frames := by
  obtain ⟨h1, -, h2, -, -, h3⟩ := test_P1_step_2
  refine ⟨rfl, rfl, exec_after _ _, h1, by decide, by rw [h3]; rfl, by rw [h2]; rfl, by decide,
    fun l tb h => ?_⟩
  rw [(p1_reaches h).2]
  decide

theorem witness_UnmapThenNotMapped :
    (onW 0x1000 0 0).flt = false ∧ (onW 0x1000 0 0).views = [] ∧
    exec (Instr.unmap .s4K) (onW 0x1000 0 0) =
      .next (after (exec (Instr.unmap .s4K) (onW 0x1000 0 0))) ∧
    (after (exec (Instr.unmap .s4K) (onW 0x1000 0 0))).status = 0x00 :=
  ⟨rfl, rfl, exec_after _ _, by decide⟩

/-! ### Witnesses: token, root, TLB, host -/

theorem witness_TokenResolution :
    (withToken .s2M 0x200000).flt = false ∧ (withToken .s2M 0x200000).tv = true ∧
    State.reset.flt = false ∧ State.reset.tv = false := ⟨rfl, rfl, rfl, rfl⟩

theorem witness_SetRootResult :
    (args 0 0xFFFFFFFFFFFFF 0).flt = false ∧ PhysicalAddress (args 0 0xFFFFFFFFFFFFF 0).arg1 ∧
    ¬PhysicalAddress (args 0 0x10000000000000 0).arg1 := by
  unfold PhysicalAddress; decide

theorem witness_TokenDiscipline :
    (p1.flt = false ∧ exec (Instr.mapTo .s4K) p1 = .next p1Done ∧ p1Done.status = 0x00) ∧
    (after (exec (Instr.identityMap .s2M) (onW 0 0x800000 1))).status = 0x00 ∧
    (after (exec (Instr.unmap .s4K) (onW 0x2000 0 0))).status ≠ 0x00 ∧
    (Mutates (Instr.unmap .s4K) ∧ (withToken .s4K 0x1000).flt = false ∧
      (withToken .s4K 0x1000).rv = true ∧ (withToken .s4K 0x1000).tv = true) ∧
    ¬Mutates .translate ∧
    exec .flushToken (withToken .s4K 0x1000) =
      .next (after (exec .flushToken (withToken .s4K 0x1000))) ∧
    (after (exec .flushToken (withToken .s4K 0x1000))).status = 0x00 ∧
    (after (exec .ignoreToken (withToken .s4K 0x1000))).status = 0x00 := by
  refine ⟨⟨rfl, exec_after _ _, test_P1_step_2.1⟩, by decide, by decide,
    ⟨⟨.s4K, .inr (.inr (.inl rfl))⟩, rfl, rfl, rfl⟩, ?_, exec_after _ _, by decide, by decide⟩
  rintro ⟨c, h | h | h | h⟩ <;> cases c <;> cases h

/-- The token's page, and a range that begins in the last byte of a cached page. -/
theorem witness_FlushLeavesNoCoveringEntry :
    ((withToken .s4K 0x1000).flt = false ∧ (withToken .s4K 0x1000).tv = true ∧
      (withToken .s4K 0x1000).tlb ≠ []) ∧
    (let s := { withToken .s4K 0x1000 with pending := [.tlbInvalidate 0x1FFF 0x1FFF] }
     s.pending = .tlbInvalidate 0x1FFF 0x1FFF :: [] ∧
     (0x1000#64).toNat + sizeBytes .s4K > (0x1FFF#64).toNat ∧
     (0x1FFF#64).toNat < (0x201000#64).toNat) := by decide

/-- The last byte of the cached page, the byte after it, and no cached entry. -/
theorem witness_CoreAccessUsesEntryOrWalk :
    (let s := { withToken .s4K 0x1000 with pending := [.access 0x1FFF (some 0)] }
     s.pending = .access 0x1FFF (some 0) :: [] ∧
     s.tlb[0]? = some ⟨0x1000, .s4K, 0x2000, 0x3⟩ ∧ (0x1000#64).toNat ≤ (0x1FFF#64).toNat ∧
     (0x1FFF#64).toNat < (0x1000#64).toNat + sizeBytes .s4K) ∧
    (let s := { withToken .s4K 0x1000 with pending := [.access 0x2000 (some 0)] }
     s.pending = .access 0x2000 (some 0) :: [] ∧
     ∀ n e, some 0 = some n → s.tlb[n]? = some e →
       (0x2000#64).toNat < e.page.toNat ∨ e.page.toNat + sizeBytes e.cls ≤ (0x2000#64).toNat) ∧
    (let s := { withToken .s4K 0x1000 with pending := [.access 0x2000 none] }
     s.pending = .access 0x2000 none :: [] ∧
     ∀ n e, (none : Option Nat) = some n → s.tlb[n]? = some e →
       (0x2000#64).toNat < e.page.toNat ∨ e.page.toNat + sizeBytes e.cls ≤ (0x2000#64).toNat) := by
  refine ⟨by decide, ⟨rfl, fun n e hn he => ?_⟩, rfl, fun n e hn => nomatch hn⟩
  cases hn
  cases he
  decide

/-- The TRANSLATE of the host, that of the miss path and a raced one, which offer a translation; and
the fill that takes one up. -/
theorem witness_TlbHoldsOnlyTranslateResults :
    (let s := withCmd 0x15 (onW 0x1123 0 0)
     step s = .next (after (step s)) ∧
     (after (step s)).fillable = [⟨0x1000, .s4K, 0x2000, 0x3⟩] ∧
     s.pending = .write 3 0x15 :: [] ∧
     State.Runs { s with pending := [] } (.write 3 0x15) .translate) ∧
    (let s := { onW 0 0 0 with pending := [.access 0x1123 none] }
     step s = .next (after (step s)) ∧
     (after (step s)).fillable = [⟨0x1000, .s4K, 0x2000, 0x3⟩] ∧
     State.Runs { s with pending := [] } (.access 0x1123 none) .translate) ∧
    (let a := Action.race (.host 0x15) [⟨0, 0x130008, 0x9001⟩] [[], [], [], [true]] none
     let s := { onW 0x1123 0 0 with pending := [a] }
     step s = .next (after (step s)) ∧
     (after (step s)).fillable = [⟨0x1000, .s4K, 0x9000, 0x1⟩] ∧
     State.Runs { s with pending := [] } a .translate) ∧
    (let s := { onW 0 0 0 with
       pending := [.tlbFill 0], fillable := [⟨0x1000, .s4K, 0x2000, 0x3⟩] }
     step s = .next (after (step s)) ∧ (after (step s)).tlb = [⟨0x1000, .s4K, 0x2000, 0x3⟩]) :=
  ⟨⟨eq_after (by decide), by decide, rfl, rfl, rfl, by decide⟩,
    ⟨eq_after (by decide), by decide, rfl, rfl, rfl⟩,
    ⟨eq_after (by decide), by decide, rfl, by decide⟩, eq_after (by decide), by decide⟩

/-- The last bytes of physical memory, and one byte further. -/
theorem witness_HostMemoryAccess :
    (∀ a ∈ ([.memWrite 0xFFFFFFFFFFFF8 0x0102030405060708, .memRead 0xFFFFFFFFFFFF8,
        .memWriteByte 0xFFFFFFFFFFFFF 7, .memReadByte 0xFFFFFFFFFFFFF,
        .memWrite 0xFFFFFFFFFFFF9 1, .memRead 0xFFFFFFFFFFFF9,
        .memWriteByte 0x10000000000000 7, .memReadByte 0x10000000000000] : List Action),
      ({ State.reset with pending := [a] } : State).pending = a :: []) ∧
    (0xFFFFFFFFFFFF8#64).toNat + 8 ≤ 2 ^ 52 ∧ (0xFFFFFFFFFFFFF#64).toNat < 2 ^ 52 ∧
    2 ^ 52 < (0xFFFFFFFFFFFF9#64).toNat + 8 ∧ 2 ^ 52 ≤ (0x10000000000000#64).toNat :=
  ⟨fun _ _ => rfl, by decide⟩

/-- A read that sees no racing write, one that sees two, a race with and without a reset, one past
the end of memory, and TABLE_READ of the last index. -/
theorem witness_RacedReadsSeeOldOrNew :
    (let s := { onW 0 0 0 with views := [[(0x130010, 5)]] }
     s.admits 0x130008 8 = true ∧ ∀ w ∈ s.views.headD [], 0x130008 + 8 ≤ w.1 ∨ w.1 + 8 ≤ 0x130008) ∧
    (let s := { onW 0 0 0 with views := [[(0x130008, 4), (0x130008, 9), (0x130000, 5)]] }
     s.admits 0x130008 8 = true ∧
     s.views.headD [] = [(0x130008, 4)] ++ (0x130008, 9) :: [(0x130000, 5)] ∧
     ∀ w ∈ ([(0x130000, 5)] : List (Nat × Word)), 0x130008 + 8 ≤ w.1 ∨ w.1 + 8 ≤ 0x130008) ∧
    (let rs : List RacingWrite := [⟨0, 0xFFFFFFFFFFFF8, 7⟩]
     let a := Action.race (.host 0x12) rs [[true]] (some 4)
     let s := { onW 0x1000 0 0 with pending := [a] }
     s.pending = a :: [] ∧ (∀ r ∈ rs, r.pa.toNat + 8 ≤ 2 ^ 52) ∧
     let b := { s with pending := [], views := ([[true]] : List (List Bool)).map (seenWrites rs) }
     startCommand (.host 0x12) b = .next (after (startCommand (.host 0x12) b))) ∧
    (let a := Action.race (.core 0) [⟨0, 0xFFFFFFFFFFFF9, 7⟩] [] none
     ({ onW 0 0 0 with pending := [a] } : State).pending = a :: [] ∧
     ∃ r ∈ ([⟨0, 0xFFFFFFFFFFFF9, 7⟩] : List RacingWrite), 2 ^ 52 < r.pa.toNat + 8) ∧
    (let r : RacingWrite := ⟨0, 0x130FF8, 9⟩
     let a := Action.race (.host 0x0E) [r] [[true]] none
     let s := { onW 511 0x130000 0 with pending := [a] }
     s.flt = false ∧ s.pending = a :: [] ∧ r.pa.toNat = s.arg1.toNat + 8 * s.arg0.toNat ∧
     GoodFrame .s4K s.arg1 ∧ s.arg0.toNat ≤ 511 ∧ s.admits r.pa.toNat 8 = true) := by
  unfold GoodFrame PhysicalAddress
  exact ⟨by decide, by decide, ⟨rfl, by decide, eq_after (by decide)⟩, ⟨rfl, by decide⟩, rfl, rfl,
    by decide, by decide, by decide, by decide⟩

/-! ### Witnesses: rules of the whole machine -/

/-- Vectors VF2 (ALLOC_FAILED) and VT4 (MALFORMED_ENTRY). -/
theorem witness_NotOkChangesOnlyResults :
    (let s := onEmpty 0x1000 0x2000 0x3 [some 0x110000, none]
     exec .mapTo4K s = .next (after (exec .mapTo4K s)) ∧ (after (exec .mapTo4K s)).status = 0x04) ∧
    (let s := onW 0x3000 0 0
     exec .translatePage4K s = .next (after (exec .translatePage4K s)) ∧
     (after (exec .translatePage4K s)).status = 0x0F) :=
  ⟨⟨exec_after _ _, by decide⟩, exec_after _ _, by decide⟩

/-- Vectors VB24 (BUS_ERROR), VF4 (ALLOC_PROTOCOL) and VA1 (no fault). -/
theorem witness_FaultKeepsTokenAndRoot :
    (let s := args 0 0x2000000 0
     s.flt = false ∧ exec .tableRead s = .next (after (exec .tableRead s)) ∧
     (after (exec .tableRead s)).flt = true ∧ (after (exec .tableRead s)).fcause = 0x01) ∧
    (let s := onEmpty 0x1000 0x2000 0x3 [some 0x110800]
     s.flt = false ∧ exec .mapTo4K s = .next (after (exec .mapTo4K s)) ∧
     (after (exec .mapTo4K s)).flt = true ∧ (after (exec .mapTo4K s)).fcause = 0x02) ∧
    (let s := args 0 0 0
     s.flt = false ∧ exec .vaTryNew s = .next (after (exec .vaTryNew s)) ∧
     (after (exec .vaTryNew s)).flt = false) :=
  ⟨⟨rfl, exec_after _ _, by decide, by decide⟩, ⟨rfl, exec_after _ _, by decide, by decide⟩,
    rfl, exec_after _ _, by decide⟩

theorem witness_MemoryChangesOnlyByPortWrites :
    (onW 0x1000 0 0).ports = [] ∧
    exec .unmap4K (onW 0x1000 0 0) = .next (after (exec .unmap4K (onW 0x1000 0 0))) ∧
    (after (exec .unmap4K (onW 0x1000 0 0))).ports =
      [.write 0x130008 0, .read 0x130008, .read 0x120000, .read 0x110000, .read 0x100000] :=
  ⟨rfl, exec_after _ _, by decide⟩

theorem witness_AccessCounts (i : Instr) :
    (onW 0x1000 0 0).ports = [] ∧
    exec i (onW 0x1000 0 0) = .next (after (exec i (onW 0x1000 0 0))) ∧
    p1.ports = [] ∧ exec (Instr.mapTo .s4K) p1 = .next p1Done ∧ p1Done.status = 0x00 ∧
    (after (exec .unmap4K (onW 0x1000 0 0))).status = 0x00 ∧
    (after (exec .mapTo4K (onW 0x1000 0 0))).status = 0x06 :=
  ⟨rfl, exec_after _ _, rfl, exec_after _ _, test_P1_step_2.1, by decide, by decide⟩

/-- A witness for both step invariants: a token, a root, cached translations and listed memory, and
a step that resolves the token. -/
theorem witness_StepKeepsInvariants :
    let s := withCmd 0x18 (withToken .s4K 0x1000)
    s.RegistersOk ∧ s.mem.wf ∧ s.mem.InSpace ∧ s.TokenOk ∧ s.CodesOk ∧ s.TlbOk ∧ s.views = [] ∧
    step s = .next (after (step s)) := by
  unfold State.RegistersOk State.TokenOk State.CodesOk State.TlbOk TlbEntry.Aligned Memory.InSpace
  refine ⟨by decide, by decide, by decide, fun _ => ⟨rfl, by decide, .s4K, by decide⟩, by decide,
    by decide, rfl, eq_after (by decide)⟩

end Sys2Proof.Tests
end

section
/-! What a command can do to the state, said once over all commands (`Effect`), and the same for one
action of an agent (`ActEffect`). -/

namespace Sys2Proof.Machine

/-! ### Port operations -/

/-- The state after the port events `es`, newest first, with the allocator left at `q` and `k`. -/
def State.afterPorts (s : State) (es : List PortEvent) (q : List (Option Word)) (k : Nat) : State :=
  { s with
    mem := s.mem.writeAll (writesOf es.reverse), allocQ := q, allocCalls := k
    ports := es ++ s.ports, views := s.views.drop (readCount es) }

theorem afterPorts_afterPorts (s : State) (es es' : List PortEvent) (q q' : List (Option Word))
    (k k' : Nat) :
    (s.afterPorts es q k).afterPorts es' q' k' = s.afterPorts (es' ++ es) q' k' := by
  simp [State.afterPorts, writeAll_append, readCount, Nat.add_comm]

/-- Every access among the port events is one that the walker may make in `s` (20_memory.md R53,
R54). -/
def State.Permits (s : State) (es : List PortEvent) : Prop :=
  ∀ pa, (PortEvent.read pa ∈ es ∨ ∃ v, PortEvent.write pa v ∈ es) → s.Accessible pa

/-- `s'` is `s` after reads, writes and allocator calls only, each access a permitted one. -/
def PortsOnly (s s' : State) : Prop :=
  ∃ es q k, s' = s.afterPorts es q k ∧ s.Permits es

theorem PortsOnly.refl (s : State) : PortsOnly s s :=
  ⟨[], s.allocQ, s.allocCalls, rfl, by simp [State.Permits]⟩

theorem PortsOnly.trans {s s' s'' : State} (h : PortsOnly s s') (h' : PortsOnly s' s'') :
    PortsOnly s s'' := by
  obtain ⟨es, q, k, rfl, hp⟩ := h
  obtain ⟨es', q', k', rfl, hp'⟩ := h'
  refine ⟨es' ++ es, q', k', afterPorts_afterPorts .., fun pa hpa => ?_⟩
  simp only [List.mem_append, exists_or] at hpa
  rcases hpa with (hr | hr) | hw | hw
  · exact hp' pa (.inl hr)
  · exact hp pa (.inl hr)
  · exact hp' pa (.inr hw)
  · exact hp pa (.inr hw)

theorem ReadsOnly.portsOnly {s s' : State} {pas : List Nat} (h : ReadsOnly s s' pas)
    (ha : ∀ pa ∈ pas, s.Accessible pa) : PortsOnly s s' := by
  refine ⟨pas.map .read, s.allocQ, s.allocCalls, ?_, by simpa [State.Permits] using ha⟩
  have hr : readCount (pas.map PortEvent.read) = pas.length := by
    simp [readCount, List.countP_map, Function.comp_def]
  rw [h, State.afterPorts, ← List.map_reverse, writesOf_reads, writeAll_nil, hr]

theorem portsOnly_readDone {s : State} {pa : Nat} (h : s.Accessible pa) :
    PortsOnly s (s.readDone pa) :=
  ((ReadsOnly.refl s).readDone pa).portsOnly (by simpa using h)

theorem AllocsOnly.portsOnly {s s' : State} {es : List PortEvent} (h : AllocsOnly s s' es)
    (hes : ∀ e ∈ es, ∃ a, e = .alloc a) : PortsOnly s s' := by
  have hw : writesOf es.reverse = [] := List.filterMap_eq_nil_iff.2 fun e he => by
    obtain ⟨a, rfl⟩ := hes e (List.mem_reverse.1 he); rfl
  have hr : readCount es = 0 := List.countP_eq_zero.2 fun e he => by
    obtain ⟨a, rfl⟩ := hes e he; simp
  refine ⟨es, s'.allocQ, s'.allocCalls, ?_, ?_⟩
  · rw [State.afterPorts, hw, hr]; exact h.1
  · rintro pa (hpa | ⟨v, hpa⟩) <;> exact absurd (hes _ hpa) (by simp)

theorem portsOnly_storeWords {s : State} {ws : List (Nat × Word)}
    (h : ∀ w ∈ ws, s.Accessible w.1) : PortsOnly s (s.storeWords ws) := by
  refine ⟨(ws.map fun w => .write w.1 w.2).reverse, s.allocQ, s.allocCalls, ?_, ?_⟩
  · have hr : readCount (ws.map fun w => PortEvent.write w.1 w.2).reverse = 0 := by
      simp [readCount]
    rw [storeWords_eq, State.afterPorts, hr, List.reverse_reverse, writesOf_writes]
    rfl
  · rintro pa (hpa | ⟨v, hpa⟩)
    · simp at hpa
    · obtain ⟨w, hw, he⟩ := List.mem_map.1 (List.mem_reverse.1 hpa)
      cases he
      exact h w hw

theorem portsOnly_storeWord {s : State} {pa : Nat} (v : Word) (h : s.Accessible pa) :
    PortsOnly s (s.storeWord pa v) :=
  portsOnly_storeWords (ws := [(pa, v)]) (by simpa using h)

theorem PortsOnly.accessible_iff {s s' : State} (h : PortsOnly s s') (pa : Nat) :
    s'.Accessible pa ↔ s.Accessible pa := by
  obtain ⟨_, _, _, rfl, _⟩ := h; rfl

/-! ### What a command can do -/

/-- Everything a command can do: complete, take the sticky fault, issue a token, offer a translation
to the TLB, resolve the token, flushing its page or not, or take a new root. -/
inductive Effect (s : State) : State → Prop where
  | completed {s' : State} (hs : PortsOnly s s') (st : Status) (r0 r1 r2 r3 r4 : Word) :
      Effect s (s'.finish st r0 r1 r2 r3 r4)
  | faulted {s' : State} (hs : PortsOnly s s') (cause : FaultCause) :
      Effect s (s'.takeFault cause)
  | issued {s' : State} (hs : PortsOnly s s') (root : s.rv = true) {c : SizeClass} {va : Word}
      (page : GoodPage c va) (r0 r1 r2 r3 r4 : Word) :
      Effect s ((s'.issueToken c va).finish .ok r0 r1 r2 r3 r4)
  | offered {s' : State} (hs : PortsOnly s s') {e : TlbEntry} (aligned : e.Aligned)
      (r0 r1 r2 r3 r4 : Word) : Effect s ((s'.offer e).finish .ok r0 r1 r2 r3 r4)
  | ignored (r0 r1 r2 r3 r4 : Word) : Effect s (s.clearToken.finish .ok r0 r1 r2 r3 r4)
  | flushed (va r0 r1 r2 r3 r4 : Word) :
      Effect s ((s.tlbFlush va).clearToken.finish .ok r0 r1 r2 r3 r4)
  | rooted (r r0 r1 r2 r3 r4 : Word) : Effect s ((s.setRoot r).finish .ok r0 r1 r2 r3 r4)

theorem Answers.effect {s s' t : State} (h : Answers s' t) (hs : PortsOnly s s') : Effect s t := by
  obtain ⟨st, r0, r1, r2, r3, r4, -, -, rfl⟩ := h
  exact .completed hs st r0 r1 r2 r3 r4

/-- A check has the effect of what follows it, or answers. -/
theorem Effect.of_check {s k t : State} {P : Prop} (h : (P ∧ t = k) ∨ Answers s t)
    (hk : Effect s k) : Effect s t := by
  rcases h with ⟨-, rfl⟩ | h
  · exact hk
  · exact h.effect (.refl s)

/-! ### The commands that neither walk nor access memory -/

theorem effect_finish (s : State) (st : Status) (r0 r1 r2 r3 r4 : Word) :
    Effect s (s.finish st r0 r1 r2 r3 r4) := .completed (.refl s) st r0 r1 r2 r3 r4

theorem exactAdd_effect {s : State} {k : Word → State} (h : ∀ r, Effect s (k r)) (a n : Word) :
    Effect s (exactAdd s a n k) := by
  unfold exactAdd; split
  · exact h _
  · exact effect_finish ..

theorem exactSub_effect {s : State} {k : Word → State} (h : ∀ r, Effect s (k r)) (a n : Word) :
    Effect s (exactSub s a n k) := by
  unfold exactSub; split
  · exact h _
  · exact effect_finish ..

theorem checkAlignOperands_effect {s k : State} (h : Effect s k) :
    Effect s (checkAlignOperands s k) := by
  refine .of_check (checkPhysical_cases ..) ?_
  split
  · exact h
  · exact effect_finish ..

/-- A result that must be canonical. -/
theorem checkedVa_effect (s : State) (v r0 r1 r2 r3 r4 : Word) :
    Effect s (checkCanonical s v (s.complete r0 r1 r2 r3 r4)) :=
  .of_check (checkCanonical_cases ..) (effect_finish ..)

/-- A result that must be a physical address. -/
theorem checkedPa_effect (s : State) (v r0 : Word) :
    Effect s (checkPhysical s v (s.complete r0 0 0 0 0)) :=
  .of_check (checkPhysical_cases ..) (effect_finish ..)

theorem vaAddBody_effect (s : State) : Effect s (vaAddBody s) :=
  .of_check (checkCanonical_cases ..) (exactAdd_effect (fun _ => checkedVa_effect ..) _ _)

theorem vaSubBody_effect (s : State) : Effect s (vaSubBody s) :=
  .of_check (checkCanonical_cases ..) (exactSub_effect (fun _ => checkedVa_effect ..) _ _)

theorem paAddBody_effect (s : State) : Effect s (paAddBody s) :=
  .of_check (checkPhysical_cases ..) (exactAdd_effect (fun _ => checkedPa_effect ..) _ _)

theorem paSubBody_effect (s : State) : Effect s (paSubBody s) :=
  .of_check (checkPhysical_cases ..) (exactSub_effect (fun _ => effect_finish ..) _ _)

theorem entryDecodeBody_effect (s : State) : Effect s (entryDecodeBody s) := by
  simp only [entryDecodeBody]
  split
  · exact effect_finish ..
  · split
    · exact effect_finish ..
    · exact effect_finish ..

theorem entryEncodeBody_effect (c : SizeClass) (s : State) : Effect s (entryEncodeBody c s) :=
  .of_check (checkPhysical_cases ..) (.of_check (checkPaAligned_cases ..)
    (.of_check (checkFlags_cases ..) (effect_finish ..)))

theorem setRootBody_effect (s : State) : Effect s (setRootBody s) :=
  .of_check (checkPhysical_cases ..) (.rooted ..)

theorem flushTokenBody_effect (s : State) : Effect s (resolveToken flushTokenPage s) := by
  unfold resolveToken; split
  · exact .flushed ..
  · exact effect_finish ..

theorem ignoreTokenBody_effect (s : State) : Effect s (resolveToken flushNothing s) := by
  unfold resolveToken; split
  · exact .ignored ..
  · exact effect_finish ..

/-! ### The commands that read -/

theorem tableReadBody_effect (s : State) : Effect s (tableReadBody s) := by
  rcases tableReadBody_cases s with h | ⟨⟨hpa, hal⟩, hi, ⟨-, he⟩ | ⟨hadm, he⟩⟩
  · exact h.effect (.refl s)
  · rw [he]; exact .faulted (.refl s) _
  · have hacc : s.Accessible (s.arg1.toNat + 8 * s.arg0.toNat) := by
      simp only [PhysicalAddress, sizeBytes] at hpa hal
      exact ⟨by omega, by omega, hadm⟩
    rw [he]
    exact .completed (portsOnly_readDone hacc) ..

theorem translatePageBody_effect (c : SizeClass) (s : State) :
    Effect s (translatePageBody c s) := by
  rcases translatePageBody_cases c s with h | ⟨-, -, s', pas, hr, -, hacc, hcases⟩
  · exact h.effect (.refl s)
  have hs := hr.portsOnly hacc
  rcases hcases with he | h | ⟨e, -, -, -, -, he⟩
  · rw [he]; exact .faulted hs _
  · exact h.effect hs
  · rw [he]; exact .completed hs ..

/-- TRANSLATE and TRANSLATE_ADDR, for any OK completion with an effect on an aligned leaf. -/
theorem translateBody_effect {done : State → SizeClass → Word → Word → Word → State} {s : State}
    (hdone : ∀ s' c e off, PortsOnly s s' → alignedTo c (entryAddr e) = true →
      Effect s (done s' c (entryAddr e) off e)) : Effect s (translateBody done s) := by
  rcases translateBody_cases done s with h | ⟨-, -, s', pas, hr, -, hacc, hcases⟩
  · exact h.effect (.refl s)
  have hs := hr.portsOnly hacc
  rcases hcases with he | h | ⟨c, e, -, -, -, hal, he⟩
  · rw [he]; exact .faulted hs _
  · exact h.effect hs
  · rw [he]; exact hdone _ _ _ _ hs hal

/-- A word without its low `k` bits is a multiple of `2 ^ k`. -/
theorem and_not_lowMask_mod (v : Word) (k : Nat) :
    (v &&& ~~~(BitVec.ofNat 64 (2 ^ k - 1))).toNat % 2 ^ k = 0 := by
  apply Nat.eq_of_testBit_eq
  intro i
  rw [Nat.testBit_mod_two_pow, BitVec.testBit_toNat]
  by_cases hi : i < k <;> by_cases h64 : i < 64 <;>
    simp [BitVec.getLsbD_ofNat, Nat.testBit_two_pow_sub_one, hi, h64]

theorem pageBase_mod (c : SizeClass) (v : Word) :
    (v &&& ~~~(offsetMask c)).toNat % sizeBytes c = 0 :=
  match c with
  | .s4K => and_not_lowMask_mod v 12
  | .s2M => and_not_lowMask_mod v 21
  | .s1G => and_not_lowMask_mod v 30

/-- TRANSLATE offers a page and a frame of the leaf's class (42_walk_translate.md R169). -/
theorem offeredEntry_aligned {c : SizeClass} {e : Word} (h : alignedTo c (entryAddr e) = true)
    (va : Word) : (offeredEntry va c (entryAddr e) e).Aligned :=
  ⟨pageBase_mod c va, (alignedTo_iff c _).1 h, (isFrame_mask e).2⟩

theorem translate_effect (s : State) : Effect s (translateBody translateDone s) :=
  translateBody_effect fun _ _ _ _ hs hal => .offered hs (offeredEntry_aligned hal _) ..

theorem translateAddr_effect (s : State) : Effect s (translateBody translateAddrDone s) :=
  translateBody_effect fun _ _ _ _ hs _ => .completed hs ..

/-! ### The commands that write -/

theorem unmapBody_effect (c : SizeClass) (s : State) : Effect s (unmapBody c s) := by
  rcases unmapBody_cases c s with h | ⟨hroot, -, hpage, s', pas, hr, -, hacc, hcases⟩
  · exact h.effect (.refl s)
  have hs := hr.portsOnly hacc
  rcases hcases with he | h | ⟨t, e, hmet, hadm, -, -, -, -, he⟩
  · rw [he]; exact .faulted hs _
  · exact h.effect hs
  · have hw := portsOnly_storeWord 0 ((hs.accessible_iff _).2 (hmet.accessible _ hadm))
    rw [he]
    exact .issued (hs.trans hw) hroot hpage ..

theorem updateFlagsBody_effect (c : SizeClass) (s : State) : Effect s (updateFlagsBody c s) := by
  rcases updateFlagsBody_cases c s with h | ⟨hroot, -, hpage, -, s', pas, hr, -, hacc, hcases⟩
  · exact h.effect (.refl s)
  have hs := hr.portsOnly hacc
  rcases hcases with he | h | ⟨t, e, hmet, hadm, -, -, -, he⟩
  · rw [he]; exact .faulted hs _
  · exact h.effect hs
  · have hw := portsOnly_storeWord (leafEntry c (entryAddr e) s.arg2)
      ((hs.accessible_iff _).2 (hmet.accessible _ hadm))
    rw [he]
    exact .issued (hs.trans hw) hroot hpage ..

/-- Phases 2 and 3 of MAP_TO, where the walk has reached the table at `t` (43_mapper.md R191). -/
theorem mapInstall_effect {s s' : State} (hs : PortsOnly s s') (hroot : s.rv = true)
    {c : SizeClass} {va t : Word} (hpage : GoodPage c va) (ht : IsFrame t) (pa f : Word) (n : Nat) :
    Effect s (mapInstall c va pa f t n s') := by
  rcases mapInstall_cases c va pa f t n s' with
    ⟨fs, u, -, hv, hal, hadm, he⟩ | ⟨fs, u, -, -, hal, he⟩ | ⟨fs, g, u, -, -, hal, he⟩ |
    ⟨fs, u, pre, w, post, -, hv, hal, hws, hadm, -, he⟩
  · rw [he]
    have hu := hs.trans (hal.portsOnly (by simp))
    refine .issued (hu.trans (portsOnly_storeWords fun w hw => ?_)) hroot hpage ..
    obtain ⟨hmod, hlt⟩ := mapWrites_bounds ht hv hw
    exact ⟨hmod, hlt, (hal.admits_eq _ _).trans (hadm w hw)⟩
  · rw [he]
    exact .completed (hs.trans (hal.portsOnly (by simp))) ..
  · rw [he]
    exact .faulted (hs.trans (hal.portsOnly (by simp))) _
  · rw [he]
    have hu := hs.trans (hal.portsOnly (by simp))
    refine .faulted (hu.trans (portsOnly_storeWords fun x hx => ?_)) _
    obtain ⟨hmod, hlt⟩ := mapWrites_bounds ht hv (hws ▸ List.mem_append_left _ hx)
    exact ⟨hmod, hlt, (hal.admits_eq _ _).trans (hadm x hx)⟩

theorem mapPhases_effect {s : State} (hroot : s.rv = true) {c : SizeClass} {va : Word}
    (hpage : GoodPage c va) (pa f : Word) : Effect s (mapPhases c va pa f s) := by
  obtain ⟨s', pas, hr, -, hacc, hcases⟩ := mapPhases_cases c va pa f s
  have hs := hr.portsOnly hacc
  rcases hcases with ⟨-, he⟩ | ⟨l, e, -, -, -, -, he⟩ | ⟨e, -, -, he⟩ | ⟨t, n, hmet, -, -, he⟩ <;>
    rw [he]
  · exact .faulted hs _
  · exact .completed hs ..
  · exact .completed hs ..
  · exact mapInstall_effect hs hroot hpage hmet.1 pa f n

theorem mapToBody_effect (c : SizeClass) (s : State) : Effect s (mapToBody c s) := by
  rcases mapToBody_cases c s with ⟨hroot, -, hpage, -, -, he⟩ | h
  · rw [he]; exact mapPhases_effect hroot hpage _ _
  · exact h.effect (.refl s)

theorem identityMapBody_effect (c : SizeClass) (s : State) : Effect s (identityMapBody c s) := by
  rcases identityMapBody_cases c s with ⟨hroot, -, hframe, hcan, -, he⟩ | h
  · rw [he]; exact mapPhases_effect hroot ⟨hcan, hframe.2⟩ _ _
  · exact h.effect (.refl s)

/-! ### All commands -/

theorem bodyOf_effect (i : Instr) (s : State) : Effect s (bodyOf i s) := by
  cases i with
  | vaTryNew => exact checkedVa_effect ..
  | vaNewUnchecked => exact effect_finish ..
  | vaSplit => exact checkedVa_effect ..
  | vaAdd => exact vaAddBody_effect s
  | vaSub => exact vaSubBody_effect s
  | paTryNew => exact checkedPa_effect ..
  | paAdd => exact paAddBody_effect s
  | paSub => exact paSubBody_effect s
  | paIsAligned => exact checkAlignOperands_effect (effect_finish ..)
  | paAlignDown => exact checkAlignOperands_effect (effect_finish ..)
  | paAlignUp => exact checkAlignOperands_effect (checkedPa_effect ..)
  | entryDecode => exact entryDecodeBody_effect s
  | entryEncode4K | entryEncode2M | entryEncode1G => exact entryEncodeBody_effect _ s
  | tableRead => exact tableReadBody_effect s
  | mapTo4K | mapTo2M | mapTo1G => exact mapToBody_effect _ s
  | identityMap4K | identityMap2M | identityMap1G => exact identityMapBody_effect _ s
  | unmap4K | unmap2M | unmap1G => exact unmapBody_effect _ s
  | updateFlags4K | updateFlags2M | updateFlags1G => exact updateFlagsBody_effect _ s
  | translatePage4K | translatePage2M | translatePage1G => exact translatePageBody_effect _ s
  | translate => exact translate_effect s
  | translateAddr => exact translateAddr_effect s
  | flushToken => exact flushTokenBody_effect s
  | ignoreToken => exact ignoreTokenBody_effect s
  | setRoot => exact setRootBody_effect s

/-- Every command has one of the effects (also while writes race with it). -/
theorem exec_effect {i : Instr} {s t : State} (h : exec i s = .next t) : Effect s t := by
  rw [exec_eq_command] at h
  cases hf : s.flt with
  | true =>
    rw [command_of_flt hf] at h
    cases h
    exact effect_finish ..
  | false =>
    rw [command_of_not_flt hf] at h
    cases h
    exact bodyOf_effect i s

theorem issueWord_effect {w : CommandWord} {s t : State} (h : issueWord w s = .next t) :
    Effect s t := by
  rcases issueWord_cases h with ⟨-, rfl⟩ | ⟨-, -, rfl⟩ | ⟨-, i, -, he⟩
  · exact effect_finish ..
  · exact effect_finish ..
  · exact exec_effect he

/-- Every write among the port events is inside physical memory. -/
def WritesInSpace (es : List PortEvent) : Prop :=
  ∀ pa v, PortEvent.write pa v ∈ es → pa + 8 ≤ Config.physicalBytes

theorem WritesInSpace.of_subset {es es' : List PortEvent} (h : WritesInSpace es) (hs : es' ⊆ es) :
    WritesInSpace es' :=
  fun pa v hw => h pa v (hs hw)

theorem PortsOnly.writesInSpace {s s' : State} (h : PortsOnly s s') (hp : s.ports = []) :
    WritesInSpace s'.ports := by
  obtain ⟨es, q, k, rfl, hacc⟩ := h
  intro pa v hw
  have hw : PortEvent.write pa v ∈ es := by simpa [State.afterPorts, hp] using hw
  exact (hacc pa (.inr ⟨v, hw⟩)).2.1

theorem PortsOnly.views_eq {s s' : State} (h : PortsOnly s s') (hv : s.views = []) :
    s'.views = [] := by
  obtain ⟨es, q, k, rfl, -⟩ := h
  simp [State.afterPorts, hv]

/-- A command that starts with no port event records only writes inside physical memory. -/
theorem Effect.writesInSpace {s t : State} (h : Effect s t) (hp : s.ports = []) :
    WritesInSpace t.ports := by
  cases h with
  | completed hs => exact hs.writesInSpace hp
  | faulted hs => exact hs.writesInSpace hp
  | issued hs => exact hs.writesInSpace hp
  | offered hs => exact hs.writesInSpace hp
  | ignored => exact (PortsOnly.refl s).writesInSpace hp
  | flushed => simp [WritesInSpace, hp]
  | rooted => exact (PortsOnly.refl s).writesInSpace hp

/-- Where no write races with the command, none is left for a later one to see. -/
theorem Effect.views_eq {s t : State} (h : Effect s t) (hv : s.views = []) : t.views = [] := by
  cases h with
  | completed hs => exact hs.views_eq hv
  | faulted hs => exact hs.views_eq hv
  | issued hs => exact hs.views_eq hv
  | offered hs => exact hs.views_eq hv
  | ignored => exact hv
  | flushed => exact hv
  | rooted => exact hv

/-! ### What an action of an agent can do -/

/-- Everything an action can do: change argument registers or what host and core have observed,
store to memory, run a command, reset the walker between commands or in one, run a command that
writes race with, or change the TLB. -/
inductive ActEffect (s : State) : State → Prop where
  | noted (a0 a1 a2 d : Word) (x : Option Word) (p : List Action) :
      ActEffect s
        { s with arg0 := a0, arg1 := a1, arg2 := a2, hostData := d, coreXlat := x, pending := p }
  | stored {m : Memory} (wf : s.mem.wf → m.wf) (inSpace : s.mem.InSpace → m.InSpace) :
      ActEffect s { s with mem := m }
  | ran {a0 : Word} {u : State} (h : Effect { s.clearPorts with arg0 := a0 } u) (x : Option Word) :
      ActEffect s { u with coreXlat := x }
  | reset : ActEffect s s.walkerReset
  | abandoned {u : State} (h : Effect s.clearPorts u) (n : Nat) :
      ActEffect s (s.abandoned (u.ports.reverse.take n))
  | raced {a0 : Word} {vs : List (List (Nat × Word))} {u : State} {rs : List RacingWrite}
      (bounds : ∀ r ∈ rs, r.pa.toNat + 8 ≤ Config.physicalBytes)
      (h : Effect { s.clearPorts with arg0 := a0, views := vs } u) (x : Option Word)
      (reset : Option Nat) : ActEffect s (s.raceDone rs reset { u with coreXlat := x })
  | filled (n : Nat) : ActEffect s (s.tlbFill n)
  | evicted (n : Nat) : ActEffect s (s.tlbEvict n)
  | invalidated (first last : Word) : ActEffect s (s.tlbInvalidate first last)

theorem actEffect_refl (s : State) : ActEffect s s :=
  .noted s.arg0 s.arg1 s.arg2 s.hostData s.coreXlat s.pending

theorem hostWrite_effect {slot : BitVec 4} {v : Word} {s t : State}
    (h : hostWrite slot v s = .next t) : ActEffect s t := by
  rcases hostWrite_cases h with ⟨-, rfl⟩ | ⟨-, rfl⟩ | ⟨-, rfl⟩ | ⟨-, h⟩ | ⟨-, he⟩
  · exact .noted v s.arg1 s.arg2 s.hostData s.coreXlat s.pending
  · exact .noted s.arg0 v s.arg2 s.hostData s.coreXlat s.pending
  · exact .noted s.arg0 s.arg1 v s.hostData s.coreXlat s.pending
  · exact .ran (a0 := s.arg0) (issueWord_effect h) t.coreXlat
  · rw [he]; exact actEffect_refl s

theorem missPath_effect {va : Word} {s t : State} (h : missPath va s = .next t) :
    ∃ u x, Effect { s.clearPorts with arg0 := va } u ∧ t = { u with coreXlat := x } := by
  obtain ⟨u, hu, rfl⟩ := missPath_cases h
  exact ⟨u, _, issueWord_effect hu, rfl⟩

theorem coreAccess_effect {va : Word} {cached : Option Nat} {s t : State}
    (h : coreAccess va cached s = .next t) : ActEffect s t := by
  rcases coreAccess_cases h with ⟨e, -, rfl⟩ | ⟨-, h⟩
  · exact .noted s.arg0 s.arg1 s.arg2 s.hostData _ s.pending
  · obtain ⟨u, x, hu, rfl⟩ := missPath_effect h
    exact .ran hu x

theorem startCommand_effect {source : CommandSource} {s t : State}
    (h : startCommand source s = .next t) :
    ∃ a0 u x, Effect { s.clearPorts with arg0 := a0 } u ∧ t = { u with coreXlat := x } := by
  cases source with
  | host w => exact ⟨s.arg0, t, t.coreXlat, issueWord_effect h, rfl⟩
  | core va => exact ⟨va, missPath_effect h⟩

theorem raceCommand_effect {source : CommandSource} {rs : List RacingWrite}
    {draws : List (List Bool)} {reset : Option Nat} {s t : State}
    (h : raceCommand source rs draws reset s = .next t) : ActEffect s t := by
  obtain ⟨hb, t', hstart, rfl⟩ := raceCommand_cases h
  obtain ⟨a0, u, x, hu, rfl⟩ := startCommand_effect hstart
  exact .raced (s := s) (vs := draws.map (seenWrites rs)) hb hu x reset

/-- Every action has one of the effects. -/
theorem act_effect {a : Action} {s t : State} (h : act a s = .next t) : ActEffect s t := by
  cases a with
  | write slot v => exact hostWrite_effect h
  | read slot => cases h; exact .noted s.arg0 s.arg1 s.arg2 _ s.coreXlat s.pending
  | memWrite pa v =>
    obtain ⟨hb, rfl⟩ := hostAccess_cases h
    exact .stored (Memory.wf_write64 · _ _) (Memory.inSpace_write64 · _ hb)
  | memRead pa =>
    obtain ⟨-, rfl⟩ := hostAccess_cases h
    exact .noted s.arg0 s.arg1 s.arg2 _ s.coreXlat s.pending
  | memWriteByte pa b =>
    obtain ⟨hb, rfl⟩ := hostAccess_cases h
    exact .stored (Memory.wf_writeByte · _ _) (Memory.inSpace_writeByte · _ hb)
  | memReadByte pa =>
    obtain ⟨-, rfl⟩ := hostAccess_cases h
    exact .noted s.arg0 s.arg1 s.arg2 _ s.coreXlat s.pending
  | writeIfOk slot v =>
    simp only [act] at h
    split at h
    · exact hostWrite_effect h
    · cases h; exact actEffect_refl s
  | haltUnlessOk =>
    cases h
    split
    · exact actEffect_refl s
    · exact .noted s.arg0 s.arg1 s.arg2 s.hostData s.coreXlat _
  | reset => cases h; exact .reset
  | resetDuring w n =>
    obtain ⟨u, hu, rfl⟩ := resetDuring_cases h
    exact .abandoned (issueWord_effect hu) n
  | race source rs draws reset => exact raceCommand_effect h
  | access va cached => exact coreAccess_effect h
  | tlbFill n => cases h; exact .filled n
  | tlbEvict n => cases h; exact .evicted n
  | tlbInvalidate first last => cases h; exact .invalidated first last

theorem step_of_pending {s : State} {a : Action} {rest : List Action} (h : s.pending = a :: rest) :
    step s = act a { s with pending := rest } := by
  simp [step, h]

theorem step_of_idle {s : State} (h : s.pending = []) : step s = .next s := by
  simp [step, h]

/-- Every step has the effect of an action on the state with some other actions to come. -/
theorem step_effect {s t : State} (h : step s = .next t) :
    ∃ p, ActEffect { s with pending := p } t := by
  cases hp : s.pending with
  | nil =>
    rw [step_of_idle hp] at h
    cases h
    exact ⟨s.pending, actEffect_refl s⟩
  | cons a rest =>
    rw [step_of_pending hp] at h
    exact ⟨rest, act_effect h⟩

end Sys2Proof.Machine
end

section
/-! The statements of 10_state.md: the register and machine invariants from what a step can do, the
state after reset, the register window, and the step that runs a command. -/

namespace Sys2Proof.Machine

/-! ### The register invariants -/

theorem readSlot_root_toNat (s : State) : (s.readSlot 10).toNat = s.root.toNat :=
  BitVec.toNat_setWidth_of_le (by decide)

/-- Bits 63:52 of ROOT are hardwired to 0 (10_state.md R24). -/
theorem readSlot_root_high (s : State) : (s.readSlot 10).extractLsb' 52 12 = 0 := by
  apply BitVec.eq_of_toNat_eq
  rw [BitVec.extractLsb'_toNat, readSlot_root_toNat, Nat.shiftRight_eq_div_pow,
    Nat.div_eq_of_lt s.root.isLt]
  rfl

theorem registersOk_iff (s : State) :
    s.RegistersOk ↔
      (s.tv = false → s.tokenVa = 0 ∧ s.tsz = 0) ∧ (s.flt = false ↔ s.fcause = 0) :=
  ⟨fun ⟨htoken, hfault, _⟩ => ⟨htoken, hfault⟩,
    fun ⟨htoken, hfault⟩ => ⟨htoken, hfault, fun _ => readSlot_root_high s⟩⟩

theorem causeCode_ne_zero (c : FaultCause) : c.code ≠ 0 := by cases c <;> decide

theorem walkerReset_registersOk (s : State) : s.walkerReset.RegistersOk :=
  (registersOk_iff _).2 ⟨fun _ => ⟨rfl, rfl⟩, fun _ => rfl, fun _ => rfl⟩

/-- The register invariants read the registers TV, TOKEN_VA, TSZ, FLT and FCAUSE only. -/
theorem State.RegistersOk.congr {s t : State} (h : s.RegistersOk) (htv : t.tv = s.tv)
    (hva : t.tokenVa = s.tokenVa) (htsz : t.tsz = s.tsz) (hflt : t.flt = s.flt)
    (hcause : t.fcause = s.fcause) : t.RegistersOk := by
  rw [registersOk_iff] at h ⊢
  rwa [htv, hva, htsz, hflt, hcause]

theorem Effect.registersOk {s t : State} (h : Effect s t) (hs : s.RegistersOk) : t.RegistersOk := by
  obtain ⟨htoken, hfault⟩ := (registersOk_iff s).1 hs
  cases h with
  | completed hp => obtain ⟨_, _, _, rfl, -⟩ := hp; exact hs
  | @faulted s' hp cause =>
    obtain ⟨_, _, _, rfl, -⟩ := hp
    exact (registersOk_iff _).2 ⟨htoken, nofun, fun h => absurd h (causeCode_ne_zero cause)⟩
  | issued hp =>
    obtain ⟨_, _, _, rfl, -⟩ := hp
    exact (registersOk_iff _).2 ⟨nofun, hfault⟩
  | offered hp => obtain ⟨_, _, _, rfl, -⟩ := hp; exact hs
  | ignored => exact (registersOk_iff _).2 ⟨fun _ => ⟨rfl, rfl⟩, hfault⟩
  | flushed => exact (registersOk_iff _).2 ⟨fun _ => ⟨rfl, rfl⟩, hfault⟩
  | rooted => exact (registersOk_iff _).2 ⟨htoken, hfault⟩

theorem ActEffect.registersOk {s t : State} (h : ActEffect s t) (hs : s.RegistersOk) :
    t.RegistersOk := by
  cases h with
  | noted => exact hs
  | stored => exact hs
  | ran hu => exact hu.registersOk hs
  | reset => exact walkerReset_registersOk s
  | abandoned => exact walkerReset_registersOk _
  | @raced _ _ u _ _ hu _ reset =>
    cases reset with
    | none => exact hu.registersOk hs
    | some n => exact walkerReset_registersOk (s.clearPorts.replay (u.ports.reverse.take n))
  | filled n =>
    exact hs.congr (tlbFill_tv ..) (tlbFill_tokenVa ..) (tlbFill_tsz ..) (tlbFill_flt ..)
      (tlbFill_fcause ..)
  | evicted => exact hs
  | invalidated => exact hs

/-- Settles O58: reset and every effect of an action keep the register invariants. -/
theorem stepKeepsRegisterInvariants : Obligations.StepKeepsRegisterInvariants := by
  refine ⟨walkerReset_registersOk State.reset, fun s t hs hstep => ?_⟩
  obtain ⟨p, h⟩ := step_effect hstep
  exact h.registersOk hs

/-! ### The machine invariants -/

/-- The parts of the machine invariants that hold also while writes race with a command. -/
structure State.MachineOk (s : State) : Prop where
  wf : s.mem.wf
  inSpace : s.mem.InSpace
  token : s.TokenOk
  codes : s.CodesOk
  tlb : s.TlbOk

theorem statusCode_le (st : Status) : st.code.toNat ≤ 0x12 := by cases st <;> decide

theorem causeCode_le (c : FaultCause) : c.code.toNat ≤ 2 := by cases c <;> decide

/-- A completion writes a code of the table (30_encoding.md R92). -/
theorem State.MachineOk.finish {s : State} (h : s.MachineOk) (st : Status) (r0 r1 r2 r3 r4 : Word) :
    (s.finish st r0 r1 r2 r3 r4).MachineOk :=
  ⟨h.wf, h.inSpace, h.token, ⟨statusCode_le st, h.codes.2⟩, h.tlb⟩

theorem State.MachineOk.takeFault {s : State} (h : s.MachineOk) (c : FaultCause) :
    (s.takeFault c).MachineOk :=
  ⟨h.wf, h.inSpace, h.token, ⟨statusCode_le .faulted, causeCode_le c⟩, h.tlb⟩

theorem State.MachineOk.issueToken {s : State} (h : s.MachineOk) (hroot : s.rv = true)
    {c : SizeClass} {va : Word} (hpage : GoodPage c va) : (s.issueToken c va).MachineOk :=
  ⟨h.wf, h.inSpace, fun _ => ⟨hroot, (canonical_iff va).2 hpage.1, c, rfl, hpage.2⟩, h.codes, h.tlb⟩

theorem State.MachineOk.clearToken {s : State} (h : s.MachineOk) : s.clearToken.MachineOk :=
  ⟨h.wf, h.inSpace, nofun, h.codes, h.tlb⟩

theorem State.MachineOk.setRoot {s : State} (h : s.MachineOk) (r : Word) :
    (s.setRoot r).MachineOk :=
  ⟨h.wf, h.inSpace, fun htv => ⟨rfl, (h.token htv).2⟩, h.codes, h.tlb⟩

theorem State.MachineOk.offer {s : State} (h : s.MachineOk) {e : TlbEntry} (he : e.Aligned) :
    (s.offer e).MachineOk :=
  ⟨h.wf, h.inSpace, h.token, h.codes, h.tlb.1, List.forall_mem_cons.2 ⟨he, h.tlb.2⟩⟩

/-- Dropping entries keeps the TLB aligned. -/
theorem State.TlbOk.filter {s : State} (h : s.TlbOk) (keep : TlbEntry → Bool) :
    (∀ e ∈ s.tlb.filter keep, e.Aligned) ∧ ∀ e ∈ s.fillable.filter keep, e.Aligned :=
  ⟨fun e he => h.1 e (List.mem_filter.1 he).1, fun e he => h.2 e (List.mem_filter.1 he).1⟩

theorem State.MachineOk.tlbFlush {s : State} (h : s.MachineOk) (va : Word) :
    (s.tlbFlush va).MachineOk :=
  ⟨h.wf, h.inSpace, h.token, h.codes, h.tlb.filter _⟩

theorem State.MachineOk.walkerReset {s : State} (h : s.MachineOk) : s.walkerReset.MachineOk :=
  ⟨h.wf, h.inSpace, nofun, ⟨Nat.zero_le _, Nat.zero_le _⟩, h.tlb⟩

/-- Writes inside physical memory. -/
theorem State.MachineOk.writeAll {s : State} (h : s.MachineOk) {ws : List (Nat × Word)}
    (hws : ∀ w ∈ ws, w.1 + 8 ≤ Config.physicalBytes) :
    ({ s with mem := s.mem.writeAll ws } : State).MachineOk :=
  ⟨Memory.wf_writeAll h.wf ws, Memory.inSpace_writeAll h.inSpace hws, h.token, h.codes, h.tlb⟩

theorem mem_writesOf {es : List PortEvent} {w : Nat × Word} :
    w ∈ writesOf es ↔ PortEvent.write w.1 w.2 ∈ es := by
  obtain ⟨pa, v⟩ := w
  simp only [writesOf, List.mem_filterMap]
  constructor
  · rintro ⟨e, he, hw⟩
    cases e <;> cases hw
    exact he
  · exact fun h => ⟨_, h, rfl⟩

theorem State.MachineOk.portsOnly {s s' : State} (h : s.MachineOk) (hs : PortsOnly s s') :
    s'.MachineOk := by
  obtain ⟨es, q, k, rfl, hacc⟩ := hs
  have hm : ({ s with mem := s.mem.writeAll (writesOf es.reverse) } : State).MachineOk :=
    h.writeAll fun w hw =>
      (hacc w.1 (.inr ⟨w.2, List.mem_reverse.1 (mem_writesOf.1 hw)⟩)).2.1
  exact ⟨hm.wf, hm.inSpace, h.token, h.codes, h.tlb⟩

theorem PortsOnly.rv_eq {s s' : State} (h : PortsOnly s s') : s'.rv = s.rv := by
  obtain ⟨_, _, _, rfl, -⟩ := h; rfl

theorem Effect.machineOk {s t : State} (h : Effect s t) (hs : s.MachineOk) : t.MachineOk := by
  cases h with
  | completed hp => exact (hs.portsOnly hp).finish ..
  | faulted hp cause => exact (hs.portsOnly hp).takeFault cause
  | issued hp root page =>
    exact ((hs.portsOnly hp).issueToken (hp.rv_eq.trans root) page).finish ..
  | offered hp aligned => exact ((hs.portsOnly hp).offer aligned).finish ..
  | ignored => exact hs.clearToken.finish ..
  | flushed va => exact (hs.tlbFlush va).clearToken.finish ..
  | rooted r => exact (hs.setRoot r).finish ..

/-! ### Reset in the middle of a command, and races -/

theorem WritesInSpace.reverse {es : List PortEvent} (h : WritesInSpace es) :
    WritesInSpace es.reverse :=
  h.of_subset (List.reverse_subset.2 (List.Subset.refl es))

theorem WritesInSpace.firstEvents {es : List PortEvent} (h : WritesInSpace es) (n : Nat) :
    WritesInSpace (es.reverse.take n) :=
  h.reverse.of_subset (List.take_subset n _)

theorem State.MachineOk.replayEvent {s : State} (h : s.MachineOk) {e : PortEvent}
    (he : ∀ pa v, e = .write pa v → pa + 8 ≤ Config.physicalBytes) :
    (s.replayEvent e).MachineOk := by
  cases e with
  | read pa => exact ⟨h.wf, h.inSpace, h.token, h.codes, h.tlb⟩
  | write pa v =>
    exact ⟨Memory.wf_write64 h.wf pa v, Memory.inSpace_write64 h.inSpace v (he pa v rfl), h.token,
      h.codes, h.tlb⟩
  | alloc a =>
    rw [State.replayEvent, takeAnswer_eq]
    exact ⟨h.wf, h.inSpace, h.token, h.codes, h.tlb⟩
  | flush va => exact h.tlbFlush va

theorem State.MachineOk.replay {es : List PortEvent} (hes : WritesInSpace es) :
    ∀ {s : State}, s.MachineOk → (s.replay es).MachineOk := by
  induction es with
  | nil => exact id
  | cons e es ih =>
    intro s h
    rw [replay_cons]
    exact ih (fun pa v hw => hes pa v (List.mem_cons_of_mem e hw))
      (h.replayEvent fun pa v he => hes pa v (by simp [he]))

theorem State.MachineOk.abandoned {s : State} (h : s.MachineOk) {es : List PortEvent}
    (hes : WritesInSpace es) : (s.abandoned es).MachineOk := by
  have hclear : s.clearPorts.MachineOk := ⟨h.wf, h.inSpace, h.token, h.codes, h.tlb⟩
  exact (hclear.replay hes).walkerReset

/-- The writes of a race are inside physical memory when the racing ones and the command's own
are. -/
theorem raceWrites_inSpace {rs : List RacingWrite} {es : List PortEvent}
    (hrs : ∀ r ∈ rs, r.pa.toNat + 8 ≤ Config.physicalBytes) (hes : WritesInSpace es) (k : Nat) :
    ∀ w ∈ raceWrites rs k (writesOf es), w.1 + 8 ≤ Config.physicalBytes := by
  intro w hw
  rcases mem_raceWrites.1 hw with ⟨r, hr, -, rfl⟩ | hw
  · exact hrs r hr
  · exact hes _ _ (mem_writesOf.1 hw)

/-- After a race memory holds the racing writes and the command's own, and the rest is what the
command, or the reset in it, left. -/
theorem State.MachineOk.raceDone {s u : State} {rs : List RacingWrite} (hs : s.MachineOk)
    (hu : u.MachineOk) (hrs : ∀ r ∈ rs, r.pa.toNat + 8 ≤ Config.physicalBytes)
    (hes : WritesInSpace u.ports) (reset : Option Nat) :
    (s.raceDone rs reset u).MachineOk := by
  cases reset with
  | none =>
    have hm := hs.writeAll (raceWrites_inSpace hrs hes.reverse 0)
    exact ⟨hm.wf, hm.inSpace, hu.token, hu.codes, hu.tlb⟩
  | some n =>
    have hfirst := hes.firstEvents n
    have hm := hs.writeAll (raceWrites_inSpace hrs hfirst 0)
    have ha := hs.abandoned hfirst
    exact ⟨hm.wf, hm.inSpace, ha.token, ha.codes, ha.tlb⟩

/-! ### Every action -/

theorem State.TlbOk.tlbFill {s : State} (h : s.TlbOk) (n : Nat) : (s.tlbFill n).TlbOk := by
  refine ⟨fun e he => ?_, fun e he => h.2 e (by simpa using he)⟩
  rcases mem_tlbFill he with he | he
  · exact h.1 e he
  · exact h.2 e he

theorem State.MachineOk.tlbFill {s : State} (h : s.MachineOk) (n : Nat) :
    (s.tlbFill n).MachineOk := by
  obtain ⟨hwf, hspace, htoken, hcodes, htlb⟩ := h
  exact ⟨by simpa using hwf, by simpa using hspace, by simpa [State.TokenOk] using htoken,
    by simpa [State.CodesOk] using hcodes, htlb.tlbFill n⟩

theorem ActEffect.machineOk {s t : State} (h : ActEffect s t) (hs : s.MachineOk) : t.MachineOk := by
  have framed : ∀ p a0 vs,
      ({ s with ports := p, arg0 := a0, views := vs } : State).MachineOk :=
    fun _ _ _ => ⟨hs.wf, hs.inSpace, hs.token, hs.codes, hs.tlb⟩
  cases h with
  | noted => exact ⟨hs.wf, hs.inSpace, hs.token, hs.codes, hs.tlb⟩
  | stored wf inSpace => exact ⟨wf hs.wf, inSpace hs.inSpace, hs.token, hs.codes, hs.tlb⟩
  | ran hu =>
    have ht := hu.machineOk (framed _ _ _)
    exact ⟨ht.wf, ht.inSpace, ht.token, ht.codes, ht.tlb⟩
  | reset => exact hs.walkerReset
  | abandoned hu n => exact hs.abandoned ((hu.writesInSpace rfl).firstEvents n)
  | @raced _ _ u _ hrs hu x reset =>
    have ht := hu.machineOk (framed _ _ _)
    have hx : ({ u with coreXlat := x } : State).MachineOk :=
      ⟨ht.wf, ht.inSpace, ht.token, ht.codes, ht.tlb⟩
    exact hs.raceDone hx hrs (hu.writesInSpace rfl) reset
  | filled n => exact hs.tlbFill n
  | evicted n =>
    exact ⟨hs.wf, hs.inSpace, hs.token, hs.codes,
      fun e he => hs.tlb.1 e (List.mem_of_mem_eraseIdx he), hs.tlb.2⟩
  | invalidated => exact ⟨hs.wf, hs.inSpace, hs.token, hs.codes, hs.tlb.filter _⟩

theorem replay_views (s : State) (es : List PortEvent) : (s.replay es).views = s.views := by
  induction es generalizing s with
  | nil => rfl
  | cons e es ih =>
    rw [replay_cons, ih]
    cases e with
    | read pa => rfl
    | write pa v => rfl
    | alloc a => exact takeAnswer_views s
    | flush va => rfl

theorem ActEffect.views_eq {s t : State} (h : ActEffect s t) (hv : s.views = []) :
    t.views = [] := by
  cases h with
  | noted => exact hv
  | stored => exact hv
  | ran hu => exact hu.views_eq hv
  | reset => exact hv
  | abandoned => exact (replay_views _ _).trans hv
  | raced => exact raceDone_views ..
  | filled n => exact (tlbFill_views s n).trans hv
  | evicted => exact hv
  | invalidated => exact hv

/-- Settles O59: every effect of an action keeps the machine invariants. -/
theorem stepKeepsMachineInvariants : Obligations.StepKeepsMachineInvariants := by
  intro s t hwf hspace htoken hcodes htlb hviews hstep
  obtain ⟨p, h⟩ := step_effect hstep
  have ht := h.machineOk ⟨hwf, hspace, htoken, hcodes, htlb⟩
  exact ⟨ht.wf, ht.inSpace, ht.token, ht.codes, ht.tlb, h.views_eq hviews⟩

/-! ### The state after reset -/

/-- Settles O60: State.reset is a reset walker beside an empty memory and an empty TLB. -/
theorem invariantsHoldAtReset : Obligations.InvariantsHoldAtReset := by
  refine ⟨walkerReset_registersOk State.reset, ⟨List.Pairwise.nil, ?_⟩, ?_, nofun,
    ⟨Nat.zero_le _, Nat.zero_le _⟩, ⟨?_, ?_⟩, rfl⟩
  all_goals exact fun _ h => absurd h List.not_mem_nil

/-- Settles O6: the reset action is `State.walkerReset` of the state without it. -/
theorem resetClearsTheWalkerOnly : Obligations.ResetClearsTheWalkerOnly := by
  refine ⟨fun s rest hp => ?_, ?_⟩
  · rw [step_of_pending hp]; rfl
  · decide

/-! ### The register window and the decoded command -/

theorem hostWrite_cmd (v : Word) (s : State) :
    hostWrite 3 v s = issueWord (v.setWidth 32) s.clearPorts := rfl

theorem hostWrite_ignored {slot : BitVec 4} (h : 4 ≤ slot.toNat) (v : Word) (s : State) :
    hostWrite slot v s = .next s := by
  unfold hostWrite
  split
  case h_5 => rfl
  all_goals omega

/-- A legal word runs its command, also where the sticky fault makes both answer FAULTED. -/
theorem issueWord_of_decode {w : CommandWord} {i : Instr} (h : decode w = .ok i) (s : State) :
    issueWord w s = exec i s := by
  cases hf : s.flt with
  | true => rw [exec_eq_command, command_of_flt hf, issueWord, if_pos hf]
  | false => simp [issueWord, hf, h]

/-- Settles O4, by the CMD slot's write and the decoding of its word. -/
theorem stepRunsDecodedCommand : Obligations.StepRunsDecodedCommand := by
  refine ⟨fun s v rest i hp hd => ?_, fun s => step_of_idle⟩
  rw [step_of_pending hp]
  exact (hostWrite_cmd v _).trans (issueWord_of_decode hd _)

theorem readSlot_status_toNat (s : State) : (s.readSlot 4).toNat = s.status.toNat :=
  BitVec.toNat_setWidth_of_le (by decide)

/-- UNIT as a number: RV, TV and FLT in bits 0 to 2, TSZ in 4:3, FCAUSE in 15:8 (10_state.md
R26). -/
theorem readSlot_unit_toNat (s : State) :
    (s.readSlot 12).toNat = s.rv.toNat + 2 * s.tv.toNat + 4 * s.flt.toNat + 8 * s.tsz.toNat +
      256 * s.fcause.toNat := by
  change s.unitReg.toNat = _
  simp only [State.unitReg, BitVec.toNat_append, BitVec.toNat_ofNat, BitVec.toNat_ofBool]
  rw [← Nat.shiftLeft_add_eq_or_of_lt s.fcause.isLt,
    ← Nat.shiftLeft_add_eq_or_of_lt (show 0 % 2 ^ 3 < 2 ^ 3 by decide),
    ← Nat.shiftLeft_add_eq_or_of_lt s.tsz.isLt,
    ← Nat.shiftLeft_add_eq_or_of_lt (i := 1) s.flt.toNat_lt,
    ← Nat.shiftLeft_add_eq_or_of_lt (i := 1) s.tv.toNat_lt,
    ← Nat.shiftLeft_add_eq_or_of_lt (i := 1) s.rv.toNat_lt]
  omega

/-- Settles O5, slot by slot. -/
theorem registerWindow : Obligations.RegisterWindow := by
  refine ⟨fun _ _ _ => step_of_pending, fun s => ?_, fun s v rest => ⟨?_, ?_, ?_, ?_, ?_⟩,
    fun slot => ?_⟩
  · exact ⟨rfl, rfl, rfl, rfl, readSlot_status_toNat s, rfl, rfl, rfl, rfl, rfl,
      readSlot_root_toNat s, rfl, readSlot_unit_toNat s, rfl, rfl, rfl⟩
  · exact step_of_pending
  · exact step_of_pending
  · exact step_of_pending
  · exact step_of_pending
  · exact fun slot hslot hp => (step_of_pending hp).trans (hostWrite_ignored hslot v _)
  · apply BitVec.eq_of_toNat_eq
    simp [Config.slotAddress]

end Sys2Proof.Machine
end

section
/-! A command and memory (20_memory.md R53, R54, R61): the writes on the port are its only effect on
memory, and the port admits every access. -/

namespace Sys2Proof.Machine

/-- Port operations leave memory with the writes they recorded. -/
theorem PortsOnly.mem_eq {s s' : State} (h : PortsOnly s s') (hp : s.ports = []) :
    s'.mem = s.mem.writeAll (writesOf s'.ports.reverse) := by
  obtain ⟨es, q, k, rfl, -⟩ := h
  simp [State.afterPorts, hp]

theorem PortsOnly.permits {s s' : State} (h : PortsOnly s s') (hp : s.ports = []) :
    s.Permits s'.ports := by
  obtain ⟨es, q, k, rfl, hacc⟩ := h
  simpa [State.afterPorts, hp] using hacc

/-- A command leaves memory with the writes it recorded, and made permitted accesses only. -/
theorem Effect.mem_eq_and_permits {s t : State} (h : Effect s t) (hp : s.ports = []) :
    t.mem = s.mem.writeAll (writesOf t.ports.reverse) ∧ s.Permits t.ports := by
  cases h with
  | completed hs => exact ⟨hs.mem_eq hp, hs.permits hp⟩
  | faulted hs => exact ⟨hs.mem_eq hp, hs.permits hp⟩
  | issued hs => exact ⟨hs.mem_eq hp, hs.permits hp⟩
  | offered hs => exact ⟨hs.mem_eq hp, hs.permits hp⟩
  | ignored => exact ⟨(PortsOnly.refl s).mem_eq hp, (PortsOnly.refl s).permits hp⟩
  | flushed va => simp [State.Permits, writesOf, hp]
  | rooted => exact ⟨(PortsOnly.refl s).mem_eq hp, (PortsOnly.refl s).permits hp⟩

/-- Settles O56, by the effect that every command has. -/
theorem memoryChangesOnlyByPortWrites : Obligations.MemoryChangesOnlyByPortWrites := by
  intro i s t hp h
  exact (exec_effect h).mem_eq_and_permits hp

end Sys2Proof.Machine
end

section
/-! The TLB (20_memory.md R66, R67): what each command leaves on offer, where the entries of the TLB
come from, what the core's access uses, and what a flush leaves. -/

namespace Sys2Proof.Machine

/-! ### Commands that offer nothing -/

theorem Answers.fillable_eq {s t : State} (h : Answers s t) : t.fillable = s.fillable := by
  obtain ⟨_, _, _, _, _, _, -, -, rfl⟩ := h; rfl

theorem ReadsOnly.fillable_eq {s s' : State} {pas : List Nat} (h : ReadsOnly s s' pas) :
    s'.fillable = s.fillable := by rw [h]

theorem AllocsOnly.fillable_eq {s s' : State} {es : List PortEvent} (h : AllocsOnly s s' es) :
    s'.fillable = s.fillable := by rw [h.1]

@[simp] theorem storeWords_fillable (s : State) (ws : List (Nat × Word)) :
    (s.storeWords ws).fillable = s.fillable := by rw [storeWords_eq]

/-- A check leaves on offer what follows it leaves, or answers and leaves what was. -/
theorem fillable_of_check {s k t : State} {P : Prop} (h : (P ∧ t = k) ∨ Answers s t)
    (hk : k.fillable = s.fillable) : t.fillable = s.fillable := by
  rcases h with ⟨-, rfl⟩ | h
  · exact hk
  · exact h.fillable_eq

theorem checkCanonical_fillable {s k : State} (hk : k.fillable = s.fillable) (v : Word) :
    (checkCanonical s v k).fillable = s.fillable :=
  fillable_of_check (checkCanonical_cases s k v) hk

theorem checkPhysical_fillable {s k : State} (hk : k.fillable = s.fillable) (v : Word) :
    (checkPhysical s v k).fillable = s.fillable :=
  fillable_of_check (checkPhysical_cases s k v) hk

theorem exactAdd_fillable {s : State} {k : Word → State}
    (hk : ∀ r, (k r).fillable = s.fillable) (a n : Word) :
    (exactAdd s a n k).fillable = s.fillable := by
  unfold exactAdd; split
  · exact hk _
  · rfl

theorem exactSub_fillable {s : State} {k : Word → State}
    (hk : ∀ r, (k r).fillable = s.fillable) (a n : Word) :
    (exactSub s a n k).fillable = s.fillable := by
  unfold exactSub; split
  · exact hk _
  · rfl

theorem checkAlignOperands_fillable {s k : State} (hk : k.fillable = s.fillable) :
    (checkAlignOperands s k).fillable = s.fillable := by
  refine checkPhysical_fillable ?_ _
  split
  · exact hk
  · rfl

theorem entryDecodeBody_fillable (s : State) : (entryDecodeBody s).fillable = s.fillable := by
  simp only [entryDecodeBody]
  split
  · rfl
  · split
    · rfl
    · rfl

theorem entryEncodeBody_fillable (c : SizeClass) (s : State) :
    (entryEncodeBody c s).fillable = s.fillable :=
  fillable_of_check (checkPhysical_cases ..) (fillable_of_check (checkPaAligned_cases ..)
    (fillable_of_check (checkFlags_cases ..) rfl))

theorem tableReadBody_fillable (s : State) : (tableReadBody s).fillable = s.fillable := by
  rcases tableReadBody_cases s with h | ⟨-, -, ⟨-, he⟩ | ⟨-, he⟩⟩
  · exact h.fillable_eq
  · rw [he]; rfl
  · rw [he]; rfl

/-- A command that walks leaves on offer what its last state leaves. -/
theorem ReadsOnly.fillable_of_end {s s' t : State} {pas : List Nat} {P : Prop}
    (hr : ReadsOnly s s' pas) (h : t = s'.takeFault .busError ∨ Answers s' t ∨ P)
    (hP : P → t.fillable = s'.fillable) : t.fillable = s.fillable := by
  rcases h with rfl | h | h
  · exact hr.fillable_eq
  · exact h.fillable_eq.trans hr.fillable_eq
  · exact (hP h).trans hr.fillable_eq

theorem translatePageBody_fillable (c : SizeClass) (s : State) :
    (translatePageBody c s).fillable = s.fillable := by
  rcases translatePageBody_cases c s with h | ⟨-, -, s', pas, hr, -, -, hend⟩
  · exact h.fillable_eq
  · refine hr.fillable_of_end hend ?_
    rintro ⟨e, -, -, -, -, he⟩
    rw [he]; rfl

theorem unmapBody_fillable (c : SizeClass) (s : State) : (unmapBody c s).fillable = s.fillable := by
  rcases unmapBody_cases c s with h | ⟨-, -, -, s', pas, hr, -, -, hend⟩
  · exact h.fillable_eq
  · refine hr.fillable_of_end hend ?_
    rintro ⟨t, e, -, -, -, -, -, -, he⟩
    rw [he]; rfl

theorem updateFlagsBody_fillable (c : SizeClass) (s : State) :
    (updateFlagsBody c s).fillable = s.fillable := by
  rcases updateFlagsBody_cases c s with h | ⟨-, -, -, -, s', pas, hr, -, -, hend⟩
  · exact h.fillable_eq
  · refine hr.fillable_of_end hend ?_
    rintro ⟨t, e, -, -, -, -, -, he⟩
    rw [he]; rfl

theorem mapInstall_fillable (c : SizeClass) (va pa f t : Word) (n : Nat) (s : State) :
    (mapInstall c va pa f t n s).fillable = s.fillable := by
  rcases mapInstall_cases c va pa f t n s with
    ⟨fs, u, -, -, hal, -, he⟩ | ⟨fs, u, -, -, hal, he⟩ | ⟨fs, g, u, -, -, hal, he⟩ |
    ⟨fs, u, pre, w, post, -, -, hal, -, -, -, he⟩ <;> simp [he, hal.fillable_eq]

theorem mapPhases_fillable (c : SizeClass) (va pa f : Word) (s : State) :
    (mapPhases c va pa f s).fillable = s.fillable := by
  obtain ⟨s', pas, hr, -, -, hcases⟩ := mapPhases_cases c va pa f s
  rcases hcases with ⟨-, he⟩ | ⟨l, e, -, -, -, -, he⟩ | ⟨e, -, -, he⟩ | ⟨t, n, -, -, -, he⟩ <;>
    simp [he, mapInstall_fillable, hr.fillable_eq]

theorem mapToBody_fillable (c : SizeClass) (s : State) : (mapToBody c s).fillable = s.fillable := by
  rcases mapToBody_cases c s with ⟨-, -, -, -, -, he⟩ | h
  · rw [he, mapPhases_fillable]
  · exact h.fillable_eq

theorem identityMapBody_fillable (c : SizeClass) (s : State) :
    (identityMapBody c s).fillable = s.fillable := by
  rcases identityMapBody_cases c s with ⟨-, -, -, -, -, he⟩ | h
  · rw [he, mapPhases_fillable]
  · exact h.fillable_eq

theorem flushTokenBody_fillable (s : State) :
    (resolveToken flushTokenPage s).fillable ⊆ s.fillable := by
  unfold resolveToken; split
  · exact List.filter_subset_self _
  · exact List.Subset.refl _

theorem ignoreTokenBody_fillable (s : State) :
    (resolveToken flushNothing s).fillable = s.fillable := by
  unfold resolveToken; split
  · rfl
  · rfl

/-! ### The commands that translate -/

/-- TRANSLATE and TRANSLATE_ADDR leave on offer what was, or complete as `done` says after reads
only. -/
theorem translateBody_fillable (done : State → SizeClass → Word → Word → Word → State) (s : State) :
    (translateBody done s).fillable = s.fillable ∨
    ∃ s' pas c a e, ReadsOnly s s' pas ∧
      translateBody done s = done s' c a (s.arg0 &&& offsetMask c) e := by
  rcases translateBody_cases done s with
    h | ⟨-, -, s', pas, hr, -, -, he | h | ⟨c, e, -, -, -, -, he⟩⟩
  · exact .inl h.fillable_eq
  · rw [he]; exact .inl hr.fillable_eq
  · exact .inl (h.fillable_eq.trans hr.fillable_eq)
  · exact .inr ⟨s', pas, c, _, e, hr, he⟩

theorem translateAddr_fillable (s : State) :
    (translateBody translateAddrDone s).fillable = s.fillable := by
  rcases translateBody_fillable translateAddrDone s with h | ⟨s', pas, c, a, e, hr, he⟩
  · exact h
  · rw [he]; exact hr.fillable_eq

/-- Every command but TRANSLATE and FLUSH_TOKEN leaves on offer what was on offer. -/
theorem bodyOf_fillable {i : Instr} (htranslate : i ≠ .translate) (hflush : i ≠ .flushToken)
    (s : State) : (bodyOf i s).fillable = s.fillable := by
  cases i with
  | translate => exact absurd rfl htranslate
  | flushToken => exact absurd rfl hflush
  | vaNewUnchecked => rfl
  | vaTryNew | vaSplit => exact checkCanonical_fillable rfl _
  | paTryNew => exact checkPhysical_fillable rfl _
  | setRoot => exact fillable_of_check (checkPhysical_cases ..) rfl
  | vaAdd =>
    exact checkCanonical_fillable (exactAdd_fillable (fun _ => checkCanonical_fillable rfl _) _ _) _
  | vaSub =>
    exact checkCanonical_fillable (exactSub_fillable (fun _ => checkCanonical_fillable rfl _) _ _) _
  | paAdd =>
    exact checkPhysical_fillable (exactAdd_fillable (fun _ => checkPhysical_fillable rfl _) _ _) _
  | paSub => exact checkPhysical_fillable (exactSub_fillable (fun _ => rfl) _ _) _
  | paIsAligned | paAlignDown => exact checkAlignOperands_fillable rfl
  | paAlignUp => exact checkAlignOperands_fillable (checkPhysical_fillable rfl _)
  | entryDecode => exact entryDecodeBody_fillable s
  | entryEncode4K | entryEncode2M | entryEncode1G => exact entryEncodeBody_fillable _ s
  | tableRead => exact tableReadBody_fillable s
  | mapTo4K | mapTo2M | mapTo1G => exact mapToBody_fillable _ s
  | identityMap4K | identityMap2M | identityMap1G => exact identityMapBody_fillable _ s
  | unmap4K | unmap2M | unmap1G => exact unmapBody_fillable _ s
  | updateFlags4K | updateFlags2M | updateFlags1G => exact updateFlagsBody_fillable _ s
  | translatePage4K | translatePage2M | translatePage1G => exact translatePageBody_fillable _ s
  | translateAddr => exact translateAddr_fillable s
  | ignoreToken => exact ignoreTokenBody_fillable s

/-! ### What TRANSLATE offers -/

/-- A word without its low `k` bits is the greatest multiple of `2 ^ k` up to it. -/
theorem and_not_lowMask_toNat (v : Word) (k : Nat) :
    (v &&& ~~~(BitVec.ofNat 64 (2 ^ k - 1))).toNat = v.toNat / 2 ^ k * 2 ^ k := by
  apply Nat.eq_of_testBit_eq
  intro i
  rw [Nat.testBit_mul_two_pow, Nat.testBit_div_two_pow, BitVec.testBit_toNat]
  rcases Nat.lt_or_ge i 64 with h64 | h64
  · by_cases hi : i < k
    · simp [BitVec.getLsbD_ofNat, Nat.testBit_two_pow_sub_one, hi, h64, -BitVec.getLsbD_eq_getElem]
    · simp [BitVec.getLsbD_ofNat, Nat.testBit_two_pow_sub_one, BitVec.testBit_toNat, hi, h64,
        Nat.not_lt.1 hi, -BitVec.getLsbD_eq_getElem]
  · simp +contextual [BitVec.testBit_toNat, BitVec.getLsbD_of_ge _ _ h64, Nat.sub_add_cancel]

theorem pageBase_toNat (c : SizeClass) (v : Word) :
    (v &&& ~~~(offsetMask c)).toNat = v.toNat / sizeBytes c * sizeBytes c :=
  match c with
  | .s4K => and_not_lowMask_toNat v 12
  | .s2M => and_not_lowMask_toNat v 21
  | .s1G => and_not_lowMask_toNat v 30

/-- The registers of `t` hold the OK answer of a TRANSLATE that gives the entry `e`
(42_walk_translate.md R164, R169). -/
def State.AnswersEntry (t : State) (e : TlbEntry) : Prop :=
  t.status = 0x00 ∧ e.frame = t.res1 ∧ codeWord e.cls = t.res3 ∧ e.flags = t.res4 ∧
    e.page.toNat = t.arg0.toNat / sizeBytes e.cls * sizeBytes e.cls

theorem translateDone_answersEntry (s : State) (c : SizeClass) (a off e : Word) :
    (translateDone s c a off e).AnswersEntry (offeredEntry s.arg0 c a e) :=
  ⟨rfl, rfl, rfl, rfl, pageBase_toNat c s.arg0⟩

theorem translate_fillable {s : State} {e : TlbEntry}
    (h : e ∈ (translateBody translateDone s).fillable) :
    e ∈ s.fillable ∨ (translateBody translateDone s).AnswersEntry e := by
  rcases translateBody_fillable translateDone s with hs | ⟨s', pas, c, a, w, hr, he⟩
  · exact .inl (hs ▸ h)
  · rw [he] at h ⊢
    rcases List.mem_cons.1 h with rfl | h
    · exact .inr (translateDone_answersEntry ..)
    · exact .inl (hr.fillable_eq ▸ h)

/-- What a command newly offers is the OK answer of TRANSLATE. -/
theorem exec_fillable {i : Instr} {s t : State} (h : exec i s = .next t) {e : TlbEntry}
    (he : e ∈ t.fillable) :
    e ∈ s.fillable ∨ (s.flt = false ∧ i = .translate ∧ t.AnswersEntry e) := by
  rw [exec_eq_command] at h
  cases hf : s.flt with
  | true =>
    rw [command_of_flt hf] at h
    cases h
    exact .inl he
  | false =>
    rw [command_of_not_flt hf] at h
    cases h
    by_cases htranslate : i = .translate
    · subst htranslate
      exact (translate_fillable he).imp_right fun ha => ⟨rfl, rfl, ha⟩
    · by_cases hflush : i = .flushToken
      · subst hflush
        exact .inl (flushTokenBody_fillable s he)
      · exact .inl (bodyOf_fillable htranslate hflush s ▸ he)

theorem issueWord_fillable {w : CommandWord} {s t : State} (h : issueWord w s = .next t)
    {e : TlbEntry} (he : e ∈ t.fillable) :
    e ∈ s.fillable ∨ (s.flt = false ∧ decode w = .ok .translate ∧ t.AnswersEntry e) := by
  rcases issueWord_cases h with ⟨-, rfl⟩ | ⟨-, -, rfl⟩ | ⟨-, i, hd, hx⟩
  · exact .inl he
  · exact .inl he
  · exact (exec_fillable hx he).imp_right fun ⟨hf, hi, ha⟩ => ⟨hf, hi ▸ hd, ha⟩

/-! ### What an action leaves on offer -/

/-- Replaying port events takes translations away and adds none. -/
theorem replay_tlb_subset (s : State) (es : List PortEvent) :
    (s.replay es).tlb ⊆ s.tlb ∧ (s.replay es).fillable ⊆ s.fillable := by
  induction es generalizing s with
  | nil => exact ⟨List.Subset.refl _, List.Subset.refl _⟩
  | cons ev es ih =>
    obtain ⟨htlb, hfillable⟩ := ih (s.replayEvent ev)
    rw [replay_cons]
    cases ev with
    | read pa => exact ⟨htlb, hfillable⟩
    | write pa v => exact ⟨htlb, hfillable⟩
    | alloc a => simpa [State.replayEvent] using And.intro htlb hfillable
    | flush va =>
      exact ⟨List.Subset.trans htlb (List.filter_subset_self _),
        List.Subset.trans hfillable (List.filter_subset_self _)⟩

theorem abandoned_tlb_subset (s : State) (es : List PortEvent) :
    (s.abandoned es).tlb ⊆ s.tlb ∧ (s.abandoned es).fillable ⊆ s.fillable :=
  replay_tlb_subset s.clearPorts es

theorem hostWrite_fillable {slot : BitVec 4} {v : Word} {s t : State}
    (h : hostWrite slot v s = .next t) {e : TlbEntry} (he : e ∈ t.fillable) :
    e ∈ s.fillable ∨ (s.Runs (.write slot v) .translate ∧ t.AnswersEntry e) := by
  rcases hostWrite_cases h with ⟨-, rfl⟩ | ⟨-, rfl⟩ | ⟨-, rfl⟩ | ⟨hslot, h⟩ | ⟨-, rfl⟩
  · exact .inl he
  · exact .inl he
  · exact .inl he
  · exact (issueWord_fillable h he).imp_right fun ⟨hf, hd, ha⟩ => ⟨⟨hf, hslot, hd⟩, ha⟩
  · exact .inl he

theorem missPath_fillable {va : Word} {s t : State} (h : missPath va s = .next t) {e : TlbEntry}
    (he : e ∈ t.fillable) : e ∈ s.fillable ∨ (s.flt = false ∧ t.AnswersEntry e) := by
  obtain ⟨u, hu, rfl⟩ := missPath_cases h
  exact (issueWord_fillable hu he).imp_right fun ⟨hf, _, ha⟩ => ⟨hf, ha⟩

theorem coreAccess_fillable {va : Word} {cached : Option Nat} {s t : State}
    (h : coreAccess va cached s = .next t) {e : TlbEntry} (he : e ∈ t.fillable) :
    e ∈ s.fillable ∨ (s.Runs (.access va cached) .translate ∧ t.AnswersEntry e) := by
  rcases coreAccess_cases h with ⟨_, -, rfl⟩ | ⟨hcached, h⟩
  · exact .inl he
  · exact (missPath_fillable h he).imp_right fun ⟨hf, ha⟩ => ⟨⟨hf, hcached, rfl⟩, ha⟩

theorem startCommand_fillable {source : CommandSource} {s t : State}
    (h : startCommand source s = .next t) {e : TlbEntry} (he : e ∈ t.fillable)
    (rs : List RacingWrite) (draws : List (List Bool)) :
    e ∈ s.fillable ∨ (s.Runs (.race source rs draws none) .translate ∧ t.AnswersEntry e) := by
  cases source with
  | host w => exact (issueWord_fillable h he).imp_right fun ⟨hf, hd, ha⟩ => ⟨⟨hf, hd⟩, ha⟩
  | core va => exact (missPath_fillable h he).imp_right fun ⟨hf, ha⟩ => ⟨⟨hf, rfl⟩, ha⟩

/-- A race with a reset answers nothing, so that it offers nothing (70_reset_and_hazards.md
R280). -/
theorem raceCommand_fillable {source : CommandSource} {rs : List RacingWrite}
    {draws : List (List Bool)} {reset : Option Nat} {s t : State}
    (h : raceCommand source rs draws reset s = .next t) {e : TlbEntry} (he : e ∈ t.fillable) :
    e ∈ s.fillable ∨ (s.Runs (.race source rs draws reset) .translate ∧ t.AnswersEntry e) := by
  obtain ⟨-, u, hu, rfl⟩ := raceCommand_cases h
  cases reset with
  | none => exact startCommand_fillable hu he rs draws
  | some n => exact .inl ((abandoned_tlb_subset s _).2 he)

/-- What an action newly offers is the OK answer of the TRANSLATE that it runs. -/
theorem act_fillable {a : Action} {s t : State} (h : act a s = .next t) {e : TlbEntry}
    (he : e ∈ t.fillable) : e ∈ s.fillable ∨ (s.Runs a .translate ∧ t.AnswersEntry e) := by
  cases a with
  | write slot v => exact hostWrite_fillable h he
  | memWrite | memRead | memWriteByte | memReadByte =>
    obtain ⟨-, rfl⟩ := hostAccess_cases h
    exact .inl he
  | writeIfOk slot v =>
    simp only [act] at h
    split at h
    · rename_i hok
      exact (hostWrite_fillable h he).imp_right fun ⟨⟨hf, hslot, hd⟩, ha⟩ =>
        ⟨⟨hf, hslot, hok, hd⟩, ha⟩
    · cases h; exact .inl he
  | haltUnlessOk =>
    cases h
    split at he
    · exact .inl he
    · exact .inl he
  | read | reset | tlbEvict => cases h; exact .inl he
  | resetDuring w n =>
    obtain ⟨u, -, rfl⟩ := resetDuring_cases h
    exact .inl ((abandoned_tlb_subset s _).2 he)
  | race source rs draws reset => exact raceCommand_fillable h he
  | access va cached => exact coreAccess_fillable h he
  | tlbFill n => cases h; exact .inl (tlbFill_fillable s n ▸ he)
  | tlbInvalidate first last =>
    cases h
    exact .inl ((mem_tlbInvalidate_fillable s first last e).1 he).1

/-! ### Where the entries of the TLB come from -/

theorem PortsOnly.tlb_subset {s s' : State} (h : PortsOnly s s') : s'.tlb ⊆ s.tlb := by
  obtain ⟨_, _, _, rfl, -⟩ := h; exact List.Subset.refl _

/-- No command puts an entry into the TLB. -/
theorem Effect.tlb_subset {s t : State} (h : Effect s t) : t.tlb ⊆ s.tlb := by
  cases h with
  | completed hs => exact hs.tlb_subset
  | faulted hs => exact hs.tlb_subset
  | issued hs => exact hs.tlb_subset
  | offered hs => exact hs.tlb_subset
  | ignored => exact List.Subset.refl _
  | flushed => exact List.filter_subset_self _
  | rooted => exact List.Subset.refl _

/-- Only a fill puts an entry into the TLB, and it takes one on offer (20_memory.md R66(a)). -/
theorem ActEffect.mem_tlb {s t : State} (h : ActEffect s t) {e : TlbEntry} (he : e ∈ t.tlb) :
    e ∈ s.tlb ∨ e ∈ s.fillable := by
  cases h with
  | noted => exact .inl he
  | stored => exact .inl he
  | ran hu => exact .inl (hu.tlb_subset he)
  | reset => exact .inl he
  | abandoned => exact .inl ((abandoned_tlb_subset s _).1 he)
  | raced _ hu _ reset =>
    cases reset with
    | none => exact .inl (hu.tlb_subset he)
    | some n => exact .inl ((abandoned_tlb_subset s _).1 he)
  | filled => exact mem_tlbFill he
  | evicted => exact .inl (List.mem_of_mem_eraseIdx he)
  | invalidated first last => exact .inl ((mem_tlbInvalidate s first last e).1 he).1

/-- Settles O51: an entry of the TLB is there by a fill, an entry on offer by the action's
TRANSLATE. -/
theorem tlbHoldsOnlyTranslateResults : Obligations.TlbHoldsOnlyTranslateResults := by
  intro s t h
  refine ⟨fun e he => ?_, fun e he => ?_⟩
  · obtain ⟨p, heffect⟩ := step_effect h
    exact heffect.mem_tlb he
  · cases hp : s.pending with
    | nil =>
      rw [step_of_idle hp] at h
      cases h
      exact .inl he
    | cons a rest =>
      rw [step_of_pending hp] at h
      exact (act_fillable h he).imp_right fun ⟨hruns, ha⟩ => ⟨⟨a, rest, rfl, hruns⟩, ha⟩

/-! ### What a flush leaves -/

theorem overlaps_eq_false_iff (e : TlbEntry) (first last : Word) :
    e.overlaps first last = false ↔
      last.toNat < e.page.toNat ∨ e.page.toNat + sizeBytes e.cls ≤ first.toNat := by
  rw [← Bool.not_eq_true, overlaps_iff]
  omega

theorem covers_eq_false_iff (e : TlbEntry) (va : Word) :
    e.covers va = false ↔
      va.toNat < e.page.toNat ∨ e.page.toNat + sizeBytes e.cls ≤ va.toNat :=
  overlaps_eq_false_iff e va va

theorem mem_tlbFlush (s : State) (va : Word) (e : TlbEntry) :
    e ∈ (s.tlbFlush va).tlb ↔ e ∈ s.tlb ∧ e.covers va = false := by
  simp

/-- FLUSH_TOKEN with a token outstanding (44_flush_root.md R230). -/
theorem exec_flushToken_of_token {s : State} (hf : s.flt = false) (ht : s.tv = true) :
    exec .flushToken s = .next ((s.tlbFlush s.tokenVa).clearToken.finish .ok s.tokenVa
      (s.tsz.setWidth 64) 0 0 0) := by
  rw [exec_eq_command, command_of_not_flt hf]
  simp [bodyOf, resolveToken, ht, flushTokenPage]

/-- Settles O49: both invalidations keep the entries that they do not overlap. -/
theorem flushLeavesNoCoveringEntry : Obligations.FlushLeavesNoCoveringEntry := by
  refine ⟨fun s hf ht => ⟨_, exec_flushToken_of_token hf ht, fun e => ?_⟩,
    fun s first last rest hp => ⟨_, _, step_of_pending hp, fun e => ?_, fun e => ?_⟩⟩
  · rw [← covers_eq_false_iff]
    exact mem_tlbFlush s s.tokenVa e
  · rw [← overlaps_eq_false_iff]
    exact mem_tlbInvalidate s first last e
  · rw [← overlaps_eq_false_iff]
    exact mem_tlbInvalidate_fillable s first last e

/-! ### What the core's access uses -/

theorem exec_total (i : Instr) (s : State) : ∃ t, exec i s = .next t := by
  rw [exec_eq_command]
  exact ⟨_, rfl⟩

theorem covers_iff (e : TlbEntry) (va : Word) :
    e.covers va = true ↔ e.page.toNat ≤ va.toNat ∧ va.toNat < e.page.toNat + sizeBytes e.cls :=
  overlaps_iff e va va

theorem coreAccess_of_covers {s : State} {va : Word} {n : Nat} {e : TlbEntry}
    (he : s.tlb[n]? = some e) (hc : e.covers va = true) :
    coreAccess va (some n) s = .next { s with coreXlat := some (e.translate va) } := by
  have hsome : s.cachedFor va (some n) = some e := by
    simp [State.cachedFor, he, Option.filter, hc]
  simp [coreAccess, hsome]

/-- Without a cached entry that covers the address, the core takes the miss path. -/
theorem coreAccess_of_miss {s : State} {va : Word} {cached : Option Nat}
    (h : ∀ n e, cached = some n → s.tlb[n]? = some e → e.covers va = false) :
    coreAccess va cached s = missPath va s := by
  have hnone : s.cachedFor va cached = none := by
    simpa [State.cachedFor, Option.filter_eq_none_iff, Option.bind_eq_some_iff] using
      fun e n => h n e
  simp [coreAccess, hnone]

/-- The miss path is TRANSLATE of the address (42_walk_translate.md R169). -/
theorem missPath_of_translate {s u : State} {va : Word}
    (h : exec .translate { s.clearPorts with arg0 := va } = .next u) :
    missPath va s =
      .next { u with coreXlat := if u.status = 0x00 then some u.res0 else none } := by
  obtain ⟨-, -, hdecode⟩ := Laws.RoundTrip.translate
  rw [missPath, issueWord_of_decode hdecode, h]
  rfl

/-- Settles O50: the cached entry where it covers the address, else the miss path. -/
theorem coreAccessUsesEntryOrWalk : Obligations.CoreAccessUsesEntryOrWalk := by
  intro s va cached rest hp
  rw [step_of_pending hp]
  refine ⟨?_, fun hmiss => ?_⟩
  · rintro n e rfl he hlow hhigh
    exact coreAccess_of_covers he ((covers_iff e va).2 ⟨hlow, hhigh⟩)
  · obtain ⟨u, hu⟩ := exec_total .translate { s with pending := rest, ports := [], arg0 := va }
    refine ⟨u, hu, ?_⟩
    have haccess := coreAccess_of_miss (s := { s with pending := rest }) (va := va)
      fun n e hn he => (covers_eq_false_iff e va).2 (hmiss n e hn he)
    exact haccess.trans (missPath_of_translate hu)

end Sys2Proof.Machine
end

section
/-! The agents at memory (20_memory.md R55, R56, R58, R62, R68, R70): the host's direct accesses,
races, and the writes of MAP_TO in order. -/

namespace Sys2Proof.Machine

/-! ### Direct host accesses -/

/-- Byte `k` of a word in memory is the byte at `pa + k` (20_memory.md R55). -/
theorem wordByte_read64 (m : Memory) (pa : Nat) {k : Nat} (h : k < 8) :
    wordByte (m.read64 pa) k = m.readByte (pa + k) := by
  apply BitVec.eq_of_getLsbD_eq
  intro i hi
  simp only [wordByte, Memory.read64, BitVec.getLsbD_extractLsb', BitVec.getLsbD_append, hi]
  interval_cases k <;> interval_cases i <;> simp

/-- A host access wholly inside physical memory has its effect. -/
theorem hostAccess_inside {pa : Word} {n : Nat} (h : pa.toNat + n ≤ 2 ^ 52) (s : State) :
    hostAccess pa n s = .next s := if_pos h

/-- A host access that is not wholly inside physical memory stops the run (log entry 8). -/
theorem hostAccess_outside {pa : Word} {n : Nat} (h : 2 ^ 52 < pa.toNat + n) (s : State) :
    hostAccess pa n s = .fault (.noSuchPhysicalAddress pa) := if_neg (Nat.not_le.2 h)

/-- Settles O52, access by access, from the laws of memory. -/
theorem hostMemoryAccess : Obligations.HostMemoryAccess := by
  intro s pa v b rest
  refine ⟨fun hp hin => ⟨_, (step_of_pending hp).trans (hostAccess_inside hin _), ?_, ?_, ?_⟩,
    fun hp hin => ⟨_, (step_of_pending hp).trans (hostAccess_inside hin _), ?_⟩,
    fun hp hin => ⟨_, (step_of_pending hp).trans (hostAccess_inside hin _), ?_, ?_⟩,
    fun hp hin => (step_of_pending hp).trans (hostAccess_inside hin _),
    fun hp hout => ?_, fun hp hout => ?_⟩
  · exact fun k hk => Memory.readByte_write64 s.mem v pa.toNat hk
  · exact fun a ha => Memory.readByte_write64_of_outside s.mem v ha
  · exact Memory.read64_write64_same s.mem pa.toNat v
  · exact fun k hk => wordByte_read64 s.mem pa.toNat hk
  · exact Memory.readByte_writeByte_same s.mem pa.toNat b
  · exact fun a ha => Memory.readByte_writeByte_of_ne s.mem b ha
  · rcases hp with hp | hp
    · exact (step_of_pending hp).trans (hostAccess_outside hout _)
    · exact (step_of_pending hp).trans (hostAccess_outside hout _)
  · have hpast : 2 ^ 52 < pa.toNat + 1 := Nat.lt_succ_of_le hout
    rcases hp with hp | hp
    · exact (step_of_pending hp).trans (hostAccess_outside hpast _)
    · exact (step_of_pending hp).trans (hostAccess_outside hpast _)

/-! ### Races -/

/-- The writes of a race, the command having made `k` of its own: before each own write the racing
ones whose place it is, and after the last the rest. -/
theorem raceWrites_eq_zipIdx (rs : List RacingWrite) (k : Nat) (own : List (Nat × Word)) :
    raceWrites rs k own =
      ((own.zipIdx k).flatMap fun w =>
        (rs.filter fun r => r.after == w.2).map RacingWrite.store ++ [w.1]) ++
      (rs.filter fun r => decide (k + own.length ≤ r.after)).map RacingWrite.store := by
  induction own generalizing k with
  | nil => simp [raceWrites]
  | cons w own ih =>
    rw [raceWrites, ih (k + 1)]
    simp [Nat.add_assoc, Nat.add_comm 1]

/-- A race within physical memory is the command with its reads as drawn. -/
theorem raceCommand_of_start {source : CommandSource} {rs : List RacingWrite}
    {draws : List (List Bool)} {s u : State} (hrs : ∀ r ∈ rs, r.pa.toNat + 8 ≤ 2 ^ 52)
    (hstart : startCommand source { s with views := draws.map (seenWrites rs) } = .next u)
    (reset : Option Nat) :
    raceCommand source rs draws reset s = .next (s.raceDone rs reset u) := by
  have hfind : rs.find? (fun r => decide (Config.physicalBytes < r.pa.toNat + 8)) = none :=
    List.find?_eq_none.2 fun r hr => by
      simpa only [decide_eq_true_eq] using Nat.not_lt.2 (hrs r hr)
  simp only [raceCommand, hfind, hstart]

/-- A racing write that is not wholly inside physical memory stops the run (log entry 8). -/
theorem raceCommand_outside {rs : List RacingWrite} (h : ∃ r ∈ rs, 2 ^ 52 < r.pa.toNat + 8)
    (source : CommandSource) (draws : List (List Bool)) (reset : Option Nat) (s : State) :
    ∃ pa, raceCommand source rs draws reset s = .fault (.noSuchPhysicalAddress pa) := by
  obtain ⟨r, hr, hout⟩ := h
  cases hfind : rs.find? (fun r => decide (Config.physicalBytes < r.pa.toNat + 8)) with
  | none => exact absurd (decide_eq_true hout) (List.find?_eq_none.1 hfind r hr)
  | some r' => exact ⟨r'.pa, by simp only [raceCommand, hfind]⟩

/-- Every register reads 0 after a reset (10_state.md R34). -/
theorem readSlot_walkerReset (s : State) (slot : BitVec 4) : s.walkerReset.readSlot slot = 0 := by
  unfold State.readSlot
  split
  case h_12 => simp [State.unitReg]
  all_goals rfl

theorem readSlot_raceDone_some (s t : State) (rs : List RacingWrite) (n : Nat) (slot : BitVec 4) :
    (s.raceDone rs (some n) t).readSlot slot = 0 :=
  readSlot_walkerReset (s.clearPorts.replay (t.ports.reverse.take n)) slot

/-- The one racing write is what a read of its own 8 bytes returns, if it sees it. -/
theorem seenWord_of_draw {s : State} {r : RacingWrite} {sees : Bool} {pa : Nat}
    (hpa : r.pa.toNat = pa) (hv : s.views = [[sees]].map (seenWrites [r])) :
    s.seenWord pa = if sees then r.v else s.mem.read64 pa := by
  subst hpa
  cases sees with
  | true => exact seenWord_new (before := []) (after := []) (by rw [hv]; rfl) (by simp)
  | false => exact seenWord_old (by simp [hv, seenWrites])

/-- The word of TABLE_READ, written to CMD for an admitted entry (41_entry_table.md R142). -/
theorem startCommand_tableRead {s : State} {pa : Nat} (hf : s.flt = false)
    (hpa : pa = s.arg1.toNat + 8 * s.arg0.toNat) (hframe : GoodFrame .s4K s.arg1)
    (hindex : s.arg0.toNat ≤ 511) (ha : s.admits pa 8 = true) :
    startCommand (.host 0x0E) s =
      .next ((s.clearPorts.readDone pa).finish .ok (s.seenWord pa) 0 0 0 0) := by
  have hread : exec .tableRead s.clearPorts =
      .next ((s.clearPorts.readDone pa).finish .ok (s.clearPorts.seenWord pa) 0 0 0 0) := by
    have ha' : s.clearPorts.admits pa 8 = true := ha
    rw [exec_eq_command, command_of_not_flt (by simpa using hf)]
    simp [bodyOf, tableReadBody, checkPhysical_pass hframe.1, checkPaAligned_pass hframe.2, hindex,
      ← hpa, memRead_of_admits ha']
  obtain ⟨-, -, hdecode⟩ := Laws.RoundTrip.tableRead
  exact (issueWord_of_decode hdecode _).trans hread

/-- TABLE_READ of an entry that another agent writes, its one read having the draw `sees`. -/
theorem raceCommand_tableRead {s : State} {r : RacingWrite} (hf : s.flt = false)
    (hpa : r.pa.toNat = s.arg1.toNat + 8 * s.arg0.toNat) (hframe : GoodFrame .s4K s.arg1)
    (hindex : s.arg0.toNat ≤ 511) (ha : s.admits r.pa.toNat 8 = true) (sees : Bool) :
    ∃ t, raceCommand (.host 0x0E) [r] [[sees]] none s = .next t ∧ t.status = 0x00 ∧
      t.res0 = (if sees then r.v else s.mem.read64 r.pa.toNat) ∧
      t.mem = s.mem.write64 r.pa.toNat r.v := by
  have hbound : ∀ r' ∈ [r], r'.pa.toNat + 8 ≤ 2 ^ 52 := by
    obtain ⟨hlt, hal⟩ := hframe
    simp only [PhysicalAddress, sizeBytes] at hlt hal
    simp only [List.mem_singleton, forall_eq]
    omega
  have hstart := startCommand_tableRead
    (s := { s with views := [[sees]].map (seenWrites [r]) }) hf hpa hframe hindex ha
  exact ⟨_, raceCommand_of_start hbound hstart none, rfl, seenWord_of_draw rfl rfl, rfl⟩

/-- Settles O53: the reads by the laws of `seenWord`, the race by its definition, and TABLE_READ by
the two together. -/
theorem racedReadsSeeOldOrNew : Obligations.RacedReadsSeeOldOrNew := by
  refine ⟨fun s pa ha => ⟨_, memRead_of_admits ha, seenWord_old, fun _ _ _ => seenWord_new⟩,
    fun s u source rs draws reset rest hp hrs hstart => ?_,
    fun s source rs draws reset rest hp hout => ?_,
    fun rs own => ?_, fun s r sees rest hf hp hpa hframe hindex ha => ?_⟩
  · have hrace := (step_of_pending hp).trans (raceCommand_of_start hrs hstart reset)
    refine ⟨?_, ?_⟩
    · rintro rfl
      exact hrace
    · rintro n rfl
      exact ⟨_, hrace, rfl, rfl, readSlot_raceDone_some _ u rs n⟩
  · rw [step_of_pending hp]
    exact raceCommand_outside hout source draws reset _
  · simpa using raceWrites_eq_zipIdx rs 0 own
  · rw [step_of_pending hp]
    exact raceCommand_tableRead (s := { s with pending := rest }) hf hpa hframe hindex ha sees

/-! ### The writes of MAP_TO -/

theorem getElem_zeroWrites (f : Word) {i : Nat} (h : i < (zeroWrites f).length) :
    (zeroWrites f)[i] = (f.toNat + 8 * i, 0) := by
  simp [zeroWrites]

theorem nonLeafFlags_eq (f : Word) : nonLeafFlags f = if f.getLsbD 2 then 0x7#64 else 0x3#64 := by
  have huser : f &&& userFlag = if f.getLsbD 2 then BitVec.twoPow 64 2 else 0#64 :=
    BitVec.and_twoPow f 2
  rw [nonLeafFlags, huser]
  split
  · rfl
  · rfl

theorem leafEntry_eq (c : SizeClass) (pa f : Word) :
    leafEntry c pa f = pa ||| f ||| (if c = .s4K then 0 else 0x80#64) := by
  cases c with
  | s4K => rfl
  | s2M => rfl
  | s1G => rfl

/-- Settles O33: the equation of `mapWrites` for a new table, unrolled from each level. -/
theorem mapWritesInOrder : Obligations.MapWritesInOrder := by
  refine ⟨fun f => ⟨zeroWrites_length f, fun i h => getElem_zeroWrites f h⟩,
    fun c va => mapWrites_cons va c, fun va link leaf t f₁ f₂ f₃ => ?_,
    fun c va => mapWrites_nil va c, nonLeafFlags_eq, leafEntry_eq⟩
  simp [mapWrites_cons, entryPa, index]

end Sys2Proof.Machine
end

section
/-! The statements of 30_encoding.md: the command words decode and encode both ways, which words are
illegal and what they answer, and the address fields of VA_SPLIT. -/

namespace Sys2Proof.Machine

/-! ### The encoder undone -/

theorem roundTrip (i : Instr) : Laws.RoundTrip.Statement i := by
  cases i <;> exact ⟨rfl, rfl, rfl⟩

theorem encode_wellFormed (i : Instr) : (fieldsOf (encode i)).WellFormed = true := by
  obtain ⟨hwf, hfields, -⟩ := roundTrip i
  exact hfields ▸ hwf

theorem decode_encode (i : Instr) : decode (encode i) = .ok i := by
  obtain ⟨-, -, hdecode⟩ := roundTrip i
  exact hdecode

/-! ### The decoder undone -/

/-- The three fields make up the whole word (30_encoding.md R86). -/
theorem word_fieldsOf (w : CommandWord) : (fieldsOf w).word = w := by
  have hhigh : w.extractLsb' 7 25 ++ w.extractLsb' 5 2 = w.extractLsb' 5 27 :=
    BitVec.extractLsb'_append_extractLsb'_eq_extractLsb' rfl
  have hall : w.extractLsb' 5 27 ++ w.extractLsb' 0 5 = w.extractLsb' 0 32 :=
    BitVec.extractLsb'_append_extractLsb'_eq_extractLsb' rfl
  rw [Fields.word, fieldsOf, hhigh, hall, BitVec.extractLsb'_eq_self]

theorem fields_of_decodeUnsized {op : BitVec 5} {size : BitVec 2} {i j : Instr} {n : Nat}
    (hop : op.toNat = n) (hi : i.fields = ⟨0, 0, BitVec.ofNat 5 n⟩)
    (h : decodeUnsized size i = .ok j) : j.fields = ⟨0, size, op⟩ := by
  subst hop
  unfold decodeUnsized at h
  split at h
  case isTrue hsize =>
    cases h
    rw [hi, hsize, BitVec.ofNat_toNat, BitVec.setWidth_eq]
  case isFalse => cases h

theorem code_of_ofCode {size : BitVec 2} {c : SizeClass} (h : SizeClass.ofCode size = some c) :
    c.code = size := by
  revert size c
  decide

theorem fields_of_decodeSized {op : BitVec 5} {size : BitVec 2} {f : SizeClass → Instr} {i : Instr}
    {n : Nat} (hop : op.toNat = n) (hf : ∀ c, (f c).fields = ⟨0, c.code, BitVec.ofNat 5 n⟩)
    (h : decodeSized size f = .ok i) : i.fields = ⟨0, size, op⟩ := by
  subst hop
  unfold decodeSized at h
  split at h
  next c hc =>
    cases h
    rw [hf, code_of_ofCode hc, BitVec.ofNat_toNat, BitVec.setWidth_eq]
  next => cases h

/-- The opcode map gives a command only for the opcode and the size of its own word: row by row of
30_encoding.md R88. -/
theorem fields_of_decodeOp {op : BitVec 5} {size : BitVec 2} {i : Instr}
    (h : decodeOp op size = .ok i) : i.fields = ⟨0, size, op⟩ := by
  unfold decodeOp at h
  split at h
  -- The sized rows, OP 0x0D and 0x10 to 0x14; then every opcode without a row.
  case h_13 | h_15 | h_16 | h_17 | h_18 | h_19 =>
    exact fields_of_decodeSized ‹_› (fun c => by cases c <;> rfl) h
  case h_25 => cases h
  all_goals exact fields_of_decodeUnsized ‹_› rfl h

theorem fields_of_decode {w : CommandWord} {i : Instr} (h : decode w = .ok i) :
    i.fields = fieldsOf w := by
  unfold decode at h
  split at h
  case isTrue hreserved => rw [fields_of_decodeOp h, ← hreserved]
  case isFalse => cases h

theorem encode_of_decode {w : CommandWord} {i : Instr} (h : decode w = .ok i) : w = encode i := by
  rw [encode, fields_of_decode h, word_fieldsOf]

/-- Settles O1: the fields of a command that a word decodes to are the word's own. -/
theorem decodesExactlyItsEncoding : Obligations.DecodesExactlyItsEncoding :=
  fun _ i => ⟨encode_of_decode, fun h => h ▸ decode_encode i⟩

/-- Settles O2: each word is the encoding of its command. -/
theorem sampleWordsDecode : Obligations.SampleWordsDecode :=
  ⟨decode_encode .vaTryNew, decode_encode .entryEncode1G, decode_encode .tableRead,
    decode_encode .mapTo2M, decode_encode .identityMap4K, decode_encode .unmap1G,
    decode_encode .updateFlags2M, decode_encode .translatePage4K, decode_encode .translate,
    decode_encode .flushToken, decode_encode .setRoot⟩

/-! ### The legal words -/

/-- The 36 commands, in the order of their opcodes (30_encoding.md R88). -/
def allCommands : List Instr :=
  [.vaTryNew, .vaNewUnchecked, .vaSplit, .vaAdd, .vaSub, .paTryNew, .paAdd, .paSub, .paIsAligned,
    .paAlignDown, .paAlignUp, .entryDecode, .entryEncode4K, .entryEncode2M, .entryEncode1G,
    .tableRead, .mapTo4K, .mapTo2M, .mapTo1G, .identityMap4K, .identityMap2M, .identityMap1G,
    .unmap4K, .unmap2M, .unmap1G, .updateFlags4K, .updateFlags2M, .updateFlags1G,
    .translatePage4K, .translatePage2M, .translatePage1G, .translate, .translateAddr, .flushToken,
    .ignoreToken, .setRoot]

theorem mem_allCommands (i : Instr) : i ∈ allCommands := by
  cases i <;> decide

theorem exists_decode_iff_mem (w : CommandWord) :
    (∃ i, decode w = .ok i) ↔ w ∈ allCommands.map encode := by
  simp only [List.mem_map, mem_allCommands, true_and, decodesExactlyItsEncoding w, eq_comm]

theorem wellFormed_iff (f : Fields) :
    f.WellFormed = true ↔ f.reserved = 0 ∧ (f.op ∈ unsizedOps ∨ f.op ∈ sizedOps) ∧
      ¬(f.op ∈ sizedOps ∧ f.size = 3) ∧ ¬(f.op ∈ unsizedOps ∧ f.size ≠ 0) := by
  simp [Fields.WellFormed, Fields.reservedZero, Fields.opAssigned, Fields.sizeAssigned,
    Fields.unsizedSizeZero, and_assoc, imp_iff_not_or]

theorem decodeOp_unsized_isOk : ∀ op ∈ unsizedOps, (decodeOp op 0).isOk = true := by decide

theorem decodeOp_sized_isOk :
    ∀ op ∈ sizedOps, ∀ size : BitVec 2, size ≠ 3 → (decodeOp op size).isOk = true := by decide

theorem exists_of_isOk {x : Except DecodeError Instr} (h : x.isOk = true) : ∃ i, x = .ok i := by
  cases x with
  | ok i => exact ⟨i, rfl⟩
  | error e => cases h

theorem exists_decode_of_wellFormed {w : CommandWord} (h : (fieldsOf w).WellFormed = true) :
    ∃ i, decode w = .ok i := by
  obtain ⟨hreserved, hop, hsized, hunsized⟩ := (wellFormed_iff _).1 h
  rw [decode, if_pos hreserved]
  apply exists_of_isOk
  rcases hop with hop | hop
  · have hsize : (fieldsOf w).size = 0 := by simpa [hop] using hunsized
    exact hsize ▸ decodeOp_unsized_isOk _ hop
  · exact decodeOp_sized_isOk _ hop _ fun hsize => hsized ⟨hop, hsize⟩

/-- The checks of `Fields.WellFormed` describe the decoder (30_encoding.md R89). -/
theorem exists_decode_iff_wellFormed (w : CommandWord) :
    (∃ i, decode w = .ok i) ↔ (fieldsOf w).WellFormed = true :=
  ⟨fun ⟨i, h⟩ => encode_of_decode h ▸ encode_wellFormed i, exists_decode_of_wellFormed⟩

/-- The opcodes that no command has (30_encoding.md R89). -/
theorem not_mem_ops_iff (op : BitVec 5) :
    ¬(op ∈ unsizedOps ∨ op ∈ sizedOps) ↔
      op ∈ ([0x00, 0x0F, 0x17, 0x1B, 0x1C, 0x1D, 0x1E, 0x1F] : List (BitVec 5)) := by
  revert op
  decide

theorem not_wellFormed_iff (f : Fields) :
    ¬f.WellFormed = true ↔ f.reserved ≠ 0 ∨
      f.op ∈ ([0x00, 0x0F, 0x17, 0x1B, 0x1C, 0x1D, 0x1E, 0x1F] : List (BitVec 5)) ∨
      (f.op ∈ sizedOps ∧ f.size = 3) ∨ (f.op ∈ unsizedOps ∧ f.size ≠ 0) := by
  rw [wellFormed_iff, ← not_mem_ops_iff]
  tauto

/-! ### The answer to an illegal word -/

theorem issueWord_of_flt {s : State} (h : s.flt = true) (w : CommandWord) :
    issueWord w s = .next (s.answered 0x12 (s.fcause.setWidth 64) 0 0 0 0) := by
  rw [issueWord, if_pos h]
  rfl

theorem issueWord_of_illegal {s : State} {w : CommandWord} (hf : s.flt = false)
    (hw : ¬∃ i, decode w = .ok i) :
    issueWord w s = .next (s.answered 0x11 (w.setWidth 64) 0 0 0 0) := by
  cases hd : decode w with
  | ok i => exact absurd ⟨i, hd⟩ hw
  | error e =>
    simp only [issueWord, hf, hd]
    rfl

theorem step_cmd {s : State} {v : Word} {rest : List Action} (h : s.pending = .write 3 v :: rest) :
    step s = issueWord (v.setWidth 32) { s with pending := rest, ports := [] } := by
  rw [step_of_pending h]
  exact hostWrite_cmd v _

/-- Settles O3: the 36 words are the encodings of the commands, the four grounds are the negation of
`Fields.WellFormed`, and CMD hands the word to `issueWord`. -/
theorem illegalWords : Obligations.IllegalWords := by
  refine ⟨exists_decode_iff_mem, fun w => ?_, fun s v rest hp hw => ⟨fun hf => ?_, fun hf => ?_⟩⟩
  · rw [exists_decode_iff_wellFormed]
    exact not_wellFormed_iff (fieldsOf w)
  · exact (step_cmd hp).trans (issueWord_of_illegal hf hw)
  · exact (step_cmd hp).trans (issueWord_of_flt (s := { s with pending := rest, ports := [] }) hf _)

/-! ### The address fields -/

/-- The low `m` bits and the next `n` bits in their place are the low `m + n` bits. -/
theorem low_or_next_field (v : Word) (m n : Nat) :
    (v.extractLsb' 0 m).setWidth 64 ||| ((v.extractLsb' m n).setWidth 64 <<< m) =
      (v.extractLsb' 0 (m + n)).setWidth 64 := by
  ext k hk
  by_cases hkm : k < m
  · have hlow : k < m + n := by omega
    simp [hkm, hlow]
  · have hplace : m + (k - m) = k := by omega
    have hwidth : k - m < n ↔ k < m + n := by omega
    simp [hkm, hplace, hwidth]

theorem low48_eq_and (v : Word) :
    (v.extractLsb' 0 48).setWidth 64 = v &&& 0x0000FFFFFFFFFFFF#64 := by
  apply BitVec.eq_of_toNat_eq
  have hmask : (0x0000FFFFFFFFFFFF#64).toNat = 2 ^ 48 - 1 := rfl
  rw [BitVec.toNat_and, hmask, Nat.and_two_pow_sub_one_eq_mod, BitVec.toNat_setWidth,
    BitVec.extractLsb'_toNat, Nat.shiftRight_zero]
  omega

/-- 30_encoding.md R81, for every address. -/
theorem fields_reconstruct_low48 (v : Word) :
    (pageOffset v).setWidth 64 ||| ((index 1 v).setWidth 64 <<< 12) |||
        ((index 2 v).setWidth 64 <<< 21) ||| ((index 3 v).setWidth 64 <<< 30) |||
        ((index 4 v).setWidth 64 <<< 39) =
      v &&& 0x0000FFFFFFFFFFFF#64 := by
  simp only [pageOffset, index, Nat.reduceSub, Nat.reduceMul, Nat.reduceAdd, low_or_next_field]
  exact low48_eq_and v

theorem exec_vaSplit_of_canonical {s : State} (hf : s.flt = false) (hc : CanonicalAddress s.arg0) :
    exec .vaSplit s = .next (s.complete ((pageOffset s.arg0).setWidth 64)
      ((index 1 s.arg0).setWidth 64) ((index 2 s.arg0).setWidth 64)
      ((index 3 s.arg0).setWidth 64) ((index 4 s.arg0).setWidth 64)) := by
  rw [exec_eq_command, command_of_not_flt hf]
  exact congrArg _ (checkCanonical_pass hc)

/-- Settles O12: a canonical address passes the check of VA_SPLIT, and its fields join again. -/
theorem splitReconstructsLow48 : Obligations.SplitReconstructsLow48 := by
  intro s hf hc
  refine ⟨_, exec_vaSplit_of_canonical hf hc, ?_⟩
  exact fields_reconstruct_low48 s.arg0

end Sys2Proof.Machine
end

section
/-! The statements of 40_address.md: what the checks and the exact arithmetic answer, the sign
extension and the fields of an address as numbers, and masking with a power of two as division. -/

namespace Sys2Proof.Machine

/-! ### Refusals in the words of the statements -/

theorem exec_eq_next_bodyOf {s : State} (hf : s.flt = false) (i : Instr) :
    exec i s = .next (bodyOf i s) := by
  rw [exec_eq_command, command_of_not_flt hf]

/-- A field that reaches bit 63 is the word shifted right. -/
theorem canonicalBits_setWidth (v : Word) : (canonicalBits v).setWidth 64 = v >>> 47 := by
  apply BitVec.eq_of_toNat_eq
  rw [BitVec.toNat_setWidth, canonicalBits_toNat, BitVec.toNat_ushiftRight,
    Nat.shiftRight_eq_div_pow]
  omega

theorem physicalBits_setWidth (v : Word) : (physicalBits v).setWidth 64 = v >>> 52 := by
  apply BitVec.eq_of_toNat_eq
  rw [BitVec.toNat_setWidth, physicalBits_toNat, BitVec.toNat_ushiftRight,
    Nat.shiftRight_eq_div_pow]
  omega

theorem checkCanonical_answered {s : State} {v : Word} (h : ¬CanonicalAddress v) (k : State) :
    checkCanonical s v k = s.answered 0x01 (v >>> 47) 0 0 0 0 := by
  rw [checkCanonical_fail h, raiseNonCanonical_eq_finish, canonicalBits_setWidth]
  rfl

theorem checkPhysical_answered {s : State} {v : Word} (h : ¬PhysicalAddress v) (k : State) :
    checkPhysical s v k = s.answered 0x02 (v >>> 52) 0 0 0 0 := by
  rw [checkPhysical_fail h, raiseInvalidPhys_eq_finish, physicalBits_setWidth]
  rfl

/-! ### Exact arithmetic -/

theorem exactAdd_fits {s : State} {a n r : Word} (h : r.toNat = a.toNat + n.toNat)
    (k : Word → State) : exactAdd s a n k = k r := by
  have hlt : a.toNat + n.toNat < 2 ^ 64 := h ▸ r.isLt
  have hr : a + n = r := BitVec.eq_of_toNat_eq ((BitVec.toNat_add_of_lt hlt).trans h.symm)
  rw [exactAdd, if_pos hlt, hr]

theorem exactAdd_overflow {s : State} {a n : Word} (h : 2 ^ 64 ≤ a.toNat + n.toNat)
    (k : Word → State) : exactAdd s a n k = s.answered 0x0B 0 0 0 0 0 := by
  rw [exactAdd, if_neg (Nat.not_lt.2 h)]
  rfl

theorem exactSub_fits {s : State} {a n r : Word} (h : r.toNat + n.toNat = a.toNat)
    (k : Word → State) : exactSub s a n k = k r := by
  have hle : n.toNat ≤ a.toNat := h ▸ Nat.le_add_left ..
  have hr : a - n = r := by
    apply BitVec.eq_of_toNat_eq
    rw [BitVec.toNat_sub_of_le hle, ← h, Nat.add_sub_cancel]
  rw [exactSub, if_pos hle, hr]

theorem exactSub_overflow {s : State} {a n : Word} (h : a.toNat < n.toNat) (k : Word → State) :
    exactSub s a n k = s.answered 0x0B 0 0 0 0 0 := by
  rw [exactSub, if_neg (Nat.not_le.2 h)]
  rfl

/-! ### Sign extension and fields -/

theorem signExtend48_toNat (v : Word) :
    (signExtend48 v).toNat =
      v.toNat % 2 ^ 48 + if 2 ^ 47 ≤ v.toNat % 2 ^ 48 then 2 ^ 64 - 2 ^ 48 else 0 := by
  have hlow : (v.extractLsb' 0 48).toNat = v.toNat % 2 ^ 48 := by
    rw [BitVec.extractLsb'_toNat, Nat.shiftRight_zero]
  have hfits : v.toNat % 2 ^ 48 % 2 ^ 64 = v.toNat % 2 ^ 48 := by omega
  rw [signExtend48, BitVec.toNat_signExtend, BitVec.msb_eq_decide, BitVec.toNat_setWidth, hlow,
    hfits]
  simp only [decide_eq_true_eq, Nat.reduceSub]

theorem signExtend48_getLsbD_low {k : Nat} (hk : k < 48) (v : Word) :
    (signExtend48 v).getLsbD k = v.getLsbD k := by
  have hk64 : k < 64 := by omega
  rw [signExtend48, BitVec.getLsbD_signExtend, if_pos hk, BitVec.getLsbD_extractLsb']
  simp [hk, hk64]

theorem signExtend48_getLsbD_high {k : Nat} (hlow : 48 ≤ k) (hhigh : k < 64) (v : Word) :
    (signExtend48 v).getLsbD k = v.getLsbD 47 := by
  have hk : ¬k < 48 := by omega
  rw [signExtend48, BitVec.getLsbD_signExtend, if_neg hk, BitVec.msb_eq_getLsbD_last,
    BitVec.getLsbD_extractLsb']
  simp [hhigh]

theorem signExtend48_canonical (v : Word) : CanonicalAddress (signExtend48 v) := by
  rw [CanonicalAddress, signExtend48_toNat]
  split
  · right; omega
  · left; omega

theorem signExtend48_of_canonical {v : Word} (h : CanonicalAddress v) : signExtend48 v = v := by
  apply BitVec.eq_of_toNat_eq
  have hv := v.isLt
  rw [signExtend48_toNat]
  rcases h with hlow | hhigh
  · rw [if_neg (by omega)]; omega
  · rw [if_pos (by omega)]; omega

theorem extractLsb'_setWidth (v : Word) (m n : Nat) :
    (v.extractLsb' m n).setWidth 64 = BitVec.ofNat 64 (v.toNat / 2 ^ m % 2 ^ n) := by
  apply BitVec.eq_of_toNat_eq
  rw [BitVec.toNat_setWidth, BitVec.extractLsb'_toNat, BitVec.toNat_ofNat,
    Nat.shiftRight_eq_div_pow]

theorem pageOffset_setWidth (v : Word) :
    (pageOffset v).setWidth 64 = BitVec.ofNat 64 (v.toNat % 2 ^ 12) := by
  rw [pageOffset, extractLsb'_setWidth, Nat.pow_zero, Nat.div_one]

theorem index_setWidth (level : Nat) (v : Word) :
    (index level v).setWidth 64 =
      BitVec.ofNat 64 (v.toNat / 2 ^ (12 + 9 * (level - 1)) % 2 ^ 9) :=
  extractLsb'_setWidth ..

/-! ### Powers of two -/

/-- The test of 40_address.md R118 accepts exactly the powers of two. -/
theorem isPow2_iff (al : Word) : isPow2 al = true ↔ ∃ k < 64, al.toNat = 2 ^ k := by
  by_cases hzero : al = 0
  · subst hzero
    simp [isPow2, (Nat.two_pow_pos _).ne]
  · have hne : al.toNat ≠ 0 := fun h => hzero (BitVec.eq_of_toNat_eq h)
    have hpred : (al - 1).toNat = al.toNat - 1 :=
      BitVec.toNat_sub_of_le (Nat.one_le_iff_ne_zero.2 hne)
    calc isPow2 al = true
      _ ↔ al &&& (al - 1) = 0 := by simpa [isPow2] using fun _ => hzero
      _ ↔ al.toNat &&& (al.toNat - 1) = 0 := by
        rw [← BitVec.toNat_inj, BitVec.toNat_and, hpred]; rfl
      _ ↔ ∃ k, al.toNat = 2 ^ k := Nat.and_sub_one_eq_zero_iff_isPowerOfTwo hne
      _ ↔ ∃ k < 64, al.toNat = 2 ^ k :=
        exists_congr fun k => ⟨fun h => ⟨(Nat.pow_lt_pow_iff_right Nat.one_lt_two).1
          (h ▸ al.isLt), h⟩, And.right⟩

theorem pred_toNat_of_pow2 {al : Word} {k : Nat} (hal : al.toNat = 2 ^ k) :
    (al - 1).toNat = 2 ^ k - 1 := by
  have hone : 1 ≤ al.toNat := hal ▸ Nat.one_le_two_pow
  rw [← hal]
  exact BitVec.toNat_sub_of_le hone

theorem and_pred_toNat {al : Word} (hal : ∃ k < 64, al.toNat = 2 ^ k) (a : Word) :
    (a &&& (al - 1)).toNat = a.toNat % al.toNat := by
  obtain ⟨k, -, hal⟩ := hal
  rw [BitVec.toNat_and, pred_toNat_of_pow2 hal, Nat.and_two_pow_sub_one_eq_mod, hal]

/-- The mask of the alignment commands clears the low `k` bits. -/
theorem not_pred_eq_shift {al : Word} {k : Nat} (hal : al.toNat = 2 ^ k) :
    ~~~(al - 1) = BitVec.allOnes 64 <<< k := by
  ext i hi
  have hbit : (al - 1).getLsbD i = decide (i < k) := by
    rw [BitVec.getLsbD, pred_toNat_of_pow2 hal, Nat.testBit_two_pow_sub_one]
  rw [BitVec.getElem_not, ← BitVec.getLsbD_eq_getElem, hbit]
  have hplace : i - k < 64 := by omega
  rw [BitVec.getElem_shiftLeft, BitVec.getElem_allOnes]
  simp

theorem and_not_pred_toNat {al : Word} (hal : ∃ k < 64, al.toNat = 2 ^ k) (a : Word) :
    (a &&& ~~~(al - 1)).toNat = a.toNat / al.toNat * al.toNat := by
  obtain ⟨k, -, hal⟩ := hal
  have hfits : a.toNat / 2 ^ k * 2 ^ k < 2 ^ 64 :=
    (Nat.div_mul_le_self ..).trans_lt a.isLt
  rw [not_pred_eq_shift hal, ← BitVec.shiftLeft_ushiftRight, BitVec.toNat_shiftLeft,
    BitVec.toNat_ushiftRight, Nat.shiftRight_eq_div_pow, Nat.shiftLeft_eq, hal,
    Nat.mod_eq_of_lt hfits]

/-- The sum that PA_ALIGN_UP masks does not wrap (40_address.md R120). -/
theorem add_sub_one_toNat {a al : Word} (ha : PhysicalAddress a)
    (hal : ∃ k < 64, al.toNat = 2 ^ k) : (a + al - 1).toNat = a.toNat + al.toNat - 1 := by
  obtain ⟨k, hk, hal⟩ := hal
  have hle : al.toNat ≤ 2 ^ 63 := hal ▸ Nat.pow_le_pow_right Nat.two_pos (by omega)
  have hone : 1 ≤ al.toNat := hal ▸ Nat.one_le_two_pow
  have hsum : (a + al).toNat = a.toNat + al.toNat := by
    apply BitVec.toNat_add_of_lt
    rw [PhysicalAddress] at ha
    omega
  have hle' : (1 : Word) ≤ a + al := by
    rw [BitVec.le_def, hsum]
    exact hone.trans (Nat.le_add_left ..)
  rw [BitVec.toNat_sub_of_le hle', hsum]
  rfl

/-! ### The operand checks of the alignment commands -/

theorem checkAlignOperands_pass {s : State} (ha : PhysicalAddress s.arg0)
    (hal : ∃ k < 64, s.arg1.toNat = 2 ^ k) (k : State) : checkAlignOperands s k = k :=
  (checkPhysical_pass ha).trans (if_pos ((isPow2_iff _).2 hal))

theorem checkAlignOperands_not_physical {s : State} (ha : ¬PhysicalAddress s.arg0) (k : State) :
    checkAlignOperands s k = s.answered 0x02 (s.arg0 >>> 52) 0 0 0 0 :=
  checkPhysical_answered ha _

theorem checkAlignOperands_not_pow2 {s : State} (ha : PhysicalAddress s.arg0)
    (hal : ¬∃ k < 64, s.arg1.toNat = 2 ^ k) (k : State) :
    checkAlignOperands s k = s.answered 0x0C 6 0 0 0 0 :=
  (checkPhysical_pass ha).trans (if_neg (mt (isPow2_iff _).1 hal))

/-! ### Alignment -/

/-- Settles O18: masking with `al - 1` gives the remainder. -/
theorem paIsAlignedResult : Obligations.PaIsAlignedResult := by
  refine ⟨rfl, fun s hf => ?_⟩
  rw [exec_eq_next_bodyOf hf]
  have hrem (hal : ∃ k < 64, s.arg1.toNat = 2 ^ k) :
      s.arg0 &&& (s.arg1 - 1) = 0 ↔ s.arg0.toNat % s.arg1.toNat = 0 := by
    rw [← and_pred_toNat hal]
    exact BitVec.toNat_inj.symm
  refine ⟨fun ha => congrArg _ (checkAlignOperands_not_physical ha _),
    fun ha hal => congrArg _ (checkAlignOperands_not_pow2 ha hal _), fun ha hal h => ?_,
    fun ha hal h => ?_⟩
  · rw [bodyOf, paIsAlignedBody, checkAlignOperands_pass ha hal, operand0_eq, operand1_eq,
      if_pos ((hrem hal).2 h)]
    rfl
  · rw [bodyOf, paIsAlignedBody, checkAlignOperands_pass ha hal, operand0_eq, operand1_eq,
      if_neg (mt (hrem hal).1 h)]
    rfl

/-- Settles O19: masking with `~(al - 1)` gives the quotient times the alignment. -/
theorem paAlignDownResult : Obligations.PaAlignDownResult := by
  refine ⟨rfl, fun s hf => ?_⟩
  rw [exec_eq_next_bodyOf hf]
  exact ⟨fun ha => congrArg _ (checkAlignOperands_not_physical ha _),
    fun ha hal => congrArg _ (checkAlignOperands_not_pow2 ha hal _),
    fun ha hal => ⟨_, congrArg _ (checkAlignOperands_pass ha hal _), and_not_pred_toNat hal _⟩⟩

/-- Settles O20: the sum `a + al - 1` is exact, and then as for PA_ALIGN_DOWN, with a check of the
result. -/
theorem paAlignUpResult : Obligations.PaAlignUpResult := by
  refine ⟨rfl, fun s hf => ?_⟩
  rw [exec_eq_next_bodyOf hf]
  refine ⟨fun ha => congrArg _ (checkAlignOperands_not_physical ha _),
    fun ha hal => congrArg _ (checkAlignOperands_not_pow2 ha hal _),
    fun ha hal => ⟨(s.arg0 + s.arg1 - 1) &&& ~~~(s.arg1 - 1), ?_, fun hr => ?_, fun hr => ?_⟩⟩
  · rw [and_not_pred_toNat hal, add_sub_one_toNat ha hal]
  · exact congrArg _ ((checkAlignOperands_pass ha hal _).trans (checkPhysical_pass hr))
  · exact congrArg _ ((checkAlignOperands_pass ha hal _).trans (checkPhysical_answered hr _))

/-! ### Validation and splitting -/

/-- A command that comes down to a value which must be canonical. -/
theorem exec_of_checkedVa {i : Instr} {s : State} {r : Word} (hf : s.flt = false)
    (hbody : bodyOf i s = checkCanonical s r (s.complete r 0 0 0 0)) :
    (CanonicalAddress r → exec i s = .next (s.answered 0x00 r 0 0 0 0)) ∧
    (¬CanonicalAddress r → exec i s = .next (s.answered 0x01 (r >>> 47) 0 0 0 0)) := by
  rw [exec_eq_next_bodyOf hf, hbody]
  exact ⟨fun hr => congrArg _ (checkCanonical_pass hr),
    fun hr => congrArg _ (checkCanonical_answered hr _)⟩

/-- A command that comes down to a value which must be a physical address. -/
theorem exec_of_checkedPa {i : Instr} {s : State} {r : Word} (hf : s.flt = false)
    (hbody : bodyOf i s = checkPhysical s r (s.complete r 0 0 0 0)) :
    (PhysicalAddress r → exec i s = .next (s.answered 0x00 r 0 0 0 0)) ∧
    (¬PhysicalAddress r → exec i s = .next (s.answered 0x02 (r >>> 52) 0 0 0 0)) := by
  rw [exec_eq_next_bodyOf hf, hbody]
  exact ⟨fun hr => congrArg _ (checkPhysical_pass hr),
    fun hr => congrArg _ (checkPhysical_answered hr _)⟩

/-- Settles O9: the body of VA_TRY_NEW is the check of its operand. -/
theorem vaTryNewResult : Obligations.VaTryNewResult :=
  ⟨rfl, fun _ hf => exec_of_checkedVa hf rfl⟩

/-- Settles O10: the result is the sign extension of the low 48 bits. -/
theorem vaNewUncheckedResult : Obligations.VaNewUncheckedResult :=
  ⟨rfl, fun s hf => ⟨signExtend48 s.arg0, exec_eq_next_bodyOf hf _,
    fun _ hk => signExtend48_getLsbD_low hk _,
    fun _ hlow hhigh => signExtend48_getLsbD_high hlow hhigh _,
    signExtend48_canonical _, signExtend48_of_canonical⟩⟩

/-- Settles O11: the fields that VA_SPLIT gives, read as quotients and remainders. -/
theorem vaSplitResult : Obligations.VaSplitResult := by
  refine ⟨rfl, fun s hf => ⟨fun hc => ?_, fun hc => ?_⟩⟩
  · rw [exec_vaSplit_of_canonical hf hc, pageOffset_setWidth]
    simp only [index_setWidth]
    rfl
  · exact (exec_eq_next_bodyOf hf _).trans (congrArg _ (checkCanonical_answered hc _))

/-- Settles O15: the body of PA_TRY_NEW is the check of its operand. -/
theorem paTryNewResult : Obligations.PaTryNewResult :=
  ⟨rfl, fun _ hf => exec_of_checkedPa hf rfl⟩

/-! ### Addition and subtraction: the operand's check, the exact result, the result's check -/

/-- Settles O13: an operand that passes its check leaves the exact sum to be checked. -/
theorem vaAddResult : Obligations.VaAddResult := by
  refine ⟨rfl, fun s hf => ⟨?_, ?_, fun r hc hsum => ?_⟩⟩
  · rw [exec_eq_next_bodyOf hf]
    exact fun hc => congrArg _ (checkCanonical_answered hc _)
  · rw [exec_eq_next_bodyOf hf]
    exact fun hc hsum => congrArg _ ((checkCanonical_pass hc).trans (exactAdd_overflow hsum _))
  · exact (exec_of_checkedVa (i := .vaAdd) hf
      ((checkCanonical_pass hc).trans (exactAdd_fits hsum _))).symm

/-- Settles O14: an operand that passes its check leaves the exact difference to be checked. -/
theorem vaSubResult : Obligations.VaSubResult := by
  refine ⟨rfl, fun s hf => ⟨?_, ?_, fun r hc hdiff => ?_⟩⟩
  · rw [exec_eq_next_bodyOf hf]
    exact fun hc => congrArg _ (checkCanonical_answered hc _)
  · rw [exec_eq_next_bodyOf hf]
    exact fun hc hdiff => congrArg _ ((checkCanonical_pass hc).trans (exactSub_overflow hdiff _))
  · exact (exec_of_checkedVa (i := .vaSub) hf
      ((checkCanonical_pass hc).trans (exactSub_fits hdiff _))).symm

/-- Settles O16: an operand that passes its check leaves the exact sum to be checked. -/
theorem paAddResult : Obligations.PaAddResult := by
  refine ⟨rfl, fun s hf => ⟨?_, ?_, fun r hp hsum => ?_⟩⟩
  · rw [exec_eq_next_bodyOf hf]
    exact fun hp => congrArg _ (checkPhysical_answered hp _)
  · rw [exec_eq_next_bodyOf hf]
    exact fun hp hsum => congrArg _ ((checkPhysical_pass hp).trans (exactAdd_overflow hsum _))
  · exact (exec_of_checkedPa (i := .paAdd) hf
      ((checkPhysical_pass hp).trans (exactAdd_fits hsum _))).symm

/-- Settles O17: the exact difference is the result, without a second check. -/
theorem paSubResult : Obligations.PaSubResult := by
  refine ⟨rfl, fun s hf => ?_⟩
  rw [exec_eq_next_bodyOf hf]
  exact ⟨fun hp => congrArg _ (checkPhysical_answered hp _),
    fun hp hdiff => congrArg _ ((checkPhysical_pass hp).trans (exactSub_overflow hdiff _)),
    fun _ hp hdiff => congrArg _ ((checkPhysical_pass hp).trans (exactSub_fits hdiff _))⟩

end Sys2Proof.Machine
end

section
/-! The statements of 41_entry_table.md: the level-indexed entry decode, and what ENTRY_DECODE,
ENTRY_ENCODE and TABLE_READ answer, each check in its turn. -/

namespace Sys2Proof.Machine

/-! ### The entry decode -/

/-- Settles O24: the three rows of the entry decode, at each level. -/
theorem entryDecodeTable : Obligations.EntryDecodeTable := by
  rintro e a rfl
  refine ⟨fun hp l _ _ => decodeEntry_absent hp, fun hp hh => ?_, fun hp hh => ?_⟩
  · exact ⟨decodeEntry_huge hp hh, decodeEntry_huge hp hh, decodeEntry_huge hp hh,
      decodeEntry_huge hp hh⟩
  · exact ⟨decodeEntry_table hp hh (by decide), decodeEntry_table hp hh (by decide),
      decodeEntry_table hp hh (by decide), decodeEntry_small hp hh⟩

theorem entryDecodeBody_absent {s : State} (hp : isPresent s.arg0 = false) :
    entryDecodeBody s = s.raise .entryNotPresent (entryAddr s.arg0) (entryFlags s.arg0) := by
  simp [entryDecodeBody, hp]

theorem entryDecodeBody_huge {s : State} (hp : isPresent s.arg0 = true)
    (hh : isHuge s.arg0 = true) :
    entryDecodeBody s = s.raise .hugeFrame (entryAddr s.arg0) (entryFlags s.arg0) := by
  simp [entryDecodeBody, hp, hh]

theorem entryDecodeBody_small {s : State} (hp : isPresent s.arg0 = true)
    (hh : isHuge s.arg0 = false) :
    entryDecodeBody s =
      s.complete (entryAddr s.arg0) (entryFlags s.arg0) (entryAddr s.arg0) 0 0 := by
  simp [entryDecodeBody, hp, hh]

/-- Settles O21: PRESENT decides first, then HUGE_PAGE. -/
theorem entryDecodeResult : Obligations.EntryDecodeResult := by
  refine ⟨rfl, ?_⟩
  rintro s _ _ hf rfl rfl
  rw [exec_eq_next_bodyOf hf]
  exact ⟨fun hp => congrArg _ (entryDecodeBody_absent hp),
    fun hp hh => congrArg _ (entryDecodeBody_huge hp hh),
    fun hp hh => congrArg _ (entryDecodeBody_small hp hh)⟩

/-! ### The checks of a frame and of flags -/

theorem checkPaAligned_answered {s : State} {c : SizeClass} {v : Word}
    (h : v.toNat % sizeBytes c ≠ 0) (k : State) :
    checkPaAligned s c v k = s.answered 0x0C 2 0 0 0 0 :=
  checkPaAligned_fail h

theorem checkFrame_pass {s k : State} {c : SizeClass} {v : Word} (h : GoodFrame c v) :
    checkPhysical s v (checkPaAligned s c v k) = k :=
  (checkPhysical_pass h.1).trans (checkPaAligned_pass h.2)

theorem checkFlags_address {s : State} {c : SizeClass} {f : Word}
    (h : f &&& Config.addrMask ≠ 0) (k : State) :
    checkFlags s c f k = s.answered 0x0C 3 0 0 0 0 :=
  if_pos (bne_iff_ne.2 h)

theorem checkFlags_huge4K {s : State} {f : Word} (ha : f &&& Config.addrMask = 0)
    (hh : isHuge f = true) (k : State) :
    checkFlags s .s4K f k = s.answered 0x0C 4 0 0 0 0 := by
  rw [checkFlags, if_neg (by simp [ha]), if_pos ⟨rfl, hh⟩]
  rfl

/-! ### ENTRY_ENCODE -/

theorem exec_entryEncode_next {s : State} (hf : s.flt = false) (c : SizeClass) :
    exec (Instr.entryEncode c) s = .next (entryEncodeBody c s) := by
  rw [exec_entryEncode, command_of_not_flt hf]

/-- Settles O22: each check answers when the ones before it pass. -/
theorem entryEncodeResult : Obligations.EntryEncodeResult := by
  refine ⟨rfl, rfl, rfl, fun c s hf => ?_⟩
  rw [exec_entryEncode_next hf]
  refine ⟨fun hp => congrArg _ (checkPhysical_answered hp _),
    fun hp hal => congrArg _ ((checkPhysical_pass hp).trans (checkPaAligned_answered hal _)),
    fun hframe ha => congrArg _ ((checkFrame_pass hframe).trans (checkFlags_address ha _)), ?_,
    fun hframe hflags => ?_⟩
  · rintro hframe ha rfl hh
    exact congrArg _ ((checkFrame_pass hframe).trans (checkFlags_huge4K ha hh _))
  · rw [← leafEntry_eq]
    exact congrArg _ ((checkFrame_pass hframe).trans (checkFlags_pass hflags))

/-! ### TABLE_READ -/

/-- An index that is out of range is refused before memory is read. -/
theorem tableReadBody_indexRange {s : State} (hframe : GoodFrame .s4K s.arg1)
    (hi : 511 < s.arg0.toNat) : tableReadBody s = s.answered 0x0C 5 0 0 0 0 :=
  (checkFrame_pass hframe).trans (if_neg (Nat.not_le.2 hi))

theorem tableReadBody_read {s : State} (hframe : GoodFrame .s4K s.arg1)
    (hi : s.arg0.toNat ≤ 511) :
    tableReadBody s = (memRead (s.arg1.toNat + 8 * s.arg0.toNat) s).run
      fun e s' => s'.complete e 0 0 0 0 :=
  (checkFrame_pass hframe).trans (if_pos hi)

/-- Settles O23: the checks in their order, then the one read. -/
theorem tableReadResult : Obligations.TableReadResult := by
  refine ⟨rfl, fun s hf => ?_⟩
  rw [exec_eq_next_bodyOf hf]
  refine ⟨fun hp => congrArg _ (checkPhysical_answered hp _),
    fun hp hal => congrArg _ ((checkPhysical_pass hp).trans (checkPaAligned_answered hal _)),
    fun hp hal hi => congrArg _ (tableReadBody_indexRange ⟨hp, hal⟩ hi),
    fun hp hal hi hadm => ?_, fun hp hal hi hadm hv => ?_⟩
  · rw [bodyOf, tableReadBody_read ⟨hp, hal⟩ hi, memRead_of_not_admits hadm]
    rfl
  · rw [bodyOf, tableReadBody_read ⟨hp, hal⟩ hi, memRead_of_admits hadm, seenWord_of_views hv,
      readDone_of_views hv]
    rfl

end Sys2Proof.Machine
end

section
/-! The statements of 42_walk_translate.md: what TRANSLATE_PAGE.S, TRANSLATE and TRANSLATE_ADDR
answer by the place where the walk stops, that all three only read, and that the first two agree on
the one leaf of an address. -/

namespace Sys2Proof.Machine

/-! ### Completions after reads -/

/-- `t` is `u` but for the record of port events. -/
def SameButPorts (u t : State) : Prop := ∃ ps, t = { u with ports := ps }

/-- While no write races, a completion after reads is a completion of the state before them. -/
theorem ReadsOnly.finish_same {s s' : State} {pas : List Nat} (h : ReadsOnly s s' pas)
    (hv : s.views = []) (st : Status) (r0 r1 r2 r3 r4 : Word) :
    SameButPorts (s.answered st.code r0 r1 r2 r3 r4) (s'.finish st r0 r1 r2 r3 r4) :=
  ⟨_, by rw [h.ports_eq hv]; rfl⟩

theorem ReadsOnly.takeFault_same {s s' : State} {pas : List Nat} (h : ReadsOnly s s' pas)
    (hv : s.views = []) : SameButPorts (s.faultedWith 0x01) (s'.takeFault .busError) :=
  ⟨_, by rw [h.ports_eq hv]; rfl⟩

/-- The form in which the statements leave the record of port events open. -/
theorem SameButPorts.exec {s u : State} {i : Instr} (h : SameButPorts u (bodyOf i s))
    (hf : s.flt = false) : ∃ ps, exec i s = .next { u with ports := ps } :=
  h.imp fun _ he => (exec_eq_next_bodyOf hf i).trans (congrArg _ he)

/-- The state lets a walking command start: no fault, a root, and no write that races with it. -/
structure State.Ready (s : State) : Prop where
  noFault : s.flt = false
  hasRoot : s.rv = true
  noRace : s.views = []

/-! ### The leaf of a class -/

/-- The walk for `va` reads a present leaf `e` of class `c`. -/
def State.LeafAt (s : State) (va : Word) (c : SizeClass) (e : Word) : Prop :=
  s.WalkReads va (terminalLevel c) e ∧ isPresent e = true ∧ classMatch c e = true

theorem classMatch_iff (c : SizeClass) (e : Word) :
    classMatch c e = true ↔ isHuge e = decide (c ≠ .s4K) := by
  cases c with
  | s4K => simp [classMatch]
  | s2M => simp [classMatch]
  | s1G => simp [classMatch]

theorem terminalLevel_injective {c c' : SizeClass} (h : terminalLevel c = terminalLevel c') :
    c = c' := by
  revert h
  cases c <;> cases c' <;> decide

theorem decodeEntry_leaf {c : SizeClass} {e : Word} (hp : isPresent e = true)
    (hm : classMatch c e = true) :
    decodeEntry (terminalLevel c) e = .leaf c (entryAddr e) := by
  rw [classMatch_iff] at hm
  cases c with
  | s4K => exact decodeEntry_small hp hm
  | s2M => exact decodeEntry_huge hp hm
  | s1G => exact decodeEntry_huge hp hm

/-- The leaf of a class ends the class-agnostic walk. -/
theorem State.LeafAt.walkAny {s : State} {va : Word} {c : SizeClass} {e : Word}
    (h : s.LeafAt va c e) (hv : s.views = []) :
    ∃ s' ps, ReadsOnly s s' ps ∧ walkAny va s = .ok (.leaf c (entryAddr e) e) s' := by
  obtain ⟨hr, hp, hm⟩ := h
  exact walkAny_of hv ⟨hr, hp, hm, rfl⟩

/-- An address has at most one leaf: the class-agnostic walk ends only once. -/
theorem State.LeafAt.unique {s : State} {va : Word} {c c' : SizeClass} {e e' : Word}
    (hv : s.views = []) (h : s.LeafAt va c e) (h' : s.LeafAt va c' e') : c = c' ∧ e = e' := by
  obtain ⟨_, _, -, hw⟩ := h.walkAny hv
  obtain ⟨_, _, -, hw'⟩ := h'.walkAny hv
  rw [hw] at hw'
  simp only [Port.ok.injEq, AnyEnd.leaf.injEq] at hw'
  obtain ⟨⟨hc, -, he⟩, -⟩ := hw'
  exact ⟨hc, he⟩

/-! ### TRANSLATE_PAGE -/

/-- What TRANSLATE_PAGE.S answers for the outcome of its walk (42_walk_translate.md R163). -/
def translatePageEnd (c : SizeClass) (s : State) : WalkEnd → State
  | .absent l => s.raise .notMapped (levelWord l)
  | .hugeAbove l _ => s.raise .notMapped (levelWord l)
  | .malformed l e => s.raise .malformedEntry (levelWord l) e
  | .terminal _ e => translateTerminal c e s

theorem translatePageBody_eq (c : SizeClass) (s : State) :
    translatePageBody c s = withRoot s (checkPage s c s.arg0
      ((walk s.arg0 c s).run fun w s' => translatePageEnd c s' w)) := by
  refine congrArg (fun k => withRoot s (checkPage s c s.arg0 ((walk s.arg0 c s).run k))) ?_
  funext w s'; cases w <;> rfl

@[simp] theorem bodyOf_translatePage (c : SizeClass) :
    bodyOf (Instr.translatePage c) = translatePageBody c := by cases c <;> rfl

/-- Where the checks pass, the walk's outcome decides. -/
theorem translatePageBody_of_walk {c : SizeClass} {s u : State} {w : WalkEnd} (h : s.Ready)
    (hp : GoodPage c s.arg0)
    (hw : ∃ s' pas, ReadsOnly s s' pas ∧ walk s.arg0 c s = .ok w s')
    (hu : ∀ s' pas, ReadsOnly s s' pas → SameButPorts u (translatePageEnd c s' w)) :
    SameButPorts u (translatePageBody c s) := by
  obtain ⟨s', pas, hs, hw⟩ := hw
  rw [translatePageBody_eq, withRoot_pass h.hasRoot, checkPage_pass hp, hw]
  exact hu s' pas hs

theorem translatePageBody_of_refused {c : SizeClass} {s : State} (h : s.Ready)
    (hp : GoodPage c s.arg0) (hr : s.Refused s.arg0 (terminalLevel c)) :
    SameButPorts (s.faultedWith 0x01) (translatePageBody c s) := by
  obtain ⟨s', pas, hs, hw⟩ := walk_of_refused h.noRace hr
  rw [translatePageBody_eq, withRoot_pass h.hasRoot, checkPage_pass hp, hw]
  exact hs.takeFault_same h.noRace

/-- A walk that reads at the terminal level leaves the answer to that entry. -/
theorem translatePageBody_of_terminal {c : SizeClass} {s u : State} {e : Word} (h : s.Ready)
    (hp : GoodPage c s.arg0) (hr : s.WalkReads s.arg0 (terminalLevel c) e)
    (hu : ∀ s' pas, ReadsOnly s s' pas → SameButPorts u (translateTerminal c e s')) :
    SameButPorts u (translatePageBody c s) := by
  obtain ⟨t, ht, ha, rfl⟩ := hr
  exact translatePageBody_of_walk h hp (walk_of_terminal h.noRace ht ha) hu

/-! ### The terminal entry -/

theorem translateTerminal_absent {c : SizeClass} {e : Word} (hp : isPresent e = false) (s : State) :
    translateTerminal c e s = s.finish .notMapped (levelWord (terminalLevel c)) 0 0 0 0 := by
  rw [translateTerminal, decodeEntry_absent hp]; rfl

theorem translateTerminal_table {c : SizeClass} {e : Word} (hp : isPresent e = true)
    (hh : isHuge e = false) (hc : c ≠ .s4K) (s : State) :
    translateTerminal c e s = s.finish .notMapped (levelWord (terminalLevel c)) 0 0 0 0 := by
  have hl : terminalLevel c ≠ 1 := fun hl => hc (terminalLevel_injective hl)
  rw [translateTerminal, decodeEntry_table hp hh hl]; rfl

theorem translateTerminal_malformed {e : Word} (hp : isPresent e = true) (hh : isHuge e = true)
    (s : State) : translateTerminal .s4K e s = s.finish .malformedEntry 1 e 0 0 0 := by
  rw [translateTerminal, decodeEntry_huge hp hh]; rfl

theorem translateTerminal_aligned {c : SizeClass} {e : Word} (hp : isPresent e = true)
    (hm : classMatch c e = true) (ha : (entryAddr e).toNat % sizeBytes c = 0) (s : State) :
    translateTerminal c e s =
      s.finish .ok (entryAddr e) (entryAddr e) 0 (codeWord c) (entryFlags e) := by
  rw [translateTerminal, decodeEntry_leaf hp hm]
  exact if_pos ((alignedTo_iff _ _).2 ha)

theorem translateTerminal_misaligned {c : SizeClass} {e : Word} (hp : isPresent e = true)
    (hm : classMatch c e = true) (ha : (entryAddr e).toNat % sizeBytes c ≠ 0) (s : State) :
    translateTerminal c e s = s.finish .invalidFrameAddr (entryAddr e) 0 0 0 0 := by
  rw [translateTerminal, decodeEntry_leaf hp hm]
  exact if_neg (mt (alignedTo_iff _ _).1 ha)

/-- Settles O25: the terminal entry is the leaf of the class. -/
theorem translatePageOfMappedPage : Obligations.TranslatePageOfMappedPage := by
  rintro c s t _ _ hf hr hv hgood ht hadm rfl hp hh rfl
  have hready : s.Ready := ⟨hf, hr, hv⟩
  have hm := (classMatch_iff c _).2 hh
  have hend {u : State}
      (hu : ∀ s' pas, ReadsOnly s s' pas →
        SameButPorts u (translateTerminal c (s.entryAt (terminalLevel c) s.arg0 t) s')) :
      ∃ ps, exec (Instr.translatePage c) s = .next { u with ports := ps } := by
    apply SameButPorts.exec _ hf
    rw [bodyOf_translatePage]
    exact translatePageBody_of_terminal hready hgood ⟨t, ht, hadm, rfl⟩ hu
  refine ⟨fun ha => hend fun s' pas hs => ?_, fun ha => hend fun s' pas hs => ?_⟩
  · rw [translateTerminal_aligned hp hm ha]
    exact hs.finish_same hv .ok _ _ _ _ _
  · rw [translateTerminal_misaligned hp hm ha]
    exact hs.finish_same hv .invalidFrameAddr _ _ _ _ _

/-! ### What TRANSLATE_PAGE refuses -/

theorem translatePageBody_noncanonical {c : SizeClass} {s : State} (hr : s.rv = true)
    (hc : ¬CanonicalAddress s.arg0) :
    translatePageBody c s = s.answered 0x01 (s.arg0 >>> 47) 0 0 0 0 := by
  rw [translatePageBody_eq, withRoot_pass hr, checkPage, checkCanonical_answered hc]

theorem translatePageBody_misaligned {c : SizeClass} {s : State} (hr : s.rv = true)
    (hc : CanonicalAddress s.arg0) (ha : s.arg0.toNat % sizeBytes c ≠ 0) :
    translatePageBody c s = s.answered 0x0C 1 0 0 0 0 := by
  rw [translatePageBody_eq, withRoot_pass hr, checkPage, checkCanonical_pass hc,
    checkVaAligned_fail ha]
  rfl

/-- An absent entry, at the terminal level or above it. -/
theorem translatePageBody_absent {c : SizeClass} {s : State} {l : Nat} {e : Word} (h : s.Ready)
    (hgood : GoodPage c s.arg0) (hl : terminalLevel c ≤ l) (hr : s.WalkReads s.arg0 l e)
    (hp : isPresent e = false) :
    SameButPorts (s.answered 0x03 (levelWord l) 0 0 0 0) (translatePageBody c s) := by
  rcases Nat.lt_or_eq_of_le hl with hlt | rfl
  · exact translatePageBody_of_walk h hgood (walk_of_absent h.noRace hlt hr hp)
      fun s' pas hs => hs.finish_same h.noRace .notMapped _ _ _ _ _
  · refine translatePageBody_of_terminal h hgood hr fun s' pas hs => ?_
    rw [translateTerminal_absent hp]
    exact hs.finish_same h.noRace .notMapped _ _ _ _ _

/-- A huge entry above the terminal level, below level 4. -/
theorem translatePageBody_hugeAbove {c : SizeClass} {s : State} {l : Nat} {e : Word} (h : s.Ready)
    (hgood : GoodPage c s.arg0) (hl : terminalLevel c < l) (h4 : l ≠ 4)
    (hr : s.WalkReads s.arg0 l e) (hp : isPresent e = true) (hh : isHuge e = true) :
    SameButPorts (s.answered 0x03 (levelWord l) 0 0 0 0) (translatePageBody c s) := by
  have hw := walk_of_huge h.noRace hl hr hp hh
  rw [if_neg h4] at hw
  exact translatePageBody_of_walk h hgood hw
    fun s' pas hs => hs.finish_same h.noRace .notMapped _ _ _ _ _

/-- A huge entry at level 4. -/
theorem translatePageBody_hugeTop {c : SizeClass} {s : State} {e : Word} (h : s.Ready)
    (hgood : GoodPage c s.arg0) (hr : s.WalkReads s.arg0 4 e) (hp : isPresent e = true)
    (hh : isHuge e = true) :
    SameButPorts (s.answered 0x0F 4 e 0 0 0) (translatePageBody c s) := by
  have hl : terminalLevel c < 4 := Nat.lt_succ_of_le (terminalLevel_le c)
  exact translatePageBody_of_walk h hgood (walk_of_huge h.noRace hl hr hp hh)
    fun s' pas hs => hs.finish_same h.noRace .malformedEntry _ _ _ _ _

/-- Settles O26: the checks in their order, then the level and the entry at which the walk stops. -/
theorem translatePageRefusals : Obligations.TranslatePageRefusals := by
  intro c s hf hr
  refine ⟨fun hc => ?_, fun hc ha => ?_, fun hgood hv => ?_⟩
  · rw [exec_eq_next_bodyOf hf, bodyOf_translatePage, translatePageBody_noncanonical hr hc]
  · rw [exec_eq_next_bodyOf hf, bodyOf_translatePage, translatePageBody_misaligned hr hc ha]
  have hready : s.Ready := ⟨hf, hr, hv⟩
  have hexec {u : State} (hu : SameButPorts u (translatePageBody c s)) :
      ∃ ps, exec (Instr.translatePage c) s = .next { u with ports := ps } :=
    SameButPorts.exec ((bodyOf_translatePage c).symm ▸ hu) hf
  refine ⟨fun l e hl hw hp => hexec (translatePageBody_absent hready hgood hl hw hp),
    fun l e hl h4 hw hp hh => hexec (translatePageBody_hugeAbove hready hgood hl h4 hw hp hh),
    fun e hw hp hh => hexec (translatePageBody_hugeTop hready hgood hw hp hh), ?_, ?_,
    fun l t hl ht hn => hexec (translatePageBody_of_refused hready hgood ⟨l, t, hl, ht, hn⟩)⟩
  · rintro e rfl hw hp hh
    refine hexec (translatePageBody_of_terminal hready hgood hw fun s' pas hs => ?_)
    rw [translateTerminal_malformed hp hh]
    exact hs.finish_same hv .malformedEntry _ _ _ _ _
  · intro e hc hw hp hh
    refine hexec (translatePageBody_of_terminal hready hgood hw fun s' pas hs => ?_)
    rw [translateTerminal_table hp hh hc]
    exact hs.finish_same hv .notMapped _ _ _ _ _

/-! ### TRANSLATE and TRANSLATE_ADDR -/

/-- What TRANSLATE and TRANSLATE_ADDR of `va` answer for the outcome of their walk, with the OK
completion left to `done` (42_walk_translate.md R164). -/
def translateEnd (done : State → SizeClass → Word → Word → Word → State) (va : Word) (s : State) :
    AnyEnd → State
  | .absent l => s.raise .notMapped (levelWord l)
  | .malformed l e => s.raise .malformedEntry (levelWord l) e
  | .leaf c a e =>
    if alignedTo c a then done s c a (va &&& offsetMask c) e else s.raise .invalidFrameAddr a

theorem translateBody_eq (done : State → SizeClass → Word → Word → Word → State) (s : State) :
    translateBody done s = withRoot s (checkCanonical s s.arg0
      ((walkAny s.arg0 s).run fun w s' => translateEnd done s.arg0 s' w)) := by
  refine congrArg (fun k => withRoot s (checkCanonical s s.arg0 ((walkAny s.arg0 s).run k))) ?_
  funext w s'; cases w <;> rfl

section
variable {done : State → SizeClass → Word → Word → Word → State} {s : State}

theorem translateBody_noncanonical (hr : s.rv = true) (hc : ¬CanonicalAddress s.arg0) :
    translateBody done s = s.answered 0x01 (s.arg0 >>> 47) 0 0 0 0 := by
  rw [translateBody_eq, withRoot_pass hr, checkCanonical_answered hc]

/-- Where the checks pass, the walk's outcome decides. -/
theorem translateBody_of_walk {u : State} {w : AnyEnd} (h : s.Ready)
    (hc : CanonicalAddress s.arg0) (hw : s.AnySays s.arg0 w)
    (hu : ∀ s' pas, ReadsOnly s s' pas → SameButPorts u (translateEnd done s.arg0 s' w)) :
    SameButPorts u (translateBody done s) := by
  obtain ⟨s', pas, hs, hw⟩ := walkAny_of h.noRace hw
  rw [translateBody_eq, withRoot_pass h.hasRoot, checkCanonical_pass hc, hw]
  exact hu s' pas hs

theorem translateBody_of_refused (h : s.Ready) (hc : CanonicalAddress s.arg0)
    (hr : s.Refused s.arg0 1) : SameButPorts (s.faultedWith 0x01) (translateBody done s) := by
  obtain ⟨s', pas, hs, hw⟩ := walkAny_of_refused h.noRace hr
  rw [translateBody_eq, withRoot_pass h.hasRoot, checkCanonical_pass hc, hw]
  exact hs.takeFault_same h.noRace

theorem translateBody_absent {l : Nat} {e : Word} (h : s.Ready) (hc : CanonicalAddress s.arg0)
    (hr : s.WalkReads s.arg0 l e) (hp : isPresent e = false) :
    SameButPorts (s.answered 0x03 (levelWord l) 0 0 0 0) (translateBody done s) :=
  translateBody_of_walk (w := .absent l) h hc ⟨e, hr, hp⟩
    fun _ _ hs => hs.finish_same h.noRace .notMapped _ _ _ _ _

/-- A huge entry at a level that has no huge leaf. -/
theorem translateBody_malformed {l : Nat} {e : Word} (h : s.Ready) (hc : CanonicalAddress s.arg0)
    (h3 : l ≠ 3) (h2 : l ≠ 2) (hr : s.WalkReads s.arg0 l e) (hp : isPresent e = true)
    (hh : isHuge e = true) :
    SameButPorts (s.answered 0x0F (levelWord l) e 0 0 0) (translateBody done s) :=
  translateBody_of_walk (w := .malformed l e) h hc ⟨h3, h2, hr, hp, hh⟩
    fun _ _ hs => hs.finish_same h.noRace .malformedEntry _ _ _ _ _

theorem translateBody_misaligned {c : SizeClass} {e : Word} (h : s.Ready)
    (hc : CanonicalAddress s.arg0) (hleaf : s.LeafAt s.arg0 c e)
    (ha : (entryAddr e).toNat % sizeBytes c ≠ 0) :
    SameButPorts (s.answered 0x08 (entryAddr e) 0 0 0 0) (translateBody done s) := by
  obtain ⟨hr, hp, hm⟩ := hleaf
  refine translateBody_of_walk (w := .leaf c _ e) h hc ⟨hr, hp, hm, rfl⟩ fun s' pas hs => ?_
  rw [translateEnd, if_neg (mt (alignedTo_iff _ _).1 ha)]
  exact hs.finish_same h.noRace .invalidFrameAddr _ _ _ _ _

theorem translateBody_aligned {u : State} {c : SizeClass} {e : Word} (h : s.Ready)
    (hc : CanonicalAddress s.arg0) (hleaf : s.LeafAt s.arg0 c e)
    (ha : (entryAddr e).toNat % sizeBytes c = 0)
    (hu : ∀ s' pas, ReadsOnly s s' pas →
      SameButPorts u (done s' c (entryAddr e) (s.arg0 &&& offsetMask c) e)) :
    SameButPorts u (translateBody done s) := by
  obtain ⟨hr, hp, hm⟩ := hleaf
  refine translateBody_of_walk (w := .leaf c _ e) h hc ⟨hr, hp, hm, rfl⟩ fun s' pas hs => ?_
  rw [translateEnd, if_pos ((alignedTo_iff _ _).2 ha)]
  exact hu s' pas hs

end

/-- Settles O28: the check of the address, then the level and the entry at which the walk stops. -/
theorem translateRefusals : Obligations.TranslateRefusals := by
  intro i s hi hf hr
  obtain ⟨done, hdone⟩ : ∃ done, bodyOf i = translateBody done := by
    rcases hi with rfl | rfl
    · exact ⟨_, rfl⟩
    · exact ⟨_, rfl⟩
  refine ⟨fun hc => ?_, fun hc hv => ?_⟩
  · rw [exec_eq_next_bodyOf hf, hdone, translateBody_noncanonical hr hc]
  have hready : s.Ready := ⟨hf, hr, hv⟩
  have hexec {u : State} (hu : SameButPorts u (translateBody done s)) :
      ∃ ps, exec i s = .next { u with ports := ps } :=
    SameButPorts.exec (hdone ▸ hu) hf
  refine ⟨fun l e hw hp => hexec (translateBody_absent hready hc hw hp),
    fun l e hl hw hp hh =>
      hexec (translateBody_malformed hready hc (by omega) (by omega) hw hp hh),
    fun l t ht hn => hexec (translateBody_of_refused hready hc ⟨l, t, ht.pos, ht, hn⟩)⟩

/-! ### The offset in a page -/

theorem offsetMask_toNat (c : SizeClass) : (offsetMask c).toNat = sizeBytes c - 1 := by
  cases c <;> rfl

theorem sizeBytes_eq (c : SizeClass) : sizeBytes c = 2 ^ (12 + 9 * (terminalLevel c - 1)) := by
  cases c <;> rfl

theorem offset_toNat (c : SizeClass) (v : Word) :
    (v &&& offsetMask c).toNat = v.toNat % sizeBytes c := by
  rw [BitVec.toNat_and, offsetMask_toNat, sizeBytes_eq, Nat.and_two_pow_sub_one_eq_mod]

theorem offset_eq {c : SizeClass} {v off : Word} (h : off.toNat = v.toNat % sizeBytes c) :
    v &&& offsetMask c = off :=
  BitVec.eq_of_toNat_eq ((offset_toNat c v).trans h.symm)

/-- The page that holds an address is the address less its offset. -/
theorem pageBase_eq_sub (c : SizeClass) (v : Word) :
    v &&& ~~~(offsetMask c) = v - (v &&& offsetMask c) := by
  apply BitVec.eq_of_toNat_eq
  have hle : v &&& offsetMask c ≤ v := by
    rw [BitVec.le_def, offset_toNat]; exact Nat.mod_le ..
  rw [pageBase_toNat, BitVec.toNat_sub_of_le hle, offset_toNat]
  exact Nat.eq_sub_of_add_eq (Nat.div_add_mod' ..)

/-- An aligned frame and an offset in it add up without a carry, inside physical memory. -/
theorem frame_add_offset {c : SizeClass} {a off : Word} (ha : a.toNat % sizeBytes c = 0)
    (hlt : a.toNat < 2 ^ 52) (hoff : off.toNat < sizeBytes c) :
    (a + off).toNat = a.toNat + off.toNat ∧ PhysicalAddress (a + off) := by
  have hfits : a.toNat + off.toNat < 2 ^ 52 := by
    cases c <;> simp only [sizeBytes] at ha hoff <;> omega
  have hsum : (a + off).toNat = a.toNat + off.toNat := BitVec.toNat_add_of_lt (by omega)
  exact ⟨hsum, hsum.trans_lt hfits⟩

/-- TRANSLATE answers and offers the leaf (42_walk_translate.md R164, R169). -/
theorem ReadsOnly.translateDone_same {s s' : State} {pas : List Nat} (h : ReadsOnly s s' pas)
    (hv : s.views = []) (c : SizeClass) (e : Word) :
    SameButPorts
      { s.answered 0x00 (entryAddr e + (s.arg0 &&& offsetMask c)) (entryAddr e)
          (s.arg0 &&& offsetMask c) (codeWord c) (entryFlags e) with
        fillable :=
          { page := s.arg0 - (s.arg0 &&& offsetMask c), cls := c, frame := entryAddr e
            flags := entryFlags e } :: s.fillable }
      (translateDone s' c (entryAddr e) (s.arg0 &&& offsetMask c) e) := by
  rw [← pageBase_eq_sub]
  exact ⟨_, by rw [h.ports_eq hv]; rfl⟩

/-- Settles O27: the walk ends in the leaf of class `c`, and the offset is added to its frame. -/
theorem translateOfMappedAddress : Obligations.TranslateOfMappedAddress := by
  rintro c s e _ off hf hr hv hc hw hp hh rfl hoff
  have hready : s.Ready := ⟨hf, hr, hv⟩
  have hleaf : s.LeafAt s.arg0 c e := ⟨hw, hp, (classMatch_iff c e).2 hh⟩
  obtain rfl := offset_eq hoff
  have hlt : (s.arg0 &&& offsetMask c).toNat < sizeBytes c := hoff ▸ Nat.mod_lt _ (sizeBytes_pos c)
  refine ⟨fun ha => ?_, fun ha => ?_⟩
  · obtain ⟨hsum, hphys⟩ := frame_add_offset ha (isFrame_mask e).2 hlt
    refine ⟨hsum, hphys, ?_, ?_⟩
    · have htranslate := translateBody_aligned hready hc hleaf ha fun s' pas hs =>
        hs.translateDone_same hv c e
      exact htranslate.exec (i := .translate) hf
    · refine SameButPorts.exec (i := .translateAddr)
        (translateBody_aligned hready hc hleaf ha fun s' pas hs => ?_) hf
      exact hs.finish_same hv .ok _ _ _ _ _
  · exact ⟨SameButPorts.exec (i := .translate)
        (translateBody_misaligned hready hc hleaf ha) hf,
      SameButPorts.exec (i := .translateAddr) (translateBody_misaligned hready hc hleaf ha) hf⟩

/-! ### Only reads -/

/-- `t` ends a command that has made at most `bound` reads in `s` and nothing else on its ports: by
an answer, by the OK answer of TRANSLATE, which is offered to the TLB, or by a refused read. -/
inductive EndsAfterReads (s : State) (bound : Nat) : State → Prop where
  | answered {s' : State} {pas : List Nat} (hs : ReadsOnly s s' pas) (hl : pas.length ≤ bound)
      (st : Status) (r0 r1 r2 r3 r4 : Word) : EndsAfterReads s bound (s'.finish st r0 r1 r2 r3 r4)
  | offered {s' : State} {pas : List Nat} (hs : ReadsOnly s s' pas) (hl : pas.length ≤ bound)
      (e : TlbEntry) (r0 r1 r2 r3 r4 : Word) :
      EndsAfterReads s bound ((s'.offer e).finish .ok r0 r1 r2 r3 r4)
  | refused {s' : State} {pas : List Nat} (hs : ReadsOnly s s' pas) (hl : pas.length ≤ bound) :
      EndsAfterReads s bound (s'.takeFault .busError)

theorem Answers.endsAfterReads {s s' t : State} {pas : List Nat} {bound : Nat} (h : Answers s' t)
    (hs : ReadsOnly s s' pas) (hl : pas.length ≤ bound) : EndsAfterReads s bound t := by
  obtain ⟨st, r0, r1, r2, r3, r4, -, -, rfl⟩ := h
  exact .answered hs hl st r0 r1 r2 r3 r4

theorem translatePageBody_endsAfterReads (c : SizeClass) (s : State) :
    EndsAfterReads s (4 - terminalLevel c + 1) (translatePageBody c s) := by
  rcases translatePageBody_cases c s with
    h | ⟨-, -, s', pas, hs, hl, -, he | h | ⟨e, -, -, -, -, he⟩⟩
  · exact h.endsAfterReads (.refl s) (Nat.zero_le _)
  · rw [he]; exact .refused hs hl
  · exact h.endsAfterReads hs hl
  · rw [he]; exact .answered hs hl ..

/-- TRANSLATE and TRANSLATE_ADDR, for any OK completion that ends them. -/
theorem translateBody_endsAfterReads {done : State → SizeClass → Word → Word → Word → State}
    {s : State} (hdone : ∀ s' pas c a off e, ReadsOnly s s' pas → pas.length ≤ 4 →
      EndsAfterReads s 4 (done s' c a off e)) : EndsAfterReads s 4 (translateBody done s) := by
  rcases translateBody_cases done s with
    h | ⟨-, -, s', pas, hs, hl, -, he | h | ⟨c, e, -, -, -, -, he⟩⟩
  · exact h.endsAfterReads (.refl s) (Nat.zero_le _)
  · rw [he]; exact .refused hs hl
  · exact h.endsAfterReads hs hl
  · rw [he]; exact hdone _ _ _ _ _ _ hs hl

theorem exec_endsAfterReads {i : Instr} {bound : Nat} {s t : State}
    (hb : EndsAfterReads s bound (bodyOf i s)) (h : exec i s = .next t) :
    EndsAfterReads s bound t := by
  rw [exec_eq_command] at h
  cases hf : s.flt with
  | true =>
    rw [command_of_flt hf] at h
    cases h
    exact .answered (.refl s) (Nat.zero_le _) ..
  | false =>
    rw [command_of_not_flt hf] at h
    cases h
    exact hb

/-- Settles O30: however the command ends, reads are all it has done. -/
theorem translateFamilyOnlyReads : Obligations.TranslateFamilyOnlyReads := by
  intro i bound s t hi h
  have hbody : EndsAfterReads s bound (bodyOf i s) := by
    rcases hi with ⟨rfl, rfl⟩ | ⟨rfl, rfl⟩ | ⟨c, rfl, rfl⟩
    · exact translateBody_endsAfterReads fun _ _ _ _ _ _ hs hl => .offered hs hl ..
    · exact translateBody_endsAfterReads fun _ _ _ _ _ _ hs hl => .answered hs hl ..
    · rw [bodyOf_translatePage]
      exact translatePageBody_endsAfterReads c s
  cases exec_endsAfterReads hbody h with
  | answered hs hl =>
    cases hs
    exact ⟨rfl, rfl, rfl, rfl, rfl, rfl, rfl, rfl, rfl, rfl, rfl, rfl, .inl ⟨rfl, rfl⟩, _, hl, rfl⟩
  | offered hs hl =>
    cases hs
    exact ⟨rfl, rfl, rfl, rfl, rfl, rfl, rfl, rfl, rfl, rfl, rfl, rfl, .inl ⟨rfl, rfl⟩, _, hl, rfl⟩
  | refused hs hl =>
    cases hs
    exact ⟨rfl, rfl, rfl, rfl, rfl, rfl, rfl, rfl, rfl, rfl, rfl, rfl,
      .inr ⟨rfl, rfl, rfl, rfl⟩, _, hl, rfl⟩

/-! ### The address and the page that holds it -/

/-- The first address of the page of class `c` that holds `va`. -/
def pageOf (c : SizeClass) (va : Word) : Word :=
  BitVec.ofNat 64 (va.toNat / sizeBytes c * sizeBytes c)

theorem pageOf_toNat (c : SizeClass) (va : Word) :
    (pageOf c va).toNat = va.toNat / sizeBytes c * sizeBytes c :=
  BitVec.toNat_ofNat .. ▸ Nat.mod_eq_of_lt ((Nat.div_mul_le_self ..).trans_lt va.isLt)

theorem pageOf_canonical_iff (c : SizeClass) (va : Word) :
    CanonicalAddress (pageOf c va) ↔ CanonicalAddress va := by
  have := va.isLt
  rw [CanonicalAddress, CanonicalAddress, pageOf_toNat]
  cases c <;> simp only [sizeBytes] <;> omega

theorem pageOf_good {c : SizeClass} {va : Word} (h : CanonicalAddress va) :
    GoodPage c (pageOf c va) :=
  ⟨(pageOf_canonical_iff c va).2 h, by rw [pageOf_toNat, Nat.mul_mod_left]⟩

/-- From the terminal level up, the page has the table indices of the address. -/
theorem index_pageOf {c : SizeClass} {l : Nat} (hl : terminalLevel c ≤ l) (va : Word) :
    index l (pageOf c va) = index l va := by
  have hpow : (2 : Nat) ^ (12 + 9 * (l - 1)) =
      sizeBytes c * 2 ^ (9 * (l - terminalLevel c)) := by
    have := terminalLevel_pos c
    rw [sizeBytes_eq, ← Nat.pow_add]
    congr 1; omega
  apply BitVec.eq_of_toNat_eq
  rw [index, index, BitVec.extractLsb'_toNat, BitVec.extractLsb'_toNat,
    Nat.shiftRight_eq_div_pow, Nat.shiftRight_eq_div_pow, pageOf_toNat, hpow,
    ← Nat.div_div_eq_div_mul, ← Nat.div_div_eq_div_mul, Nat.mul_div_cancel _ (sizeBytes_pos c)]

/-- Addresses with the same table indices from level `m` up reach the same tables down to it. -/
theorem Reaches.of_index {s : State} {va va' : Word} {m : Nat}
    (hi : ∀ k, m ≤ k → index k va' = index k va) {l : Nat} {t : Word} (h : Reaches s va l t)
    (hl : m ≤ l) : Reaches s va' l t := by
  induction h with
  | root => exact .root
  | @down l t above low adm pres small ih =>
    have hpa : entryPa (l + 1) va' t = entryPa (l + 1) va t := by
      rw [entryPa, entryPa, hi _ (by omega)]
    unfold State.entryAdmitted State.entryAt at *
    rw [← hpa] at adm pres small ⊢
    exact .down (ih (by omega)) low adm pres small

theorem State.WalkReads.of_index {s : State} {va va' : Word} {l : Nat} {e : Word}
    (h : s.WalkReads va l e) (hi : ∀ k, l ≤ k → index k va' = index k va) :
    s.WalkReads va' l e := by
  obtain ⟨t, ht, ha, rfl⟩ := h
  have hpa : entryPa l va' t = entryPa l va t := by rw [entryPa, entryPa, hi _ le_rfl]
  refine ⟨t, ht.of_index hi le_rfl, ?_, ?_⟩
  · unfold State.entryAdmitted at *; rwa [hpa]
  · rw [State.entryAt, State.entryAt, hpa]

/-- The page has the leaf that the address has. -/
theorem State.leafAt_pageOf {s : State} {va : Word} {c : SizeClass} {e : Word} :
    s.LeafAt (pageOf c va) c e ↔ s.LeafAt va c e := by
  constructor
  · exact And.imp_left fun h => h.of_index fun k hk => (index_pageOf hk va).symm
  · exact And.imp_left fun h => h.of_index fun k hk => index_pageOf hk va

/-- A leaf depends on memory, the root and the admitted regions only. -/
theorem State.LeafAt.congr {s s' : State} {va : Word} {c : SizeClass} {e : Word}
    (h : s.LeafAt va c e) (hm : s'.mem = s.mem) (ha : s'.admitted = s.admitted)
    (hr : s'.root = s.root) : s'.LeafAt va c e := by
  obtain ⟨⟨t, ht, hadm, he⟩, hleaf⟩ := h
  refine ⟨⟨t, ht.congr hm ha hr, ?_, ?_⟩, hleaf⟩
  · unfold State.entryAdmitted State.admits at *; rwa [ha]
  · rwa [State.entryAt, hm]

theorem State.leafAt_arg0_iff (s : State) (x : Word) {va : Word} {c : SizeClass} {e : Word} :
    ({ s with arg0 := x } : State).LeafAt va c e ↔ s.LeafAt va c e :=
  ⟨fun h => h.congr rfl rfl rfl, fun h => h.congr rfl rfl rfl⟩

/-! ### Answers that tell of a leaf -/

/-- The status is OK or INVALID_FRAME_ADDR. -/
def State.FindsLeaf (t : State) : Prop := t.status = 0x00 ∨ t.status = 0x08

@[simp] theorem finish_findsLeaf (s : State) (st : Status) (r0 r1 r2 r3 r4 : Word) :
    (s.finish st r0 r1 r2 r3 r4).FindsLeaf ↔ st = .ok ∨ st = .invalidFrameAddr := by
  rw [State.FindsLeaf, finish_status]
  cases st <;> decide

@[simp] theorem takeFault_findsLeaf (s : State) (cause : FaultCause) :
    ¬(s.takeFault cause).FindsLeaf := by
  rw [State.FindsLeaf, takeFault_status]
  decide

theorem withRoot_findsLeaf {s k : State} (h : (withRoot s k).FindsLeaf) :
    s.rv = true ∧ k.FindsLeaf := by
  cases hr : s.rv with
  | false => simp [withRoot_fail hr] at h
  | true => rw [withRoot_pass hr] at h; exact ⟨rfl, h⟩

theorem checkCanonical_findsLeaf {s k : State} {v : Word}
    (h : (checkCanonical s v k).FindsLeaf) : CanonicalAddress v ∧ k.FindsLeaf := by
  by_cases hc : CanonicalAddress v
  · rw [checkCanonical_pass hc] at h; exact ⟨hc, h⟩
  · simp [checkCanonical_fail hc] at h

theorem checkVaAligned_findsLeaf {s k : State} {c : SizeClass} {v : Word}
    (h : (checkVaAligned s c v k).FindsLeaf) : v.toNat % sizeBytes c = 0 ∧ k.FindsLeaf := by
  by_cases ha : v.toNat % sizeBytes c = 0
  · rw [checkVaAligned_pass ha] at h; exact ⟨ha, h⟩
  · simp [checkVaAligned_fail ha] at h

theorem translateTerminal_findsLeaf {c : SizeClass} {e : Word} {s : State}
    (h : (translateTerminal c e s).FindsLeaf) : isPresent e = true ∧ classMatch c e = true := by
  rw [translateTerminal] at h
  rcases decodeEntry_cases (terminalLevel c) e with
    ⟨-, hd⟩ | ⟨-, -, -, -, hd⟩ | ⟨hp, c', hl, hm, -⟩ | ⟨-, -, -, hd⟩
  · simp [hd] at h
  · simp [hd] at h
  · exact ⟨hp, terminalLevel_injective hl ▸ hm⟩
  · simp [hd] at h

/-- TRANSLATE_PAGE.S tells of a leaf only where its walk reads one. -/
theorem translatePageBody_findsLeaf {c : SizeClass} {s : State} (hv : s.views = [])
    (h : (translatePageBody c s).FindsLeaf) :
    s.rv = true ∧ CanonicalAddress s.arg0 ∧ ∃ e, s.LeafAt s.arg0 c e := by
  rw [translatePageBody_eq] at h
  obtain ⟨hr, h⟩ := withRoot_findsLeaf h
  obtain ⟨hc, h⟩ := checkCanonical_findsLeaf h
  obtain ⟨-, h⟩ := checkVaAligned_findsLeaf h
  refine ⟨hr, hc, ?_⟩
  rcases walk_cases_of_views hv s.arg0 c with ⟨w, s', -, hw, -, -, -, hsays⟩ | ⟨s', -, hw, -⟩
  · rw [hw, Port.run_ok] at h
    cases w with
    | absent l => simp [translatePageEnd] at h
    | malformed l e => simp [translatePageEnd] at h
    | hugeAbove l e => simp [translatePageEnd] at h
    | terminal ea e =>
      obtain ⟨t, ht, hadm, -, he⟩ := hsays
      exact ⟨e, ⟨t, ht, hadm, he⟩, translateTerminal_findsLeaf h⟩
  · simp [hw] at h

/-- TRANSLATE tells of a leaf only where its walk reads one. -/
theorem translateBody_findsLeaf {done : State → SizeClass → Word → Word → Word → State} {s : State}
    (hv : s.views = []) (h : (translateBody done s).FindsLeaf) :
    s.rv = true ∧ CanonicalAddress s.arg0 ∧ ∃ c e, s.LeafAt s.arg0 c e := by
  rw [translateBody_eq] at h
  obtain ⟨hr, h⟩ := withRoot_findsLeaf h
  obtain ⟨hc, h⟩ := checkCanonical_findsLeaf h
  refine ⟨hr, hc, ?_⟩
  rcases walkAny_cases_of_views hv s.arg0 with ⟨w, s', -, hw, -, -, -, hsays⟩ | ⟨s', -, hw, -⟩
  · rw [hw, Port.run_ok] at h
    cases w with
    | absent l => simp [translateEnd] at h
    | malformed l e => simp [translateEnd] at h
    | leaf c a e =>
      obtain ⟨hw, hp, hm, -⟩ := hsays
      exact ⟨c, e, hw, hp, hm⟩
  · simp [hw] at h

theorem exec_findsLeaf {i : Instr} {s t : State} (h : exec i s = .next t) (ht : t.FindsLeaf) :
    s.flt = false ∧ t = bodyOf i s := by
  rw [exec_eq_command] at h
  cases hf : s.flt with
  | true =>
    rw [command_of_flt hf] at h
    cases h
    simp at ht
  | false =>
    rw [command_of_not_flt hf] at h
    cases h
    exact ⟨rfl, rfl⟩

/-! ### TRANSLATE and TRANSLATE_PAGE -/

/-- The walk of a command on `va` may start, and ends in the leaf `e` of class `c`. -/
def State.Finds (s : State) (va : Word) (c : SizeClass) (e : Word) : Prop :=
  s.flt = false ∧ s.rv = true ∧ CanonicalAddress va ∧ s.LeafAt va c e

/-- TRANSLATE_PAGE.S of the page that holds `va` tells of a leaf only where `va` has one. -/
theorem translatePage_finds {c : SizeClass} {s u : State} {va : Word} (hv : s.views = [])
    (hx : exec (Instr.translatePage c) { s with arg0 := pageOf c va } = .next u)
    (hu : u.FindsLeaf) : ∃ e, s.Finds va c e := by
  obtain ⟨hf, rfl⟩ := exec_findsLeaf hx hu
  rw [bodyOf_translatePage] at hu
  obtain ⟨hr, hc, e, he⟩ := translatePageBody_findsLeaf (s := { s with arg0 := pageOf c va }) hv hu
  exact ⟨e, hf, hr, (pageOf_canonical_iff c va).1 hc,
    State.leafAt_pageOf.1 ((s.leafAt_arg0_iff _).1 he)⟩

/-- TRANSLATE of `va` tells of a leaf only where `va` has one. -/
theorem translate_finds {s t : State} {va : Word} (hv : s.views = [])
    (hx : exec .translate { s with arg0 := va } = .next t) (ht : t.FindsLeaf) :
    ∃ c e, s.Finds va c e := by
  obtain ⟨hf, rfl⟩ := exec_findsLeaf hx ht
  obtain ⟨hr, hc, c, e, he⟩ := translateBody_findsLeaf (s := { s with arg0 := va }) hv ht
  exact ⟨c, e, hf, hr, hc, (s.leafAt_arg0_iff va).1 he⟩

section
variable {c : SizeClass} {s : State} {va e : Word}

/-- What TRANSLATE_PAGE.S answers for the page that holds an address with a leaf of the class. -/
theorem State.Finds.translatePage {u : State} (h : s.Finds va c e) (hv : s.views = [])
    (hx : exec (Instr.translatePage c) { s with arg0 := pageOf c va } = .next u) :
    ((entryAddr e).toNat % sizeBytes c = 0 → u.status = 0x00 ∧ u.res0 = entryAddr e ∧
      u.res3 = codeWord c ∧ u.res4 = entryFlags e) ∧
    ((entryAddr e).toNat % sizeBytes c ≠ 0 → u.status = 0x08 ∧ u.res0 = entryAddr e) := by
  obtain ⟨hf, hr, hc, hleaf⟩ := h
  obtain ⟨⟨t, ht, hadm, he⟩, hp, hm⟩ := (s.leafAt_arg0_iff _).2 (State.leafAt_pageOf.2 hleaf)
  obtain ⟨hal, hmis⟩ := translatePageOfMappedPage c { s with arg0 := pageOf c va } t e _
    hf hr hv (pageOf_good hc) ht hadm he hp ((classMatch_iff c e).1 hm) rfl
  rw [hx] at hal hmis
  refine ⟨fun ha => ?_, fun ha => ?_⟩
  · obtain ⟨ps, hu⟩ := hal ha
    cases hu
    exact ⟨rfl, rfl, rfl, rfl⟩
  · obtain ⟨ps, hu⟩ := hmis ha
    cases hu
    exact ⟨rfl, rfl⟩

/-- What TRANSLATE answers for an address with a leaf. -/
theorem State.Finds.translate {t : State} (h : s.Finds va c e) (hv : s.views = [])
    (hx : exec .translate { s with arg0 := va } = .next t) :
    ((entryAddr e).toNat % sizeBytes c = 0 → t.status = 0x00 ∧ t.res1 = entryAddr e ∧
      t.res3 = codeWord c ∧ t.res4 = entryFlags e ∧
      t.res0.toNat = (entryAddr e).toNat + va.toNat % sizeBytes c ∧
      t.res2.toNat = va.toNat % sizeBytes c) ∧
    ((entryAddr e).toNat % sizeBytes c ≠ 0 → t.status = 0x08 ∧ t.res0 = entryAddr e) := by
  obtain ⟨hf, hr, hc, hleaf⟩ := h
  obtain ⟨hw, hp, hm⟩ := (s.leafAt_arg0_iff va).2 hleaf
  obtain ⟨hal, hmis⟩ := translateOfMappedAddress c { s with arg0 := va } e _ (va &&& offsetMask c)
    hf hr hv hc hw hp ((classMatch_iff c e).1 hm) rfl (offset_toNat c va)
  rw [hx] at hal hmis
  refine ⟨fun ha => ?_, fun ha => ?_⟩
  · obtain ⟨hsum, -, ⟨ps, ht⟩, -⟩ := hal ha
    cases ht
    exact ⟨rfl, rfl, rfl, rfl, hsum.trans (congrArg _ (offset_toNat c va)), offset_toNat c va⟩
  · obtain ⟨⟨ps, ht⟩, -⟩ := hmis ha
    cases ht
    exact ⟨rfl, rfl⟩

end

/-- Settles O29: both commands answer by the one leaf of the address. -/
theorem translateAgreesWithTranslatePage : Obligations.TranslateAgreesWithTranslatePage := by
  intro s t va u hv ht hu
  refine ⟨fun c c' h h' => ?_, fun c h => ?_, fun c h => ?_, fun h => ?_⟩
  · obtain ⟨e, -, -, -, he⟩ := translatePage_finds hv (hu c) h
    obtain ⟨e', -, -, -, he'⟩ := translatePage_finds hv (hu c') h'
    exact (he.unique hv he').1
  · obtain ⟨e, he⟩ := translatePage_finds hv (hu c) (.inl h)
    obtain ⟨hal, hmis⟩ := he.translatePage hv (hu c)
    by_cases ha : (entryAddr e).toNat % sizeBytes c = 0
    · obtain ⟨-, hframe, hcode, hflags⟩ := hal ha
      obtain ⟨hst, h1, h3, h4, h0, h2⟩ := (he.translate hv ht).1 ha
      rw [hframe, hcode, hflags]
      exact ⟨hst, h1, h3, h4, h0, h2⟩
    · rw [(hmis ha).1] at h
      cases h
  · obtain ⟨e, he⟩ := translatePage_finds hv (hu c) (.inr h)
    obtain ⟨hal, hmis⟩ := he.translatePage hv (hu c)
    by_cases ha : (entryAddr e).toNat % sizeBytes c = 0
    · rw [(hal ha).1] at h
      cases h
    · rw [(hmis ha).2]
      exact (he.translate hv ht).2 ha
  · obtain ⟨c, e, he⟩ := translate_finds hv ht h
    refine ⟨c, ?_⟩
    by_cases ha : (entryAddr e).toNat % sizeBytes c = 0
    · exact ((he.translatePage hv (hu c)).1 ha).1.trans ((he.translate hv ht).1 ha).1.symm
    · exact ((he.translatePage hv (hu c)).2 ha).1.trans ((he.translate hv ht).2 ha).1.symm

end Sys2Proof.Machine
end

section
/-! The checks of the mapper commands (43_mapper.md R190, R197): their bodies check by check, and
what each check answers in its turn. -/

namespace Sys2Proof.Machine

/-! ### The bodies of the mapper commands -/

@[simp] theorem bodyOf_mapTo (c : SizeClass) : bodyOf (Instr.mapTo c) = mapToBody c := by
  cases c <;> rfl

@[simp] theorem bodyOf_identityMap (c : SizeClass) :
    bodyOf (Instr.identityMap c) = identityMapBody c := by cases c <;> rfl

@[simp] theorem bodyOf_unmap (c : SizeClass) : bodyOf (Instr.unmap c) = unmapBody c := by
  cases c <;> rfl

@[simp] theorem bodyOf_updateFlags (c : SizeClass) :
    bodyOf (Instr.updateFlags c) = updateFlagsBody c := by cases c <;> rfl

/-- What UNMAP.S answers for the outcome of its walk (43_mapper.md R198). -/
def unmapEnd (c : SizeClass) (va : Word) (w : WalkEnd) (s : State) : State :=
  match w with
  | .absent l => s.raise .notMapped (levelWord l)
  | .hugeAbove l _ => s.raise .sizeMismatch (levelWord l)
  | .malformed l _ => s.raise .sizeMismatch (levelWord l)
  | .terminal ea e => unmapTerminal c va ea e s

/-- What UPDATE_FLAGS.S answers for the outcome of its walk (43_mapper.md R199). -/
def updateFlagsEnd (c : SizeClass) (va f : Word) (w : WalkEnd) (s : State) : State :=
  match w with
  | .absent l => s.raise .notMapped (levelWord l)
  | .hugeAbove l _ => s.raise .notMapped (levelWord l)
  | .malformed l _ => s.raise .notMapped (levelWord l)
  | .terminal ea e => updateTerminal c va f ea e s

theorem unmapBody_eq (c : SizeClass) (s : State) :
    unmapBody c s = mapperReady s (checkPage s c s.arg0
      ((walk s.arg0 c s).run (unmapEnd c s.arg0))) := by
  refine congrArg (fun k => mapperReady s (checkPage s c s.arg0 ((walk s.arg0 c s).run k))) ?_
  funext w s'; cases w <;> rfl

theorem updateFlagsBody_eq (c : SizeClass) (s : State) :
    updateFlagsBody c s = mapperReady s (checkPage s c s.arg0 (checkFlags s c s.arg2
      ((walk s.arg0 c s).run (updateFlagsEnd c s.arg0 s.arg2)))) := by
  refine congrArg (fun k => mapperReady s (checkPage s c s.arg0 (checkFlags s c s.arg2
    ((walk s.arg0 c s).run k)))) ?_
  funext w s'; cases w <;> rfl

/-! ### The checks, in their order -/

section
variable {c : SizeClass} {s : State}

theorem mapToBody_of_operands (hr : s.rv = true) (ht : s.tv = false) (hp : GoodPage c s.arg0)
    (hf : GoodFrame c s.arg1) :
    mapToBody c s = checkFlags s c s.arg2 (mapPhases c s.arg0 s.arg1 s.arg2 s) :=
  (mapperReady_pass hr ht).trans ((checkPage_pass hp).trans (checkFrame_pass hf))

theorem identityMapBody_of_frame (hr : s.rv = true) (ht : s.tv = false)
    (hf : GoodFrame c s.arg1) :
    identityMapBody c s =
      checkCanonical s s.arg1 (checkFlags s c s.arg2 (mapPhases c s.arg1 s.arg1 s.arg2 s)) :=
  (mapperReady_pass hr ht).trans (checkFrame_pass hf)

theorem identityMapBody_of_operands (hr : s.rv = true) (ht : s.tv = false)
    (hf : GoodFrame c s.arg1) (hlow : s.arg1.toNat < 2 ^ 47) :
    identityMapBody c s = checkFlags s c s.arg2 (mapPhases c s.arg1 s.arg1 s.arg2 s) :=
  (identityMapBody_of_frame hr ht hf).trans (checkCanonical_pass (.inl hlow))

theorem updateFlagsBody_of_page (hr : s.rv = true) (ht : s.tv = false)
    (hp : GoodPage c s.arg0) :
    updateFlagsBody c s = checkFlags s c s.arg2
      ((walk s.arg0 c s).run (updateFlagsEnd c s.arg0 s.arg2)) := by
  rw [updateFlagsBody_eq, mapperReady_pass hr ht, checkPage_pass hp]

theorem unmapBody_of_page (hr : s.rv = true) (ht : s.tv = false) (hp : GoodPage c s.arg0) :
    unmapBody c s = (walk s.arg0 c s).run (unmapEnd c s.arg0) := by
  rw [unmapBody_eq, mapperReady_pass hr ht, checkPage_pass hp]

end

/-- Every mapper command first asks for a root and for no token. -/
theorem bodyOf_mutates {i : Instr} (h : Mutates i) (s : State) :
    ∃ k, bodyOf i s = mapperReady s k := by
  obtain ⟨c, rfl | rfl | rfl | rfl⟩ := h
  · rw [bodyOf_mapTo]; exact ⟨_, rfl⟩
  · rw [bodyOf_identityMap]; exact ⟨_, rfl⟩
  · rw [bodyOf_unmap]; exact ⟨_, rfl⟩
  · rw [bodyOf_updateFlags]; exact ⟨_, rfl⟩

/-- The commands with a page in ARG0 then check it. -/
theorem bodyOf_checksPage {i : Instr} {c : SizeClass} {s : State}
    (h : i = Instr.mapTo c ∨ i = Instr.unmap c ∨ i = Instr.updateFlags c) (hr : s.rv = true)
    (ht : s.tv = false) : ∃ k, bodyOf i s = checkPage s c s.arg0 k := by
  rcases h with rfl | rfl | rfl
  · rw [bodyOf_mapTo]; exact ⟨_, mapperReady_pass hr ht⟩
  · rw [bodyOf_unmap]; exact ⟨_, mapperReady_pass hr ht⟩
  · rw [bodyOf_updateFlags]; exact ⟨_, mapperReady_pass hr ht⟩

/-- The commands with a frame in ARG1 check it next; IDENTITY_MAP has no page in ARG0. -/
theorem bodyOf_checksFrame {i : Instr} {c : SizeClass} {s : State}
    (h : (i = Instr.mapTo c ∧ GoodPage c s.arg0) ∨ i = Instr.identityMap c) (hr : s.rv = true)
    (ht : s.tv = false) :
    ∃ k, bodyOf i s = checkPhysical s s.arg1 (checkPaAligned s c s.arg1 k) := by
  rcases h with ⟨rfl, hp⟩ | rfl
  · rw [bodyOf_mapTo]; exact ⟨_, (mapperReady_pass hr ht).trans (checkPage_pass hp)⟩
  · rw [bodyOf_identityMap]; exact ⟨_, mapperReady_pass hr ht⟩

/-- The commands with flags in ARG2 check them last. -/
theorem bodyOf_checksFlags {i : Instr} {c : SizeClass} {s : State}
    (h : (i = Instr.mapTo c ∧ GoodPage c s.arg0 ∧ GoodFrame c s.arg1) ∨
      (i = Instr.identityMap c ∧ GoodFrame c s.arg1 ∧ s.arg1.toNat < 2 ^ 47) ∨
      (i = Instr.updateFlags c ∧ GoodPage c s.arg0)) (hr : s.rv = true) (ht : s.tv = false) :
    ∃ k, bodyOf i s = checkFlags s c s.arg2 k := by
  rcases h with ⟨rfl, hp, hf⟩ | ⟨rfl, hf, hlow⟩ | ⟨rfl, hp⟩
  · rw [bodyOf_mapTo]; exact ⟨_, mapToBody_of_operands hr ht hp hf⟩
  · rw [bodyOf_identityMap]; exact ⟨_, identityMapBody_of_operands hr ht hf hlow⟩
  · rw [bodyOf_updateFlags]; exact ⟨_, updateFlagsBody_of_page hr ht hp⟩

/-- A physical address from 2^47 on lies between the halves of the canonical addresses. -/
theorem not_canonical_of_physical {v : Word} (hp : PhysicalAddress v) (h : 2 ^ 47 ≤ v.toNat) :
    ¬CanonicalAddress v := by
  unfold PhysicalAddress at hp
  unfold CanonicalAddress
  omega

/-- Settles O32: after the checks that pass, each body begins with the check that fails. -/
theorem mapperChecksInOrder : Obligations.MapperChecksInOrder := by
  refine ⟨fun i s hi hf => ?_, fun i c s hi hf hr ht => ?_, fun i c s hi hf hr ht => ?_,
    fun c s hf hr ht hframe hhigh => ?_, fun i c s hi hf hr ht => ?_⟩ <;>
    rw [exec_eq_next_bodyOf hf]
  · obtain ⟨k, hk⟩ := bodyOf_mutates hi s
    rw [hk, mapperReady]
    exact ⟨fun hr => congrArg _ (withRoot_fail hr),
      fun hr ht => congrArg _ ((withRoot_pass hr).trans (withoutToken_fail ht))⟩
  · obtain ⟨k, hk⟩ := bodyOf_checksPage hi hr ht
    rw [hk, checkPage]
    exact ⟨fun hc => congrArg _ (checkCanonical_answered hc _),
      fun hc ha => congrArg _ ((checkCanonical_pass hc).trans (checkVaAligned_fail ha))⟩
  · obtain ⟨k, hk⟩ := bodyOf_checksFrame hi hr ht
    rw [hk]
    exact ⟨fun hp => congrArg _ (checkPhysical_answered hp _),
      fun hp ha => congrArg _ ((checkPhysical_pass hp).trans (checkPaAligned_answered ha _))⟩
  · rw [bodyOf_identityMap, identityMapBody_of_frame hr ht hframe,
      checkCanonical_answered (not_canonical_of_physical hframe.1 hhigh)]
  · obtain ⟨k, hk⟩ := bodyOf_checksFlags hi hr ht
    rw [hk]
    refine ⟨fun ha => congrArg _ (checkFlags_address ha _), ?_⟩
    rintro ha rfl hh
    exact congrArg _ (checkFlags_huge4K ha hh _)

end Sys2Proof.Machine
end

section
/-! UNMAP and UPDATE_FLAGS (43_mapper.md R198 to R200): what they do with the terminal entry, what
they refuse by the place where the walk stops, the bytes they leave, and what TRANSLATE_PAGE answers
after UNMAP. -/

namespace Sys2Proof.Machine

/-! ### The walk of UNMAP and UPDATE_FLAGS -/

/-- The state lets a mapper command start: no fault, a root, no token, and no write that races with
it. -/
structure State.MayMutate (s : State) : Prop extends s.Ready where
  noToken : s.tv = false

section
variable {c : SizeClass} {s u : State} {va : Word} {k : WalkEnd → State → State}

/-- The walk's outcome decides. -/
theorem walkRun_of_walk {w : WalkEnd}
    (hw : ∃ s' pas, ReadsOnly s s' pas ∧ walk va c s = .ok w s')
    (hu : ∀ s' pas, ReadsOnly s s' pas → SameButPorts u (k w s')) :
    SameButPorts u ((walk va c s).run k) := by
  obtain ⟨s', pas, hs, hw⟩ := hw
  rw [hw]
  exact hu s' pas hs

theorem walkRun_of_refused (hv : s.views = []) (hr : s.Refused va (terminalLevel c)) :
    SameButPorts (s.faultedWith 0x01) ((walk va c s).run k) := by
  obtain ⟨s', pas, hs, hw⟩ := walk_of_refused hv hr
  rw [hw]
  exact hs.takeFault_same hv

/-- An absent entry at the terminal level or above it, where both answer NOT_MAPPED. -/
theorem walkRun_absent {l : Nat} {e : Word} (hv : s.views = []) (hl : terminalLevel c ≤ l)
    (hr : s.WalkReads va l e) (hp : isPresent e = false)
    (habove : ∀ s', k (.absent l) s' = s'.raise .notMapped (levelWord l))
    (hterminal : ∀ ea s', k (.terminal ea e) s' =
      s'.raise .notMapped (levelWord (terminalLevel c))) :
    SameButPorts (s.answered 0x03 (levelWord l) 0 0 0 0) ((walk va c s).run k) := by
  rcases Nat.lt_or_eq_of_le hl with hlt | rfl
  · refine walkRun_of_walk (walk_of_absent hv hlt hr hp) fun s' pas hs => ?_
    rw [habove]
    exact hs.finish_same hv .notMapped _ _ _ _ _
  · obtain ⟨t, ht, ha, rfl⟩ := hr
    refine walkRun_of_walk (walk_of_terminal hv ht ha) fun s' pas hs => ?_
    rw [hterminal]
    exact hs.finish_same hv .notMapped _ _ _ _ _

/-- A huge entry above the terminal level, which both answer with one status at every level. -/
theorem walkRun_huge {l : Nat} {e : Word} {st : Status} (hv : s.views = [])
    (hl : terminalLevel c < l) (hr : s.WalkReads va l e) (hp : isPresent e = true)
    (hh : isHuge e = true) (hmalformed : ∀ s', k (.malformed l e) s' = s'.raise st (levelWord l))
    (hhuge : ∀ s', k (.hugeAbove l e) s' = s'.raise st (levelWord l)) :
    SameButPorts (s.answered st.code (levelWord l) 0 0 0 0) ((walk va c s).run k) := by
  refine walkRun_of_walk (walk_of_huge hv hl hr hp hh) fun s' pas hs => ?_
  split
  · rw [hmalformed]; exact hs.finish_same hv st _ _ _ _ _
  · rw [hhuge]; exact hs.finish_same hv st _ _ _ _ _

end

/-- The store of a terminal entry after reads, its token and its completion. -/
theorem ReadsOnly.stored_same {s s' : State} {pas : List Nat} (h : ReadsOnly s s' pas)
    (hv : s.views = []) (pa : Nat) (v : Word) (c : SizeClass) (va r0 : Word) :
    SameButPorts (s.mutated (s.mem.write64 pa v) c va r0 0)
      (((s'.storeWord pa v).issueToken c va).finish .ok r0 0 0 0 0) := by
  rw [h.ports_eq hv]
  exact ⟨_, rfl⟩

/-- The same for the write on the port, where the read was admitted. -/
theorem ReadsOnly.memWrite_same {s s' : State} {pas : List Nat} {pa : Nat}
    (h : ReadsOnly s s' pas) (hv : s.views = []) (ha : s.admits pa 8 = true) (v : Word)
    (c : SizeClass) (va r0 : Word) :
    SameButPorts (s.mutated (s.mem.write64 pa v) c va r0 0)
      ((memWrite pa v s').run fun _ s'' => (s''.issueToken c va).complete r0 0 0 0 0) := by
  rw [memWrite_of_admits v ((h.admits_eq pa 8).trans ha)]
  exact h.stored_same hv pa v c va r0

/-! ### The terminal entry -/

theorem classMatch_false_iff (c : SizeClass) (e : Word) :
    classMatch c e = false ↔ isHuge e ≠ decide (c ≠ .s4K) := by
  rw [← Bool.not_eq_true, classMatch_iff]

section
variable {c : SizeClass} {e : Word} (va : Word) (ea : Nat) (s : State)

theorem unmapTerminal_absent (hp : isPresent e = false) :
    unmapTerminal c va ea e s = s.raise .notMapped (levelWord (terminalLevel c)) := by
  simp [unmapTerminal, hp]

theorem unmapTerminal_mismatch (hp : isPresent e = true) (hm : classMatch c e = false) :
    unmapTerminal c va ea e s = s.raise .sizeMismatch (levelWord (terminalLevel c)) := by
  simp [unmapTerminal, hp, hm]

theorem unmapTerminal_misaligned (hp : isPresent e = true) (hm : classMatch c e = true)
    (ha : (entryAddr e).toNat % sizeBytes c ≠ 0) :
    unmapTerminal c va ea e s = s.raise .invalidFrameAddr (entryAddr e) := by
  simp [unmapTerminal, hp, hm, mt (alignedTo_iff c (entryAddr e)).1 ha]

theorem unmapTerminal_leaf (hp : isPresent e = true) (hm : classMatch c e = true)
    (ha : (entryAddr e).toNat % sizeBytes c = 0) :
    unmapTerminal c va ea e s =
      (memWrite ea 0 s).run fun _ s' => (s'.issueToken c va).complete (entryAddr e) 0 0 0 0 := by
  simp only [unmapTerminal, hp, hm, (alignedTo_iff c (entryAddr e)).2 ha]
  rfl

theorem updateTerminal_refused (f : Word) (h : isPresent e = false ∨ classMatch c e = false) :
    updateTerminal c va f ea e s = s.raise .notMapped (levelWord (terminalLevel c)) := by
  rw [updateTerminal, if_pos]
  rcases h with h | h <;> simp [h]

theorem updateTerminal_leaf (f : Word) (hp : isPresent e = true) (hm : classMatch c e = true) :
    updateTerminal c va f ea e s =
      (memWrite ea (leafEntry c (entryAddr e) f) s).run fun _ s' =>
        (s'.issueToken c va).complete (leafEntry c (entryAddr e) f) 0 0 0 0 := by
  simp only [updateTerminal, hp, hm]
  rfl

end

/-! ### UNMAP -/

section
variable {c : SizeClass} {s : State}

/-- UNMAP.S, where its checks pass, ends as its walk does. -/
theorem State.MayMutate.exec_unmap {u : State} (h : s.MayMutate) (hp : GoodPage c s.arg0)
    (hu : SameButPorts u ((walk s.arg0 c s).run (unmapEnd c s.arg0))) :
    ∃ ps, exec (Instr.unmap c) s = .next { u with ports := ps } := by
  refine SameButPorts.exec ?_ h.noFault
  rwa [bodyOf_unmap, unmapBody_of_page h.hasRoot h.noToken hp]

/-- UNMAP.S leaves the answer to the terminal entry, where its walk reads one. -/
theorem unmapRun_of_terminal {u : State} {e : Word} (hv : s.views = [])
    (hr : s.WalkReads s.arg0 (terminalLevel c) e)
    (hu : ∀ s' pas ea, ReadsOnly s s' pas → SameButPorts u (unmapTerminal c s.arg0 ea e s')) :
    SameButPorts u ((walk s.arg0 c s).run (unmapEnd c s.arg0)) := by
  obtain ⟨t, ht, ha, rfl⟩ := hr
  exact walkRun_of_walk (walk_of_terminal hv ht ha) fun s' pas hs => hu s' pas _ hs

end

/-- Settles O38: the walk ends at an aligned leaf of the class, and the read that was admitted
admits the write. -/
theorem unmapClearsTheEntry : Obligations.UnmapClearsTheEntry := by
  rintro c s t _ _ hf hr htv hv hp ht hadm rfl hpr hh rfl ha
  have hs : s.MayMutate := ⟨⟨hf, hr, hv⟩, htv⟩
  refine hs.exec_unmap hp (walkRun_of_walk (walk_of_terminal hv ht hadm) fun s' pas hs' => ?_)
  rw [unmapEnd, unmapTerminal_leaf _ _ _ hpr ((classMatch_iff c _).2 hh) ha]
  exact hs'.memWrite_same hv hadm 0 c s.arg0 _

/-- Settles O39: by the level and the entry at which the walk stops. -/
theorem unmapRefusals : Obligations.UnmapRefusals := by
  intro c s hf hr htv hv hp
  have hs : s.MayMutate := ⟨⟨hf, hr, hv⟩, htv⟩
  refine ⟨fun l e hl hw hpr => hs.exec_unmap hp ?_, fun l e hl hw hpr hh => hs.exec_unmap hp ?_,
    fun e hw hpr hh => hs.exec_unmap hp ?_, ?_,
    fun l t hl ht hn => hs.exec_unmap hp (walkRun_of_refused hv ⟨l, t, hl, ht, hn⟩)⟩
  · exact walkRun_absent hv hl hw hpr (fun _ => rfl) fun ea s' => unmapTerminal_absent _ ea s' hpr
  · exact walkRun_huge (st := .sizeMismatch) hv hl hw hpr hh (fun _ => rfl) fun _ => rfl
  · refine unmapRun_of_terminal hv hw fun s' pas ea hs' => ?_
    rw [unmapTerminal_mismatch _ _ _ hpr ((classMatch_false_iff c e).2 hh)]
    exact hs'.finish_same hv .sizeMismatch _ _ _ _ _
  · rintro e _ hw hpr hh rfl ha
    refine hs.exec_unmap hp (unmapRun_of_terminal hv hw fun s' pas ea hs' => ?_)
    rw [unmapTerminal_misaligned _ _ _ hpr ((classMatch_iff c e).2 hh) ha]
    exact hs'.finish_same hv .invalidFrameAddr _ _ _ _ _

/-! ### UPDATE_FLAGS -/

/-- UPDATE_FLAGS.S, where its checks pass, ends as its walk does. -/
theorem State.MayMutate.exec_updateFlags {c : SizeClass} {s u : State} (h : s.MayMutate)
    (hp : GoodPage c s.arg0) (hf : GoodFlags c s.arg2)
    (hu : SameButPorts u ((walk s.arg0 c s).run (updateFlagsEnd c s.arg0 s.arg2))) :
    ∃ ps, exec (Instr.updateFlags c) s = .next { u with ports := ps } := by
  refine SameButPorts.exec ?_ h.noFault
  rwa [bodyOf_updateFlags, updateFlagsBody_of_page h.hasRoot h.noToken hp, checkFlags_pass hf]

/-- Settles O40: the walk ends at a leaf of the class, and the read that was admitted admits the
write. -/
theorem updateFlagsReplacesFlags : Obligations.UpdateFlagsReplacesFlags := by
  rintro c s t _ _ hf hr htv hv hp hfl ht hadm rfl hpr hh rfl
  have hs : s.MayMutate := ⟨⟨hf, hr, hv⟩, htv⟩
  refine hs.exec_updateFlags hp hfl
    (walkRun_of_walk (walk_of_terminal hv ht hadm) fun s' pas hs' => ?_)
  rw [updateFlagsEnd, updateTerminal_leaf _ _ _ _ hpr ((classMatch_iff c _).2 hh), leafEntry_eq]
  exact hs'.memWrite_same hv hadm _ c s.arg0 _

/-- Settles O41: by the level and the entry at which the walk stops. -/
theorem updateFlagsRefusals : Obligations.UpdateFlagsRefusals := by
  intro c s hf hr htv hv hp hfl
  have hs : s.MayMutate := ⟨⟨hf, hr, hv⟩, htv⟩
  refine ⟨fun l e hl hw hstop => hs.exec_updateFlags hp hfl ?_,
    fun l t hl ht hn => hs.exec_updateFlags hp hfl (walkRun_of_refused hv ⟨l, t, hl, ht, hn⟩)⟩
  have habsent (hpr : isPresent e = false) :=
    walkRun_absent (k := updateFlagsEnd c s.arg0 s.arg2) hv hl hw hpr (fun _ => rfl)
      fun ea s' => updateTerminal_refused _ ea s' _ (.inl hpr)
  rcases hstop with hpr | ⟨hlt, hh⟩ | ⟨rfl, hh⟩
  · exact habsent hpr
  · cases hpr : isPresent e with
    | false => exact habsent hpr
    | true => exact walkRun_huge (st := .notMapped) hv hlt hw hpr hh (fun _ => rfl) fun _ => rfl
  · obtain ⟨t, ht, hadm, rfl⟩ := hw
    refine walkRun_of_walk (walk_of_terminal hv ht hadm) fun s' pas hs' => ?_
    rw [updateFlagsEnd, updateTerminal_refused _ _ _ _ (.inr ((classMatch_false_iff c _).2 hh))]
    exact hs'.finish_same hv .notMapped _ _ _ _ _

/-! ### The bytes that UNMAP and UPDATE_FLAGS leave -/

theorem Answers.mem_eq {s t : State} (h : Answers s t) : t.mem = s.mem := by
  obtain ⟨_, _, _, _, _, _, -, -, rfl⟩ := h; rfl

/-- A command leaves in memory what its body leaves, or all of it while the sticky fault holds. -/
theorem exec_mem {i : Instr} {s t : State} (h : exec i s = .next t) :
    t.mem = s.mem ∨ t = bodyOf i s := by
  rw [exec_eq_command] at h
  cases hf : s.flt with
  | true => rw [command_of_flt hf] at h; cases h; exact .inl rfl
  | false => rw [command_of_not_flt hf] at h; cases h; exact .inr rfl

/-- `t` has the memory of `s`, or one store to the terminal entry of the page in ARG0. -/
def State.StoresTerminal (s : State) (c : SizeClass) (t : State) : Prop :=
  t.mem = s.mem ∨ ∃ tb v, Reaches s s.arg0 (terminalLevel c) tb ∧
    t.mem = s.mem.write64 (entryPa (terminalLevel c) s.arg0 tb) v

theorem unmapBody_storesTerminal (c : SizeClass) {s : State} (hv : s.views = []) :
    s.StoresTerminal c (unmapBody c s) := by
  rcases unmapBody_cases c s with
    h | ⟨-, -, -, s', pas, hs, -, -, he | h | ⟨t, e, ht, -, -, -, -, -, he⟩⟩
  · exact .inl h.mem_eq
  · exact .inl (by rw [he]; exact hs.mem_eq)
  · exact .inl (h.mem_eq.trans hs.mem_eq)
  · exact .inr ⟨t, 0, (met_iff hv).1 ht, by rw [he]; simp [hs.mem_eq]⟩

theorem updateFlagsBody_storesTerminal (c : SizeClass) {s : State} (hv : s.views = []) :
    s.StoresTerminal c (updateFlagsBody c s) := by
  rcases updateFlagsBody_cases c s with
    h | ⟨-, -, -, -, s', pas, hs, -, -, he | h | ⟨t, e, ht, -, -, -, -, he⟩⟩
  · exact .inl h.mem_eq
  · exact .inl (by rw [he]; exact hs.mem_eq)
  · exact .inl (h.mem_eq.trans hs.mem_eq)
  · exact .inr ⟨t, leafEntry c (entryAddr e) s.arg2, (met_iff hv).1 ht, by
      rw [he]; simp [hs.mem_eq]⟩

/-- Settles O42: at most one store, to the terminal entry. -/
theorem unmapAndUpdateMemoryFrame : Obligations.UnmapAndUpdateMemoryFrame := by
  intro i c s t hi hv h a hout
  have hstore : s.StoresTerminal c t := by
    rcases exec_mem h with hm | rfl
    · exact .inl hm
    · rcases hi with rfl | rfl
      · rw [bodyOf_unmap]; exact unmapBody_storesTerminal c hv
      · rw [bodyOf_updateFlags]; exact updateFlagsBody_storesTerminal c hv
  rcases hstore with hm | ⟨tb, v, htb, hm⟩
  · rw [hm]
  · rw [hm, Memory.readByte_write64_of_outside _ _ (hout tb htb)]

/-! ### TRANSLATE_PAGE after UNMAP -/

/-- The entries of two tables are the same 8 bytes or share none. -/
theorem entryPa_eq_or_disjoint {t t' : Word} (h : IsFrame t) (h' : IsFrame t') (l l' : Nat)
    (va va' : Word) : entryPa l va t = entryPa l' va' t' ∨
      entryPa l va t + 8 ≤ entryPa l' va' t' ∨ entryPa l' va' t' + 8 ≤ entryPa l va t := by
  have := entryPa_bounds h l va
  have := entryPa_bounds h' l' va'
  omega

/-- `u` has the root and the admitted regions of `s`: of what a walk reads, memory alone may
differ. -/
def State.SameTree (s u : State) : Prop := u.admitted = s.admitted ∧ u.root = s.root

theorem State.SameTree.admits_eq {s u : State} (h : s.SameTree u) (a n : Nat) :
    u.admits a n = s.admits a n := by rw [State.admits, h.1]; rfl

theorem State.SameTree.reaches_root {s u : State} (h : s.SameTree u) (va : Word) :
    Reaches u va 4 s.rootFrame := by
  have : s.rootFrame = u.rootFrame := by simp [State.rootFrame, State.rootReg, h.2]
  rw [this]; exact .root

/-- After the entry at `ea`, in some table, is cleared, a walk goes where it went, unless an entry
that it read at a level above is the one cleared: recursive trees have such entries. -/
theorem Reaches.after_clear {s u : State} {ea lt : Nat} {va tt : Word} (hu : s.SameTree u)
    (htt : IsFrame tt) (hea : ea = entryPa lt va tt) (hm : u.mem = s.mem.write64 ea 0) {l : Nat}
    {t : Word} (h : Reaches s va l t) : Reaches u va l t ∨ ∃ k, l < k ∧ u.WalkReads va k 0 := by
  induction h with
  | root => exact .inl (hu.reaches_root va)
  | @down l t above low adm pres small ih =>
    rcases ih with ht | ⟨k, hk, hw⟩
    · have hadm : u.entryAdmitted (l + 1) va t := (hu.admits_eq _ _).trans adm
      have hat : u.entryAt (l + 1) va t = (s.mem.write64 ea 0).read64 (entryPa (l + 1) va t) := by
        rw [State.entryAt, hm]
      rcases entryPa_eq_or_disjoint above.isFrame htt (l + 1) lt va va with heq | hdis
      · refine .inr ⟨l + 1, Nat.lt_succ_self l, t, ht, hadm, ?_⟩
        rw [hat, heq, ← hea, Memory.read64_write64_same]
      · have hsame : u.entryAt (l + 1) va t = s.entryAt (l + 1) va t := by
          rw [hat, Memory.read64_write64_of_disjoint _ _ (hea ▸ hdis)]; rfl
        rw [← hsame] at pres small ⊢
        exact .inl (.down ht low hadm pres small)
    · exact .inr ⟨k, Nat.lt_of_succ_lt hk, hw⟩

/-- After its terminal entry is cleared, the walk of a page reads an absent entry at the terminal
level or above it. -/
theorem walkReads_zero_of_clear {s u : State} {c : SizeClass} {va t : Word} (hu : s.SameTree u)
    (ht : Reaches s va (terminalLevel c) t) (hadm : s.entryAdmitted (terminalLevel c) va t)
    (hm : u.mem = s.mem.write64 (entryPa (terminalLevel c) va t) 0) :
    ∃ l, terminalLevel c ≤ l ∧ u.WalkReads va l 0 := by
  rcases ht.after_clear hu ht.isFrame rfl hm with ht' | ⟨k, hk, hw⟩
  · refine ⟨_, le_rfl, t, ht', (hu.admits_eq _ _).trans hadm, ?_⟩
    rw [State.entryAt, hm, Memory.read64_write64_same]
  · exact ⟨k, hk.le, hw⟩

theorem State.WalkReads.le_four {s : State} {va : Word} {l : Nat} {e : Word}
    (h : s.WalkReads va l e) : l ≤ 4 := by
  obtain ⟨t, ht, -⟩ := h
  exact ht.le_four

theorem code_eq_zero_iff (st : Status) : st.code = 0x00 ↔ st = .ok := by
  cases st <;> decide

theorem finish_status_ne_ok {s : State} {st : Status} {r0 r1 r2 r3 r4 : Word} (h : st ≠ .ok) :
    (s.finish st r0 r1 r2 r3 r4).status ≠ 0x00 := mt (code_eq_zero_iff st).1 h

theorem takeFault_status_ne_ok (s : State) (cause : FaultCause) :
    (s.takeFault cause).status ≠ 0x00 := by rw [takeFault_status]; decide

theorem Answers.status_ne_ok {s t : State} (h : Answers s t) : t.status ≠ 0x00 := by
  obtain ⟨st, r0, r1, r2, r3, r4, hok, -, rfl⟩ := h
  exact finish_status_ne_ok hok

/-- `t` lets TRANSLATE_PAGE walk for the page in ARG0 of `s`, from the same root. -/
structure State.WalksAfter (s t : State) : Prop where
  ready : t.Ready
  samePage : t.arg0 = s.arg0
  sameTree : s.SameTree t

/-- A mutation leaves what a walk of TRANSLATE_PAGE needs. -/
theorem State.Ready.walksAfter_mutated {s : State} (h : s.Ready) (m : Memory) (c : SizeClass)
    (va r0 r1 : Word) (q : List (Option Word)) (ps : List PortEvent) :
    s.WalksAfter { s.mutated m c va r0 r1 with allocQ := q, ports := ps } :=
  ⟨⟨h.noFault, h.hasRoot, h.noRace⟩, rfl, rfl, rfl⟩

/-- UNMAP.S answers OK only where it has cleared the terminal entry of the page. -/
theorem unmap_ok {c : SizeClass} {s t : State} (hf : s.flt = false) (hv : s.views = [])
    (hx : exec (Instr.unmap c) s = .next t) (hok : t.status = 0x00) :
    s.WalksAfter t ∧ GoodPage c s.arg0 ∧ ∃ tb, Reaches s s.arg0 (terminalLevel c) tb ∧
      s.entryAdmitted (terminalLevel c) s.arg0 tb ∧
      t.mem = s.mem.write64 (entryPa (terminalLevel c) s.arg0 tb) 0 := by
  rw [exec_eq_next_bodyOf hf, bodyOf_unmap] at hx
  cases hx
  rcases unmapBody_cases c s with
    h | ⟨hr, -, hp, s', pas, hs, -, -, he | h | ⟨tb, e, ht, ha, -, -, -, -, he⟩⟩
  · exact absurd hok h.status_ne_ok
  · exact absurd (he ▸ hok) (takeFault_status_ne_ok s' _)
  · exact absurd hok h.status_ne_ok
  · have hready : s.Ready := ⟨hf, hr, hv⟩
    obtain ⟨ps, hu⟩ :=
      hs.stored_same hv (entryPa (terminalLevel c) s.arg0 tb) 0 c s.arg0 (entryAddr e)
    rw [he, hu]
    exact ⟨hready.walksAfter_mutated _ c _ _ _ s.allocQ ps, hp, tb, (met_iff hv).1 ht, ha, rfl⟩

/-- Settles O45: the walk for the page reads the cleared entry, at its own level or above. -/
theorem unmapThenNotMapped : Obligations.UnmapThenNotMapped := by
  intro c s t hf hv hx hok
  obtain ⟨⟨hready, hpage, htree⟩, hp, tb, htb, hadm, hm⟩ := unmap_ok hf hv hx hok
  obtain ⟨l, hl, hw⟩ := walkReads_zero_of_clear htree htb hadm hm
  rw [← hpage] at hp hw
  obtain ⟨ps, hu⟩ := SameButPorts.exec (i := Instr.translatePage c)
    (bodyOf_translatePage c ▸ translatePageBody_absent hready hp hl hw rfl) hready.noFault
  have hl4 := hw.le_four
  have hlevel : (levelWord l).toNat = l := by rw [levelWord, BitVec.toNat_ofNat]; omega
  exact ⟨_, hu, rfl, hl.trans_eq hlevel.symm, hlevel.trans_le hl4, rfl⟩

end Sys2Proof.Machine
end

section
/-! MAP_TO and IDENTITY_MAP (43_mapper.md R191 to R197, R200): what they write where the walk finds
an absent entry, what they answer otherwise, and the bytes they leave. -/

namespace Sys2Proof.Machine

/-! ### The walk of MAP_TO and IDENTITY_MAP -/

/-- What MAP_TO does for the outcome of its walk (43_mapper.md R191, R194, R195). -/
def mapEnd (c : SizeClass) (va pa f : Word) (w : MapEnd) (s : State) : State :=
  match w with
  | .parentHuge l => s.raise .parentHuge (levelWord l)
  | .mapped e => s.raise .alreadyMapped (entryAddr e)
  | .room t n => mapInstall c va pa f t n s

theorem mapPhases_eq (c : SizeClass) (va pa f : Word) (s : State) :
    mapPhases c va pa f s = (mapWalk va c s).run (mapEnd c va pa f) := by
  refine congrArg (mapWalk va c s).run ?_
  funext w s'; cases w <;> rfl

section
variable {c : SizeClass} {s u : State} {va : Word}

/-- The walk's outcome decides. -/
theorem mapPhases_of_walk {w : MapEnd} (hv : s.views = []) (hw : s.MapSays va c w) (pa f : Word) :
    ∃ s' pas, ReadsOnly s s' pas ∧ mapPhases c va pa f s = mapEnd c va pa f w s' := by
  obtain ⟨s', pas, hs, hw⟩ := mapWalk_of hv hw
  exact ⟨s', pas, hs, by rw [mapPhases_eq, hw, Port.run_ok]⟩

theorem mapPhases_parentHuge {l : Nat} {e : Word} (hv : s.views = []) (hl : terminalLevel c < l)
    (hr : s.WalkReads va l e) (hp : isPresent e = true) (hh : isHuge e = true) (pa f : Word) :
    SameButPorts (s.answered 0x05 (levelWord l) 0 0 0 0) (mapPhases c va pa f s) := by
  obtain ⟨s', pas, hs, he⟩ :=
    mapPhases_of_walk (w := .parentHuge l) hv ⟨hl, e, hr, hp, hh⟩ pa f
  rw [he]
  exact hs.finish_same hv .parentHuge _ _ _ _ _

theorem mapPhases_alreadyMapped {e : Word} (hv : s.views = [])
    (hr : s.WalkReads va (terminalLevel c) e) (hp : isPresent e = true) (pa f : Word) :
    SameButPorts (s.answered 0x06 (entryAddr e) 0 0 0 0) (mapPhases c va pa f s) := by
  obtain ⟨s', pas, hs, he⟩ := mapPhases_of_walk (w := .mapped e) hv ⟨hr, hp⟩ pa f
  rw [he]
  exact hs.finish_same hv .alreadyMapped _ _ _ _ _

theorem mapPhases_of_refused (hv : s.views = []) (hr : s.Refused va (terminalLevel c))
    (pa f : Word) : SameButPorts (s.faultedWith 0x01) (mapPhases c va pa f s) := by
  obtain ⟨s', pas, hs, hw⟩ := mapWalk_of_refused hv hr
  rw [mapPhases_eq, hw]
  exact hs.takeFault_same hv

/-- The state after reads only, while no write races: they are recorded. -/
def State.afterReads (s : State) (pas : List Nat) : State :=
  { s with ports := pas.map PortEvent.read ++ s.ports }

/-- At an absent entry, phases 2 and 3 start after reads. -/
theorem mapPhases_of_room {t : Word} {n : Nat} (hv : s.views = [])
    (hroom : s.MapSays va c (.room t n)) (pa f : Word) :
    ∃ pas, mapPhases c va pa f s = mapInstall c va pa f t n (s.afterReads pas) := by
  obtain ⟨s', pas, hs, he⟩ := mapPhases_of_walk hv hroom pa f
  exact ⟨pas, by rw [he, hs.ports_eq hv]; rfl⟩

end

/-- MAP_TO of the page in ARG0 and IDENTITY_MAP of the page at ARG1, where their checks pass, run
the same phases. -/
theorem bodyOf_eq_mapPhases {i : Instr} {c : SizeClass} {s : State} {va : Word}
    (hi : (i = Instr.mapTo c ∧ va = s.arg0 ∧ GoodPage c va) ∨
      (i = Instr.identityMap c ∧ va = s.arg1 ∧ s.arg1.toNat < 2 ^ 47))
    (hs : s.MayMutate) (hframe : GoodFrame c s.arg1) (hflags : GoodFlags c s.arg2) :
    bodyOf i s = mapPhases c va s.arg1 s.arg2 s := by
  rcases hi with ⟨rfl, rfl, hp⟩ | ⟨rfl, rfl, hlow⟩
  · rw [bodyOf_mapTo, mapToBody_of_operands hs.hasRoot hs.noToken hp hframe,
      checkFlags_pass hflags]
  · rw [bodyOf_identityMap, identityMapBody_of_operands hs.hasRoot hs.noToken hframe hlow,
      checkFlags_pass hflags]

/-- Settles O36: by the level and the entry at which the pre-walk stops. -/
theorem mapToRefusedByTheTree : Obligations.MapToRefusedByTheTree := by
  intro i c s va hi hf hr htv hv hframe hflags
  have hs : s.MayMutate := ⟨⟨hf, hr, hv⟩, htv⟩
  have hexec {u : State} (hu : SameButPorts u (mapPhases c va s.arg1 s.arg2 s)) :
      ∃ ps, exec i s = .next { u with ports := ps } :=
    SameButPorts.exec ((bodyOf_eq_mapPhases hi hs hframe hflags).symm ▸ hu) hf
  exact ⟨fun l e hl hw hp hh => hexec (mapPhases_parentHuge hv hl hw hp hh _ _),
    fun e hw hp => hexec (mapPhases_alreadyMapped hv hw hp _ _),
    fun l t hl ht hn => hexec (mapPhases_of_refused hv ⟨l, t, hl, ht, hn⟩ _ _)⟩

/-! ### The allocator's answers -/

/-- The state after the allocator has answered with the frames `fs` and has `q` left to answer. -/
def State.allocated (s : State) (fs : List Word) (q : List (Option Word)) : State :=
  { s with
    allocQ := q, ports := (fs.map fun f => PortEvent.alloc (some f)).reverse ++ s.ports }

/-- Valid frames at the head of the listed answers are obtained, and the phase goes on. -/
theorem allocFrames_append (fs : List Word) (k : Nat) (got : List Word) (q : List (Option Word))
    (s : State) (hq : s.allocQ = fs.map some ++ q) (hv : ∀ f ∈ fs, validFrame f = true) :
    allocFrames (fs.length + k) got s = allocFrames k (got ++ fs) (s.allocated fs q) := by
  induction fs generalizing got s with
  | nil =>
    have hs : s.allocated [] q = s := by rw [State.allocated, ← show s.allocQ = q from hq]; rfl
    simp [hs]
  | cons f fs ih =>
    have hq' : s.allocQ = some f :: (fs.map some ++ q) := hq
    have hs : s.takeAnswer.allocated fs q = s.allocated (f :: fs) q := by
      simp [State.allocated, takeAnswer_cons hq']
    have hrest := ih (got ++ [f]) s.takeAnswer (by rw [takeAnswer_cons hq'])
      fun g hg => hv g (List.mem_cons_of_mem f hg)
    rw [List.length_cons, Nat.add_right_comm, allocFrames, nextAnswer_cons hq']
    simp only [hv f List.mem_cons_self, if_true, hrest, hs, List.append_assoc,
      List.singleton_append]

section
variable {c : SizeClass} {s : State} {fs : List Word} {r : Option Word} {q : List (Option Word)}
  {n : Nat}

/-- The answer `r` comes when frames are still missing. -/
theorem allocFrames_short (hn : fs.length < n) (hq : s.allocQ = fs.map some ++ r :: q)
    (hv : ∀ f ∈ fs, validFrame f = true) :
    ∃ m, allocFrames n [] s = allocFrames (m + 1) fs (s.allocated fs (r :: q)) := by
  obtain ⟨m, rfl⟩ := Nat.exists_eq_add_of_lt hn
  exact ⟨m, allocFrames_append fs (m + 1) [] (r :: q) s hq hv⟩

theorem mapInstall_none (hn : fs.length < n) (hq : s.allocQ = fs.map some ++ none :: q)
    (hv : ∀ f ∈ fs, validFrame f = true) (va pa f t : Word) :
    SameButPorts
      { s.answered 0x04 (BitVec.ofNat 64 fs.length) (fs.getD 0 0) (fs.getD 1 0) 0 0 with
        allocQ := q }
      (mapInstall c va pa f t n s) := by
  obtain ⟨m, hm⟩ := allocFrames_short hn hq hv
  rw [mapInstall, hm, allocFrames, nextAnswer_cons rfl]
  have hleft : (s.allocated fs (none :: q)).allocQ = none :: q := rfl
  simp only [takeAnswer_cons hleft]
  exact ⟨_, rfl⟩

theorem mapInstall_invalid {g : Word} (hn : fs.length < n)
    (hq : s.allocQ = fs.map some ++ some g :: q) (hv : ∀ f ∈ fs, validFrame f = true)
    (hg : validFrame g = false) (va pa f t : Word) :
    SameButPorts { s.faultedWith 0x02 with allocQ := q } (mapInstall c va pa f t n s) := by
  obtain ⟨m, hm⟩ := allocFrames_short hn hq hv
  rw [mapInstall, hm, allocFrames, nextAnswer_cons rfl]
  have hleft : (s.allocated fs (some g :: q)).allocQ = some g :: q := rfl
  simp only [hg, takeAnswer_cons hleft]
  exact ⟨_, rfl⟩

end

/-- Settles O37: at an absent entry, the answer that comes when frames are still missing decides. -/
theorem mapToAllocationOutcomes : Obligations.MapToAllocationOutcomes := by
  intro i c s va t n fs r q hi hf hr htv hv hframe hflags ht hadm hp hn hq hfs
  have hs : s.MayMutate := ⟨⟨hf, hr, hv⟩, htv⟩
  have hvalid : ∀ f ∈ fs, validFrame f = true := fun f h => (validFrame_iff f).2 (hfs f h)
  obtain ⟨pas, he⟩ := mapPhases_of_room hv ⟨ht, hadm, hp⟩ s.arg1 s.arg2
  rw [← bodyOf_eq_mapPhases hi hs hframe hflags] at he
  have hexec {u : State} (hu : SameButPorts u (mapInstall c va s.arg1 s.arg2 t n
      (s.afterReads pas))) : ∃ ps, exec i s = .next { u with ports := ps } :=
    SameButPorts.exec (he ▸ hu) hf
  refine ⟨?_, ?_⟩
  · rintro rfl
    have h := hexec (mapInstall_none (s := s.afterReads pas) hn hq hvalid va s.arg1 s.arg2 t)
    exact h
  · rintro g rfl hg
    have hinvalid : validFrame g = false := by
      rw [← Bool.not_eq_true, validFrame_iff]; omega
    have h := hexec (mapInstall_invalid (s := s.afterReads pas) hn hq hvalid hinvalid va s.arg1
      s.arg2 t)
    exact h

/-! ### The mapping installed -/

/-- The port events of a mapping command, newest first: the reads of its walk, the answers of the
allocator, and the writes of phase 3. -/
def mapEvents (pas : List Nat) (fs : List Word) (ws : List (Nat × Word)) : List PortEvent :=
  (ws.map fun w => .write w.1 w.2).reverse ++
    ((fs.map fun g => .alloc (some g)).reverse ++ pas.map .read)

theorem writesOf_mapEvents (pas : List Nat) (fs : List Word) (ws : List (Nat × Word)) :
    writesOf (mapEvents pas fs ws).reverse = ws := by
  simp [mapEvents, ← List.map_reverse]

section
variable {c : SizeClass} {s : State} {va pa f t : Word} {fs : List Word} {q : List (Option Word)}
  {ws : List (Nat × Word)}

/-- The frames are obtained and every write of phase 3 is admitted. -/
theorem mapPhases_installs (hv : s.views = []) (hroom : s.MapSays va c (.room t fs.length))
    (hq : s.allocQ = fs.map some ++ q) (hfs : ∀ g ∈ fs, validFrame g = true)
    (hws : ws = mapWrites va c (nonLeafFlags f) (leafEntry c pa f) t fs)
    (hadm : ∀ w ∈ ws, s.admits w.1 8 = true) :
    ∃ ps, writesOf ps.reverse = ws ∧ mapPhases c va pa f s =
      { s.mutated (s.mem.writeAll ws) c va va (BitVec.ofNat 64 fs.length) with
        allocQ := q, ports := ps ++ s.ports } := by
  subst hws
  obtain ⟨pas, he⟩ := mapPhases_of_room hv hroom pa f
  refine ⟨mapEvents pas fs _, writesOf_mapEvents .., ?_⟩
  rw [he, mapInstall_of_queue (s := s.afterReads pas) hq hfs hadm, storeWords_eq, mapEvents,
    List.append_assoc, List.append_assoc]
  rfl

/-- The frames are obtained and the write `w` of phase 3 is the first refused one. -/
theorem mapPhases_writeRefused {before later : List (Nat × Word)} {w : Nat × Word}
    (hv : s.views = []) (hroom : s.MapSays va c (.room t fs.length))
    (hq : s.allocQ = fs.map some ++ q) (hfs : ∀ g ∈ fs, validFrame g = true)
    (hws : mapWrites va c (nonLeafFlags f) (leafEntry c pa f) t fs = before ++ w :: later)
    (hadm : ∀ x ∈ before, s.admits x.1 8 = true) (hn : s.admits w.1 8 = false) :
    ∃ ps, writesOf ps.reverse = before ∧ mapPhases c va pa f s =
      { s.faultedWith 0x01 with
        mem := s.mem.writeAll before, allocQ := q, ports := ps ++ s.ports } := by
  obtain ⟨pas, he⟩ := mapPhases_of_room hv hroom pa f
  refine ⟨mapEvents pas fs before, writesOf_mapEvents .., ?_⟩
  rw [he, mapInstall_of_refused (s := s.afterReads pas) hq hfs hws hadm hn, storeWords_eq,
    mapEvents, List.append_assoc, List.append_assoc]
  rfl

end

/-- A body that runs the phases at an absent entry, with valid frames answered: the two ends of
phase 3. -/
theorem exec_installs {i : Instr} {c : SizeClass} {s : State} {va t : Word} {fs : List Word}
    {q : List (Option Word)} {ws : List (Nat × Word)} (hf : s.flt = false) (hv : s.views = [])
    (hb : bodyOf i s = mapPhases c va s.arg1 s.arg2 s)
    (hroom : s.MapSays va c (.room t fs.length)) (hq : s.allocQ = fs.map some ++ q)
    (hfs : ∀ f ∈ fs, f.toNat < 2 ^ 52 ∧ f.toNat % 4096 = 0)
    (hws : ws = mapWrites va c (nonLeafFlags s.arg2) (leafEntry c s.arg1 s.arg2) t fs) :
    ((∀ w ∈ ws, s.admits w.1 8 = true) →
      ∃ ps, writesOf ps.reverse = ws ∧ exec i s = .next
        { s.mutated (s.mem.writeAll ws) c va va (BitVec.ofNat 64 fs.length) with
          allocQ := q, ports := ps ++ s.ports }) ∧
    ∀ (before : List (Nat × Word)) (w : Nat × Word) (later : List (Nat × Word)),
      ws = before ++ w :: later → (∀ x ∈ before, s.admits x.1 8 = true) →
      s.admits w.1 8 = false →
      ∃ ps, writesOf ps.reverse = before ∧ exec i s = .next
        { s.faultedWith 0x01 with
          mem := s.mem.writeAll before, allocQ := q, ports := ps ++ s.ports } := by
  have hvalid : ∀ f ∈ fs, validFrame f = true := fun f h => (validFrame_iff f).2 (hfs f h)
  rw [exec_eq_next_bodyOf hf, hb]
  refine ⟨fun hadm => ?_, fun before w later hsplit hadm hn => ?_⟩
  · obtain ⟨ps, hps, he⟩ := mapPhases_installs hv hroom hq hvalid hws hadm
    exact ⟨ps, hps, congrArg _ he⟩
  · obtain ⟨ps, hps, he⟩ :=
      mapPhases_writeRefused hv hroom hq hvalid (hws.symm.trans hsplit) hadm hn
    exact ⟨ps, hps, congrArg _ he⟩

/-- Settles O34: MAP_TO runs the phases at the page in ARG0. -/
theorem mapToInstallsMapping : Obligations.MapToInstallsMapping := by
  intro c s t fs q ws hf hr htv hv hp hframe hflags ht hadm habsent hq hfs hws
  exact exec_installs hf hv
    (bodyOf_eq_mapPhases (.inl ⟨rfl, rfl, hp⟩) ⟨⟨hf, hr, hv⟩, htv⟩ hframe hflags)
    ⟨ht, hadm, habsent⟩ hq hfs hws

/-- Settles O35: IDENTITY_MAP runs the phases at the page of its frame. -/
theorem identityMapInstallsMapping : Obligations.IdentityMapInstallsMapping := by
  intro c s t fs q ws hf hr htv hv hframe hlow hflags ht hadm habsent hq hfs hws
  exact exec_installs hf hv
    (bodyOf_eq_mapPhases (.inr ⟨rfl, rfl, hlow⟩) ⟨⟨hf, hr, hv⟩, htv⟩ hframe hflags)
    ⟨ht, hadm, habsent⟩ hq hfs hws

/-! ### The bytes that MAP_TO and IDENTITY_MAP leave -/

/-- A place where a mapping command that ends in `t` may store: an absent entry at which the walk
for `va` stops, or an entry of a frame that the allocator answered. -/
def State.MapPlace (s : State) (va : Word) (c : SizeClass) (t : State) (pa : Nat) : Prop :=
  (∃ l tb, terminalLevel c ≤ l ∧ Reaches s va l tb ∧ isPresent (s.entryAt l va tb) = false ∧
    pa = entryPa l va tb) ∨
  ∃ f i, PortEvent.alloc (some f) ∈ t.ports ∧ i < 512 ∧ pa = f.toNat + 8 * i

/-- `t` has the memory of `s` after stores to such places. -/
def State.MapStores (s : State) (va : Word) (c : SizeClass) (t : State) : Prop :=
  ∃ ws, t.mem = s.mem.writeAll ws ∧ ∀ w ∈ ws, s.MapPlace va c t w.1

theorem State.MapStores.of_mem_eq {s t : State} (h : t.mem = s.mem) (va : Word) (c : SizeClass) :
    s.MapStores va c t := ⟨[], h, by simp⟩

/-- The writes of phase 3 are to such places, where the frames are recorded as answered. -/
theorem mapPlace_of_mapWrites {s u : State} {va link leaf tb : Word} {c : SizeClass}
    {fs : List Word} (hroom : s.MapSays va c (.room tb fs.length))
    (hu : ∀ f ∈ fs, PortEvent.alloc (some f) ∈ u.ports) {w : Nat × Word}
    (hw : w ∈ mapWrites va c link leaf tb fs) : s.MapPlace va c u w.1 := by
  obtain ⟨htb, -, habsent⟩ := hroom
  rcases mapWrites_places hw with h | ⟨f, hf, i, hi, h⟩
  · exact .inl ⟨_, tb, Nat.le_add_right .., htb, habsent, h⟩
  · exact .inr ⟨f, i, hu f hf, hi, h⟩

theorem mapInstall_mapStores {s s' : State} {pas : List Nat} (hs : ReadsOnly s s' pas)
    {va tb : Word} {c : SizeClass} {n : Nat} (hroom : s.MapSays va c (.room tb n)) (pa f : Word) :
    s.MapStores va c (mapInstall c va pa f tb n s') := by
  rcases mapInstall_cases c va pa f tb n s' with
    ⟨fs, u, rfl, -, hal, -, he⟩ | ⟨fs, u, -, -, hal, he⟩ | ⟨fs, g, u, -, -, hal, he⟩ |
    ⟨fs, u, pre, w, post, rfl, -, hal, hws, -, -, he⟩
  · refine ⟨mapWrites va c (nonLeafFlags f) (leafEntry c pa f) tb fs, ?_,
      fun w hw => mapPlace_of_mapWrites hroom (fun g hg => ?_) hw⟩
    · rw [he, ← hs.mem_eq, ← hal.mem_eq]; simp [storeWords_eq]
    · rw [he, hal.1]; simp [storeWords_eq, hg]
  · exact .of_mem_eq (by rw [he, finish_mem, hal.mem_eq, hs.mem_eq]) va c
  · exact .of_mem_eq (by rw [he, takeFault_mem, hal.mem_eq, hs.mem_eq]) va c
  · refine ⟨pre, ?_, fun x hx => mapPlace_of_mapWrites hroom (fun g hg => ?_)
      (hws ▸ List.mem_append_left _ hx)⟩
    · rw [he, ← hs.mem_eq, ← hal.mem_eq]; simp [storeWords_eq]
    · rw [he, hal.1]; simp [storeWords_eq, hg]

theorem mapPhases_mapStores {s : State} (hv : s.views = []) (c : SizeClass) (va pa f : Word) :
    s.MapStores va c (mapPhases c va pa f s) := by
  obtain ⟨s', pas, hs, -, -, hcases⟩ := mapPhases_cases c va pa f s
  rcases hcases with
    ⟨-, he⟩ | ⟨l, e, -, -, -, -, he⟩ | ⟨e, -, -, he⟩ | ⟨t, n, ht, hadm, habsent, he⟩
  · exact .of_mem_eq (by rw [he]; exact hs.mem_eq) va c
  · exact .of_mem_eq (by rw [he]; exact hs.mem_eq) va c
  · exact .of_mem_eq (by rw [he]; exact hs.mem_eq) va c
  · rw [he]
    exact mapInstall_mapStores hs ⟨(met_iff hv).1 ht, hadm, habsent hv⟩ pa f

theorem bodyOf_mapStores {i : Instr} {c : SizeClass} {s : State} {va : Word}
    (hi : (i = Instr.mapTo c ∧ va = s.arg0) ∨ (i = Instr.identityMap c ∧ va = s.arg1))
    (hv : s.views = []) : s.MapStores va c (bodyOf i s) := by
  rcases hi with ⟨rfl, rfl⟩ | ⟨rfl, rfl⟩
  · rw [bodyOf_mapTo]
    rcases mapToBody_cases c s with ⟨-, -, -, -, -, he⟩ | h
    · rw [he]; exact mapPhases_mapStores hv ..
    · exact .of_mem_eq h.mem_eq _ c
  · rw [bodyOf_identityMap]
    rcases identityMapBody_cases c s with ⟨-, -, -, -, -, he⟩ | h
    · rw [he]; exact mapPhases_mapStores hv ..
    · exact .of_mem_eq h.mem_eq _ c

/-- Settles O43: no store of a mapping command touches the byte. -/
theorem mapMemoryFrame : Obligations.MapMemoryFrame := by
  intro i c s t va hi _ hv hx a hentry hframe
  have hstores : s.MapStores va c t := by
    rcases exec_mem hx with hm | rfl
    · exact .of_mem_eq hm va c
    · exact bodyOf_mapStores hi hv
  obtain ⟨ws, hm, hplaces⟩ := hstores
  rw [hm]
  refine Memory.readByte_writeAll fun w hw => ?_
  rcases hplaces w hw with ⟨l, tb, hl, htb, habsent, he⟩ | ⟨f, i, hf, hi, he⟩
  · rw [he]; exact hentry l tb hl htb habsent
  · have := hframe f hf
    omega

end Sys2Proof.Machine
end

section
/-! TRANSLATE_PAGE after MAP_TO (95_test_vectors.md E4): the entries that phase 3 writes are those
that the walk then reads, when the new frames are distinct and no tables of the walk (20_memory.md
R70(d)). -/

namespace Sys2Proof.Machine

/-! ### The fields of the entries that phase 3 writes -/

theorem IsFrame.getLsbD_low {t : Word} (h : IsFrame t) {i : Nat} (hi : i < 12) :
    t.getLsbD i = false := by
  rw [← h.mask_eq, BitVec.getLsbD_and]
  interval_cases i <;> simp

theorem isFrame_of_goodFrame {c : SizeClass} {pa : Word} (h : GoodFrame c pa) : IsFrame pa := by
  obtain ⟨hlt, hal⟩ := h
  refine ⟨?_, hlt⟩
  cases c <;> simp only [sizeBytes] at hal <;> omega

theorem isFrame_of_validFrame {f : Word} (h : validFrame f = true) : IsFrame f :=
  ((validFrame_iff f).1 h).symm

/-- A frame and flags that share no bit with the address field. -/
theorem entryAddr_or {t x : Word} (ht : IsFrame t) (hx : x &&& Config.addrMask = 0) :
    entryAddr (t ||| x) = t := by
  rw [entryAddr, BitVec.and_or_distrib_right, hx, ht.mask_eq]
  exact BitVec.or_zero

theorem entryFlags_or {t x : Word} (ht : IsFrame t) (hx : x &&& Config.addrMask = 0) :
    entryFlags (t ||| x) = x := by
  have hflag : Config.flagMask = ~~~Config.addrMask := by decide
  apply BitVec.eq_of_getLsbD_eq
  intro i hi
  have ht' := congrArg (BitVec.getLsbD · i) ht.mask_eq
  have hx' := congrArg (BitVec.getLsbD · i) hx
  simp only [BitVec.getLsbD_and] at ht' hx'
  simp only [entryFlags, hflag, BitVec.getLsbD_and, BitVec.getLsbD_or, BitVec.getLsbD_not, hi]
  grind

/-- A link to a new table is a present entry without HUGE_PAGE that holds the table's address. -/
theorem link_fields {g : Word} (hg : IsFrame g) (f : Word) :
    isPresent (g ||| nonLeafFlags f) = true ∧ isHuge (g ||| nonLeafFlags f) = false ∧
      entryAddr (g ||| nonLeafFlags f) = g := by
  rw [isPresent, isHuge, BitVec.getLsbD_or, BitVec.getLsbD_or, hg.getLsbD_low (by omega),
    hg.getLsbD_low (by omega), nonLeafFlags_eq]
  split
  · exact ⟨rfl, rfl, entryAddr_or hg rfl⟩
  · exact ⟨rfl, rfl, entryAddr_or hg rfl⟩

/-- The leaf of a good frame and good flags with PRESENT is a present leaf of its class. -/
theorem leafEntry_fields {c : SizeClass} {pa f : Word} (hpa : GoodFrame c pa)
    (hf : GoodFlags c f) (hp : f.getLsbD 0 = true) :
    isPresent (leafEntry c pa f) = true ∧ classMatch c (leafEntry c pa f) = true ∧
      entryAddr (leafEntry c pa f) = pa ∧ entryFlags (leafEntry c pa f) = f ||| leafHuge c := by
  have hframe := isFrame_of_goodFrame hpa
  obtain ⟨hmask, h4K⟩ := hf
  have hx : (f ||| leafHuge c) &&& Config.addrMask = 0 := by
    rw [BitVec.and_or_distrib_right, hmask]
    cases c <;> decide
  have heq : leafEntry c pa f = pa ||| (f ||| leafHuge c) := BitVec.or_assoc ..
  refine ⟨?_, ?_, ?_, ?_⟩
  · simp [isPresent, leafEntry, hp]
  · rw [classMatch_iff, isHuge, heq, BitVec.getLsbD_or, BitVec.getLsbD_or,
      hframe.getLsbD_low (by omega)]
    cases c with
    | s4K => rw [h4K rfl]; rfl
    | s2M => exact Bool.or_true _
    | s1G => exact Bool.or_true _
  · rw [heq, entryAddr_or hframe hx]
  · rw [heq, entryFlags_or hframe hx]

/-! ### What phase 3 leaves -/

theorem IsFrame.disjoint {t t' : Word} (h : IsFrame t) (h' : IsFrame t') (hne : t ≠ t') :
    t.toNat + 4096 ≤ t'.toNat ∨ t'.toNat + 4096 ≤ t.toNat := by
  have := h.1
  have := h'.1
  have := mt BitVec.eq_of_toNat_eq hne
  omega

section
variable {c : SizeClass} {va link leaf t tb : Word} {fs : List Word} {k : Nat}

/-- Phase 3 leaves the entry of a table that is not new, if its first link (or the leaf) does. -/
theorem mapWrites_disjoint (htb : IsFrame tb) (hfs : ∀ f ∈ fs, IsFrame f) (hnew : tb ∉ fs)
    (hfirst : entryPa k va tb + 8 ≤ entryPa (terminalLevel c + fs.length) va t ∨
      entryPa (terminalLevel c + fs.length) va t + 8 ≤ entryPa k va tb)
    {w : Nat × Word} (hw : w ∈ mapWrites va c link leaf t fs) :
    entryPa k va tb + 8 ≤ w.1 ∨ w.1 + 8 ≤ entryPa k va tb := by
  rcases mapWrites_places hw with h | ⟨f, hf, i, hi, h⟩
  · rw [h]; exact hfirst
  · have := entryPa_bounds htb k va
    have := htb.disjoint (hfs f hf) fun he => hnew (he ▸ hf)
    omega

/-- The entry of a table that is neither `t` nor new. -/
theorem read64_mapWrites_of_ne (htb : IsFrame tb) (ht : IsFrame t) (hne : tb ≠ t)
    (hfs : ∀ f ∈ fs, IsFrame f) (hnew : tb ∉ fs) (m : Memory) :
    (m.writeAll (mapWrites va c link leaf t fs)).read64 (entryPa k va tb) =
      m.read64 (entryPa k va tb) := by
  refine Memory.read64_writeAll fun w hw => mapWrites_disjoint htb hfs hnew ?_ hw
  have := entryPa_bounds htb k va
  have := entryPa_bounds ht (terminalLevel c + fs.length) va
  have := htb.disjoint ht hne
  omega

end

/-- After phase 3 a walk that reaches `t` goes down the new tables and reads the leaf. -/
theorem walkReads_leaf_of_mapWrites {u : State} {c : SizeClass} {va f leaf t : Word}
    {fs : List Word} {m : Memory}
    (hm : u.mem = m.writeAll (mapWrites va c (nonLeafFlags f) leaf t fs))
    (ht : Reaches u va (terminalLevel c + fs.length) t)
    (hadm : ∀ w ∈ mapWrites va c (nonLeafFlags f) leaf t fs, u.admits w.1 8 = true)
    (hfs : ∀ g ∈ fs, IsFrame g) (hnodup : (t :: fs).Nodup) :
    u.WalkReads va (terminalLevel c) leaf := by
  induction fs generalizing t m with
  | nil =>
    refine ⟨t, ht, hadm (entryPa (terminalLevel c) va t, leaf) (by simp), ?_⟩
    rw [State.entryAt, hm, mapWrites_nil]
    exact (Memory.read64_write64_same ..).symm
  | cons g fs ih =>
    obtain ⟨hnew, hnodup⟩ := List.nodup_cons.1 hnodup
    obtain ⟨hne, hnew⟩ := not_or.1 (mt List.mem_cons.2 hnew)
    have hg := hfs g List.mem_cons_self
    have hfs := fun x hx => hfs x (List.mem_cons_of_mem g hx)
    rw [mapWrites_cons] at hm hadm
    rw [writeAll_append, writeAll_cons] at hm
    have hlink : u.mem.read64 (entryPa (terminalLevel c + fs.length + 1) va t) =
        g ||| nonLeafFlags f := by
      rw [hm, read64_mapWrites_of_ne ht.isFrame hg hne hfs hnew, Memory.read64_write64_same]
    obtain ⟨hp, hh, ha⟩ := link_fields hg f
    have hlinkAdmitted :=
      hadm (entryPa (terminalLevel c + fs.length + 1) va t, g ||| nonLeafFlags f) (by simp)
    have hpos : 1 ≤ terminalLevel c + fs.length := Nat.le_add_right_of_le (terminalLevel_pos c)
    have hgreach := Reaches.next (l := terminalLevel c + fs.length) ht hpos hlinkAdmitted
      (hlink ▸ hp) (hlink ▸ hh)
    rw [hlink, ha] at hgreach
    exact ih hm hgreach (fun w hw => hadm w (by simp [hw])) hfs hnodup

/-- A walk goes where it went before, down to a table of level `m` or above, when the present
entries above level `m` are unchanged. -/
theorem Reaches.of_same_entries {s u : State} {va : Word} {m : Nat} (hu : s.SameTree u)
    (hsame : ∀ k tb, m < k → Reaches s va k tb → isPresent (s.entryAt k va tb) = true →
      u.entryAt k va tb = s.entryAt k va tb) {l : Nat} {t : Word} (h : Reaches s va l t)
    (hl : m ≤ l) : Reaches u va l t := by
  induction h with
  | root => exact hu.reaches_root va
  | @down l t above low adm pres small ih =>
    have hat := hsame (l + 1) t (Nat.lt_succ_of_le hl) above pres
    have hadm : u.entryAdmitted (l + 1) va t := (hu.admits_eq _ _).trans adm
    rw [← hat] at pres small ⊢
    exact .down (ih (Nat.le_succ_of_le hl)) low hadm pres small

/-- Phase 3 leaves the walk down to the table with the absent entry: that entry is none of those
that the walk passed, since they are present, and the new frames are none of its tables. -/
theorem Reaches.after_mapWrites {s u : State} {c : SizeClass} {va link leaf t : Word}
    {fs : List Word} (hu : s.SameTree u)
    (hm : u.mem = s.mem.writeAll (mapWrites va c link leaf t fs))
    (hroom : s.MapSays va c (.room t fs.length)) (hfs : ∀ f ∈ fs, IsFrame f)
    (hnew : ∀ l tb, Reaches s va l tb → tb ∉ fs) :
    Reaches u va (terminalLevel c + fs.length) t := by
  obtain ⟨ht, -, habsent⟩ := hroom
  refine ht.of_same_entries hu (fun k tb _ htb hp => ?_) le_rfl
  rw [State.entryAt, hm]
  refine Memory.read64_writeAll fun w hw =>
    mapWrites_disjoint htb.isFrame hfs (hnew k tb htb) ?_ hw
  rcases entryPa_eq_or_disjoint htb.isFrame ht.isFrame k (terminalLevel c + fs.length) va va with
    heq | hdis
  · have hsame : s.entryAt k va tb = s.entryAt (terminalLevel c + fs.length) va t :=
      congrArg s.mem.read64 heq
    rw [hsame, habsent] at hp
    cases hp
  · exact hdis

/-! ### MAP_TO that answers OK -/

/-- Replaying allocator calls uses up the listed answers and records them. -/
theorem replay_allocs (rs rs' q : List (Option Word)) (s : State) (hl : rs.length = rs'.length)
    (hq : s.allocQ = rs ++ q) :
    (s.replay (rs'.map .alloc)).ports = (rs.map .alloc).reverse ++ s.ports := by
  induction rs generalizing rs' s with
  | nil =>
    obtain rfl := List.eq_nil_of_length_eq_zero hl.symm
    rfl
  | cons r rs ih =>
    obtain ⟨r', rs', rfl⟩ := List.exists_cons_of_length_eq_add_one hl.symm
    have htake := takeAnswer_cons hq
    rw [List.map_cons, replay_cons, State.replayEvent,
      ih rs' s.takeAnswer (Nat.succ.inj hl) (congrArg State.allocQ htake), htake]
    simp

/-- The frames answered are the listed ones. -/
theorem AllocsOnly.frames_eq {s s' : State} {fs fs' : List Word} {q : List (Option Word)}
    (h : AllocsOnly s s' (fs'.map fun f => PortEvent.alloc (some f)).reverse)
    (hq : s.allocQ = fs.map some ++ q) (hl : fs.length = fs'.length) : fs' = fs := by
  obtain ⟨hports, hreplay⟩ := h
  have hanswered := replay_allocs (fs.map some) (fs'.map some) q s (by simpa using hl) hq
  rw [List.map_map, List.map_map] at hanswered
  rw [List.reverse_reverse] at hreplay
  have heq : s'.ports = (fs.map fun f => PortEvent.alloc (some f)).reverse ++ s.ports :=
    (congrArg State.ports hreplay).trans hanswered
  rw [hports, List.append_cancel_right_eq, List.reverse_inj] at heq
  exact List.map_injective_iff.2 (fun a b hab => by simpa using hab) heq

/-- The phases answer OK only where they have found an absent entry, obtained a valid frame for each
missing table, and had every write admitted; the frames are the listed ones, where these are
enough. -/
theorem mapPhases_ok {c : SizeClass} {s : State} {va pa f : Word} (hv : s.views = [])
    (hok : (mapPhases c va pa f s).status = 0x00) :
    ∃ tb fs, s.MapSays va c (.room tb fs.length) ∧ (∀ g ∈ fs, validFrame g = true) ∧
      (∀ w ∈ mapWrites va c (nonLeafFlags f) (leafEntry c pa f) tb fs, s.admits w.1 8 = true) ∧
      (mapPhases c va pa f s).res1 = BitVec.ofNat 64 fs.length ∧
      ∀ fs' q, s.allocQ = fs'.map some ++ q → fs'.length = fs.length → fs = fs' := by
  obtain ⟨s', pas, hs, -, -, hcases⟩ := mapPhases_cases c va pa f s
  rcases hcases with
    ⟨-, he⟩ | ⟨l, e, -, -, -, -, he⟩ | ⟨e, -, -, he⟩ | ⟨tb, n, htb, hadm, habsent, he⟩ <;>
    rw [he] at hok ⊢
  · exact absurd hok (takeFault_status_ne_ok _ _)
  · exact absurd hok (finish_status_ne_ok (by simp))
  · exact absurd hok (finish_status_ne_ok (by simp))
  rcases mapInstall_cases c va pa f tb n s' with
    ⟨fs, u, rfl, hfs, hal, hws, he⟩ | ⟨fs, u, -, -, -, he⟩ | ⟨fs, g, u, -, -, -, he⟩ |
    ⟨fs, u, pre, w, post, -, -, -, -, -, -, he⟩ <;> rw [he] at hok ⊢
  · refine ⟨tb, fs, ⟨(met_iff hv).1 htb, hadm, habsent hv⟩, hfs,
      fun w hw => hs.admits_eq w.1 8 ▸ hws w hw, rfl,
      fun fs' q hq hl => hal.frames_eq (q := q) ?_ hl⟩
    rw [hs.ports_eq hv]
    exact hq
  · exact absurd hok (finish_status_ne_ok (by simp))
  · exact absurd hok (takeFault_status_ne_ok _ _)
  · exact absurd hok (takeFault_status_ne_ok _ _)

/-- MAP_TO.S answers OK only where it has written phase 3 for the frames answered. -/
theorem mapTo_ok {c : SizeClass} {s t : State} {fs : List Word} (hf : s.flt = false)
    (hv : s.views = []) (hx : exec (Instr.mapTo c) s = .next t) (hok : t.status = 0x00)
    (hq : s.allocQ = fs.map some ++ t.allocQ) (hl : fs.length = t.res1.toNat) :
    s.WalksAfter t ∧ GoodPage c s.arg0 ∧ GoodFrame c s.arg1 ∧ GoodFlags c s.arg2 ∧
      (∀ f ∈ fs, IsFrame f) ∧ ∃ tb ws,
      ws = mapWrites s.arg0 c (nonLeafFlags s.arg2) (leafEntry c s.arg1 s.arg2) tb fs ∧
      s.MapSays s.arg0 c (.room tb fs.length) ∧ (∀ w ∈ ws, s.admits w.1 8 = true) ∧
      t.mem = s.mem.writeAll ws := by
  rw [exec_eq_next_bodyOf hf, bodyOf_mapTo] at hx
  cases hx
  rcases mapToBody_cases c s with ⟨hr, -, hp, hframe, hflags, he⟩ | h
  · rw [he] at hok hq hl ⊢
    obtain ⟨tb, fs', hroom, hfs, hadm, hres, hlisted⟩ := mapPhases_ok hv hok
    have hlen : fs.length = fs'.length := by
      have := hroom.1.le_four
      rw [hl, hres, BitVec.toNat_ofNat]
      omega
    obtain rfl := hlisted fs _ hq hlen
    obtain ⟨ps, -, hu⟩ := mapPhases_installs hv hroom hq hfs rfl hadm
    have hready : s.Ready := ⟨hf, hr, hv⟩
    rw [hu]
    exact ⟨hready.walksAfter_mutated .., hp, hframe, hflags,
      fun g hg => isFrame_of_validFrame (hfs g hg), tb, _, rfl, hroom, hadm, rfl⟩
  · exact absurd hok h.status_ne_ok

/-- Settles O44: the walk reaches the table with the entry that was absent, and from there the new
tables down to the leaf. -/
theorem mapThenTranslatePage : Obligations.MapThenTranslatePage := by
  intro c s t fs hf hv hx hok hpres hq hl hnodup hnew
  obtain ⟨⟨hready, hpage, htree⟩, hp, hframe, hflags, hfs, tb, ws, rfl, hroom, hadm, hm⟩ :=
    mapTo_ok hf hv hx hok hq hl
  have htb := Reaches.after_mapWrites htree hm hroom hfs hnew
  have hleaf := walkReads_leaf_of_mapWrites hm htb
    (fun w hw => (htree.admits_eq _ _).trans (hadm w hw)) hfs
    (List.nodup_cons.2 ⟨hnew _ tb hroom.1, hnodup⟩)
  obtain ⟨hpresent, hmatch, haddr, hflag⟩ := leafEntry_fields hframe hflags hpres
  rw [← hpage] at hp hleaf
  obtain ⟨ps, hu⟩ := SameButPorts.exec (i := Instr.translatePage c)
    (bodyOf_translatePage c ▸ translatePageBody_of_terminal hready hp hleaf fun s' pas hs => by
      rw [translateTerminal_aligned hpresent hmatch (haddr.symm ▸ hframe.2)]
      exact hs.finish_same hready.noRace .ok _ _ _ _ _) hready.noFault
  refine ⟨_, hu, rfl, haddr, rfl, hflag.trans ?_⟩
  cases c <;> rfl

end Sys2Proof.Machine
end

section
/-! The root hand-over, the flush token and who may issue, resolve or keep it (44_flush_root.md R230
to R235, 43_mapper.md R201), and which commands ask for a root. -/

namespace Sys2Proof.Machine

/-! ### SET_ROOT -/

/-- Settles O47: the one check of SET_ROOT is that of a physical address, so the 52 bits that ROOT
keeps are the whole operand. -/
theorem setRootResult : Obligations.SetRootResult := by
  refine ⟨rfl, fun s hf => ?_⟩
  rw [exec_eq_next_bodyOf hf]
  refine ⟨fun hp => congrArg _ (checkPhysical_answered hp _),
    fun hp => ⟨s.arg1.setWidth 52, ?_, congrArg _ (checkPhysical_pass hp)⟩⟩
  rw [BitVec.toNat_setWidth, Nat.mod_eq_of_lt hp]

/-! ### FLUSH_TOKEN and IGNORE_TOKEN -/

theorem resolveToken_without {s : State} (ht : s.tv = false) (flush : State → State) :
    resolveToken flush s = s.answered 0x0E 0 0 0 0 0 := if_neg (ht ▸ Bool.false_ne_true)

theorem resolveToken_with {s : State} (ht : s.tv = true) (flush : State → State) :
    resolveToken flush s =
      (flush s).clearToken.finish .ok s.tokenVa (s.tsz.setWidth 64) 0 0 0 := if_pos ht

/-- Settles O46: both commands resolve the token alike, but for the flush. -/
theorem tokenResolution : Obligations.TokenResolution := by
  refine ⟨rfl, rfl, fun s hf => ?_⟩
  rw [exec_eq_next_bodyOf hf, exec_eq_next_bodyOf hf]
  exact ⟨fun ht => ⟨congrArg _ (resolveToken_without ht _), congrArg _ (resolveToken_without ht _)⟩,
    fun ht => ⟨congrArg _ (resolveToken_with ht _), congrArg _ (resolveToken_with ht _)⟩⟩

theorem resolveToken_cases (flush : State → State) (s : State) :
    (s.tv = false ∧ resolveToken flush s = s.answered 0x0E 0 0 0 0 0) ∨
    (s.tv = true ∧ resolveToken flush s =
      (flush s).clearToken.finish .ok s.tokenVa (s.tsz.setWidth 64) 0 0 0) := by
  cases ht : s.tv with
  | false => exact .inl ⟨rfl, resolveToken_without ht flush⟩
  | true => exact .inr ⟨rfl, resolveToken_with ht flush⟩

theorem bodyOf_resolves {i : Instr} (hi : i = .flushToken ∨ i = .ignoreToken) :
    ∃ flush : State → State, bodyOf i = resolveToken flush ∧ ∀ s, (flush s).flt = s.flt := by
  rcases hi with rfl | rfl
  · exact ⟨flushTokenPage, rfl, fun _ => rfl⟩
  · exact ⟨flushNothing, rfl, fun _ => rfl⟩

/-! ### The commands that neither walk nor resolve the token -/

/-- How a command ends that neither walks nor resolves the token: with an answer other than NO_ROOT,
with the one read of TABLE_READ, performed or refused, or with a new root. -/
inductive OffTree (s : State) : State → Prop where
  | answered {st : Status} (h : st ≠ .noRoot) (r0 r1 r2 r3 r4 : Word) :
      OffTree s (s.finish st r0 r1 r2 r3 r4)
  | read (pa : Nat) (e : Word) : OffTree s ((s.readDone pa).finish .ok e 0 0 0 0)
  | refused : OffTree s (s.takeFault .busError)
  | rooted (r r0 : Word) : OffTree s ((s.setRoot r).finish .ok r0 0 0 0 0)

section
variable {s k : State}

theorem offTree_ok (s : State) (r0 r1 r2 r3 r4 : Word) :
    OffTree s (s.finish .ok r0 r1 r2 r3 r4) := .answered (by simp) ..

/-- A check that does not pass answers. -/
theorem OffTree.check {p : Prop} [Decidable p] {st : Status} {r0 r1 r2 r3 r4 : Word}
    (hk : OffTree s k) (h : st ≠ .noRoot) :
    OffTree s (if p then k else s.finish st r0 r1 r2 r3 r4) := by
  split
  · exact hk
  · exact .answered h ..

theorem checkCanonical_offTree (hk : OffTree s k) (v : Word) : OffTree s (checkCanonical s v k) :=
  hk.check (by simp)

theorem checkPhysical_offTree (hk : OffTree s k) (v : Word) : OffTree s (checkPhysical s v k) :=
  hk.check (by simp)

theorem checkPaAligned_offTree (hk : OffTree s k) (c : SizeClass) (v : Word) :
    OffTree s (checkPaAligned s c v k) := hk.check (by simp)

theorem checkFlags_offTree (hk : OffTree s k) (c : SizeClass) (f : Word) :
    OffTree s (checkFlags s c f k) := by
  unfold checkFlags
  split
  · exact .answered (by simp) ..
  · split
    · exact .answered (by simp) ..
    · exact hk

theorem exactAdd_offTree {k : Word → State} (hk : ∀ r, OffTree s (k r)) (a n : Word) :
    OffTree s (exactAdd s a n k) := (hk _).check (by simp)

theorem exactSub_offTree {k : Word → State} (hk : ∀ r, OffTree s (k r)) (a n : Word) :
    OffTree s (exactSub s a n k) := (hk _).check (by simp)

theorem checkAlignOperands_offTree (hk : OffTree s k) : OffTree s (checkAlignOperands s k) :=
  checkPhysical_offTree (hk.check (by simp)) _

end

/-- A result that must be canonical. -/
theorem checkedVa_offTree (s : State) (v r0 r1 r2 r3 r4 : Word) :
    OffTree s (checkCanonical s v (s.complete r0 r1 r2 r3 r4)) :=
  checkCanonical_offTree (offTree_ok ..) v

/-- A result that must be a physical address. -/
theorem checkedPa_offTree (s : State) (v r0 : Word) :
    OffTree s (checkPhysical s v (s.complete r0 0 0 0 0)) := checkPhysical_offTree (offTree_ok ..) v

theorem entryDecodeBody_offTree (s : State) : OffTree s (entryDecodeBody s) := by
  simp only [entryDecodeBody]
  split
  · exact .answered (by simp) ..
  · split
    · exact .answered (by simp) ..
    · exact offTree_ok ..

theorem entryEncodeBody_offTree (c : SizeClass) (s : State) : OffTree s (entryEncodeBody c s) :=
  checkPhysical_offTree (checkPaAligned_offTree (checkFlags_offTree (offTree_ok ..) _ _) _ _) _

theorem memRead_offTree (pa : Nat) (s : State) :
    OffTree s ((memRead pa s).run fun e s' => s'.complete e 0 0 0 0) := by
  cases hadm : s.admits pa 8 with
  | true => rw [memRead_of_admits hadm]; exact .read ..
  | false => rw [memRead_of_not_admits hadm]; exact .refused

theorem tableReadBody_offTree (s : State) : OffTree s (tableReadBody s) :=
  checkPhysical_offTree (checkPaAligned_offTree ((memRead_offTree ..).check (by simp)) _ _) _

theorem bodyOf_offTree {i : Instr} (hw : ¬Walks i) (hflush : i ≠ .flushToken)
    (hignore : i ≠ .ignoreToken) (s : State) : OffTree s (bodyOf i s) := by
  cases i with
  | vaTryNew | vaSplit => exact checkedVa_offTree ..
  | vaNewUnchecked => exact offTree_ok ..
  | vaAdd => exact checkCanonical_offTree (exactAdd_offTree (fun _ => checkedVa_offTree ..) _ _) _
  | vaSub => exact checkCanonical_offTree (exactSub_offTree (fun _ => checkedVa_offTree ..) _ _) _
  | paTryNew => exact checkedPa_offTree ..
  | paAdd => exact checkPhysical_offTree (exactAdd_offTree (fun _ => checkedPa_offTree ..) _ _) _
  | paSub => exact checkPhysical_offTree (exactSub_offTree (fun _ => offTree_ok ..) _ _) _
  | paIsAligned | paAlignDown => exact checkAlignOperands_offTree (offTree_ok ..)
  | paAlignUp => exact checkAlignOperands_offTree (checkedPa_offTree ..)
  | entryDecode => exact entryDecodeBody_offTree s
  | entryEncode4K | entryEncode2M | entryEncode1G => exact entryEncodeBody_offTree _ s
  | tableRead => exact tableReadBody_offTree s
  | setRoot => exact checkPhysical_offTree (.rooted ..) _
  | flushToken => exact absurd rfl hflush
  | ignoreToken => exact absurd rfl hignore
  | mapTo4K | identityMap4K | unmap4K | updateFlags4K =>
    exact absurd (.inl ⟨.s4K, by decide⟩) hw
  | mapTo2M | identityMap2M | unmap2M | updateFlags2M =>
    exact absurd (.inl ⟨.s2M, by decide⟩) hw
  | mapTo1G | identityMap1G | unmap1G | updateFlags1G =>
    exact absurd (.inl ⟨.s1G, by decide⟩) hw
  | translate => exact absurd (.inr (.inl rfl)) hw
  | translateAddr => exact absurd (.inr (.inr (.inl rfl))) hw
  | translatePage4K => exact absurd (.inr (.inr (.inr ⟨.s4K, rfl⟩))) hw
  | translatePage2M => exact absurd (.inr (.inr (.inr ⟨.s2M, rfl⟩))) hw
  | translatePage1G => exact absurd (.inr (.inr (.inr ⟨.s1G, rfl⟩))) hw

/-- While the sticky fault holds, these commands end with an answer too. -/
theorem exec_offTree {i : Instr} {s t : State} (hw : ¬Walks i) (hflush : i ≠ .flushToken)
    (hignore : i ≠ .ignoreToken) (h : exec i s = .next t) : OffTree s t := by
  cases hf : s.flt with
  | true =>
    rw [exec_eq_command, command_of_flt hf] at h
    cases h
    exact .answered (by simp) ..
  | false =>
    rw [exec_eq_next_bodyOf hf] at h
    cases h
    exact bodyOf_offTree hw hflush hignore s

/-! ### NO_ROOT -/

theorem code_eq_noRoot_iff (st : Status) : st.code = 0x10 ↔ st = .noRoot := by
  cases st <;> decide

theorem finish_status_ne_noRoot {s : State} {st : Status} {r0 r1 r2 r3 r4 : Word}
    (h : st ≠ .noRoot) : (s.finish st r0 r1 r2 r3 r4).status ≠ 0x10 :=
  mt (code_eq_noRoot_iff st).1 h

theorem OffTree.status_ne_noRoot {s t : State} (h : OffTree s t) : t.status ≠ 0x10 := by
  cases h with
  | answered h => exact finish_status_ne_noRoot h
  | refused => exact finish_status_ne_noRoot (st := .faulted) (by simp)
  | read | rooted => exact finish_status_ne_noRoot (by simp)

theorem resolveToken_status_ne_noRoot (flush : State → State) (s : State) :
    (resolveToken flush s).status ≠ 0x10 := by
  rcases resolveToken_cases flush s with ⟨-, he⟩ | ⟨-, he⟩ <;> rw [he]
  · exact finish_status_ne_noRoot (st := .noToken) (by simp)
  · exact finish_status_ne_noRoot (by simp)

/-- The commands that resolve the token answer OK, NO_TOKEN or FAULTED. -/
theorem exec_resolve_status {i : Instr} (hi : i = .flushToken ∨ i = .ignoreToken) {s t : State}
    (h : exec i s = .next t) : t.status ≠ 0x10 := by
  obtain ⟨flush, hb, -⟩ := bodyOf_resolves hi
  rw [exec_eq_command, hb] at h
  cases hf : s.flt with
  | true =>
    rw [command_of_flt hf] at h
    cases h
    exact finish_status_ne_noRoot (by simp)
  | false =>
    rw [command_of_not_flt hf] at h
    cases h
    exact resolveToken_status_ne_noRoot flush s

/-- Every command that walks first asks for a root. -/
theorem bodyOf_walks {i : Instr} (h : Walks i) (s : State) : ∃ k, bodyOf i s = withRoot s k := by
  rcases h with h | rfl | rfl | ⟨c, rfl⟩
  · obtain ⟨k, hk⟩ := bodyOf_mutates h s
    exact ⟨_, hk⟩
  · exact ⟨_, rfl⟩
  · exact ⟨_, rfl⟩
  · rw [bodyOf_translatePage]
    exact ⟨_, rfl⟩

/-- Settles O31: the walking commands begin with the check for a root, and no other command has
it. -/
theorem noRootAnswers : Obligations.NoRootAnswers := by
  refine ⟨fun i s hw hf hr => ?_, fun i s t hw h => ?_, rfl⟩
  · obtain ⟨k, hk⟩ := bodyOf_walks hw s
    rw [exec_eq_next_bodyOf hf, hk, withRoot_fail hr]
    rfl
  · by_cases hi : i = .flushToken ∨ i = .ignoreToken
    · exact exec_resolve_status hi h
    · obtain ⟨hflush, hignore⟩ := not_or.1 hi
      exact (exec_offTree hw hflush hignore h).status_ne_noRoot

/-! ### The commands that leave the token -/

/-- `t` has the token of `s`, or none as `s` has none. -/
def State.SameToken (s t : State) : Prop := t.tv = s.tv ∧ t.tokenVa = s.tokenVa ∧ t.tsz = s.tsz

theorem OffTree.sameToken {s t : State} (h : OffTree s t) : s.SameToken t := by
  cases h <;> exact ⟨rfl, rfl, rfl⟩

/-- Of the commands that walk, those that are no mapper commands only read. -/
theorem exec_sameToken_of_translates {i : Instr} {s t : State} (hw : Walks i) (hm : ¬Mutates i)
    (h : exec i s = .next t) : s.SameToken t := by
  obtain ⟨bound, hi⟩ : ∃ bound, i = .translate ∧ bound = 4 ∨ i = .translateAddr ∧ bound = 4 ∨
      ∃ c, i = Instr.translatePage c ∧ bound = 4 - terminalLevel c + 1 := by
    rcases hw with hw | rfl | rfl | ⟨c, rfl⟩
    · exact absurd hw hm
    · exact ⟨4, .inl ⟨rfl, rfl⟩⟩
    · exact ⟨4, .inr (.inl ⟨rfl, rfl⟩)⟩
    · exact ⟨_, .inr (.inr ⟨c, rfl, rfl⟩)⟩
  obtain ⟨-, -, -, -, -, -, htv, hva, hsz, -⟩ := translateFamilyOnlyReads i bound s t hi h
  exact ⟨htv, hva, hsz⟩

theorem exec_sameToken {i : Instr} {s t : State} (hm : ¬Mutates i) (hflush : i ≠ .flushToken)
    (hignore : i ≠ .ignoreToken) (h : exec i s = .next t) : s.SameToken t := by
  by_cases hw : Walks i
  · exact exec_sameToken_of_translates hw hm h
  · exact (exec_offTree hw hflush hignore h).sameToken

/-! ### The commands that issue the token -/

theorem State.SameToken.refl (s : State) : s.SameToken s := ⟨rfl, rfl, rfl⟩

theorem ReadsOnly.sameToken {s s' : State} {pas : List Nat} (h : ReadsOnly s s' pas) :
    s.SameToken s' := by rw [h]; exact ⟨rfl, rfl, rfl⟩

theorem AllocsOnly.sameToken {s s' u : State} {es : List PortEvent} (h : AllocsOnly s' u es)
    (hs : s.SameToken s') : s.SameToken u := by rw [h.1]; exact hs

theorem State.SameToken.storeWords {s s' : State} (h : s.SameToken s') (ws : List (Nat × Word)) :
    s.SameToken (s'.storeWords ws) := by rw [storeWords_eq]; exact h

/-- What a mapper command for page `va` of class `c` does to the token: while it is not OK, nothing;
where it is OK, there was none, and it issues one (43_mapper.md R201). -/
inductive IssuesIfOk (s : State) (c : SizeClass) (va : Word) : State → Prop where
  | kept {t : State} (notOk : t.status ≠ 0x00) (same : s.SameToken t) : IssuesIfOk s c va t
  | issued (free : s.tv = false) (s' : State) (r0 r1 : Word) :
      IssuesIfOk s c va ((s'.issueToken c va).finish .ok r0 r1 0 0 0)

section
variable {s s' : State} {c : SizeClass} {va : Word}

theorem IssuesIfOk.discipline {t : State} (h : IssuesIfOk s c va t) :
    (t.status = 0x00 → s.tv = false ∧ t.tv = true ∧ t.tokenVa = va ∧ t.tsz = c.code) ∧
    (t.status ≠ 0x00 → s.SameToken t) := by
  cases h with
  | kept notOk same => exact ⟨fun hok => absurd hok notOk, fun _ => same⟩
  | issued free => exact ⟨fun _ => ⟨free, rfl, rfl, rfl⟩, fun hno => absurd rfl hno⟩

theorem State.SameToken.finish_issues (hs : s.SameToken s') {st : Status} (h : st ≠ .ok)
    (r0 r1 r2 r3 r4 : Word) : IssuesIfOk s c va (s'.finish st r0 r1 r2 r3 r4) :=
  .kept (finish_status_ne_ok h) hs

theorem State.SameToken.takeFault_issues (hs : s.SameToken s') (cause : FaultCause) :
    IssuesIfOk s c va (s'.takeFault cause) := .kept (takeFault_status_ne_ok s' cause) hs

theorem Answers.issuesIfOk {t : State} (h : Answers s' t) (hs : s.SameToken s') :
    IssuesIfOk s c va t := by
  obtain ⟨st, r0, r1, r2, r3, r4, hok, -, rfl⟩ := h
  exact hs.finish_issues hok ..

theorem mapInstall_issuesIfOk (free : s.tv = false) (hs : s.SameToken s') (pa f t : Word)
    (n : Nat) : IssuesIfOk s c va (mapInstall c va pa f t n s') := by
  rcases mapInstall_cases c va pa f t n s' with
    ⟨fs, u, -, -, -, -, he⟩ | ⟨fs, u, -, -, hal, he⟩ | ⟨fs, g, u, -, -, hal, he⟩ |
    ⟨fs, u, pre, w, post, -, -, hal, -, -, -, he⟩ <;> rw [he]
  · exact .issued free ..
  · exact (hal.sameToken hs).finish_issues (by simp) ..
  · exact (hal.sameToken hs).takeFault_issues _
  · exact ((hal.sameToken hs).storeWords pre).takeFault_issues _

theorem mapPhases_issuesIfOk (free : s.tv = false) (pa f : Word) :
    IssuesIfOk s c va (mapPhases c va pa f s) := by
  obtain ⟨s', pas, hr, -, -, hcases⟩ := mapPhases_cases c va pa f s
  rcases hcases with ⟨-, he⟩ | ⟨l, e, -, -, -, -, he⟩ | ⟨e, -, -, he⟩ | ⟨t, n, -, -, -, he⟩ <;>
    rw [he]
  · exact hr.sameToken.takeFault_issues _
  · exact hr.sameToken.finish_issues (by simp) ..
  · exact hr.sameToken.finish_issues (by simp) ..
  · exact mapInstall_issuesIfOk free hr.sameToken pa f t n

end

theorem mapToBody_issuesIfOk (c : SizeClass) (s : State) :
    IssuesIfOk s c s.arg0 (mapToBody c s) := by
  rcases mapToBody_cases c s with ⟨-, free, -, -, -, he⟩ | h
  · rw [he]; exact mapPhases_issuesIfOk free _ _
  · exact h.issuesIfOk (.refl s)

theorem identityMapBody_issuesIfOk (c : SizeClass) (s : State) :
    IssuesIfOk s c s.arg1 (identityMapBody c s) := by
  rcases identityMapBody_cases c s with ⟨-, free, -, -, -, he⟩ | h
  · rw [he]; exact mapPhases_issuesIfOk free _ _
  · exact h.issuesIfOk (.refl s)

theorem unmapBody_issuesIfOk (c : SizeClass) (s : State) :
    IssuesIfOk s c s.arg0 (unmapBody c s) := by
  rcases unmapBody_cases c s with
    h | ⟨-, free, -, s', pas, hr, -, -, he | h | ⟨t, e, -, -, -, -, -, -, he⟩⟩
  · exact h.issuesIfOk (.refl s)
  · rw [he]; exact hr.sameToken.takeFault_issues _
  · exact h.issuesIfOk hr.sameToken
  · rw [he]; exact .issued free ..

theorem updateFlagsBody_issuesIfOk (c : SizeClass) (s : State) :
    IssuesIfOk s c s.arg0 (updateFlagsBody c s) := by
  rcases updateFlagsBody_cases c s with
    h | ⟨-, free, -, -, s', pas, hr, -, -, he | h | ⟨t, e, -, -, -, -, -, he⟩⟩
  · exact h.issuesIfOk (.refl s)
  · rw [he]; exact hr.sameToken.takeFault_issues _
  · exact h.issuesIfOk hr.sameToken
  · rw [he]; exact .issued free ..

/-- A mapper command for the page `va`: that in ARG0, or the frame of IDENTITY_MAP. -/
theorem bodyOf_issuesIfOk {i : Instr} {c : SizeClass} {s : State} {va : Word}
    (hi : (i = Instr.mapTo c ∨ i = Instr.unmap c ∨ i = Instr.updateFlags c) ∧ va = s.arg0 ∨
      i = Instr.identityMap c ∧ va = s.arg1) : IssuesIfOk s c va (bodyOf i s) := by
  rcases hi with ⟨rfl | rfl | rfl, rfl⟩ | ⟨rfl, rfl⟩
  · rw [bodyOf_mapTo]; exact mapToBody_issuesIfOk c s
  · rw [bodyOf_unmap]; exact unmapBody_issuesIfOk c s
  · rw [bodyOf_updateFlags]; exact updateFlagsBody_issuesIfOk c s
  · rw [bodyOf_identityMap]; exact identityMapBody_issuesIfOk c s

/-! ### The discipline -/

/-- An OK resolution had a token to resolve, and leaves none (44_flush_root.md R230, R231). -/
theorem resolve_ok {i : Instr} {s t : State} (hi : i = .flushToken ∨ i = .ignoreToken)
    (hf : s.flt = false) (h : exec i s = .next t) (hok : t.status = 0x00) :
    s.tv = true ∧ t.tv = false ∧ t.flt = false := by
  obtain ⟨flush, hb, hflt⟩ := bodyOf_resolves hi
  rw [exec_eq_next_bodyOf hf, hb] at h
  cases h
  rcases resolveToken_cases flush s with ⟨-, he⟩ | ⟨ht, he⟩ <;> rw [he] at hok ⊢
  · exact absurd hok (finish_status_ne_ok (st := .noToken) (by simp))
  · exact ⟨ht, rfl, (hflt s).trans hf⟩

/-- Settles O48: the mapper commands issue if they answer OK, the check for a token comes before
their walk, and a resolution leaves none for the next. -/
theorem tokenDiscipline : Obligations.TokenDiscipline := by
  refine ⟨fun i s t c va hf hi h => ?_,
    fun i s hi hf hr ht => (mapperChecksInOrder.1 i s hi hf).2 hr ht,
    fun i s t hm hflush hignore h => exec_sameToken hm hflush hignore h,
    fun i j s t hi hj hf h hok => ?_⟩
  · rw [exec_eq_next_bodyOf hf] at h
    cases h
    exact (bodyOf_issuesIfOk hi).discipline
  · obtain ⟨hs, ht, hft⟩ := resolve_ok hi hf h hok
    obtain ⟨flush, hb, -⟩ := bodyOf_resolves hj
    refine ⟨hs, ht, _, exec_eq_next_bodyOf hft j, ?_⟩
    rw [hb, resolveToken_without ht]
    rfl

end Sys2Proof.Machine
end

section
/-! The statements of 60_exceptions.md: how a command ends, by the status it answers, what the
sticky fault leaves, and that only a reset clears it (R252, R256, R257). -/

namespace Sys2Proof.Machine

/-! ### How a command ends -/

/-- How a command ends that the sticky fault does not stop: OK, with a status of its own after reads
only, with one of the two bad answers of the allocator after reads and allocator calls, or with a
refused access. What it has done before an OK or a refused access is said by `Effect`. -/
inductive Ends (s : State) : State → Prop where
  | ok (s' : State) (r0 r1 r2 r3 r4 : Word) : Ends s (s'.finish .ok r0 r1 r2 r3 r4)
  | answered {s' t : State} {pas : List Nat} (reads : ReadsOnly s s' pas) (answer : Answers s' t) :
      Ends s t
  | allocFailed {s' u : State} {pas : List Nat} {es : List PortEvent} (reads : ReadsOnly s s' pas)
      (allocs : AllocsOnly s' u es) (r0 r1 r2 r3 r4 : Word) :
      Ends s (u.finish .allocFailed r0 r1 r2 r3 r4)
  | allocProtocol {s' u : State} {pas : List Nat} {es : List PortEvent}
      (reads : ReadsOnly s s' pas) (allocs : AllocsOnly s' u es) :
      Ends s (u.takeFault .allocProtocol)
  | busError (s' : State) : Ends s (s'.takeFault .busError)

theorem Answers.ends {s t : State} (h : Answers s t) : Ends s t := .answered (.refl s) h

/-- A check ends as what follows it, or answers. -/
theorem Ends.of_check {s k t : State} {P : Prop} (h : (P ∧ t = k) ∨ Answers s t) (hk : Ends s k) :
    Ends s t := by
  rcases h with ⟨-, rfl⟩ | h
  · exact hk
  · exact h.ends

/-- A command that walks ends with a refused read, with an answer, or as its walk lets it. -/
theorem Ends.of_walk {s s' t : State} {pas : List Nat} {P : Prop} (hr : ReadsOnly s s' pas)
    (h : t = s'.takeFault .busError ∨ Answers s' t ∨ P) (hP : P → Ends s t) : Ends s t := by
  rcases h with rfl | h | h
  · exact .busError s'
  · exact .answered hr h
  · exact hP h

/-! ### The commands that neither walk nor access memory -/

theorem finish_ends {s : State} {st : Status} (hok : st ≠ .ok) (hfaulted : st ≠ .faulted)
    (r0 r1 r2 r3 r4 : Word) : Ends s (s.finish st r0 r1 r2 r3 r4) :=
  (Answers.of_finish hok hfaulted).ends

/-- A condition that does not hold answers. -/
theorem Ends.check {s k : State} {p : Prop} [Decidable p] {st : Status} {r0 r1 r2 r3 r4 : Word}
    (hk : Ends s k) (hok : st ≠ .ok) (hfaulted : st ≠ .faulted) :
    Ends s (if p then k else s.finish st r0 r1 r2 r3 r4) := by
  split
  · exact hk
  · exact finish_ends hok hfaulted ..

theorem exactAdd_ends {s : State} {k : Word → State} (hk : ∀ r, Ends s (k r)) (a n : Word) :
    Ends s (exactAdd s a n k) := (hk _).check (by simp) (by simp)

theorem exactSub_ends {s : State} {k : Word → State} (hk : ∀ r, Ends s (k r)) (a n : Word) :
    Ends s (exactSub s a n k) := (hk _).check (by simp) (by simp)

theorem checkAlignOperands_ends {s k : State} (hk : Ends s k) :
    Ends s (checkAlignOperands s k) :=
  .of_check (checkPhysical_cases ..) (hk.check (by simp) (by simp))

/-- A result that must be canonical. -/
theorem checkedVa_ends (s : State) (v r0 r1 r2 r3 r4 : Word) :
    Ends s (checkCanonical s v (s.complete r0 r1 r2 r3 r4)) :=
  .of_check (checkCanonical_cases ..) (.ok ..)

/-- A result that must be a physical address. -/
theorem checkedPa_ends (s : State) (v r0 : Word) :
    Ends s (checkPhysical s v (s.complete r0 0 0 0 0)) :=
  .of_check (checkPhysical_cases ..) (.ok ..)

theorem vaAddBody_ends (s : State) : Ends s (vaAddBody s) :=
  .of_check (checkCanonical_cases ..) (exactAdd_ends (fun _ => checkedVa_ends ..) _ _)

theorem vaSubBody_ends (s : State) : Ends s (vaSubBody s) :=
  .of_check (checkCanonical_cases ..) (exactSub_ends (fun _ => checkedVa_ends ..) _ _)

theorem paAddBody_ends (s : State) : Ends s (paAddBody s) :=
  .of_check (checkPhysical_cases ..) (exactAdd_ends (fun _ => checkedPa_ends ..) _ _)

theorem paSubBody_ends (s : State) : Ends s (paSubBody s) :=
  .of_check (checkPhysical_cases ..) (exactSub_ends (fun _ => .ok ..) _ _)

theorem entryDecodeBody_ends (s : State) : Ends s (entryDecodeBody s) := by
  simp only [entryDecodeBody]
  split
  · exact finish_ends (by simp) (by simp) ..
  · split
    · exact finish_ends (by simp) (by simp) ..
    · exact .ok ..

theorem entryEncodeBody_ends (c : SizeClass) (s : State) : Ends s (entryEncodeBody c s) :=
  .of_check (checkPhysical_cases ..) (.of_check (checkPaAligned_cases ..)
    (.of_check (checkFlags_cases ..) (.ok ..)))

theorem setRootBody_ends (s : State) : Ends s (setRootBody s) :=
  .of_check (checkPhysical_cases ..) (.ok ..)

theorem resolveToken_ends (flush : State → State) (s : State) : Ends s (resolveToken flush s) :=
  Ends.check (.ok ..) (by simp) (by simp)

/-! ### The commands that access memory -/

theorem tableReadBody_ends (s : State) : Ends s (tableReadBody s) := by
  rcases tableReadBody_cases s with h | ⟨-, -, ⟨-, he⟩ | ⟨-, he⟩⟩
  · exact h.ends
  · rw [he]; exact .busError s
  · rw [he]; exact .ok ..

theorem translatePageBody_ends (c : SizeClass) (s : State) : Ends s (translatePageBody c s) := by
  rcases translatePageBody_cases c s with h | ⟨-, -, s', pas, hr, -, -, hend⟩
  · exact h.ends
  · refine .of_walk hr hend ?_
    rintro ⟨e, -, -, -, -, he⟩
    rw [he]; exact .ok ..

/-- TRANSLATE and TRANSLATE_ADDR, for any completion that is OK. -/
theorem translateBody_ends {done : State → SizeClass → Word → Word → Word → State} {s : State}
    (hdone : ∀ s' c a off e, Ends s (done s' c a off e)) : Ends s (translateBody done s) := by
  rcases translateBody_cases done s with h | ⟨-, -, s', pas, hr, -, -, hend⟩
  · exact h.ends
  · refine .of_walk hr hend ?_
    rintro ⟨c, e, -, -, -, -, he⟩
    rw [he]; exact hdone ..

theorem unmapBody_ends (c : SizeClass) (s : State) : Ends s (unmapBody c s) := by
  rcases unmapBody_cases c s with h | ⟨-, -, -, s', pas, hr, -, -, hend⟩
  · exact h.ends
  · refine .of_walk hr hend ?_
    rintro ⟨t, e, -, -, -, -, -, -, he⟩
    rw [he]; exact .ok ..

theorem updateFlagsBody_ends (c : SizeClass) (s : State) : Ends s (updateFlagsBody c s) := by
  rcases updateFlagsBody_cases c s with h | ⟨-, -, -, -, s', pas, hr, -, -, hend⟩
  · exact h.ends
  · refine .of_walk hr hend ?_
    rintro ⟨t, e, -, -, -, -, -, he⟩
    rw [he]; exact .ok ..

/-- No table is written before every frame is allocated (43_mapper.md R191, R196). -/
theorem mapInstall_ends {s s' : State} {pas : List Nat} (hr : ReadsOnly s s' pas) (c : SizeClass)
    (va pa f t : Word) (n : Nat) : Ends s (mapInstall c va pa f t n s') := by
  rcases mapInstall_cases c va pa f t n s' with
    ⟨fs, u, -, -, -, -, he⟩ | ⟨fs, u, -, -, hal, he⟩ | ⟨fs, g, u, -, -, hal, he⟩ |
    ⟨fs, u, pre, w, post, -, -, -, -, -, -, he⟩ <;> rw [he]
  · exact .ok ..
  · exact .allocFailed hr hal ..
  · exact .allocProtocol hr hal
  · exact .busError _

theorem mapPhases_ends (c : SizeClass) (va pa f : Word) (s : State) :
    Ends s (mapPhases c va pa f s) := by
  obtain ⟨s', pas, hr, -, -, hcases⟩ := mapPhases_cases c va pa f s
  rcases hcases with ⟨-, he⟩ | ⟨l, e, -, -, -, -, he⟩ | ⟨e, -, -, he⟩ | ⟨t, n, -, -, -, he⟩ <;>
    rw [he]
  · exact .busError s'
  · exact .answered hr (.of_finish (by simp) (by simp))
  · exact .answered hr (.of_finish (by simp) (by simp))
  · exact mapInstall_ends hr ..

theorem mapToBody_ends (c : SizeClass) (s : State) : Ends s (mapToBody c s) := by
  rcases mapToBody_cases c s with ⟨-, -, -, -, -, he⟩ | h
  · rw [he]; exact mapPhases_ends ..
  · exact h.ends

theorem identityMapBody_ends (c : SizeClass) (s : State) : Ends s (identityMapBody c s) := by
  rcases identityMapBody_cases c s with ⟨-, -, -, -, -, he⟩ | h
  · rw [he]; exact mapPhases_ends ..
  · exact h.ends

/-! ### All commands -/

theorem bodyOf_ends (i : Instr) (s : State) : Ends s (bodyOf i s) := by
  cases i with
  | vaTryNew | vaSplit => exact checkedVa_ends ..
  | vaNewUnchecked => exact .ok ..
  | vaAdd => exact vaAddBody_ends s
  | vaSub => exact vaSubBody_ends s
  | paTryNew => exact checkedPa_ends ..
  | paAdd => exact paAddBody_ends s
  | paSub => exact paSubBody_ends s
  | paIsAligned | paAlignDown => exact checkAlignOperands_ends (.ok ..)
  | paAlignUp => exact checkAlignOperands_ends (checkedPa_ends ..)
  | entryDecode => exact entryDecodeBody_ends s
  | entryEncode4K | entryEncode2M | entryEncode1G => exact entryEncodeBody_ends _ s
  | tableRead => exact tableReadBody_ends s
  | mapTo4K | mapTo2M | mapTo1G => exact mapToBody_ends _ s
  | identityMap4K | identityMap2M | identityMap1G => exact identityMapBody_ends _ s
  | unmap4K | unmap2M | unmap1G => exact unmapBody_ends _ s
  | updateFlags4K | updateFlags2M | updateFlags1G => exact updateFlagsBody_ends _ s
  | translatePage4K | translatePage2M | translatePage1G => exact translatePageBody_ends _ s
  | translate | translateAddr => exact translateBody_ends fun _ _ _ _ _ => .ok ..
  | flushToken | ignoreToken => exact resolveToken_ends _ s
  | setRoot => exact setRootBody_ends s

/-! ### Statuses other than OK and FAULTED -/

theorem code_eq_faulted_iff (st : Status) : st.code = 0x12 ↔ st = .faulted := by
  cases st <;> decide

/-- `t` is `s` but for what a completion that is neither OK nor FAULTED may change
(60_exceptions.md R252). -/
def State.OnlyResults (s t : State) : Prop :=
  t = { s with
    status := t.status, res0 := t.res0, res1 := t.res1, res2 := t.res2, res3 := t.res3
    res4 := t.res4, ports := t.ports, allocQ := t.allocQ, allocCalls := t.allocCalls
    views := t.views }

theorem ReadsOnly.onlyResults_of_answers {s s' t : State} {pas : List Nat}
    (h : ReadsOnly s s' pas) (ha : Answers s' t) :
    s.OnlyResults t ∧ t.allocQ = s.allocQ ∧ t.allocCalls = s.allocCalls := by
  obtain ⟨st, r0, r1, r2, r3, r4, -, -, rfl⟩ := ha
  rw [h]
  exact ⟨rfl, rfl, rfl⟩

theorem AllocsOnly.onlyResults_finish {s s' u : State} {pas : List Nat} {es : List PortEvent}
    (ha : AllocsOnly s' u es) (hr : ReadsOnly s s' pas) (st : Status) (r0 r1 r2 r3 r4 : Word) :
    s.OnlyResults (u.finish st r0 r1 r2 r3 r4) := by
  rw [ha.1, hr]
  rfl

theorem Ends.onlyResults {s t : State} (h : Ends s t) (hok : t.status ≠ 0x00)
    (hfaulted : t.status ≠ 0x12) :
    s.OnlyResults t ∧ (t.status ≠ 0x04 → t.allocQ = s.allocQ ∧ t.allocCalls = s.allocCalls) := by
  cases h with
  | ok => exact absurd rfl hok
  | answered hr ha => exact (hr.onlyResults_of_answers ha).imp_right fun h _ => h
  | allocFailed hr hal => exact ⟨hal.onlyResults_finish hr .., fun h => absurd rfl h⟩
  | allocProtocol => exact absurd rfl hfaulted
  | busError => exact absurd rfl hfaulted

/-- Settles O54: while the sticky fault holds every command answers FAULTED, and else it ends in one
of the ways of `Ends`. -/
theorem notOkChangesOnlyResults : Obligations.NotOkChangesOnlyResults := by
  intro i s t h hok hfaulted
  rcases Bool.eq_false_or_eq_true s.flt with hf | hf
  · rw [exec_eq_command, command_of_flt hf] at h
    cases h
    exact absurd rfl hfaulted
  · rw [exec_eq_next_bodyOf hf] at h
    cases h
    exact (bodyOf_ends i s).onlyResults hok hfaulted

/-! ### While the sticky fault holds -/

/-- FLT and FCAUSE are in `t` as in `s`. -/
def State.SameFault (s t : State) : Prop := t.flt = s.flt ∧ t.fcause = s.fcause

theorem State.SameFault.refl (s : State) : s.SameFault s := ⟨rfl, rfl⟩

section
variable {s t : State}

theorem issueWord_sameFault (hf : s.flt = true) {w : CommandWord} (h : issueWord w s = .next t) :
    s.SameFault t := by
  rw [issueWord_of_flt hf] at h
  cases h
  exact ⟨rfl, rfl⟩

theorem hostWrite_sameFault (hf : s.flt = true) {slot : BitVec 4} {v : Word}
    (h : hostWrite slot v s = .next t) : s.SameFault t := by
  rcases hostWrite_cases h with ⟨-, rfl⟩ | ⟨-, rfl⟩ | ⟨-, rfl⟩ | ⟨-, h⟩ | ⟨-, rfl⟩
  · exact ⟨rfl, rfl⟩
  · exact ⟨rfl, rfl⟩
  · exact ⟨rfl, rfl⟩
  · exact issueWord_sameFault (s := s.clearPorts) hf h
  · exact .refl t

theorem missPath_sameFault (hf : s.flt = true) {va : Word} (h : missPath va s = .next t) :
    s.SameFault t := by
  obtain ⟨u, hu, rfl⟩ := missPath_cases h
  exact issueWord_sameFault (s := { s.clearPorts with arg0 := va }) (t := u) hf hu

theorem coreAccess_sameFault (hf : s.flt = true) {va : Word} {cached : Option Nat}
    (h : coreAccess va cached s = .next t) : s.SameFault t := by
  rcases coreAccess_cases h with ⟨e, -, rfl⟩ | ⟨-, h⟩
  · exact ⟨rfl, rfl⟩
  · exact missPath_sameFault hf h

theorem startCommand_sameFault (hf : s.flt = true) {source : CommandSource}
    (h : startCommand source s = .next t) : s.SameFault t := by
  cases source with
  | host w => exact issueWord_sameFault (s := s.clearPorts) hf h
  | core va => exact missPath_sameFault hf h

theorem raceCommand_sameFault (hf : s.flt = true) {source : CommandSource}
    {rs : List RacingWrite} {draws : List (List Bool)}
    (h : raceCommand source rs draws none s = .next t) : s.SameFault t := by
  obtain ⟨-, u, hu, rfl⟩ := raceCommand_cases h
  exact startCommand_sameFault (s := { s with views := draws.map (seenWrites rs) }) (t := u) hf hu

theorem hostAccess_sameFault {u : State} {pa : Word} {n : Nat} (h : hostAccess pa n u = .next t)
    (hu : s.SameFault u) : s.SameFault t := by
  obtain ⟨-, rfl⟩ := hostAccess_cases h
  exact hu

/-- No action but a reset, between commands or in one, changes a fault that holds
(60_exceptions.md R257). -/
theorem act_sameFault {a : Action} (hf : s.flt = true) (hreset : a ≠ .reset)
    (hduring : ∀ w n, a ≠ .resetDuring w n)
    (hrace : ∀ source rs draws n, a ≠ .race source rs draws (some n))
    (h : act a s = .next t) : s.SameFault t := by
  cases a with
  | write slot v => exact hostWrite_sameFault hf h
  | read slot => cases h; exact ⟨rfl, rfl⟩
  | memWrite | memRead | memWriteByte | memReadByte => exact hostAccess_sameFault h ⟨rfl, rfl⟩
  | writeIfOk slot v =>
    simp only [act] at h
    split at h
    · exact hostWrite_sameFault hf h
    · cases h; exact .refl s
  | haltUnlessOk =>
    cases h
    split
    · exact .refl s
    · exact ⟨rfl, rfl⟩
  | reset => exact absurd rfl hreset
  | resetDuring w n => exact absurd rfl (hduring w n)
  | race source rs draws reset =>
    cases reset with
    | none => exact raceCommand_sameFault hf h
    | some n => exact absurd rfl (hrace source rs draws n)
  | access va cached => exact coreAccess_sameFault hf h
  | tlbFill n => cases h; exact ⟨tlbFill_flt s n, tlbFill_fcause s n⟩
  | tlbEvict | tlbInvalidate => cases h; exact ⟨rfl, rfl⟩

end

/-- Settles O8: words and commands meet the common check first, and so does every command that an
action starts. -/
theorem stickyFault : Obligations.StickyFault := by
  refine ⟨fun s v rest hf hp => ?_, fun i s hf => ?_,
    fun s t a rest hf hp hreset hduring hrace h => ?_, fun s rest hp => ?_⟩
  · exact (step_cmd hp).trans (issueWord_of_flt (s := { s with pending := rest, ports := [] }) hf _)
  · rw [exec_eq_command, command_of_flt hf]
    rfl
  · rw [step_of_pending hp] at h
    obtain ⟨hflt, hcause⟩ :=
      act_sameFault (s := { s with pending := rest }) hf hreset hduring hrace h
    exact ⟨hflt.trans hf, hcause⟩
  · exact ⟨_, step_of_pending hp, rfl, rfl⟩

/-! ### Taking the sticky fault -/

theorem PortsOnly.sameFault {s s' : State} (h : PortsOnly s s') : s.SameFault s' := by
  obtain ⟨es, q, k, rfl, -⟩ := h
  exact ⟨rfl, rfl⟩

/-- A command takes the sticky fault after port operations, or leaves FLT and FCAUSE. -/
theorem Effect.fault_cases {s t : State} (h : Effect s t) :
    s.SameFault t ∨ ∃ s' cause, PortsOnly s s' ∧ t = s'.takeFault cause := by
  cases h with
  | completed hs => exact .inl hs.sameFault
  | faulted hs cause => exact .inr ⟨_, cause, hs, rfl⟩
  | issued hs => exact .inl hs.sameFault
  | offered hs => exact .inl hs.sameFault
  | ignored | flushed | rooted => exact .inl ⟨rfl, rfl⟩

theorem Answers.status_ne_faulted {s t : State} (h : Answers s t) : t.status ≠ 0x12 := by
  obtain ⟨st, r0, r1, r2, r3, r4, -, hfaulted, rfl⟩ := h
  exact mt (code_eq_faulted_iff st).1 hfaulted

/-- A command that answers FAULTED without meeting the fault has taken it, and ALLOC_PROTOCOL comes
before every write (20_memory.md R64). -/
theorem Ends.of_faulted {s t : State} (h : Ends s t) (hst : t.status = 0x12) :
    t.flt = true ∧ (t.fcause = 0x02 → t.mem = s.mem) := by
  cases h with
  | ok | allocFailed => exact absurd hst (by rw [finish_status]; decide)
  | answered _ ha => exact absurd hst ha.status_ne_faulted
  | allocProtocol hr hal => exact ⟨rfl, fun _ => hal.mem_eq.trans hr.mem_eq⟩
  | busError => exact ⟨rfl, fun hc => absurd hc (by rw [takeFault_fcause]; decide)⟩

theorem causeCode_cases (cause : FaultCause) : cause.code = 0x01 ∨ cause.code = 0x02 := by
  cases cause with
  | busError => exact .inl rfl
  | allocProtocol => exact .inr rfl

/-- Settles O55: the frame of the fault is that of port operations, and FAULTED is answered by no
other end. -/
theorem faultKeepsTokenAndRoot : Obligations.FaultKeepsTokenAndRoot := by
  intro i s t hf h
  have heffect := exec_effect h
  rw [exec_eq_next_bodyOf hf] at h
  cases h
  have hends := bodyOf_ends i s
  rcases heffect.fault_cases with ⟨hflt, hcause⟩ | ⟨s', cause, hs, he⟩
  · have hno : (bodyOf i s).flt ≠ true := by simp [hflt, hf]
    exact ⟨⟨fun ht => absurd ht hno, fun hst => (hends.of_faulted hst).1⟩, fun _ => hcause,
      fun ht => absurd ht hno⟩
  · rw [he] at hends ⊢
    obtain ⟨-, hmem⟩ := hends.of_faulted rfl
    obtain ⟨es, q, k, rfl, -⟩ := hs
    exact ⟨⟨fun _ => rfl, fun _ => rfl⟩, nofun, fun _ => ⟨causeCode_cases cause, rfl, rfl, rfl, rfl,
      rfl, rfl, rfl, rfl, rfl, rfl, rfl, rfl, rfl, rfl, hmem⟩⟩

end Sys2Proof.Machine
end

section
/-! The statements of 70_reset_and_hazards.md: which port events each command makes, that replaying
them gives what the command did to memory, allocator and TLB, and with that a reset in mid-command
(R280, R281) and the access counts (R292). -/

namespace Sys2Proof.Machine

/-! ### What port events act on -/

/-- Memory, allocator, TLB and the record of port events: what port events read and change, except
for the translations on offer. -/
def State.platform (s : State) :
    Memory × List (Option Word) × Nat × List TlbEntry × List PortEvent :=
  (s.mem, s.allocQ, s.allocCalls, s.tlb, s.ports)

theorem platform_eq_iff {s t : State} :
    s.platform = t.platform ↔ s.mem = t.mem ∧ s.allocQ = t.allocQ ∧ s.allocCalls = t.allocCalls ∧
      s.tlb = t.tlb ∧ s.ports = t.ports := by
  simp [State.platform]

theorem ports_eq_of_platform {s t : State} (h : s.platform = t.platform) : s.ports = t.ports := by
  obtain ⟨-, -, -, -, hports⟩ := platform_eq_iff.1 h
  exact hports

theorem platform_replayEvent {s t : State} (h : s.platform = t.platform) (e : PortEvent) :
    (s.replayEvent e).platform = (t.replayEvent e).platform := by
  rw [platform_eq_iff] at h ⊢
  obtain ⟨hmem, hqueue, hcalls, htlb, hports⟩ := h
  cases e with
  | read pa => simp [State.replayEvent, *]
  | write pa v => simp [State.replayEvent, *]
  | alloc a =>
    simp only [State.replayEvent, State.takeAnswer, hqueue, hcalls]
    split <;> simp [*]
  | flush va => simp [State.replayEvent, *]

theorem platform_replay {s t : State} (h : s.platform = t.platform) (es : List PortEvent) :
    (s.replay es).platform = (t.replay es).platform := by
  induction es generalizing s t with
  | nil => exact h
  | cons e es ih => exact ih (platform_replayEvent h e)

@[simp] theorem finish_platform (s : State) (st : Status) (r0 r1 r2 r3 r4 : Word) :
    (s.finish st r0 r1 r2 r3 r4).platform = s.platform := rfl

theorem Answers.platform_eq {s t : State} (h : Answers s t) : t.platform = s.platform := by
  obtain ⟨st, r0, r1, r2, r3, r4, -, -, rfl⟩ := h; rfl

/-- A condition that does not hold answers. -/
theorem platform_of_check {s k : State} {p : Prop} [Decidable p] {st : Status}
    {r0 r1 r2 r3 r4 : Word} (hk : k.platform = s.platform) :
    (if p then k else s.finish st r0 r1 r2 r3 r4).platform = s.platform := by
  split
  · exact hk
  · rfl

theorem checkFlags_platform {s k : State} (hk : k.platform = s.platform) (c : SizeClass)
    (f : Word) : (checkFlags s c f k).platform = s.platform := by
  rcases checkFlags_cases s k c f with ⟨-, he⟩ | h
  · rw [he]; exact hk
  · exact h.platform_eq

theorem entryDecodeBody_platform (s : State) : (entryDecodeBody s).platform = s.platform := by
  simp only [entryDecodeBody]
  split
  · rfl
  · split <;> rfl

/-! ### Performing port events -/

/-- What `t` has done to the platform in `s` is what the port events `es`, oldest first, do to it,
and they are what the record shows. -/
def State.Performs (s t : State) (es : List PortEvent) : Prop :=
  t.platform = (s.replay es).platform ∧ t.ports = es.reverse ++ s.ports

section
variable {s s' t : State}

theorem performs_nil (h : t.platform = s.platform) : s.Performs t [] :=
  ⟨h, ports_eq_of_platform h⟩

theorem State.Performs.congr {es : List PortEvent} (h : s.Performs s' es)
    (ht : t.platform = s'.platform) : s.Performs t es :=
  ⟨ht.trans h.1, (ports_eq_of_platform ht).trans h.2⟩

theorem State.Performs.trans {es es' : List PortEvent} (h : s.Performs s' es)
    (h' : s'.Performs t es') : s.Performs t (es ++ es') := by
  obtain ⟨hplatform, hports⟩ := h
  obtain ⟨hplatform', hports'⟩ := h'
  refine ⟨?_, by rw [hports', hports, List.reverse_append, List.append_assoc]⟩
  rw [replay_append, hplatform', platform_replay hplatform]

theorem ReadsOnly.performs {pas : List Nat} (h : ReadsOnly s s' pas) :
    s.Performs s' (pas.reverse.map .read) := by
  rw [h]
  exact ⟨by rw [replay_reads]; simp [State.platform], by simp⟩

theorem AllocsOnly.performs {es : List PortEvent} (h : AllocsOnly s s' es) :
    s.Performs s' es.reverse := by
  obtain ⟨hports, hreplay⟩ := h
  exact ⟨congrArg State.platform hreplay, by rw [hports, List.reverse_reverse]⟩

theorem storeWords_performs (s : State) (ws : List (Nat × Word)) :
    s.Performs (s.storeWords ws) (ws.map fun w => .write w.1 w.2) :=
  ⟨by rw [replay_writes], by simp [storeWords_eq]⟩

end

/-! ### The rows of the table of accesses -/

/-- How many writes a command makes (70_reset_and_hazards.md R292). -/
inductive WriteRule where
  | never
  | once
  | tables

/-- The write rule for a command that ends in `t` after so many allocator calls and writes. -/
def WriteRule.Allows (rule : WriteRule) (t : State) (allocs writes : Nat) : Prop :=
  match rule with
  | .never => writes = 0
  | .once => writes = if t.status = 0x00 then 1 else 0
  | .tables =>
    (t.status = 0x00 → writes = 513 * t.res1.toNat + 1 ∧ allocs = t.res1.toNat) ∧
    (t.status ≠ 0x00 → t.status ≠ 0x12 → writes = 0)

theorem WriteRule.allows_no_write (rule : WriteRule) {t : State} (h : t.status ≠ 0x00)
    (allocs : Nat) : rule.Allows t allocs 0 := by
  cases rule with
  | never => rfl
  | once => exact (if_neg h).symm
  | tables => exact ⟨fun hok => absurd hok h, fun _ _ => rfl⟩

theorem WriteRule.tables_allows_of_faulted {t : State} (h : t.status = 0x12) (allocs writes : Nat) :
    WriteRule.tables.Allows t allocs writes :=
  ⟨fun hok => absurd (h.symm.trans hok) (by decide), fun _ hf => absurd h hf⟩

/-- A row of the table of accesses (70_reset_and_hazards.md R292): the most reads, the most
allocator calls, and the rule for the writes. -/
structure AccessRow where
  reads : Nat
  allocs : Nat
  writes : WriteRule

/-- A command that accesses nothing. -/
def AccessRow.silent : AccessRow := ⟨0, 0, .never⟩

/-- A command that walks to the terminal level of its class. -/
def AccessRow.walking (c : SizeClass) (allocs : Nat) (writes : WriteRule) : AccessRow :=
  ⟨4 - terminalLevel c + 1, allocs, writes⟩

/-- The port events of a command other than FLUSH_TOKEN, oldest first: reads, then allocator calls,
then writes. -/
def accessEvents (pas : List Nat) (answers : List (Option Word)) (ws : List (Nat × Word)) :
    List PortEvent :=
  pas.map .read ++ answers.map .alloc ++ ws.map fun w => .write w.1 w.2

/-- `t` ends a command in `s` whose accesses keep to the row. -/
def State.Makes (s : State) (row : AccessRow) (t : State) : Prop :=
  ∃ pas answers ws, pas.length ≤ row.reads ∧ answers.length ≤ row.allocs ∧
    row.writes.Allows t answers.length ws.length ∧ s.Performs t (accessEvents pas answers ws)

section
variable {s s' u t : State} {row : AccessRow} {pas : List Nat}

theorem makes_silent (h : t.platform = s.platform) : s.Makes .silent t :=
  ⟨[], [], [], Nat.le_refl 0, Nat.le_refl 0, rfl, performs_nil h⟩

theorem storeWords_singleton (s : State) (pa : Nat) (v : Word) :
    s.storeWords [(pa, v)] = s.storeWord pa v := rfl

/-- The three phases of a command: reads, then allocator calls, then writes. -/
theorem makes_of_phases {es : List PortEvent} {answers : List (Option Word)}
    {ws : List (Nat × Word)} (hr : ReadsOnly s s' pas) (hl : pas.length ≤ row.reads)
    (ha : AllocsOnly s' u es) (hes : es.reverse = answers.map .alloc)
    (hal : answers.length ≤ row.allocs) (hw : row.writes.Allows t answers.length ws.length)
    (ht : t.platform = (u.storeWords ws).platform) : s.Makes row t := by
  refine ⟨pas.reverse, answers, ws, by simpa using hl, hal, hw, ?_⟩
  have hall := (hr.performs.trans ha.performs).trans (storeWords_performs u ws)
  rw [hes] at hall
  exact hall.congr ht

theorem ReadsOnly.makes_stores (hr : ReadsOnly s s' pas) (hl : pas.length ≤ row.reads)
    {ws : List (Nat × Word)} (hw : row.writes.Allows t 0 ws.length)
    (ht : t.platform = (s'.storeWords ws).platform) : s.Makes row t :=
  makes_of_phases (answers := []) hr hl (.refl s') rfl (Nat.zero_le _) hw ht

theorem ReadsOnly.makes (hr : ReadsOnly s s' pas) (hl : pas.length ≤ row.reads)
    (hw : row.writes.Allows t 0 0) (ht : t.platform = s'.platform) : s.Makes row t :=
  hr.makes_stores (ws := []) hl hw ht

theorem ReadsOnly.makes_fault (hr : ReadsOnly s s' pas) (hl : pas.length ≤ row.reads) :
    s.Makes row (s'.takeFault .busError) :=
  hr.makes hl (row.writes.allows_no_write (takeFault_status_ne_ok _ _) 0) rfl

theorem Answers.makes_after (h : Answers s' t) (hr : ReadsOnly s s' pas)
    (hl : pas.length ≤ row.reads) : s.Makes row t :=
  hr.makes hl (row.writes.allows_no_write h.status_ne_ok 0) h.platform_eq

theorem Answers.makes (h : Answers s t) : s.Makes row t :=
  h.makes_after (.refl s) (Nat.zero_le _)

theorem makes_of_faulted (s : State) (row : AccessRow) : s.Makes row s.raiseFaulted :=
  (ReadsOnly.refl s).makes (Nat.zero_le _)
    (row.writes.allows_no_write (finish_status_ne_ok (st := .faulted) (by simp)) 0) rfl

end

/-! ### The commands that access memory -/

theorem tableReadBody_makes (s : State) : s.Makes ⟨1, 0, .never⟩ (tableReadBody s) := by
  rcases tableReadBody_cases s with h | ⟨-, -, ⟨-, he⟩ | ⟨-, he⟩⟩
  · exact h.makes
  · rw [he]; exact (ReadsOnly.refl s).makes_fault (Nat.zero_le _)
  · rw [he]; exact ((ReadsOnly.refl s).readDone _).makes (Nat.le_refl 1) rfl rfl

theorem EndsAfterReads.makes {s t : State} {bound : Nat} (h : EndsAfterReads s bound t) :
    s.Makes ⟨bound, 0, .never⟩ t := by
  cases h with
  | answered hr hl => exact hr.makes hl rfl rfl
  | offered hr hl => exact hr.makes hl rfl rfl
  | refused hr hl => exact hr.makes_fault hl

theorem translate_makes (s : State) : s.Makes ⟨4, 0, .never⟩ (translateBody translateDone s) :=
  (translateBody_endsAfterReads fun _ _ _ _ _ _ hr hl => .offered hr hl ..).makes

theorem translateAddr_makes (s : State) :
    s.Makes ⟨4, 0, .never⟩ (translateBody translateAddrDone s) :=
  (translateBody_endsAfterReads fun _ _ _ _ _ _ hr hl => .answered hr hl ..).makes

theorem translatePageBody_makes (c : SizeClass) (s : State) :
    s.Makes (.walking c 0 .never) (translatePageBody c s) :=
  (translatePageBody_endsAfterReads c s).makes

theorem unmapBody_makes (c : SizeClass) (s : State) :
    s.Makes (.walking c 0 .once) (unmapBody c s) := by
  rcases unmapBody_cases c s with
    h | ⟨-, -, -, s', pas, hr, hl, -, he | h | ⟨t, e, -, -, -, -, -, -, he⟩⟩
  · exact h.makes
  · rw [he]; exact hr.makes_fault hl
  · exact h.makes_after hr hl
  · rw [he]
    exact hr.makes_stores (ws := [(entryPa (terminalLevel c) s.arg0 t, 0)]) hl rfl
      (by rw [storeWords_singleton]; rfl)

theorem updateFlagsBody_makes (c : SizeClass) (s : State) :
    s.Makes (.walking c 0 .once) (updateFlagsBody c s) := by
  rcases updateFlagsBody_cases c s with
    h | ⟨-, -, -, -, s', pas, hr, hl, -, he | h | ⟨t, e, -, -, -, -, -, he⟩⟩
  · exact h.makes
  · rw [he]; exact hr.makes_fault hl
  · exact h.makes_after hr hl
  · rw [he]; exact hr.makes_stores (ws := [(_, _)]) hl rfl rfl

/-- Phases 2 and 3 of MAP_TO for `n` missing tables: at most `n` allocator calls, and, once all
frames are obtained, the writes of `mapWrites` or those before the first refused one. -/
theorem mapInstall_makes {s s' : State} {pas : List Nat} {c : SizeClass} {n : Nat}
    (hr : ReadsOnly s s' pas) (hl : pas.length ≤ 4 - terminalLevel c + 1)
    (hn : n ≤ 4 - terminalLevel c) (va pa f t : Word) :
    s.Makes (.walking c (4 - terminalLevel c) .tables) (mapInstall c va pa f t n s') := by
  rcases mapInstall_cases c va pa f t n s' with
    ⟨fs, u, rfl, -, hal, -, he⟩ | ⟨fs, u, hlt, -, hal, he⟩ | ⟨fs, g, u, hlt, -, hal, he⟩ |
    ⟨fs, u, pre, w, post, rfl, -, hal, -, -, -, he⟩ <;> rw [he]
  · have hres : (BitVec.ofNat 64 fs.length).toNat = fs.length := by
      rw [BitVec.toNat_ofNat]; omega
    refine makes_of_phases (answers := fs.map some) hr hl hal (by simp)
      (by simpa [AccessRow.walking] using hn)
      ⟨fun _ => ?_, fun hok => absurd rfl hok⟩ rfl
    rw [finish_res1, hres, mapWrites_length, List.length_map]
    exact ⟨rfl, rfl⟩
  · exact makes_of_phases (answers := fs.map some ++ [none]) (ws := []) hr hl hal (by simp)
      (by simp [AccessRow.walking]; omega)
      (WriteRule.allows_no_write _ (finish_status_ne_ok (by simp)) _) rfl
  · exact makes_of_phases (answers := fs.map some ++ [some g]) (ws := []) hr hl hal (by simp)
      (by simp [AccessRow.walking]; omega)
      (WriteRule.allows_no_write _ (takeFault_status_ne_ok _ _) _) rfl
  · exact makes_of_phases (answers := fs.map some) (ws := pre) hr hl hal (by simp)
      (by simpa [AccessRow.walking] using hn) (WriteRule.tables_allows_of_faulted rfl ..) rfl

theorem mapPhases_makes (c : SizeClass) (va pa f : Word) (s : State) :
    s.Makes (.walking c (4 - terminalLevel c) .tables) (mapPhases c va pa f s) := by
  obtain ⟨s', pas, hr, hl, -, hcases⟩ := mapPhases_cases c va pa f s
  rcases hcases with ⟨-, he⟩ | ⟨l, e, -, -, -, -, he⟩ | ⟨e, -, -, he⟩ |
    ⟨t, n, ⟨-, hlevel, -⟩, -, -, he⟩ <;> rw [he]
  · exact hr.makes_fault hl
  · exact (Answers.of_finish (by simp) (by simp)).makes_after hr hl
  · exact (Answers.of_finish (by simp) (by simp)).makes_after hr hl
  · exact mapInstall_makes hr hl (by omega) ..

theorem mapToBody_makes (c : SizeClass) (s : State) :
    s.Makes (.walking c (4 - terminalLevel c) .tables) (mapToBody c s) := by
  rcases mapToBody_cases c s with ⟨-, -, -, -, -, he⟩ | h
  · rw [he]; exact mapPhases_makes ..
  · exact h.makes

theorem identityMapBody_makes (c : SizeClass) (s : State) :
    s.Makes (.walking c (4 - terminalLevel c) .tables) (identityMapBody c s) := by
  rcases identityMapBody_cases c s with ⟨-, -, -, -, -, he⟩ | h
  · rw [he]; exact mapPhases_makes ..
  · exact h.makes

/-! ### All commands -/

/-- The row of a command (70_reset_and_hazards.md R292). FLUSH_TOKEN, which is no row of
accesses, has `exec_flushToken_performs` instead. -/
def accessRow : Instr → AccessRow
  | .tableRead => ⟨1, 0, .never⟩
  | .translate | .translateAddr => ⟨4, 0, .never⟩
  | .translatePage4K => .walking .s4K 0 .never
  | .translatePage2M => .walking .s2M 0 .never
  | .translatePage1G => .walking .s1G 0 .never
  | .unmap4K | .updateFlags4K => .walking .s4K 0 .once
  | .unmap2M | .updateFlags2M => .walking .s2M 0 .once
  | .unmap1G | .updateFlags1G => .walking .s1G 0 .once
  | .mapTo4K | .identityMap4K => .walking .s4K 3 .tables
  | .mapTo2M | .identityMap2M => .walking .s2M 2 .tables
  | .mapTo1G | .identityMap1G => .walking .s1G 1 .tables
  | _ => .silent

theorem bodyOf_makes {i : Instr} (hi : i ≠ .flushToken) (s : State) :
    s.Makes (accessRow i) (bodyOf i s) := by
  cases i with
  | vaTryNew | vaSplit | paTryNew | setRoot => exact makes_silent (platform_of_check rfl)
  | vaNewUnchecked => exact makes_silent rfl
  | vaAdd | vaSub | paAdd | paAlignUp =>
    exact makes_silent (platform_of_check (platform_of_check (platform_of_check rfl)))
  | paSub => exact makes_silent (platform_of_check (platform_of_check (finish_platform ..)))
  | paIsAligned | paAlignDown => exact makes_silent (platform_of_check (platform_of_check rfl))
  | entryDecode => exact makes_silent (entryDecodeBody_platform s)
  | entryEncode4K | entryEncode2M | entryEncode1G =>
    exact makes_silent (platform_of_check (platform_of_check
      (checkFlags_platform (finish_platform ..) ..)))
  | tableRead => exact tableReadBody_makes s
  | mapTo4K | mapTo2M | mapTo1G => exact mapToBody_makes _ s
  | identityMap4K | identityMap2M | identityMap1G => exact identityMapBody_makes _ s
  | unmap4K | unmap2M | unmap1G => exact unmapBody_makes _ s
  | updateFlags4K | updateFlags2M | updateFlags1G => exact updateFlagsBody_makes _ s
  | translatePage4K | translatePage2M | translatePage1G => exact translatePageBody_makes _ s
  | translate => exact translate_makes s
  | translateAddr => exact translateAddr_makes s
  | flushToken => exact absurd rfl hi
  | ignoreToken => exact makes_silent (platform_of_check rfl)

theorem flushTokenBody_performs (s : State) :
    ∃ es, (es = [] ∨ ∃ va, es = [.flush va]) ∧ s.Performs (resolveToken flushTokenPage s) es := by
  rcases resolveToken_cases flushTokenPage s with ⟨-, he⟩ | ⟨-, he⟩
  · rw [he]; exact ⟨[], .inl rfl, performs_nil rfl⟩
  · rw [he]; exact ⟨_, .inr ⟨s.tokenVa, rfl⟩, rfl, rfl⟩

/-- A command answers FAULTED, while the sticky fault holds, or runs its body. -/
theorem exec_next_cases {i : Instr} {s t : State} (h : exec i s = .next t) :
    t = s.raiseFaulted ∨ t = bodyOf i s := by
  cases hf : s.flt with
  | true =>
    rw [exec_eq_command, command_of_flt hf] at h
    cases h
    exact .inl rfl
  | false =>
    rw [exec_eq_next_bodyOf hf] at h
    cases h
    exact .inr rfl

theorem exec_makes {i : Instr} {s t : State} (hi : i ≠ .flushToken) (h : exec i s = .next t) :
    s.Makes (accessRow i) t := by
  rcases exec_next_cases h with rfl | rfl
  · exact makes_of_faulted s _
  · exact bodyOf_makes hi s

theorem exec_flushToken_performs {s t : State} (h : exec .flushToken s = .next t) :
    ∃ es, (es = [] ∨ ∃ va, es = [.flush va]) ∧ s.Performs t es := by
  rcases exec_next_cases h with rfl | rfl
  · exact ⟨[], .inl rfl, performs_nil rfl⟩
  · exact flushTokenBody_performs s

/-- What every command does to the platform, its port events do. -/
theorem exec_performs {i : Instr} {s t : State} (h : exec i s = .next t) :
    ∃ es, s.Performs t es := by
  by_cases hi : i = .flushToken
  · subst hi
    obtain ⟨es, -, hes⟩ := exec_flushToken_performs h
    exact ⟨es, hes⟩
  · obtain ⟨pas, answers, ws, -, -, -, hes⟩ := exec_makes hi h
    exact ⟨_, hes⟩

theorem issueWord_performs {w : CommandWord} {s t : State} (h : issueWord w s = .next t) :
    ∃ es, s.Performs t es := by
  rcases issueWord_cases h with ⟨-, rfl⟩ | ⟨-, -, rfl⟩ | ⟨-, i, -, he⟩
  · exact ⟨[], performs_nil rfl⟩
  · exact ⟨[], performs_nil rfl⟩
  · exact exec_performs he

/-! ### Access counts -/

section
variable (pas : List Nat) (answers : List (Option Word)) (ws : List (Nat × Word))

theorem readCount_accessEvents :
    readCount (accessEvents pas answers ws).reverse = pas.length := by
  simp [readCount, accessEvents, List.countP_map, Function.comp_def]

theorem allocCount_accessEvents :
    allocCount (accessEvents pas answers ws).reverse = answers.length := by
  simp [allocCount, accessEvents, List.countP_map, Function.comp_def]

theorem writeCount_accessEvents :
    writeCount (accessEvents pas answers ws).reverse = ws.length := by
  simp [writeCount, accessEvents, List.countP_map, Function.comp_def]

theorem flushCount_accessEvents : flushCount (accessEvents pas answers ws).reverse = 0 := by
  simp [flushCount, accessEvents, List.countP_map, Function.comp_def]

end

/-- From an empty record, the counts are those of the command's row. -/
theorem State.Makes.counts {s t : State} {row : AccessRow} (h : s.Makes row t)
    (hp : s.ports = []) :
    readCount t.ports ≤ row.reads ∧ allocCount t.ports ≤ row.allocs ∧
      row.writes.Allows t (allocCount t.ports) (writeCount t.ports) ∧ flushCount t.ports = 0 := by
  obtain ⟨pas, answers, ws, hreads, hallocs, hwrites, -, hports⟩ := h
  rw [hp, List.append_nil] at hports
  rw [hports, readCount_accessEvents, allocCount_accessEvents, writeCount_accessEvents,
    flushCount_accessEvents]
  exact ⟨hreads, hallocs, hwrites, rfl⟩

theorem State.Makes.ports_eq_nil {s t : State} (h : s.Makes .silent t) (hp : s.ports = []) :
    t.ports = [] := by
  obtain ⟨pas, answers, ws, hreads, hallocs, hwrites, -, hports⟩ := h
  rw [hports, hp, List.eq_nil_of_length_eq_zero (Nat.le_zero.1 hreads),
    List.eq_nil_of_length_eq_zero (Nat.le_zero.1 hallocs), List.eq_nil_of_length_eq_zero hwrites]
  rfl

theorem accessRow_of_translatePage {i : Instr} {c : SizeClass} (hi : i = Instr.translatePage c) :
    accessRow i = .walking c 0 .never := by
  subst hi; cases c <;> rfl

theorem accessRow_of_updates {i : Instr} {c : SizeClass}
    (hi : i = Instr.unmap c ∨ i = Instr.updateFlags c) : accessRow i = .walking c 0 .once := by
  rcases hi with rfl | rfl <;> cases c <;> rfl

theorem accessRow_of_maps {i : Instr} {c : SizeClass}
    (hi : i = Instr.mapTo c ∨ i = Instr.identityMap c) :
    accessRow i = .walking c (4 - terminalLevel c) .tables := by
  rcases hi with rfl | rfl <;> cases c <;> rfl

/-- FLUSH_TOKEN is not among the commands whose row has reads. -/
theorem exec_makes_of_row {i : Instr} {s t : State} {row : AccessRow} (hi : accessRow i = row)
    (hpos : 0 < row.reads) (h : exec i s = .next t) : s.Makes row t := by
  subst hi
  refine exec_makes ?_ h
  rintro rfl
  exact absurd hpos (Nat.lt_irrefl 0)

section
variable {s t : State}

theorem counts_of_flushToken (hp : s.ports = []) (h : exec .flushToken s = .next t) :
    flushCount t.ports ≤ 1 ∧ readCount t.ports = 0 ∧ writeCount t.ports = 0 ∧
      allocCount t.ports = 0 := by
  obtain ⟨es, hes, -, hports⟩ := exec_flushToken_performs h
  rw [hports, hp]
  rcases hes with rfl | ⟨va, rfl⟩
  · exact ⟨Nat.zero_le 1, rfl, rfl, rfl⟩
  · exact ⟨Nat.le_refl 1, rfl, rfl, rfl⟩

theorem counts_of_reader {i : Instr} {bound : Nat} (hp : s.ports = [])
    (hi : accessRow i = ⟨bound, 0, .never⟩) (hpos : 0 < bound) (h : exec i s = .next t) :
    readCount t.ports ≤ bound ∧ writeCount t.ports = 0 ∧ allocCount t.ports = 0 := by
  obtain ⟨hreads, hallocs, hwrites, -⟩ := (exec_makes_of_row hi hpos h).counts hp
  exact ⟨hreads, hwrites, Nat.le_zero.1 hallocs⟩

end

/-- Settles O57: every command keeps to its row. -/
theorem accessCounts : Obligations.AccessCounts := by
  intro i s t hp h
  refine ⟨fun hi => ?_, ?_, fun hi => ?_, ?_, fun hi => ?_, fun c => ⟨fun hi => ?_, fun hi => ?_,
    fun hi => ?_⟩⟩
  · have hrow : accessRow i = .silent ∧ i ≠ .flushToken := by
      fin_cases hi <;> exact ⟨rfl, by decide⟩
    obtain ⟨hsilent, hflush⟩ := hrow
    exact (hsilent ▸ exec_makes hflush h).ports_eq_nil hp
  · rintro rfl
    exact counts_of_flushToken hp h
  · obtain ⟨-, -, -, hflush⟩ := (exec_makes hi h).counts hp
    exact hflush
  · rintro rfl
    exact counts_of_reader hp rfl Nat.one_pos h
  · have hrow : accessRow i = ⟨4, 0, .never⟩ := by rcases hi with rfl | rfl <;> rfl
    exact counts_of_reader hp hrow (by decide) h
  · exact counts_of_reader hp (accessRow_of_translatePage hi) (Nat.succ_pos _) h
  · obtain ⟨hreads, hallocs, hwrites, -⟩ :=
      (exec_makes_of_row (accessRow_of_updates hi) (Nat.succ_pos _) h).counts hp
    exact ⟨hreads, Nat.le_zero.1 hallocs, hwrites⟩
  · obtain ⟨hreads, hallocs, hwrites, -⟩ :=
      (exec_makes_of_row (accessRow_of_maps hi) (Nat.succ_pos _) h).counts hp
    exact ⟨hreads, hallocs, hwrites⟩

/-! ### Reset in mid-command -/

theorem replay_mem (s : State) (es : List PortEvent) :
    (s.replay es).mem = s.mem.writeAll (writesOf es) := by
  induction es generalizing s with
  | nil => rfl
  | cons e es ih =>
    rw [replay_cons, ih]
    cases e with
    | read pa => rfl
    | write pa v => rfl
    | alloc a => exact congrArg (Memory.writeAll · (writesOf es)) (takeAnswer_mem s)
    | flush va => rfl

theorem replay_frame (s : State) (es : List PortEvent) :
    (s.replay es).pending = s.pending ∧ (s.replay es).admitted = s.admitted ∧
      (s.replay es).coreXlat = s.coreXlat ∧ (s.replay es).hostData = s.hostData := by
  induction es generalizing s with
  | nil => exact ⟨rfl, rfl, rfl, rfl⟩
  | cons e es ih =>
    rw [replay_cons]
    cases e with
    | read pa => exact ih (s.log (.read pa))
    | write pa v => exact ih (s.storeWord pa v)
    | alloc a => simpa [State.replayEvent] using ih s.takeAnswer
    | flush va => exact ih (s.tlbFlush va)

/-- A replay records as many events as it is given; an allocator call is recorded with the answer it
gets, whatever the answer that was given. -/
theorem replay_ports_eq_append (s : State) (es : List PortEvent) :
    ∃ es', es'.length = es.length ∧ (s.replay es).ports = es' ++ s.ports := by
  induction es generalizing s with
  | nil => exact ⟨[], rfl, rfl⟩
  | cons e es ih =>
    obtain ⟨es', hlen, hports⟩ := ih (s.replayEvent e)
    obtain ⟨e', he⟩ : ∃ e', (s.replayEvent e).ports = e' :: s.ports := by
      cases e with
      | alloc a => exact ⟨_, congrArg State.ports (takeAnswer_eq s)⟩
      | read | write | flush => exact ⟨_, rfl⟩
    exact ⟨es' ++ [e'], by simp [hlen], by simp [hports, he]⟩

/-- Where a whole replay records the events it is given, so does its beginning. -/
theorem replay_ports_of_append {s : State} {es es' : List PortEvent}
    (h : (s.replay (es ++ es')).ports = (es ++ es').reverse ++ s.ports) :
    (s.replay es).ports = es.reverse ++ s.ports := by
  obtain ⟨later, hlen, hports⟩ := replay_ports_eq_append (s.replay es) es'
  rw [replay_append, hports, List.reverse_append, List.append_assoc] at h
  exact (List.append_inj h (by simpa using hlen)).2

/-- From an empty record the port events are those recorded. -/
theorem State.Performs.eq_reverse {s t : State} {es : List PortEvent} (h : s.Performs t es)
    (hp : s.ports = []) : es = t.ports.reverse := by
  rw [h.2, hp, List.append_nil, List.reverse_reverse]

/-- The record of a command that is abandoned after `n` port events shows these. -/
theorem abandoned_ports {s u : State} {es : List PortEvent} (h : s.clearPorts.Performs u es)
    (n : Nat) : (s.abandoned (u.ports.reverse.take n)).ports = (u.ports.reverse.take n).reverse := by
  have hes := h.eq_reverse rfl
  obtain ⟨hplatform, hports⟩ := h
  have hall := (ports_eq_of_platform hplatform).symm.trans hports
  rw [hes, ← List.take_append_drop n u.ports.reverse] at hall
  exact (replay_ports_of_append hall).trans (List.append_nil _)

/-- A command that is abandoned after all its port events has done all it does to the platform. -/
theorem abandoned_platform {s u : State} {es : List PortEvent} (h : s.clearPorts.Performs u es)
    {n : Nat} (hn : u.ports.length ≤ n) :
    (s.abandoned (u.ports.reverse.take n)).platform = u.platform := by
  rw [List.take_of_length_le (by simpa using hn), ← h.eq_reverse rfl]
  exact h.1.symm

theorem resetDuring_of_issueWord {w : CommandWord} {s u : State}
    (h : issueWord w s.clearPorts = .next u) (n : Nat) :
    resetDuring w n s = .next (s.abandoned (u.ports.reverse.take n)) := by
  simp only [resetDuring, h]

theorem abandoned_frame (s : State) (es : List PortEvent) :
    (s.abandoned es).pending = s.pending ∧ (s.abandoned es).admitted = s.admitted ∧
      (s.abandoned es).coreXlat = s.coreXlat ∧ (s.abandoned es).hostData = s.hostData :=
  replay_frame s.clearPorts es

theorem abandoned_mem (s : State) (es : List PortEvent) :
    (s.abandoned es).mem = s.mem.writeAll (writesOf es) :=
  replay_mem s.clearPorts es

/-- Settles O7: the reset replays the first port events of the command, which its record shows. -/
theorem resetInMidCommand : Obligations.ResetInMidCommand := by
  intro s u w n rest hpending hu
  obtain ⟨es, hes⟩ :=
    issueWord_performs (s := ({ s with pending := rest } : State).clearPorts) hu
  obtain ⟨hpend, hadmitted, hxlat, hdata⟩ :=
    abandoned_frame { s with pending := rest } (u.ports.reverse.take n)
  refine ⟨_, (step_of_pending hpending).trans (resetDuring_of_issueWord hu n), abandoned_mem _ _,
    abandoned_ports hes n, fun hn => ?_, rfl, rfl, rfl, rfl, rfl, rfl, rfl, rfl, rfl, rfl, rfl, rfl,
    rfl, rfl, rfl, rfl, hpend, hadmitted, hxlat, hdata⟩
  obtain ⟨hmem, hqueue, hcalls, htlb, -⟩ := platform_eq_iff.1 (abandoned_platform hes hn)
  exact ⟨hmem, hqueue, hcalls, htlb⟩

end Sys2Proof.Machine
end
